-- ==== Sys2Proof/Word.lean ====
section
/-! DEFINITION. The widths the part's words have: bytes, 32-bit words, 64-bit values, 128-bit keys. -/

namespace Sys2Proof

/-- One byte of memory. -/
abbrev Byte := BitVec 8

/-- A word is 32 bits (spec/00, Conventions). -/
abbrev Word := BitVec 32

/-- A 64-bit value: an identity, a nonce, a code (R3, R5, R10). -/
abbrev Wide := BitVec 64

/-- A 128-bit key: a master key or a tag key (R9, R12, R89). The transport key, whose width the spec does not give, is taken to
have this width too (log 34). -/
abbrev Key := BitVec 128

end Sys2Proof
end

