-- ==== Sys2Proof/Syntax.lean ====
section
/-! DEFINITION. The commands of the block: one constructor per row of spec/opcode_table.json. -/

namespace Sys2Proof

/-- The two upstream ports (spec/00): the lane controller's and the radio sequencer's. -/
inductive Port where
  | c
  | r
deriving DecidableEq, Repr

/-- What an access names inside one word: the word, one half of it, or one byte (spec/00, Accesses).
A misaligned access cannot be written down. -/
inductive Size where
  | word
  | half (upper : Bool)
  | byte (index : Fin 4)
deriving DecidableEq, Repr

/-- An upstream access: a read, or a write of `data`. `word` is the word address, bits 21-2 of the byte address.
The data of a partial write stands in the low bits of `data`. -/
structure Access where
  write : Bool
  word : BitVec 20
  size : Size
  data : Word
deriving DecidableEq, Repr

/-- Which of two simultaneous things an event handles first, where the spec gives no order (log 11). -/
inductive Order where
  | cFirst
  | rFirst
deriving DecidableEq, Repr

/-- The commands, one per row of spec/opcode_table.json, in the table's order. -/
inductive Instr where
  /-- R15: an upstream access arrives on a port and is classified. -/
  | memoryAccess (port : Port) (access : Access)
  /-- R149: a C-port write at a word offset of the control block. -/
  | controlBlockWrite (offset : BitVec 14) (size : Size) (data : Word)
  /-- R24: the free memory port is granted. -/
  | arbiterGrant
  /-- R17: a pass-through word access completes. -/
  | wordAccessComplete
  /-- R49: an R-port read of an outbound code word arrives. -/
  | codeWordRead (word : BitVec 20) (size : Size)
  /-- R52: the held read's hold limit expires. -/
  | holdLimitExpiry
  /-- R26: the agent makes the head job current. -/
  | agentJobStart
  /-- R26: one of the agent's word accesses completes. -/
  | agentWordComplete
  /-- R128: the idle engine starts an operation. -/
  | engineStart
  /-- R48: a CODE completes. -/
  | codeComplete
  /-- R70: a DERIVE completes. -/
  | deriveComplete
  /-- R75: a VERIFY completes. -/
  | verifyComplete
  /-- R113: an UNWRAP completes. -/
  | unwrapComplete
  /-- R110: a C-port write to word `index` of the load window. -/
  | loadWindowWrite (index : Fin 16) (size : Size) (data : Word)
  /-- R152: the command word is written with code 01h. -/
  | setup (operand : BitVec 24)
  /-- R157: the command word is written with code 02h. -/
  | rest (operand : BitVec 24)
  /-- R158: the command word is written with code 03h; the operand is the lane. -/
  | laneRestart (operand : BitVec 24)
  /-- R159: the command word is written with code 04h; the operand is the new consumer index. -/
  | releaseReports (operand : BitVec 24)
  /-- R160: the command word is written with code 05h; the operand is the cause set. -/
  | clearAttention (operand : BitVec 24)
  /-- R150: the command word is written with another code. -/
  | unknownCommand (code : BitVec 8) (operand : BitVec 24)
  /-- R77: the running deadline of a context reaches zero. -/
  | deadlineExpiry (context : Fin 24)
  /-- R85: the oldest recent passage reaches the hold-off. -/
  | recentEntryExpiry
  /-- R167: the seconds clock rises. -/
  | secondsClockRise
  /-- R169: the wake ends; the held accesses are classified in the order given. -/
  | wakeEnd (order : Order)
  /-- R30: MREST is asserted; the two ports are served in the order given. -/
  | mrestAssert (order : Order)
  /-- R31: MREST is released. -/
  | mrestRelease
  /-- R170: PWARN is asserted; accesses held for a wake are classified in the order given. -/
  | pwarnAssert (order : Order)
  /-- R171: PWARN is released. -/
  | pwarnRelease
  /-- R172: PURGE is asserted. -/
  | purgeAssert
  /-- R122: PURGE is released. -/
  | purgeRelease
  /-- R173: the erase of the retained store ends. -/
  | eraseCompletion
  /-- R165: RESET is asserted; `cut` says that it falls while a load record's effect is being written (R105). -/
  | resetAssert (cut : Bool)
  /-- R165: RESET is released, or power comes up, with these straps. `purgeFirst` orders two lines found asserted,
  `order` the two ports' accesses that MREST refuses. -/
  | startUp (straps : BitVec 6) (purgeFirst : Bool) (order : Order)
  /-- R136: power is lost; `cut` as for RESET. -/
  | powerLoss (cut : Bool)
deriving DecidableEq, Repr

end Sys2Proof
end

