-- ==== Sys2Proof/Config.lean ====
section
/-! DEFINITION. What is fixed in the part and not described by the spec (opaque), the fixed store's given values,
and the free values. Nothing can be proved of an opaque constant's value. -/

namespace Sys2Proof

/-- The passage record of a CHALLENGE: four words the part codes without reading their meaning (R7). -/
structure PassageRecord where
  w0 : Word
  w1 : Word
  w2 : Word
  w3 : Word
deriving DecidableEq, Repr

/-- R174: the vendor code of the fixed store. -/
def Config.vendorCode : BitVec 16 := 0x0A61#16

/-- R174: the part code of the fixed store. -/
def Config.partCode : BitVec 16 := 0x0C08#16

/-- R174: the revision of the fixed store. -/
def Config.revision : BitVec 8 := 0x01#8

/-- R174: the unit serial, different on every part. -/
opaque Config.unitSerial : Wide

/-- R174: the transport key, different on every part. That it has 128 bits is the model's choice (log 34). -/
opaque Config.transportKey : Key

/-- R9: DERIVE, from master key, identity, generation. -/
opaque Config.deriveTagKey (master : Key) (identity : Wide) (generation : BitVec 8) : Key

/-- R10: CODE, from tag key, identity, tag nonce, reader nonce, passage record. -/
opaque Config.challengeCode (tagKey : Key) (identity tagNonce readerNonce : Wide) (record : PassageRecord) : Wide

/-- R11: the confirm check, from tag key, identity, reader nonce, passage record, confirm counter. -/
opaque Config.expectedTagCode (tagKey : Key) (identity readerNonce : Wide) (record : PassageRecord) (counter : Word) : Wide

/-- R12: the key UNWRAP produces, from transport key and load record words 0-13. -/
opaque Config.unwrapKey (transport : Key) (words : List Word) : Key

/-- R12: the value UNWRAP computes over words 0-13, with which the check words 14 and 15 must agree. -/
opaque Config.unwrapCheck (transport : Key) (words : List Word) : Wide

/-- R17: the bytes a write that failed in flight leaves; the argument makes each one fresh (log 10). -/
opaque Config.freeByte : Nat → Byte

/-- R136: what frame memory holds after a loss of power (log 9). -/
opaque Config.memoryAfterPowerLoss : Nat → List Host.Cell

end Sys2Proof
end

