-- ==== Sys2Proof/Machine/Table.lean ====
section
/-! DEFINITION. A fixed number of like things (lanes, slots, contexts, key entries): a list whose length is its type's. -/

namespace Sys2Proof.Machine

/-- `n` cells, numbered from 0. -/
structure Table (n : Nat) (α : Type) where
  cells : List α
  size : cells.length = n
deriving DecidableEq, Repr

namespace Table

variable {n : Nat} {α β : Type}

/-- Every cell holds `a`. -/
def fill (n : Nat) (a : α) : Table n α := ⟨List.replicate n a, List.length_replicate⟩

/-- Cell `i`. -/
def get (t : Table n α) (i : Fin n) : α := t.cells[i.val]'(t.size.symm ▸ i.isLt)

/-- Cell `i` replaced, every other kept. -/
def set (t : Table n α) (i : Fin n) (a : α) : Table n α := ⟨t.cells.set i.val a, (List.length_set ..).trans t.size⟩

/-- Every cell through `f`. -/
def map (f : α → β) (t : Table n α) : Table n β := ⟨t.cells.map f, (List.length_map ..).trans t.size⟩

/-- The number of cells that satisfy `p`. -/
def count (p : α → Bool) (t : Table n α) : Nat := t.cells.countP p

/-- Some cell satisfies `p`. -/
def any (p : α → Bool) (t : Table n α) : Bool := t.cells.any p

/-- The lowest index whose cell satisfies `p`. -/
def first (p : α → Bool) (t : Table n α) : Option (Fin n) := (List.finRange n).find? fun i => p (t.get i)

/-- `s` through `f` for every index, in ascending order. -/
def ascending {σ : Type} (n : Nat) (f : Fin n → σ → σ) (s : σ) : σ := (List.finRange n).foldl (fun s i => f i s) s

end Table

end Sys2Proof.Machine
end

