-- ==== Sys2Proof/Machine/State.lean ====
section
/-! DEFINITION. The state of the part as plain data, block by block as the spec names the owners, and the state after
reset. -/

namespace Sys2Proof.Machine

/-! ## Part controller (spec/10) -/

/-- R164: the part state. -/
inductive PartState where
  | unset
  | running
  | dormant
  | halted
  | purging
deriving DecidableEq, Repr

/-- R165, R136: whether the part operates, RESET is asserted, or there is no power. -/
inductive Power where
  | on
  | inReset
  | off
deriving DecidableEq, Repr

/-- R169: `awake` belongs to DORMANT; a wake goes on to its end when a write makes the part RUNNING meanwhile (log 33). -/
inductive Wake where
  | asleep
  | waking
  | awake
deriving DecidableEq, Repr

/-- R174: the input lines PWARN, MREST and PURGE, asserted or not. -/
structure Lines where
  pwarn : Bool
  mrest : Bool
  purge : Bool
deriving DecidableEq, Repr

/-- R164 to R174: what the part controller holds. The seconds clock is absent while it is unset (R167); `millis` counts
the milliseconds since it was set or last rose. -/
structure Controller where
  state : PartState
  setupPresent : Bool
  power : Power
  wake : Wake
  purgeAtWake : Bool
  fromHalted : Bool
  straps : BitVec 6
  time : Word
  seconds : Option Word
  millis : Nat
  lines : Lines
deriving DecidableEq, Repr

/-! ## Path monitor, ports and arbiter (spec/02) -/

/-- R22: the refusal kinds. -/
inductive RefusalKind where
  | wrongPort
  | lockedSlot
  | overrun
  | partialWrite
  | codeField
  | readOnly
  | loadBusy
  | memoryResting
  | state
deriving DecidableEq, Repr

/-- R23: the refusal record and count. -/
structure Path where
  count : Word
  port : Option Port
  kind : Option RefusalKind
  address : BitVec 22
deriving DecidableEq, Repr

/-- R32: the two rings of a lane. -/
inductive Ring where
  | inbound
  | outbound
deriving DecidableEq, Repr

/-- R33: a slot of one of a lane's rings, by lane and index. -/
structure SlotRef where
  lane : Fin 8
  index : Fin 16
deriving DecidableEq, Repr

/-- R33: the word of a slot that an address falls in. -/
structure SlotWord where
  ring : Ring
  slot : SlotRef
  word : Nat
deriving DecidableEq, Repr

/-- R34: the names of the slot states of both rings. -/
inductive SlotState where
  | free
  | filling
  | composing
  | closed
  | fetching
  | reportWait
  | waitingKey
  | coding
  | armed
  | spoiled
  | draining
deriving DecidableEq, Repr

/-- R18: a tracked write that the slot tracker permitted at its grant, with the state it was judged in. -/
structure Judged where
  target : SlotWord
  state : SlotState
deriving DecidableEq, Repr

/-- R16: where an outstanding access stands. A tracked write carries the slot word it was found at. -/
inductive Phase where
  | wake
  | waiting (track : Option SlotWord)
  | inFlight (track : Option Judged)
  | codeHeld
deriving DecidableEq, Repr

/-- An access that has not been answered. `sinceWake` marks the watched accesses that R169 counts: held or arrived since
the last wake began. -/
structure Outstanding where
  access : Access
  phase : Phase
  sinceWake : Bool
deriving DecidableEq, Repr

/-- R16: how an access ends: done, with the data of a read, or the bus error response. -/
inductive Response where
  | done (data : Option Word)
  | error
deriving DecidableEq, Repr

/-- R15: a port has at most one access outstanding. `response` is the last response given (log 22). -/
structure PortState where
  access : Option Outstanding
  response : Option Response
deriving DecidableEq, Repr

/-- The two upstream ports. -/
structure Ports where
  c : PortState
  r : PortState
deriving DecidableEq, Repr

/-- R26: a word access of the agent. `live` is off when its job was abandoned with the word in flight (R28, R29). -/
structure AgentAccess where
  word : BitVec 20
  write : Option Word
  live : Bool
deriving DecidableEq, Repr

/-- R24: what occupies the memory port. -/
inductive InFlight where
  | port (p : Port)
  | agent (a : AgentAccess)
deriving DecidableEq, Repr

/-- R25: the agent's jobs. A WRITE_REPORT carries its record and the word address it goes to. -/
inductive Job where
  | fetchFrame (ring : Ring) (slot : SlotRef)
  | fetchSetup
  | writeReport (place : BitVec 20) (record : List Word)
deriving DecidableEq, Repr

/-- R25, R26: the agent job list, the current job's word position (the head is current when it is present) and the frame
buffer, holding the words read so far in address order. -/
structure Agent where
  jobs : List Job
  position : Option Nat
  buffer : List Word
deriving DecidableEq, Repr

/-! ## Reports (spec/01 R13, spec/08) -/

/-- R13: the PASSAGE codes. -/
inductive PassageCode where
  | paid
  | servicePass
  | badCounter
  | badCode
  | late
  | keyRevoked
  | abandoned
  | purged
deriving DecidableEq, Repr

/-- R13: the DECLINED codes. -/
inductive DeclineCode where
  | repeated
  | foreign
  | tagExhausted
  | noKey
  | keyNotYet
  | keyExpired
  | keyRevoked
  | noContext
deriving DecidableEq, Repr

/-- R13: the NOTICE codes. -/
inductive NoticeCode where
  | malformed
  | noTransaction
  | wrongLane
  | closedTransaction
  | busyTransaction
  | tooMany
  | strayConfirm
  | superseded
  | underrun
deriving DecidableEq, Repr

/-- R13: class and code of a report. -/
inductive Ending where
  | passage (code : PassageCode)
  | declined (code : DeclineCode)
  | notice (code : NoticeCode)
deriving DecidableEq, Repr

/-- R140: the context fields of a PASSAGE report. -/
structure PassageFields where
  attemptsSent : Nat
  hearings : Nat
  lanes : BitVec 8
deriving DecidableEq, Repr

/-- R140: the content of a report; an absent field is one R140 gives as none. -/
structure Report where
  ending : Ending
  lane : Fin 8
  slotIndex : Option (Fin 16)
  context : Option (Fin 24)
  passage : Option PassageFields
  identity : Option Wide
  label : Option (BitVec 16 × BitVec 8)
  keyIndex : Option (Fin 48)
  time : Word
  tagCounter : Option Word
deriving DecidableEq, Repr

/-- R139: a holder on the pending holder list. -/
inductive ReportHolder where
  | context (c : Fin 24)
  | inbound (slot : SlotRef)
  | outbound (slot : SlotRef)
deriving DecidableEq, Repr

/-- R141, R142: whether a report write is in progress, and whether its entry is still the head of the pending list. -/
inductive WriteState where
  | idle
  | writing
  | orphan
deriving DecidableEq, Repr

/-- R137 to R143: what the report writer holds. -/
structure Reports where
  producer : Nat
  consumer : Nat
  sequence : Word
  waiting : List ReportHolder
  write : WriteState
deriving DecidableEq, Repr

/-! ## Slot tracker (spec/03) -/

/-- R1: the latched header; the sequencer byte is ignored. -/
structure Header where
  kind : BitVec 8
  length : BitVec 8
  form : BitVec 8
deriving DecidableEq, Repr

/-- R34, R37 to R41: an inbound slot record. -/
inductive InSlot where
  | free
  | filling (header : Header) (count : Nat)
  | closed (header : Header)
  | fetching (header : Header)
  | reportWait (header : Header) (report : Report)
deriving DecidableEq, Repr

/-- R34, R42 to R56: the state of an outbound slot with the fields the record holds in it. -/
inductive OutState where
  | free
  | composing (header : Header) (count : Nat)
  | closed (header : Header)
  | fetching (header : Header)
  | waitingKey (header : Header) (context : Fin 24)
  | coding (header : Header) (context : Fin 24)
  | armed (header : Header) (context : Fin 24) (code : Wide)
  | spoiled (header : Header) (report : Option Report)
  | draining (header : Header)
deriving DecidableEq, Repr

/-- R34: an outbound slot record. The code position outlives the frame (R49); the engine mark outlives the state
(R47). -/
structure OutSlot where
  state : OutState
  codePosition : Option Nat
  mark : Bool
deriving DecidableEq, Repr

/-- R34, R51: the one held code-word read: its slot, whether it reads the high code word, the millisecond its hold began
in and the hold limit it runs under, in microseconds. -/
structure HeldRead where
  slot : SlotRef
  high : Bool
  began : Word
  limit : Nat
deriving DecidableEq, Repr

/-- R34, R52: one lane's slot records and underrun count. -/
structure LaneSlots where
  inbound : Table 16 InSlot
  outbound : Table 16 OutSlot
  underruns : BitVec 16
deriving DecidableEq, Repr

/-- R34: the slot tracker. -/
structure Slots where
  lanes : Table 8 LaneSlots
  held : Option HeldRead
deriving DecidableEq, Repr

/-! ## Context table (spec/04) -/

/-- R60: the states of an open context. -/
inductive ContextState where
  | derivingKey
  | keyed
  | challenging
  | awaiting
  | verifying
  | closing
  | reporting
deriving DecidableEq, Repr

/-- R69: an attempt; it is sent once it has a send time. -/
structure Attempt where
  nonce : Wide
  record : PassageRecord
  sentAt : Option Word
deriving DecidableEq, Repr

/-- R74: the pending confirm data; `matched` is the matched attempt's place on the attempt list. -/
structure ConfirmData where
  echo : Wide
  counter : Word
  tagCode : Wide
  matched : Nat
deriving DecidableEq, Repr

/-- R59: an open context. -/
structure Context where
  state : ContextState
  homeLane : Fin 8
  lanes : BitVec 8
  identity : Wide
  issuer : BitVec 16
  generation : BitVec 8
  keyLink : Option (Fin 48)
  tagKey : Option Key
  tagNonce : Wide
  announceCounter : Word
  hearings : Nat
  bound : Option SlotRef
  attempts : List Attempt
  accepted : Nat
  confirm : Option ConfirmData
  deadline : Nat
  running : Bool
  mark : Bool
  outcome : Option (PassageCode × Word)
deriving DecidableEq, Repr

/-- R84: an entry of the recent passage list. -/
structure RecentEntry where
  identity : Wide
  time : Word
deriving DecidableEq, Repr

/-- R59, R84, R88: the context table (an absent context is FREE), the recent passage list, oldest first, and the abandoned
count. -/
structure Contexts where
  table : Table 24 (Option Context)
  recent : List RecentEntry
  abandoned : Word
deriving DecidableEq, Repr

/-! ## Key table and load unit (spec/05, spec/06) -/

/-- R89: the states of a key entry. -/
inductive KeyState where
  | empty
  | waiting
  | live
  | expired
  | revoked
deriving DecidableEq, Repr

/-- R89: a key entry. -/
structure KeyEntry where
  state : KeyState
  issuer : BitVec 16
  generation : BitVec 8
  validFrom : Word
  validUntil : Word
  key : Option Key
  installSerial : BitVec 16
  references : Nat
deriving DecidableEq, Repr

/-- R105: what the retained store held before the last load record's effect, for a write that RESET or a loss of power
cuts short. -/
structure RetainedWrite where
  index : Fin 48
  before : KeyEntry
  serialBefore : Word
deriving DecidableEq, Repr

/-- R89, R103, R172: the key table and the rest of the retained store. `unerased` is what an erase in progress has not yet
overwritten (R122). -/
structure Keys where
  entries : Table 48 KeyEntry
  highestSerial : Word
  eraseMark : Bool
  unerased : Option (Table 48 KeyEntry)
  lastWrite : Option RetainedWrite
deriving DecidableEq, Repr

/-- R109: the states of the load unit. -/
inductive LoadState where
  | idle
  | filling
  | unwrapping
deriving DecidableEq, Repr

/-- R119: the load outcomes. -/
inductive LoadOutcome where
  | none
  | ok
  | badCheck
  | badRecord
  | stale
  | badWindow
  | duplicate
  | tableFull
  | notFound
deriving DecidableEq, Repr

/-- R119: the load result word's fields. -/
structure LoadResult where
  serial : BitVec 16
  outcome : LoadOutcome
  index : Option (Fin 48)
deriving DecidableEq, Repr

/-- R109, R111: the load unit. -/
structure Load where
  state : LoadState
  buffer : Table 16 Word
  fill : Nat
  mark : Bool
  result : LoadResult
deriving DecidableEq, Repr

/-! ## Code engine (spec/07) -/

/-- R124: a pending operation, named by its holder. -/
inductive Holder where
  | code (slot : SlotRef)
  | verify (context : Fin 24)
  | derive (context : Fin 24)
  | unwrap
deriving DecidableEq, Repr

/-- R125, R128: the operation in progress: its kind, its holder and the inputs copied at its start. -/
inductive Operation where
  | code (slot : SlotRef) (tagKey : Key) (identity tagNonce readerNonce : Wide) (record : PassageRecord)
  | verify (context : Fin 24) (tagKey : Key) (identity readerNonce : Wide) (record : PassageRecord) (counter : Word) (tagCode : Wide)
  | derive (context : Fin 24) (master : Key) (identity : Wide) (generation : BitVec 8)
  | unwrap (transport : Key) (words : List Word) (check : Wide)
deriving DecidableEq, Repr

/-- R125, R126: the code engine, idle when it has no operation, and the ready list, oldest first. -/
structure Engine where
  operation : Option Operation
  ready : List Holder
deriving DecidableEq, Repr

/-! ## Control block decoder and applied setup (spec/09) -/

/-- R151: the command outcomes. -/
inductive CommandOutcome where
  | none
  | pending
  | done
  | busy
  | state
  | badOperand
  | badImage
deriving DecidableEq, Repr

/-- R151: the command result word's fields. -/
structure CommandResult where
  code : BitVec 8
  outcome : CommandOutcome
  detail : BitVec 8
deriving DecidableEq, Repr

/-- R151, R152, R162: the control block decoder. `raised` holds the causes in cause order; REPORTS is never stored, it
follows P and C (R148). -/
structure Control where
  result : CommandResult
  setupRunning : Bool
  raised : BitVec 7
deriving DecidableEq, Repr

/-- R32: a lane descriptor. -/
structure Lane where
  enable : Bool
  slotWords : Nat
  inBase : Nat
  inCount : Nat
  outBase : Nat
  outCount : Nat
  holdLimit : Nat
  deadline : Nat
deriving DecidableEq, Repr

/-- R100: an issuer filter. -/
structure Filter where
  enable : Bool
  code : BitVec 16
  maskWidth : Nat
deriving DecidableEq, Repr

/-- R155: the setup in force. -/
structure Setup where
  lanes : Table 8 Lane
  filters : Table 8 Filter
  service : Bool
  holdOff : Nat
  ringOffset : Nat
  capacity : Nat
  enables : BitVec 7
deriving DecidableEq, Repr

/-! ## The machine -/

/-- Frame memory: the listed bytes, in the canonical form of Memory.wf (log 8). -/
abbrev Memory := List Host.Cell

/-- The state of the part and of the frame memory behind it. `fresh` is the model's own counter for free values (log 10);
`pending` is the queue of commands waiting, first in, first out. -/
structure State where
  controller : Controller
  path : Path
  ports : Ports
  arbiter : Option InFlight
  agent : Agent
  slots : Slots
  contexts : Contexts
  keys : Keys
  load : Load
  engine : Engine
  reports : Reports
  control : Control
  setup : Setup
  mem : Memory
  fresh : Nat
  pending : List Instr
deriving DecidableEq, Repr

/-- The part has no event that stops it: no step raises a fault. -/
inductive Fault
deriving DecidableEq, Repr

/-- Refusals of the model. -/
inductive Refusal where
  /-- Raised by exec's arm of a command that has no meaning yet. Safe: it stops. No arm raises it. -/
  | notModelled (mnemonic : String)
deriving DecidableEq, Repr

/-! ## Reset values -/

/-- R174: no line asserted (log 17). -/
def Lines.released : Lines := ⟨false, false, false⟩

/-- R165: the part controller right after start-up, with the sampled straps and the lines as they stand. -/
def Controller.reset (straps : BitVec 6) (lines : Lines) : Controller where
  state := .unset
  setupPresent := false
  power := .on
  wake := .asleep
  purgeAtWake := false
  fromHalted := false
  straps := straps
  time := 0
  seconds := none
  millis := 0
  lines := lines

/-- R23: no refusal. -/
def Path.reset : Path := ⟨0, none, none, 0⟩

/-- No access outstanding (log 17), no response given (log 22). -/
def Ports.reset : Ports := ⟨⟨none, none⟩, ⟨none, none⟩⟩

/-- R25: the agent job list is empty. The spec gives the frame buffer no value after RESET; it is empty here, as between jobs
(log 36). -/
def Agent.reset : Agent := ⟨[], none, []⟩

/-- R34: a FREE outbound slot with no code position and no mark. -/
def OutSlot.reset : OutSlot := ⟨.free, none, false⟩

/-- R34, R52: a lane's records after RESET. -/
def LaneSlots.reset : LaneSlots := ⟨Table.fill 16 .free, Table.fill 16 OutSlot.reset, 0⟩

/-- R34: every record FREE, no held read. -/
def Slots.reset : Slots := ⟨Table.fill 8 LaneSlots.reset, none⟩

/-- R59, R84, R88: every context FREE, the recent passage list empty. -/
def Contexts.reset : Contexts := ⟨Table.fill 24 none, [], 0⟩

/-- R89: an EMPTY entry; every field is zero. -/
def KeyEntry.empty : KeyEntry := ⟨.empty, 0, 0, 0, 0, none, 0, 0⟩

/-- R103: a retained store that has never been written. -/
def Keys.blank : Keys := ⟨Table.fill 48 KeyEntry.empty, 0, false, none, none⟩

/-- R119: the load result word after RESET. -/
def LoadResult.reset : LoadResult := ⟨0, .none, none⟩

/-- R109: the load unit after RESET. -/
def Load.reset : Load := ⟨.idle, Table.fill 16 0, 0, false, LoadResult.reset⟩

/-- R125: the engine is idle and the ready list empty. -/
def Engine.reset : Engine := ⟨none, []⟩

/-- R138, R143, R139: P, C and the sequence count are 0 and the pending list is empty. -/
def Reports.reset : Reports := ⟨0, 0, 0, [], .idle⟩

/-- R151, R162: code 00h, NONE, detail 0; no cause pending. -/
def Control.reset : Control := ⟨⟨0, .none, 0⟩, false, 0⟩

/-- R32: a lane before any setup behaves as disabled (log 18). -/
def Lane.reset : Lane := ⟨false, 0, 0, 0, 0, 0, 0, 0⟩

/-- R100: a filter after RESET. -/
def Filter.reset : Filter := ⟨false, 0, 0⟩

/-- R32, R100, R137, R163: before any setup (log 18). -/
def Setup.reset : Setup where
  lanes := Table.fill 8 Lane.reset
  filters := Table.fill 8 Filter.reset
  service := false
  holdOff := 0
  ringOffset := 0
  capacity := 0
  enables := 0

/-- The machine right after reset: start-up (R165) of a part whose retained store has never been written, no line
asserted, straps 0 (log 17), memory with nothing listed. -/
def State.reset : State where
  controller := Controller.reset 0 Lines.released
  path := Path.reset
  ports := Ports.reset
  arbiter := none
  agent := Agent.reset
  slots := Slots.reset
  contexts := Contexts.reset
  keys := Keys.blank
  load := Load.reset
  engine := Engine.reset
  reports := Reports.reset
  control := Control.reset
  setup := Setup.reset
  mem := []
  fresh := 0
  pending := []

end Sys2Proof.Machine
end

