-- ==== Sys2Proof/Machine/Ops.lean ====
section
/-! DEFINITION. The named operations over memory and over the registers of State: every read and write of them goes
through here. -/

namespace Sys2Proof

/-! ## Bits and words -/

/-- The 64-bit value whose low half is the lower-addressed word (R2, R175). -/
def Wide.ofWords (low high : Word) : Wide := high ++ low

/-- Bits 31-0 of a 64-bit value. -/
def Wide.low (v : Wide) : Word := v.extractLsb' 0 32

/-- Bits 63-32 of a 64-bit value. -/
def Wide.high (v : Wide) : Word := v.extractLsb' 32 32

/-- The field of `w` that starts at bit `start` and is `width` bits wide, as a number. -/
def Word.field (w : Word) (start width : Nat) : Nat := (w.extractLsb' start width).toNat

/-- Byte `i` of a word: byte 0 holds bits 7-0 (R175). -/
def Word.byte (w : Word) (i : Nat) : Byte := w.extractLsb' (8 * i) 8

/-- The number of bytes an access names. -/
def Size.bytes (size : Size) : Nat :=
  match size with
  | .word => 4
  | .half _ => 2
  | .byte _ => 1

/-- The place in its word of the first byte an access names. -/
def Size.offset (size : Size) : Nat :=
  match size with
  | .word => 0
  | .half upper => if upper then 2 else 0
  | .byte index => index.val

/-- The addressed part of a word, in the low bits (R20, R175; log 1). -/
def Size.extract (size : Size) (w : Word) : Word :=
  match size with
  | .word => w
  | .half upper => (w.extractLsb' (if upper then 16 else 0) 16).setWidth 32
  | .byte index => (w.extractLsb' (8 * index.val) 8).setWidth 32

/-- The byte address of an access (R23). -/
def Access.address (a : Access) : BitVec 22 := BitVec.ofNat 22 (4 * a.word.toNat + a.size.offset)

namespace Machine

/-! ## Frame memory -/

/-- What a byte that nothing has written reads as (log 8). -/
def Memory.unwritten : Byte := 0

/-- The number of bytes of the address space (spec/00, Addresses). -/
def Memory.bytes : Nat := 4194304

/-- The canonical form: addresses inside the address space and strictly rising, no entry equal to an unlisted byte. -/
abbrev Memory.wf (m : Memory) : Prop :=
  List.Pairwise (fun x y : Host.Cell => x.1 < y.1) m ∧ ∀ c ∈ m, c.1 < Memory.bytes ∧ c.2 ≠ Memory.unwritten

/-- The byte at an address. -/
def Memory.read : Memory → Nat → Byte
  | [], _ => Memory.unwritten
  | c :: m, a => if c.1 = a then c.2 else Memory.read m a

/-- A memory with a new lowest entry, unless the byte is the unlisted value. -/
def Memory.cons (a : Nat) (v : Byte) (m : Memory) : Memory := if v = Memory.unwritten then m else (a, v) :: m

/-- The memory with the byte at an address replaced. -/
def Memory.write : Memory → Nat → Byte → Memory
  | [], a, v => Memory.cons a v []
  | c :: m, a, v =>
    if a < c.1 then Memory.cons a v (c :: m)
    else if a = c.1 then Memory.cons a v m
    else c :: Memory.write m a v

/-- The byte address of byte `i` of a word. -/
def byteAddress (word : BitVec 20) (i : Nat) : Nat := 4 * word.toNat + i

/-- A word of memory, little-endian (R175). -/
def Memory.readWord (m : Memory) (word : BitVec 20) : Word :=
  m.read (byteAddress word 3) ++ m.read (byteAddress word 2) ++ m.read (byteAddress word 1) ++ m.read (byteAddress word 0)

/-- `n` bytes written from byte `at_` of a word, byte `i` of them given by `f i`. -/
def Memory.writeBytes (m : Memory) (word : BitVec 20) (at_ n : Nat) (f : Nat → Byte) : Memory :=
  (List.range n).foldl (fun m i => m.write (byteAddress word (at_ + i)) (f i)) m

/-- The write of an access: only the bytes it names change (R17). -/
def Memory.store (m : Memory) (word : BitVec 20) (size : Size) (data : Word) : Memory :=
  m.writeBytes word size.offset size.bytes fun i => data.byte i

/-- The canonical memory of any list of cells: what frame memory holds after a loss of power (log 9). -/
def Memory.ofCells (cells : List Host.Cell) : Memory :=
  cells.foldl (fun m c => m.write (c.1 % Memory.bytes) c.2) []

/-- The bytes an access names hold unspecified values (R17, log 10). -/
def State.spoilMemory (word : BitVec 20) (size : Size) (s : State) : State :=
  { s with
    mem := s.mem.writeBytes word size.offset size.bytes fun i => Config.freeByte (s.fresh + i)
    fresh := s.fresh + size.bytes }

/-! ## Ports and responses -/

/-- The state of a port. -/
def State.port (s : State) (p : Port) : PortState :=
  match p with
  | .c => s.ports.c
  | .r => s.ports.r

/-- A port's state replaced. -/
def State.setPort (p : Port) (x : PortState) (s : State) : State :=
  match p with
  | .c => { s with ports := { s.ports with c := x } }
  | .r => { s with ports := { s.ports with r := x } }

/-- The port's access is outstanding in a phase (R16). -/
def State.hold (p : Port) (o : Outstanding) (s : State) : State :=
  s.setPort p { s.port p with access := some o }

/-- The port's access ends with a response (R16). -/
def State.respond (p : Port) (r : Response) (s : State) : State :=
  s.setPort p ⟨none, some r⟩

/-- A read ends with the addressed part of a word (R20). -/
def State.supply (p : Port) (size : Size) (w : Word) (s : State) : State :=
  s.respond p (.done (some (size.extract w)))

/-! ## Clocks, causes, refusals -/

/-- The seven attention causes, in cause order (R162, Formats). -/
inductive Cause where
  | reports
  | command
  | load
  | refusal
  | keytime
  | power
  | purge
deriving DecidableEq, Repr

/-- The bit of a cause in a set of causes (Formats, Cause order). -/
def Cause.bit (c : Cause) : BitVec 7 :=
  match c with
  | .reports => 1
  | .command => 2
  | .load => 4
  | .refusal => 8
  | .keytime => 16
  | .power => 32
  | .purge => 64

/-- A cause becomes pending (R162). -/
def State.raise (c : Cause) (s : State) : State :=
  { s with control := { s.control with raised := s.control.raised ||| c.bit } }

/-- The refusal record, the refusal count and the REFUSAL cause of one refusal (R23). -/
def State.recordRefusal (p : Port) (kind : RefusalKind) (address : BitVec 22) (s : State) : State :=
  { s with path := ⟨s.path.count + 1, some p, some kind, address⟩ }.raise .refusal

/-- A refused access is answered error (R21, R23). -/
def State.refuse (p : Port) (kind : RefusalKind) (address : BitVec 22) (s : State) : State :=
  (s.recordRefusal p kind address).respond p .error

/-! ## Slots and contexts -/

/-- An inbound slot record. -/
def State.inSlot (s : State) (r : SlotRef) : InSlot := (s.slots.lanes.get r.lane).inbound.get r.index

/-- An outbound slot record. -/
def State.outSlot (s : State) (r : SlotRef) : OutSlot := (s.slots.lanes.get r.lane).outbound.get r.index

/-- A lane's slot records replaced. -/
def State.setLane (n : Fin 8) (x : LaneSlots) (s : State) : State :=
  { s with slots := { s.slots with lanes := s.slots.lanes.set n x } }

/-- An inbound slot record replaced. -/
def State.setInSlot (r : SlotRef) (x : InSlot) (s : State) : State :=
  s.setLane r.lane { s.slots.lanes.get r.lane with inbound := (s.slots.lanes.get r.lane).inbound.set r.index x }

/-- An outbound slot record replaced. -/
def State.setOutSlot (r : SlotRef) (x : OutSlot) (s : State) : State :=
  s.setLane r.lane { s.slots.lanes.get r.lane with outbound := (s.slots.lanes.get r.lane).outbound.set r.index x }

/-- Every slot record of every lane through these. -/
def State.mapSlots (f : InSlot → InSlot) (g : OutSlot → OutSlot) (s : State) : State :=
  { s with slots := { s.slots with
      lanes := s.slots.lanes.map fun l => { l with inbound := l.inbound.map f, outbound := l.outbound.map g } } }

/-- What occupies the memory port replaced (R24). -/
def State.setArbiter (x : Option InFlight) (s : State) : State := { s with arbiter := x }

/-- The memory agent replaced (R25). -/
def State.setAgent (x : Agent) (s : State) : State := { s with agent := x }

/-- The wake phase replaced (R169). -/
def State.setWake (w : Wake) (s : State) : State := { s with controller := { s.controller with wake := w } }

/-- The held code-word read replaced (R51). -/
def State.setHeld (x : Option HeldRead) (s : State) : State := { s with slots := { s.slots with held := x } }

/-- The load unit replaced (R109). -/
def State.setLoad (x : Load) (s : State) : State := { s with load := x }

/-- A context: absent when it is FREE. -/
def State.context (s : State) (c : Fin 24) : Option Context := s.contexts.table.get c

/-- A context replaced. -/
def State.setContext (c : Fin 24) (x : Option Context) (s : State) : State :=
  { s with contexts := { s.contexts with table := s.contexts.table.set c x } }

/-- An open context changed; a FREE one is left FREE. -/
def State.modifyContext (c : Fin 24) (f : Context → Context) (s : State) : State :=
  s.setContext c ((s.context c).map f)

/-- The context outside FREE that holds an identity (R62, R67, R73). -/
def State.findContext (s : State) (identity : Wide) : Option (Fin 24) :=
  s.contexts.table.first fun c =>
    match c with
    | some x => x.identity == identity
    | none => false

/-- A key entry replaced. -/
def State.setEntry (k : Fin 48) (e : KeyEntry) (s : State) : State :=
  { s with keys := { s.keys with entries := s.keys.entries.set k e } }

end Machine

end Sys2Proof
end

