-- ==== Sys2Proof/Machine/Operands.lean ====
section
/-! DEFINITION. What addresses and words denote: the match map, the areas of the control block, the words of a slot, the
fields of frames, load records, setup words and the command word. -/

namespace Sys2Proof.Machine

/-! ## Addresses -/

/-- R14: in which part states the rings of enabled lanes are watched. -/
def PartState.watches (p : PartState) : Bool :=
  match p with
  | .unset => false
  | .running => true
  | .dormant => true
  | .halted => false
  | .purging => true

/-- R14, R33: the word of a lane's ring that a word address falls in; none for a disabled lane. -/
def Lane.find (l : Lane) (n : Fin 8) (w : Nat) : Option SlotWord :=
  if l.enable then
    if l.inBase / 4 ≤ w ∧ w < l.inBase / 4 + l.inCount * l.slotWords then
      some ⟨.inbound, ⟨n, Fin.ofNat 16 ((w - l.inBase / 4) / l.slotWords)⟩, (w - l.inBase / 4) % l.slotWords⟩
    else if l.outBase / 4 ≤ w ∧ w < l.outBase / 4 + l.outCount * l.slotWords then
      some ⟨.outbound, ⟨n, Fin.ofNat 16 ((w - l.outBase / 4) / l.slotWords)⟩, (w - l.outBase / 4) % l.slotWords⟩
    else none
  else none

/-- R14, R33, R35: the slot word a word address falls in, if it lies in a watched ring of an operating part. -/
def State.slotAt (s : State) (word : BitVec 20) : Option SlotWord :=
  if s.controller.power = .on ∧ s.controller.state.watches then
    (List.finRange 8).findSome? fun n => (s.setup.lanes.get n).find n word.toNat
  else none

/-- R33: the word address of a slot's word. -/
def State.slotAddress (s : State) (ring : Ring) (r : SlotRef) (w : Nat) : BitVec 20 :=
  let l := s.setup.lanes.get r.lane
  match ring with
  | .inbound => BitVec.ofNat 20 (l.inBase / 4 + r.index.val * l.slotWords + w)
  | .outbound => BitVec.ofNat 20 (l.outBase / 4 + r.index.val * l.slotWords + w)

/-- R14: the word address of the control block's base. -/
def State.blockBase (s : State) : Nat := s.controller.straps.toNat * 16384

/-- R14: a word address lies in the control block range. -/
def State.inBlock (s : State) (word : BitVec 20) : Bool := word.toNat / 16384 == s.controller.straps.toNat

/-- R149: the areas of the control block. The setup image is plain memory. -/
inductive Area where
  | plain
  | command
  | overlay (word : Nat)
  | loadWindow (word : Fin 16)
  | keyStatus (entry : Fin 48) (word : Nat)
  | reportRing
deriving DecidableEq, Repr

/-- R149: the area a word offset falls in; the report ring exists once a setup is applied (R137). -/
def State.area (s : State) (off : Nat) : Area :=
  if off = 0x40 then .command
  else if 0x80 ≤ off ∧ off < 0xC0 then .overlay (off - 0x80)
  else if 0xC0 ≤ off ∧ off < 0xD0 then .loadWindow (Fin.ofNat 16 (off - 0xC0))
  else if 0x100 ≤ off ∧ off < 0x1C0 then .keyStatus (Fin.ofNat 48 ((off - 0x100) / 4)) ((off - 0x100) % 4)
  else if s.controller.setupPresent ∧ s.setup.ringOffset / 4 ≤ off ∧ off < s.setup.ringOffset / 4 + s.setup.capacity * 8 then
    .reportRing
  else .plain

/-- A word address of the control block, by its word offset. -/
def State.blockWord (s : State) (off : Nat) : BitVec 20 := BitVec.ofNat 20 (s.blockBase + off)

/-- R15, R35: the address lies in the control block or in a watched ring. -/
def State.watched (s : State) (word : BitVec 20) : Bool := s.inBlock word || (s.slotAt word).isSome

/-! ## Frames -/

/-- R1, Formats: the header word. -/
def Header.ofWord (w : Word) : Header := ⟨w.extractLsb' 0 8, w.extractLsb' 8 8, w.extractLsb' 16 8⟩

/-- R1: the frame kinds. -/
def Header.isAnnounce (h : Header) : Bool := h.kind == 1
def Header.isConfirm (h : Header) : Bool := h.kind == 2
def Header.isChallenge (h : Header) : Bool := h.kind == 3

/-- R1: the extended identity form. -/
def Header.extended (h : Header) : Bool := h.form == 1

/-- R2: the length of a kind and form, if the two are a kind and a form. -/
def Header.fixedLength (h : Header) : Option Nat :=
  if h.form = 0 ∨ h.form = 1 then
    if h.isAnnounce then some (6 + h.form.toNat)
    else if h.isConfirm then some (7 + h.form.toNat)
    else if h.isChallenge then some (10 + h.form.toNat)
    else none
  else none

/-- R8: the kind belongs to the ring. -/
def Header.fitsRing (h : Header) (ring : Ring) : Bool :=
  match ring with
  | .inbound => h.isAnnounce || h.isConfirm
  | .outbound => h.isChallenge

/-- R8: the three conditions examined at the latch. -/
def Header.wellFormed (h : Header) (ring : Ring) (slotWords : Nat) : Bool :=
  h.fitsRing ring && h.fixedLength == some h.length.toNat && decide (h.length.toNat ≤ slotWords)

/-- Word `n` of a fetched frame; the buffer holds words 1 to length - 1 (R25). -/
def frameWord (buffer : List Word) (n : Nat) : Word := buffer.getD (n - 1) 0

/-- A two-word value at words `n` and `n` + 1 of a frame (R2). -/
def frameWide (buffer : List Word) (n : Nat) : Wide := Wide.ofWords (frameWord buffer n) (frameWord buffer (n + 1))

/-- R3: the identity of a frame. -/
def Header.identity (h : Header) (buffer : List Word) : Wide :=
  if h.extended then frameWide buffer 1 else Wide.ofWords (frameWord buffer 1) 0

/-- R8: the fourth condition, examined at the take. -/
def Header.malformedAtTake (h : Header) (buffer : List Word) : Bool := h.extended && frameWord buffer 2 == 0

/-- The first word after the identity: every later field moves up by one in the extended form (R2). -/
def Header.body (h : Header) : Nat := if h.extended then 3 else 2

/-- R2, R4, Formats: the fields of an ANNOUNCE. -/
structure Announce where
  identity : Wide
  issuer : BitVec 16
  generation : BitVec 8
  tagNonce : Wide
  counter : Word
deriving DecidableEq, Repr

def Announce.ofFrame (h : Header) (buffer : List Word) : Announce where
  identity := h.identity buffer
  issuer := (frameWord buffer h.body).extractLsb' 0 16
  generation := (frameWord buffer h.body).extractLsb' 16 8
  tagNonce := frameWide buffer (h.body + 1)
  counter := frameWord buffer (h.body + 3)

/-- R2, R7: the fields of a CHALLENGE; the memory at the code words is no field. -/
structure Challenge where
  identity : Wide
  readerNonce : Wide
  record : PassageRecord
deriving DecidableEq, Repr

def Challenge.ofFrame (h : Header) (buffer : List Word) : Challenge where
  identity := h.identity buffer
  readerNonce := frameWide buffer h.body
  record := ⟨frameWord buffer (h.body + 2), frameWord buffer (h.body + 3), frameWord buffer (h.body + 4), frameWord buffer (h.body + 5)⟩

/-- R2: the fields of a CONFIRM. -/
structure Confirm where
  identity : Wide
  echo : Wide
  counter : Word
  tagCode : Wide
deriving DecidableEq, Repr

def Confirm.ofFrame (h : Header) (buffer : List Word) : Confirm where
  identity := h.identity buffer
  echo := frameWide buffer h.body
  counter := frameWord buffer (h.body + 2)
  tagCode := frameWide buffer (h.body + 3)

/-! ## Load records -/

/-- Formats: the fields of a load record. -/
structure LoadRecord where
  kind : BitVec 8
  format : BitVec 8
  serial : Word
  issuer : BitVec 16
  generation : BitVec 8
  validFrom : Word
  validUntil : Word
deriving DecidableEq, Repr

def LoadRecord.ofBuffer (b : Table 16 Word) : LoadRecord where
  kind := (b.get 0).extractLsb' 0 8
  format := (b.get 0).extractLsb' 8 8
  serial := b.get 1
  issuer := (b.get 2).extractLsb' 0 16
  generation := (b.get 2).extractLsb' 16 8
  validFrom := b.get 3
  validUntil := b.get 4

/-- R12: words 0-13, the inputs of UNWRAP's check. -/
def loadWords (b : Table 16 Word) : List Word := b.cells.take 14

/-- R12, Formats: the check, low word first. -/
def loadCheck (b : Table 16 Word) : Wide := Wide.ofWords (b.get 14) (b.get 15)

/-! ## The command word -/

/-- Formats: the command code, bits 31-24. -/
def commandCode (w : Word) : BitVec 8 := w.extractLsb' 24 8

/-- Formats: the operand, bits 23-0. -/
def commandOperand (w : Word) : BitVec 24 := w.extractLsb' 0 24

/-- Formats: the word that writes a command. -/
def commandWord (code : BitVec 8) (operand : BitVec 24) : Word := code ++ operand

/-! ## Lane sets -/

/-- A lane's bit in a lane set (Formats: bit 24 + n of the report record). -/
def laneBit (n : Fin 8) : BitVec 8 := BitVec.ofNat 8 (2 ^ n.val)

/-- A lane is in a lane set. -/
def laneIn (n : Fin 8) (set : BitVec 8) : Bool := (set &&& laneBit n) != 0

end Sys2Proof.Machine
end

