-- ==== Sys2Proof/Machine/Flags.lean ====
section
/-! DEFINITION. Attention, and the words the part supplies: command result, load result, key status page, status overlay
(spec/09, spec/12). Bits that carry no field read 0 (R175). -/

namespace Sys2Proof.Machine

/-! ## Attention -/

/-- R162, R148: the pending causes; REPORTS is pending while P differs from C. -/
def State.pendingCauses (s : State) : BitVec 7 :=
  if s.reports.producer = s.reports.consumer then s.control.raised else s.control.raised ||| Cause.reports.bit

/-- R162: a cause is pending. -/
def State.isPending (c : Cause) (s : State) : Bool := (s.pendingCauses &&& c.bit) != 0

/-- R163, R165: the ATTN output. -/
def State.attn (s : State) : Bool :=
  s.controller.power == .on && (s.pendingCauses &&& s.setup.enables) != 0

/-! ## Codes of the Formats chapter -/

def PartState.code (p : PartState) : Nat :=
  match p with
  | .unset => 0
  | .running => 1
  | .dormant => 2
  | .halted => 3
  | .purging => 4

def RefusalKind.code (k : RefusalKind) : Nat :=
  match k with
  | .wrongPort => 1
  | .lockedSlot => 2
  | .overrun => 3
  | .partialWrite => 4
  | .codeField => 5
  | .readOnly => 6
  | .loadBusy => 7
  | .memoryResting => 8
  | .state => 9

def CommandOutcome.code (o : CommandOutcome) : Nat :=
  match o with
  | .none => 0
  | .pending => 1
  | .done => 2
  | .busy => 3
  | .state => 4
  | .badOperand => 5
  | .badImage => 6

def LoadOutcome.code (o : LoadOutcome) : Nat :=
  match o with
  | .none => 0
  | .ok => 1
  | .badCheck => 2
  | .badRecord => 3
  | .stale => 4
  | .badWindow => 5
  | .duplicate => 6
  | .tableFull => 7
  | .notFound => 8

def KeyState.code (k : KeyState) : Nat :=
  match k with
  | .empty => 0
  | .waiting => 1
  | .live => 2
  | .expired => 3
  | .revoked => 4

/-- R13: the class of a report. -/
def Ending.classCode (e : Ending) : Nat :=
  match e with
  | .passage _ => 1
  | .declined _ => 2
  | .notice _ => 3

def PassageCode.code (c : PassageCode) : Nat :=
  match c with
  | .paid => 1
  | .servicePass => 2
  | .badCounter => 3
  | .badCode => 4
  | .late => 5
  | .keyRevoked => 6
  | .abandoned => 7
  | .purged => 8

def DeclineCode.code (c : DeclineCode) : Nat :=
  match c with
  | .repeated => 1
  | .foreign => 2
  | .tagExhausted => 3
  | .noKey => 4
  | .keyNotYet => 5
  | .keyExpired => 6
  | .keyRevoked => 7
  | .noContext => 8

def NoticeCode.code (c : NoticeCode) : Nat :=
  match c with
  | .malformed => 1
  | .noTransaction => 2
  | .wrongLane => 3
  | .closedTransaction => 4
  | .busyTransaction => 5
  | .tooMany => 6
  | .strayConfirm => 7
  | .superseded => 8
  | .underrun => 9

/-- R13: the code of a report within its class. -/
def Ending.code (e : Ending) : Nat :=
  match e with
  | .passage c => c.code
  | .declined c => c.code
  | .notice c => c.code

/-! ## Words -/

/-- A word with a number placed from bit `start` up. -/
def place (start value : Nat) : Word := BitVec.ofNat 32 (value * 2 ^ start)

/-- Formats: the command result word. -/
def CommandResult.word (r : CommandResult) : Word :=
  place 0 r.code.toNat ||| place 8 r.outcome.code ||| place 16 r.detail.toNat

/-- Formats: an index field of 8 bits whose none is FFh. -/
def indexByte {n : Nat} (i : Option (Fin n)) : Nat :=
  match i with
  | some i => i.val
  | none => 0xFF

/-- Formats: the load result word. -/
def LoadResult.word (r : LoadResult) : Word :=
  place 0 r.serial.toNat ||| place 16 r.outcome.code ||| place 24 (indexByte r.index)

/-- R107, Formats: a word of a key status entry. -/
def KeyEntry.statusWord (e : KeyEntry) (n : Nat) : Word :=
  match n with
  | 0 => place 0 e.state.code ||| place 8 e.generation.toNat ||| place 16 e.issuer.toNat
  | 1 => e.validFrom
  | 2 => e.validUntil
  | _ => place 0 e.installSerial.toNat ||| place 16 e.references

/-- R59: the number of contexts in a state; `none` is FREE. -/
def State.contextsIn (s : State) (x : Option ContextState) : Nat :=
  s.contexts.table.count fun c => c.map (·.state) == x

/-- R107: the number of key entries in a state. -/
def State.entriesIn (s : State) (x : KeyState) : Nat := s.keys.entries.count fun e => e.state == x

/-- R34: FREE inbound slots among the applied descriptor's. -/
def State.freeInbound (s : State) (n : Fin 8) : Nat :=
  ((s.slots.lanes.get n).inbound.cells.take (s.setup.lanes.get n).inCount).countP fun x => x == .free

/-- The state is ARMED. -/
def OutState.isArmed (x : OutState) : Bool :=
  match x with
  | .armed _ _ _ => true
  | _ => false

/-- R34: ARMED outbound slots among the applied descriptor's. -/
def State.armedOutbound (s : State) (n : Fin 8) : Nat :=
  ((s.slots.lanes.get n).outbound.cells.take (s.setup.lanes.get n).outCount).countP fun x => x.state.isArmed

/-- Four counts in bytes 0 to 3. -/
def fourBytes (a b c d : Nat) : Word := place 0 a ||| place 8 b ||| place 16 c ||| place 24 d

/-- Formats: the last refusal's port and kind. -/
def Path.word (p : Path) : Word :=
  place 0 (match p.port with | none => 0 | some .c => 1 | some .r => 2)
    ||| place 8 (match p.kind with | none => 0 | some k => k.code)

/-- A line as one bit. -/
def bit (b : Bool) : Nat := if b then 1 else 0

/-- Formats: overlay word 4. -/
def Controller.stateWord (c : Controller) : Word :=
  place 0 c.state.code ||| place 8 (bit c.lines.pwarn) ||| place 9 (bit c.lines.mrest) ||| place 10 (bit c.lines.purge)
    ||| place 16 (bit c.seconds.isSome)

/-- Formats: a lane's word of the overlay. -/
def State.laneWord (s : State) (n : Fin 8) : Word :=
  place 0 (s.freeInbound n) ||| place 8 (s.armedOutbound n) ||| place 16 (s.slots.lanes.get n).underruns.toNat

/-- R161, Formats: word `n` of the status overlay. -/
def State.overlayWord (s : State) (n : Nat) : Word :=
  match n with
  | 0 => place 0 Config.vendorCode.toNat ||| place 16 Config.partCode.toNat
  | 1 => place 0 Config.revision.toNat
  | 2 => Wide.low Config.unitSerial
  | 3 => Wide.high Config.unitSerial
  | 4 => s.controller.stateWord
  | 5 => s.controller.time
  | 6 => s.controller.seconds.getD 0
  | 7 => s.control.result.word
  | 8 => s.load.result.word
  | 9 => s.keys.highestSerial
  | 10 => place 0 s.reports.producer ||| place 8 s.reports.consumer ||| place 16 s.setup.capacity
  | 11 => s.reports.sequence
  | 12 => place 0 s.pendingCauses.toNat ||| place 16 s.setup.enables.toNat
  | 13 => s.path.count
  | 14 => s.path.word
  | 15 => place 0 s.path.address.toNat
  | 16 => fourBytes (s.contextsIn none) (s.contextsIn (some .derivingKey)) (s.contextsIn (some .keyed)) (s.contextsIn (some .challenging))
  | 17 => fourBytes (s.contextsIn (some .awaiting)) (s.contextsIn (some .verifying)) (s.contextsIn (some .closing)) (s.contextsIn (some .reporting))
  | 18 => fourBytes (s.entriesIn .empty) (s.entriesIn .waiting) (s.entriesIn .live) (s.entriesIn .expired)
  | 19 => place 0 (s.entriesIn .revoked)
  | 20 => s.contexts.abandoned
  | 21 => place 0 s.engine.ready.length ||| place 16 s.agent.jobs.length
  | k => if 22 ≤ k ∧ k < 30 then s.laneWord (Fin.ofNat 8 (k - 22)) else 0

/-- R149: the word the part supplies for a C-port read of an area, none for an area whose reads pass through. -/
def State.suppliedWord (s : State) (a : Area) : Option Word :=
  match a with
  | .plain => none
  | .command => some s.control.result.word
  | .overlay n => some (s.overlayWord n)
  | .loadWindow _ => some s.load.result.word
  | .keyStatus e n => some ((s.keys.entries.get e).statusWord n)
  | .reportRing => none

/-! ## Report records -/

/-- R176, Formats: the 8 words of a report record. -/
def Report.words (r : Report) (sequence : Word) : List Word :=
  [ place 0 r.ending.classCode ||| place 8 r.ending.code ||| place 16 r.lane.val ||| place 24 (indexByte r.slotIndex),
    place 0 (match r.context with | some c => c.val | none => 0x1F)
      ||| place 10 (bit r.passage.isSome) ||| place 11 (bit r.identity.isSome) ||| place 12 (bit r.label.isSome)
      ||| place 13 (bit r.tagCounter.isSome)
      ||| (match r.passage with
        | some p => place 8 p.attemptsSent ||| place 16 p.hearings ||| place 24 p.lanes.toNat
        | none => 0),
    (match r.identity with | some v => v.low | none => 0),
    (match r.identity with | some v => v.high | none => 0),
    (match r.label with | some (i, g) => place 0 i.toNat ||| place 16 g.toNat | none => 0) ||| place 24 (indexByte r.keyIndex),
    r.time,
    r.tagCounter.getD 0,
    sequence ]

end Sys2Proof.Machine
end

