-- ==== Sys2Proof/Machine/Keys.lean ====
section
/-! DEFINITION. The key table (spec/05): aging, lookup, reference counts, issuer filters, and what start-up, a purge and a
power warning do to it. -/

namespace Sys2Proof.Machine

/-! ## States and aging -/

/-- R90: the state the seconds clock gives a window; WAITING while the clock is unset. -/
def windowState (clock : Option Word) (validFrom validUntil : Word) : KeyState :=
  match clock with
  | none => .waiting
  | some t =>
    if t.toNat < validFrom.toNat then .waiting
    else if t.toNat < validUntil.toNat then .live
    else .expired

/-- R90: the entry is non-EMPTY and not REVOKED, so the clock gives its state. -/
def KeyEntry.ages (e : KeyEntry) : Bool :=
  match e.state with
  | .empty => false
  | .revoked => false
  | .waiting => true
  | .live => true
  | .expired => true

/-- R90: the entry evaluated against the clock. -/
def KeyEntry.evaluate (clock : Option Word) (e : KeyEntry) : KeyEntry :=
  if e.ages then { e with state := windowState clock e.validFrom e.validUntil } else e

/-- R92: an EXPIRED or REVOKED entry with a reference count of 0 becomes EMPTY at once. -/
def KeyEntry.settle (e : KeyEntry) : KeyEntry :=
  if (e.state = .expired ∨ e.state = .revoked) ∧ e.references = 0 then KeyEntry.empty else e

/-- R90, R92: every entry evaluated against the clock. -/
def State.ageEntries (s : State) : State :=
  { s with keys := { s.keys with entries := s.keys.entries.map fun e => (e.evaluate s.controller.seconds).settle } }

/-- R91, R93: every entry takes the state the clock gives it and KEYTIME is raised if any state changes; then R92. -/
def State.evaluateKeys (s : State) : State :=
  if s.keys.entries.any fun e => (e.evaluate s.controller.seconds).state != e.state then s.ageEntries.raise .keytime
  else s.ageEntries

/-! ## Lookup and reference counts -/

/-- R94: the entry is non-EMPTY and holds the pair. -/
def KeyEntry.holds (issuer : BitVec 16) (generation : BitVec 8) (e : KeyEntry) : Bool :=
  e.state != .empty && e.issuer == issuer && e.generation == generation

/-- R94: the index of the non-EMPTY entry that holds the pair. -/
def State.findKey (s : State) (issuer : BitVec 16) (generation : BitVec 8) : Option (Fin 48) :=
  s.keys.entries.first fun e => e.holds issuer generation

/-- R94: a lookup; none while the part is PURGING. -/
def State.lookup (s : State) (issuer : BitVec 16) (generation : BitVec 8) : Option (Fin 48) :=
  if s.controller.state = .purging then none else s.findKey issuer generation

/-- R96: the reference count rises by one. -/
def State.addReference (k : Fin 48) (s : State) : State :=
  let e := s.keys.entries.get k
  s.setEntry k { e with references := e.references + 1 }

/-- R96, R92: the reference count falls by one. -/
def State.releaseReference (k : Fin 48) (s : State) : State :=
  let e := s.keys.entries.get k
  s.setEntry k { e with references := e.references - 1 }.settle

/-- R88, R99: every reference count returns to 0, with R92. -/
def State.dropReferences (s : State) : State :=
  { s with keys := { s.keys with entries := s.keys.entries.map fun e => { e with references := 0 }.settle } }

/-! ## Issuer filters -/

/-- R101: an issuer code matches a filter. -/
def Filter.matches (f : Filter) (issuer : BitVec 16) : Bool :=
  f.enable && (issuer >>> f.maskWidth == f.code >>> f.maskWidth)
    && !(decide (0 < f.maskWidth) && (issuer == 0 || issuer == 0xFFFF#16))

/-- R102: an issuer code is served by the applied setup. -/
def Setup.serves (x : Setup) (issuer : BitVec 16) : Bool :=
  if issuer = 0xFFFF#16 then false
  else if issuer = 0 then x.service
  else x.filters.any fun f => f.matches issuer

/-! ## Retained store -/

/-- R103: what the retained store keeps of an entry; a clock state is lost, an entry that is not REVOKED is WAITING until
the clock is set (R90, R104). -/
def KeyEntry.retained (e : KeyEntry) : KeyEntry :=
  { e with references := 0, state := if e.ages then .waiting else e.state }

/-- R105: the entry and the highest load serial as they were before the last load record, when `cut` says that its effect
was still being written (log 15). -/
def Keys.cutShort (cut : Bool) (k : Keys) : Keys :=
  match cut, k.lastWrite with
  | true, some w => { k with entries := k.entries.set w.index w.before, highestSerial := w.serialBefore, lastWrite := none }
  | _, _ => k

/-- R103, R105: the key table through RESET or a loss of power. -/
def Keys.losePower (cut : Bool) (k : Keys) : Keys :=
  let k := k.cutShort cut
  { k with entries := k.entries.map KeyEntry.retained, lastWrite := none }

/-- R104: an entry at start-up; one marked REVOKED becomes EMPTY. -/
def KeyEntry.startUp (e : KeyEntry) : KeyEntry :=
  if e.state = .revoked then KeyEntry.empty else e.retained

/-- R165 steps 2 and 3: a marked erase is completed, then the table takes its state from the retained store. -/
def Keys.startUp (k : Keys) : Keys :=
  if k.eraseMark then { Keys.blank with highestSerial := k.highestSerial }
  else { k with entries := k.entries.map KeyEntry.startUp, unerased := none, lastWrite := none }

/-- R120, R172: the key side of a purge. The erase mark is written; every entry is EMPTY at once; what retained store still
holds until the erase completion stands in `unerased` (log 16). -/
def Keys.purge (k : Keys) : Keys :=
  { k with
    entries := Table.fill 48 KeyEntry.empty
    eraseMark := true
    unerased := some (k.entries.map KeyEntry.retained)
    lastWrite := none }

/-- R122, R173: the erase completion at the retained store. -/
def Keys.erased (k : Keys) : Keys := { k with eraseMark := false, unerased := none }

end Sys2Proof.Machine
end

