-- ==== Sys2Proof/Machine/Engine.lean ====
section
/-! DEFINITION. The code engine (spec/07): the ready list, the choice of the next operation, its start, and what removes or
cuts short an operation. -/

namespace Sys2Proof.Machine

/-- R124: the class of an operation; a lower number is a higher priority. -/
def Holder.priority (h : Holder) : Nat :=
  match h with
  | .code _ => 0
  | .verify _ => 1
  | .derive _ => 2
  | .unwrap => 3

/-- R126: a holder joins the tail of the ready list. -/
def State.joinReady (h : Holder) (s : State) : State :=
  { s with engine := { s.engine with ready := s.engine.ready ++ [h] } }

/-- R133: a holder leaves the ready list. -/
def State.leaveReady (h : Holder) (s : State) : State :=
  { s with engine := { s.engine with ready := s.engine.ready.filter (· != h) } }

/-- R127: the oldest holder of the lowest class on the list. -/
def nextHolder (ready : List Holder) : Option Holder :=
  (List.range 4).findSome? fun k => ready.find? fun h => h.priority == k

/-- R130: the part states in which the engine starts operations; none while the part does not operate. -/
def Controller.engineStarts (c : Controller) : Bool :=
  c.power == .on && (c.state == .unset || c.state == .running || c.state == .purging)

/-- R128: the inputs of an operation, copied from the state that holds them. -/
def State.operationOf (s : State) (h : Holder) : Option Operation :=
  match h with
  | .code slot => do
    let c ← match (s.outSlot slot).state with
      | .coding _ c => some c
      | _ => none
    let x ← s.context c
    let key ← x.tagKey
    let a ← x.attempts.getLast?
    return .code slot key x.identity x.tagNonce a.nonce a.record
  | .verify c => do
    let x ← s.context c
    let key ← x.tagKey
    let d ← x.confirm
    let a ← x.attempts[d.matched]?
    return .verify c key x.identity a.nonce a.record d.counter d.tagCode
  | .derive c => do
    let x ← s.context c
    let k ← x.keyLink
    let key ← (s.keys.entries.get k).key
    return .derive c key x.identity x.generation
  | .unwrap => some (.unwrap Config.transportKey (loadWords s.load.buffer) (loadCheck s.load.buffer))

/-- R125: the operation in progress. -/
def State.setOperation (o : Option Operation) (s : State) : State := { s with engine := { s.engine with operation := o } }

/-- R129: the holder's engine mark. -/
def State.setMark (h : Holder) (m : Bool) (s : State) : State :=
  match h with
  | .code slot => s.setOutSlot slot { s.outSlot slot with mark := m }
  | .verify c => s.modifyContext c fun x => { x with mark := m }
  | .derive c => s.modifyContext c fun x => { x with mark := m }
  | .unwrap => s.setLoad { s.load with mark := m }

/-- R128: the operation starts: the holder leaves the list and takes the mark, and the inputs are copied. -/
def State.startOperation (h : Holder) (o : Operation) (s : State) : State :=
  ((s.leaveReady h).setMark h true).setOperation (some o)

/-- R127: the engine weighs the ready list; an idle engine starts the next operation. -/
def State.weighEngine (s : State) : State :=
  if s.controller.engineStarts ∧ s.engine.operation = none then
    match nextHolder s.engine.ready with
    | none => s
    | some h =>
      match s.operationOf h with
      | none => s
      | some o => s.startOperation h o
  else s

/-- R131 step 1: the operation ends and the mark clears from its holder. -/
def State.endOperation (h : Holder) (s : State) : State :=
  (s.setOperation none).setMark h false

/-- R134, R135, R136: the engine is idle and the ready list empty. -/
def State.cutEngine (s : State) : State := { s with engine := Engine.reset }

end Sys2Proof.Machine
end

