-- ==== Sys2Proof/Machine/Reports.lean ====
section
/-! DEFINITION. The report writer (spec/08): the pending holder list, composing a record, queueing a write. -/

namespace Sys2Proof.Machine

/-- R139: a holder joins the tail of the pending holder list. -/
def State.joinReports (h : ReportHolder) (s : State) : State :=
  { s with reports := { s.reports with waiting := s.reports.waiting ++ [h] } }

/-- R138: the ring is full. -/
def State.ringFull (s : State) : Bool := (s.reports.producer + 1) % s.setup.capacity == s.reports.consumer

/-- R80: the tag counter of a PASSAGE report. -/
def Context.reportCounter (x : Context) : Word :=
  match x.confirm with
  | some d => d.counter
  | none => x.announceCounter

/-- R69: the number of sent attempts. -/
def Context.sentCount (x : Context) : Nat := x.attempts.countP fun a => a.sentAt.isSome

/-- R80, R140: the report of a context in REPORTING. -/
def Context.report (c : Fin 24) (x : Context) : Option Report :=
  x.outcome.map fun (code, time) =>
    { ending := .passage code
      lane := x.homeLane
      slotIndex := none
      context := some c
      passage := some ⟨x.sentCount, x.hearings, x.lanes⟩
      identity := some x.identity
      label := some (x.issuer, x.generation)
      keyIndex := x.keyLink
      time := time
      tagCounter := some x.reportCounter }

/-- R140: the report a holder on the pending list holds. -/
def State.heldReport (s : State) (h : ReportHolder) : Option Report :=
  match h with
  | .context c => (s.context c).bind fun x => x.report c
  | .inbound r =>
    match s.inSlot r with
    | .reportWait _ report => some report
    | _ => none
  | .outbound r =>
    match (s.outSlot r).state with
    | .spoiled _ report => report
    | _ => none

/-- R25: the producer position, as a word address. -/
def State.producerWord (s : State) : BitVec 20 := s.blockWord (s.setup.ringOffset / 4 + s.reports.producer * 8)

/-- R25: a job joins the tail of the agent job list. -/
def State.queueJob (j : Job) (s : State) : State :=
  { s with agent := { s.agent with jobs := s.agent.jobs ++ [j] } }

/-- R141: whether a write is in progress. -/
def State.setWrite (w : WriteState) (s : State) : State := { s with reports := { s.reports with write := w } }

/-- R141: when the list is not empty, the ring is not full and no write is in progress, the head entry's record is composed
and its WRITE_REPORT queued at the producer position. -/
def State.weighReports (s : State) : State :=
  match s.reports.waiting with
  | [] => s
  | h :: _ =>
    if s.ringFull ∨ s.reports.write ≠ .idle then s
    else
      match s.heldReport h with
      | none => s
      | some r =>
        (s.setWrite .writing).queueJob (.writeReport s.producerWord (r.words s.reports.sequence))

/-- R127, R141: after an event, the engine and the report writer weigh their conditions again (log 5, log 7). -/
def State.settle (s : State) : State := s.weighEngine.weighReports

end Sys2Proof.Machine
end

