-- ==== Sys2Proof/Machine/Slots.lean ====
section
/-! DEFINITION. The slot tracker (spec/03): judging and applying tracked writes, latching and closing, spoiling, held
code-word reads, and the agent jobs of slots. -/

namespace Sys2Proof.Machine

/-- R20, R49: the fill pattern. -/
def fillPattern : Word := 0xFFFFFFFF#32

/-! ## Slot states -/

def InSlot.tag (x : InSlot) : SlotState :=
  match x with
  | .free => .free
  | .filling _ _ => .filling
  | .closed _ => .closed
  | .fetching _ => .fetching
  | .reportWait _ _ => .reportWait

def OutState.tag (x : OutState) : SlotState :=
  match x with
  | .free => .free
  | .composing _ _ => .composing
  | .closed _ => .closed
  | .fetching _ => .fetching
  | .waitingKey _ _ => .waitingKey
  | .coding _ _ => .coding
  | .armed _ _ _ => .armed
  | .spoiled _ _ => .spoiled
  | .draining _ => .draining

/-- R34: the latched header, from a latch until the slot is next FREE. -/
def InSlot.header (x : InSlot) : Option Header :=
  match x with
  | .free => none
  | .filling h _ => some h
  | .closed h => some h
  | .fetching h => some h
  | .reportWait h _ => some h

def OutState.header (x : OutState) : Option Header :=
  match x with
  | .free => none
  | .composing h _ => some h
  | .closed h => some h
  | .fetching h => some h
  | .waitingKey h _ => some h
  | .coding h _ => some h
  | .armed h _ _ => some h
  | .spoiled h _ => some h
  | .draining h => some h

/-- R34: the bound context. -/
def OutState.boundContext (x : OutState) : Option (Fin 24) :=
  match x with
  | .waitingKey _ c => some c
  | .coding _ c => some c
  | .armed _ c _ => some c
  | _ => none

/-- The state of the slot a slot word lies in. -/
def State.slotState (s : State) (t : SlotWord) : SlotState :=
  match t.ring with
  | .inbound => (s.inSlot t.slot).tag
  | .outbound => (s.outSlot t.slot).state.tag

/-- The latched header of a slot. -/
def State.slotHeader (s : State) (ring : Ring) (r : SlotRef) : Option Header :=
  match ring with
  | .inbound => (s.inSlot r).header
  | .outbound => (s.outSlot r).state.header

/-! ## Judging -/

/-- R39: a locked inbound slot refuses a full-word write. -/
def InSlot.judge (x : InSlot) : Option RefusalKind :=
  match x with
  | .free => none
  | .filling _ _ => none
  | .closed _ => some .overrun
  | .fetching _ => some .overrun
  | .reportWait _ _ => some .overrun

/-- R45: a SPOILED slot is locked while it holds a pending report or carries the engine mark. -/
def OutSlot.spoiledLock (x : OutSlot) : Bool :=
  match x.state with
  | .spoiled _ report => report.isSome || x.mark
  | _ => false

/-- R43, R44, R45: what an outbound slot answers a full-word write to word `w`. -/
def OutSlot.judge (x : OutSlot) (w : Nat) : Option RefusalKind :=
  match x.state with
  | .free => none
  | .composing h _ => if w + 2 = h.length.toNat ∨ w + 1 = h.length.toNat then some .codeField else none
  | .closed _ => some .lockedSlot
  | .fetching _ => some .lockedSlot
  | .waitingKey _ _ => some .lockedSlot
  | .coding _ _ => some .lockedSlot
  | .armed _ _ _ => some .lockedSlot
  | .spoiled _ _ => if x.spoiledLock then some .lockedSlot else none
  | .draining _ => some .lockedSlot

/-- R18: the slot tracker's judgement of a tracked write. -/
def State.judge (s : State) (t : SlotWord) : Option RefusalKind :=
  match t.ring with
  | .inbound => (s.inSlot t.slot).judge
  | .outbound => (s.outSlot t.slot).judge t.word

/-! ## Agent jobs of slots -/

/-- R28: a word in flight for an abandoned job is allowed to complete, and its data is discarded. -/
def InFlight.abandon (x : InFlight) : InFlight :=
  match x with
  | .port p => .port p
  | .agent a => .agent { a with live := false }

/-- R28, R29, R52: the current job is abandoned; the frame buffer is left empty (log 36). -/
def State.abandonCurrent (s : State) : State :=
  { s with agent := { s.agent with position := none, buffer := [] }, arbiter := s.arbiter.map InFlight.abandon }

/-- The current job is one that `p` picks. -/
def State.currentIs (s : State) (p : Job → Bool) : Bool :=
  match s.agent.position, s.agent.jobs with
  | some _, j :: _ => p j
  | _, _ => false

/-- R28: the jobs `p` picks leave the list, a current one abandoned. -/
def State.dropJobs (p : Job → Bool) (s : State) : State :=
  let t := if s.currentIs p then s.abandonCurrent else s
  { t with agent := { t.agent with jobs := t.agent.jobs.filter fun j => !p j } }

/-- The job fetches a frame of lane `n`. -/
def Job.fetchesLane (n : Fin 8) (j : Job) : Bool :=
  match j with
  | .fetchFrame _ r => r.lane == n
  | .fetchSetup => false
  | .writeReport _ _ => false

/-- The job fetches a frame. -/
def Job.fetchesFrame (j : Job) : Bool :=
  match j with
  | .fetchFrame _ _ => true
  | .fetchSetup => false
  | .writeReport _ _ => false

/-! ## Notices -/

/-- R140: the report of a notice. -/
def State.notice (s : State) (code : NoticeCode) (r : SlotRef) (context : Option (Fin 24)) (identity : Option Wide)
    (counter : Option Word) : Report where
  ending := .notice code
  lane := r.lane
  slotIndex := some r.index
  context := context
  passage := none
  identity := identity
  label := none
  keyIndex := none
  time := s.controller.time
  tagCounter := counter

/-- R140, R176: the notice of a bound slot spoiled names the context and carries its identity. -/
def State.boundNotice (s : State) (code : NoticeCode) (r : SlotRef) (c : Fin 24) : Report :=
  s.notice code r (some c) ((s.context c).map (·.identity)) none

/-! ## Held reads -/

/-- R51: the read held on a slot, if it is this slot's, is answered with a word. -/
def State.answerHeld (r : SlotRef) (w : Word) (s : State) : State :=
  match s.slots.held, s.ports.r.access with
  | some h, some o =>
    if h.slot = r then (s.setHeld none).supply .r o.access.size w else s
  | _, _ => s

/-! ## Spoiling and ending in REPORT_WAIT -/

/-- R53: an outbound slot with a latched header is spoiled with a notice. A slot keeps its header, its code position and
its mark. The caller drops the context's side of a binding. -/
def State.spoilWith (h : Header) (r : SlotRef) (report : Report) (s : State) : State :=
  let t := (s.answerHeld r fillPattern).leaveReady (.code r)
  (t.setOutSlot r { t.outSlot r with state := .spoiled h (some report) }).joinReports (.outbound r)

/-- R53: spoiling a slot that has a frame. -/
def State.spoil (r : SlotRef) (report : Report) (s : State) : State :=
  match (s.outSlot r).state.header with
  | none => s
  | some h => s.spoilWith h r report

/-- R40, R64, R73: an inbound slot goes to REPORT_WAIT holding a report. -/
def State.reportInbound (h : Header) (r : SlotRef) (report : Report) (s : State) : State :=
  (s.setInSlot r (.reportWait h report)).joinReports (.inbound r)

/-! ## Tracked writes -/

/-- R36: an inbound header is latched. -/
def State.latchInbound (r : SlotRef) (h : Header) (s : State) : State :=
  if h.wellFormed .inbound (s.setup.lanes.get r.lane).slotWords then s.setInSlot r (.filling h 0)
  else s.reportInbound h r (s.notice .malformed r none none none)

/-- R36: an outbound header is latched; a malformed one takes the code position away. -/
def State.latchOutbound (r : SlotRef) (h : Header) (s : State) : State :=
  if h.wellFormed .outbound (s.setup.lanes.get r.lane).slotWords then
    s.setOutSlot r ⟨.composing h 0, some (h.length.toNat - 2), false⟩
  else
    (s.setOutSlot r { s.outSlot r with codePosition := none }).spoilWith h r (s.notice .malformed r none none none)

/-- R38: a counted write of an inbound slot; the closing one queues the fetch. -/
def State.countInbound (r : SlotRef) (h : Header) (n : Nat) (s : State) : State :=
  if n + 1 = h.length.toNat - 1 then (s.setInSlot r (.closed h)).queueJob (.fetchFrame .inbound r)
  else s.setInSlot r (.filling h (n + 1))

/-- R43: a counted write of an outbound slot; the closing one queues the fetch. -/
def State.countOutbound (r : SlotRef) (h : Header) (n : Nat) (s : State) : State :=
  let x := s.outSlot r
  if n + 1 = h.length.toNat - 3 then (s.setOutSlot r { x with state := .closed h }).queueJob (.fetchFrame .outbound r)
  else s.setOutSlot r { x with state := .composing h (n + 1) }

/-- R36 to R38: the effect of a permitted write on an inbound slot, absent when it leaves the slot as it was. -/
def State.writeInbound (s : State) (r : SlotRef) (w : Nat) (data : Word) : Option State :=
  if w = 0 then some (s.latchInbound r (Header.ofWord data))
  else
    match s.inSlot r with
    | .filling h n => some (s.countInbound r h n)
    | _ => none

/-- R36, R42, R43, R45: the effect of a permitted write on an outbound slot, absent when it leaves the slot as it was. -/
def State.writeOutbound (s : State) (r : SlotRef) (w : Nat) (data : Word) : Option State :=
  if w = 0 then some (s.latchOutbound r (Header.ofWord data))
  else
    match (s.outSlot r).state with
    | .composing h n => if w + 2 < h.length.toNat then some (s.countOutbound r h n) else none
    | _ => none

/-- R18: the effect of a completed tracked write. -/
def State.writeSlot (s : State) (t : SlotWord) (data : Word) : Option State :=
  match t.ring with
  | .inbound => s.writeInbound t.slot t.word data
  | .outbound => s.writeOutbound t.slot t.word data

/-! ## Bulk returns to FREE -/

/-- R56, R57: the outbound slot goes to DRAINING with the mark, to FREE without it. -/
def OutSlot.release (x : OutSlot) : OutSlot :=
  if x.mark then
    match x.state.header with
    | some h => { x with state := .draining h }
    | none => x
  else { x with state := .free }

/-- R57: as R56, and the code position goes too unless the slot drains. -/
def OutSlot.releaseForSetup (x : OutSlot) : OutSlot :=
  if x.mark then x.release else OutSlot.reset

/-- R48, R134: an outbound slot loses its engine mark with the result dropped. -/
def OutSlot.dropResult (x : OutSlot) : OutSlot :=
  match x.state with
  | .draining _ => { x with state := .free, mark := false }
  | _ => { x with mark := false }

/-- R51: a held read, whichever slot it is on, is answered with the fill pattern. -/
def State.answerAnyHeld (s : State) : State :=
  match s.slots.held with
  | some h => s.answerHeld h.slot fillPattern
  | none => s

end Sys2Proof.Machine
end

