-- ==== Sys2Proof/Machine/Contexts.lean ====
section
/-! DEFINITION. The context table (spec/04): takes, bindings, sends, closing, freeing, the recent passage list, and the
underrun of a bound slot. -/

namespace Sys2Proof.Machine

/-! ## Context states -/

/-- R78: the states a close applies to. -/
def ContextState.closable (x : ContextState) : Bool :=
  match x with
  | .derivingKey => true
  | .keyed => true
  | .challenging => true
  | .awaiting => true
  | .verifying => true
  | .closing => false
  | .reporting => false

/-- R63: the states in which the gantry may still challenge. -/
def ContextState.challengeable (x : ContextState) : Bool :=
  match x with
  | .derivingKey => true
  | .keyed => true
  | .challenging => true
  | .awaiting => true
  | .verifying => false
  | .closing => false
  | .reporting => false

/-! ## Bindings -/

/-- R72: a binding dropped without a send, on the context. -/
def Context.dropBinding (x : Context) : Context :=
  { x with
    bound := none
    accepted := x.accepted - 1
    state := if x.state = .challenging then (if x.attempts.any fun a => a.sentAt.isSome then .awaiting else .keyed) else x.state }

/-- R71: the newest attempt takes its send time. -/
def sendNewest (time : Word) : List Attempt → List Attempt
  | [] => []
  | [a] => [{ a with sentAt := some time }]
  | a :: l => a :: sendNewest time l

/-- R69: the oldest unsent attempt removed. -/
def dropOldestUnsent : List Attempt → List Attempt
  | [] => []
  | a :: l => if a.sentAt = none then l else a :: dropOldestUnsent l

/-- R69: a new attempt joins the tail of the attempt list. -/
def addAttempt (a : Attempt) (l : List Attempt) : List Attempt :=
  (if 3 ≤ l.length then dropOldestUnsent l else l) ++ [a]

/-- R71: the send, on the context. -/
def Context.send (time : Word) (x : Context) : Context :=
  { x with attempts := sendNewest time x.attempts, bound := none, state := .awaiting }

/-- R50: the send: the slot goes to FREE and keeps its code position; its context is told. -/
def State.send (r : SlotRef) (s : State) : State :=
  match (s.outSlot r).state with
  | .armed _ c _ =>
    (s.setOutSlot r { s.outSlot r with state := .free }).modifyContext c fun x => x.send s.controller.time
  | _ => s

/-- R50: the code word of a code, high or low. -/
def codeHalf (high : Bool) (code : Wide) : Word := if high then code.high else code.low

/-- R52: the underrun of an outbound slot whose read has had its fill pattern. -/
def State.underrun (r : SlotRef) (s : State) : State :=
  let l := s.slots.lanes.get r.lane
  let t := s.setLane r.lane { l with underruns := l.underruns + 1 }
  match (s.outSlot r).state with
  | .closed _ => (t.dropJobs (· == .fetchFrame .outbound r)).spoil r (s.notice .underrun r none none none)
  | .fetching _ => (t.dropJobs (· == .fetchFrame .outbound r)).spoil r (s.notice .underrun r none none none)
  | .waitingKey _ c => (t.modifyContext c Context.dropBinding).spoil r (s.boundNotice .underrun r c)
  | .coding _ c => (t.modifyContext c Context.dropBinding).spoil r (s.boundNotice .underrun r c)
  | _ => s

/-! ## Closing -/

/-- R78: on the context, everything but the slot, the ready list and the pending list. -/
def Context.close (code : PassageCode) (time : Word) (x : Context) : Context :=
  { x with
    outcome := some (code, time)
    running := false
    bound := none
    state := if x.mark then .closing else .reporting }

/-- R78: a context is closed with an outcome; a context in CLOSING, REPORTING or FREE is left as it is. -/
def State.close (code : PassageCode) (c : Fin 24) (s : State) : State :=
  match s.context c with
  | none => s
  | some x =>
    if x.state.closable then
      let t := match x.bound with
        | some r => s.spoil r (s.boundNotice .closedTransaction r c)
        | none => s
      let t := t.setContext c (some (x.close code s.controller.time))
      if x.mark then t else ((t.leaveReady (.derive c)).leaveReady (.verify c)).joinReports (.context c)
    else s

/-- R79: a CLOSING context goes to REPORTING. -/
def State.endClosing (c : Fin 24) (s : State) : State :=
  (s.modifyContext c fun x => { x with state := .reporting }).joinReports (.context c)

/-- R81: the contexts that hold a revoked entry close, in ascending order. -/
def State.closeHolders (k : Fin 48) (s : State) : State :=
  Table.ascending 24 (fun c s =>
    match s.context c with
    | some x => if x.keyLink = some k then s.close .keyRevoked c else s
    | none => s) s

/-! ## Taking an ANNOUNCE -/

/-- R64: the report of a decline. -/
def State.decline (s : State) (code : DeclineCode) (r : SlotRef) (a : Announce) (k : Option (Fin 48)) : Report where
  ending := .declined code
  lane := r.lane
  slotIndex := some r.index
  context := none
  passage := none
  identity := some a.identity
  label := some (a.issuer, a.generation)
  keyIndex := k
  time := s.controller.time
  tagCounter := some a.counter

/-- R63: an ANNOUNCE absorbed, on the context. -/
def Context.absorb (lane : Fin 8) (x : Context) : Context :=
  if x.state.challengeable then { x with hearings := min 255 (x.hearings + 1), lanes := x.lanes ||| laneBit lane } else x

/-- R66: the context that an ANNOUNCE opens. -/
def Context.opened (lane : Fin 8) (a : Announce) (k : Fin 48) (deadline : Nat) : Context where
  state := .derivingKey
  homeLane := lane
  lanes := laneBit lane
  identity := a.identity
  issuer := a.issuer
  generation := a.generation
  keyLink := some k
  tagKey := none
  tagNonce := a.tagNonce
  announceCounter := a.counter
  hearings := 1
  bound := none
  attempts := []
  accepted := 0
  confirm := none
  deadline := deadline
  running := true
  mark := false
  outcome := none

/-- R66: a context opens. -/
def State.openContext (c : Fin 24) (r : SlotRef) (a : Announce) (k : Fin 48) (s : State) : State :=
  (((s.setInSlot r .free).setContext c (some (Context.opened r.lane a k (s.setup.lanes.get r.lane).deadline))).addReference k).joinReady
    (.derive c)

/-- R84: the recent passage list holds an identity. -/
def State.recentlyPaid (s : State) (identity : Wide) : Bool := s.contexts.recent.any fun e => e.identity == identity

/-- R62 steps 2 to 5: the decline of an ANNOUNCE that is not absorbed, or the LIVE entry it found. -/
def State.admission (s : State) (a : Announce) : DeclineCode × Option (Fin 48) ⊕ Fin 48 :=
  if s.recentlyPaid a.identity then .inl (.repeated, none)
  else if s.setup.serves a.issuer = false then .inl (.foreign, none)
  else if a.counter = 0xFFFFFFFF#32 then .inl (.tagExhausted, none)
  else
    match s.lookup a.issuer a.generation with
    | none => .inl (.noKey, none)
    | some k =>
      match (s.keys.entries.get k).state with
      | .empty => .inl (.noKey, none)
      | .waiting => .inl (.keyNotYet, some k)
      | .expired => .inl (.keyExpired, some k)
      | .revoked => .inl (.keyRevoked, some k)
      | .live => .inr k

/-- R62 to R66: the take of an ANNOUNCE. -/
def State.takeAnnounce (h : Header) (r : SlotRef) (a : Announce) (s : State) : State :=
  match s.findContext a.identity with
  | some c => (s.setInSlot r .free).modifyContext c (Context.absorb r.lane)
  | none =>
    match s.admission a with
    | .inl (code, k) => s.reportInbound h r (s.decline code r a k)
    | .inr k =>
      match s.contexts.table.first (·.isNone) with
      | none => s.reportInbound h r (s.decline .noContext r a (some k))
      | some c => s.openContext c r a k

/-! ## Taking a CHALLENGE -/

/-- R67: the notice a CHALLENGE from a lane meets at a context, if one. -/
def Context.challengeNotice (lane : Fin 8) (x : Context) : Option NoticeCode :=
  if laneIn lane x.lanes = false then some .wrongLane
  else if x.state.challengeable = false then some .closedTransaction
  else if x.state = .challenging ∨ (x.state = .derivingKey ∧ x.bound.isSome) then some .busyTransaction
  else if x.accepted = 3 then some .tooMany
  else none

/-- R68: a CHALLENGE bound, on the context. -/
def Context.bind (r : SlotRef) (f : Challenge) (x : Context) : Context :=
  { x with
    attempts := addAttempt ⟨f.readerNonce, f.record, none⟩ x.attempts
    accepted := x.accepted + 1
    bound := some r
    state := if x.state = .derivingKey then .derivingKey else .challenging }

/-- R68: a CHALLENGE bound. -/
def State.bindChallenge (c : Fin 24) (x : Context) (h : Header) (r : SlotRef) (f : Challenge) (s : State) : State :=
  let t := s.setContext c (some (x.bind r f))
  if x.state = .derivingKey then t.setOutSlot r { t.outSlot r with state := .waitingKey h c }
  else (t.setOutSlot r { t.outSlot r with state := .coding h c }).joinReady (.code r)

/-- R67: the take of a CHALLENGE. -/
def State.takeChallenge (h : Header) (r : SlotRef) (f : Challenge) (s : State) : State :=
  match s.findContext f.identity with
  | none => s.spoil r (s.notice .noTransaction r none (some f.identity) none)
  | some c =>
    match s.context c with
    | none => s
    | some x =>
      match x.challengeNotice r.lane with
      | some code => s.spoil r (s.notice code r (some c) (some f.identity) none)
      | none => s.bindChallenge c x h r f

/-! ## Taking a CONFIRM -/

/-- R73, R5: the place of the oldest sent attempt whose reader nonce equals the echo. -/
def Context.matchEcho (echo : Wide) (x : Context) : Option Nat :=
  x.attempts.findIdx? fun a => a.sentAt.isSome && a.nonce == echo

/-- R73: the attempt a CONFIRM is matched to, none for a stray. -/
def Context.matchConfirm (f : Confirm) (x : Context) : Option Nat :=
  if x.state = .challenging ∨ x.state = .awaiting then x.matchEcho f.echo else none

/-- R74: a matched CONFIRM, on the context. -/
def Context.confirmed (lane : Fin 8) (f : Confirm) (i : Nat) (x : Context) : Context :=
  { x with
    confirm := some ⟨f.echo, f.counter, f.tagCode, i⟩
    lanes := x.lanes ||| laneBit lane
    bound := none
    running := false
    state := .verifying }

/-- R74: a matched CONFIRM. -/
def State.matchedConfirm (c : Fin 24) (x : Context) (r : SlotRef) (f : Confirm) (i : Nat) (s : State) : State :=
  let t := match x.bound with
    | some o => s.spoil o (s.boundNotice .superseded o c)
    | none => s
  ((t.setContext c (some (x.confirmed r.lane f i))).setInSlot r .free).joinReady (.verify c)

/-- R73, R74: the take of a CONFIRM. -/
def State.takeConfirm (h : Header) (r : SlotRef) (f : Confirm) (s : State) : State :=
  match s.findContext f.identity with
  | none => s.reportInbound h r (s.notice .strayConfirm r none (some f.identity) (some f.counter))
  | some c =>
    match (s.context c).bind fun x => (x.matchConfirm f).map fun i => (x, i) with
    | none => s.reportInbound h r (s.notice .strayConfirm r (some c) (some f.identity) (some f.counter))
    | some (x, i) => s.matchedConfirm c x r f i

/-! ## The take of a fetched frame -/

/-- R40: an inbound frame is taken. -/
def State.takeInbound (h : Header) (r : SlotRef) (buffer : List Word) (s : State) : State :=
  if h.malformedAtTake buffer then s.reportInbound h r (s.notice .malformed r none none none)
  else if h.isAnnounce then s.takeAnnounce h r (Announce.ofFrame h buffer)
  else s.takeConfirm h r (Confirm.ofFrame h buffer)

/-- R46: an outbound frame is taken. -/
def State.takeOutbound (h : Header) (r : SlotRef) (buffer : List Word) (s : State) : State :=
  if h.malformedAtTake buffer then s.spoil r (s.notice .malformed r none none none)
  else s.takeChallenge h r (Challenge.ofFrame h buffer)

/-- R27: the take of a FETCH_FRAME. -/
def State.takeFrame (ring : Ring) (r : SlotRef) (buffer : List Word) (s : State) : State :=
  match s.slotHeader ring r with
  | none => s
  | some h =>
    match ring with
    | .inbound => s.takeInbound h r buffer
    | .outbound => s.takeOutbound h r buffer

/-! ## Freeing and the recent passage list -/

/-- R84: an identity joins the recent passage list, the oldest leaving a full one. -/
def joinRecent (e : RecentEntry) (l : List RecentEntry) : List RecentEntry :=
  (if 64 ≤ l.length then l.drop 1 else l) ++ [e]

/-- R85: the age of an entry, modulo 2^32. -/
def RecentEntry.age (now : Word) (e : RecentEntry) : Word := now - e.time

/-- R85: the entry's age has reached the hold-off. -/
def State.recentDue (s : State) (e : RecentEntry) : Bool := decide (s.setup.holdOff * 1000 ≤ (e.age s.controller.time).toNat)

/-- R83 step 2: a PAID identity joins the recent passage list. -/
def State.rememberPaid (x : Context) (s : State) : State :=
  if x.outcome.map (·.1) = some .paid ∧ s.setup.holdOff ≠ 0 then
    { s with contexts := { s.contexts with recent := joinRecent ⟨x.identity, s.controller.time⟩ s.contexts.recent } }
  else s

/-- R83: a context in REPORTING is freed. -/
def State.freeContext (c : Fin 24) (s : State) : State :=
  match s.context c with
  | none => s
  | some x =>
    if x.state = .reporting then
      let t := match x.keyLink with
        | some k => s.releaseReference k
        | none => s
      (t.rememberPaid x).setContext c none
    else s

/-- R41, R54, R83: the holder of a written report is released. -/
def State.releaseHolder (h : ReportHolder) (s : State) : State :=
  match h with
  | .context c => s.freeContext c
  | .inbound r =>
    match s.inSlot r with
    | .reportWait _ _ => s.setInSlot r .free
    | _ => s
  | .outbound r =>
    match (s.outSlot r).state with
    | .spoiled h' (some _) => s.setOutSlot r { s.outSlot r with state := .spoiled h' none }
    | _ => s

/-- R142, R143: P and the sequence count advance, and the write is no longer in progress. -/
def State.advanceRing (s : State) : State :=
  { s with reports := { s.reports with
      producer := (s.reports.producer + 1) % s.setup.capacity, sequence := s.reports.sequence + 1, write := .idle } }

/-- R142: the pending list becomes `l`. -/
def State.setWaiting (l : List ReportHolder) (s : State) : State := { s with reports := { s.reports with waiting := l } }

/-- R142 steps 1 to 3: the written event of a WRITE_REPORT. -/
def State.written (s : State) : State :=
  match s.reports.write, s.reports.waiting with
  | .writing, h :: rest => ((s.advanceRing).setWaiting rest).releaseHolder h
  | _, _ => s.advanceRing

end Sys2Proof.Machine
end

