-- ==== Sys2Proof/Machine/Load.lean ====
section
/-! DEFINITION. The load unit (spec/06): the load window, the tests on an unwrapped record, INSTALL and REVOKE, the end of
a load. -/

namespace Sys2Proof.Machine

/-! ## Filling the window -/

/-- R109, R110: a buffer in which word 0 alone is written. -/
def loadStart (v : Word) : Table 16 Word := (Table.fill 16 0).set 0 v

/-- R109, R110: a window write the load unit takes. -/
def State.takeLoadWord (i : Fin 16) (v : Word) (s : State) : State :=
  match s.load.state with
  | .idle =>
    if i = 0 then s.setLoad { s.load with state := .filling, buffer := loadStart v, fill := 1 } else s
  | .filling =>
    if i = 0 then s.setLoad { s.load with buffer := loadStart v, fill := 1 }
    else if s.load.fill + 1 = 16 then
      (s.setLoad { s.load with state := .unwrapping, buffer := s.load.buffer.set i v, fill := 16 }).joinReady .unwrap
    else s.setLoad { s.load with buffer := s.load.buffer.set i v, fill := s.load.fill + 1 }
  | .unwrapping => s

/-- R112: why a window write is refused, in the order of R21. -/
def State.loadRefusal (s : State) (size : Size) : Option RefusalKind :=
  if s.controller.state = .unset ∨ s.controller.state = .halted ∨ s.controller.state = .purging then some .state
  else if size ≠ .word then some .partialWrite
  else if s.load.state = .unwrapping then some .loadBusy
  else none

/-- R109: the load unit is IDLE with the buffer cleared; the load result word stays. -/
def Load.drop (l : Load) : Load := { Load.reset with result := l.result }

/-! ## Opening the record -/

/-- R114: the kinds of record. -/
def LoadRecord.isInstall (d : LoadRecord) : Bool := d.kind == 1
def LoadRecord.isRevoke (d : LoadRecord) : Bool := d.kind == 2

/-- R114: the record carries content the part does not accept. -/
def LoadRecord.bad (d : LoadRecord) : Bool :=
  !(d.isInstall || d.isRevoke) || d.format != 1 || (d.isInstall && d.issuer == 0xFFFF#16)

/-- The table of "Opening the record": the outcome of a record and the entry it concerns. -/
def State.loadOutcome (s : State) (d : LoadRecord) (pass : Bool) : LoadOutcome × Option (Fin 48) :=
  if pass = false then (.badCheck, none)
  else if d.bad then (.badRecord, none)
  else if d.serial.toNat ≤ s.keys.highestSerial.toNat then (.stale, none)
  else if d.isInstall then
    if d.validUntil.toNat ≤ d.validFrom.toNat then (.badWindow, none)
    else
      match s.findKey d.issuer d.generation with
      | some k => (.duplicate, some k)
      | none =>
        match s.keys.entries.first fun e => e.state == .empty with
        | some k => (.ok, some k)
        | none => (.tableFull, none)
  else
    match s.findKey d.issuer d.generation with
    | some k => (.ok, some k)
    | none => (.notFound, none)

/-- R95, R116: the entry an OK INSTALL writes, evaluated against the clock. One whose window the clock has passed is EMPTY at once
(R116, R92), so a setup that then sets the clock back does not bring it back; R123's sentence, that either order leaves the entry
in the state the new clock gives, is not followed there (log 35). -/
def LoadRecord.entry (d : LoadRecord) (key : Key) (clock : Option Word) : KeyEntry :=
  (KeyEntry.mk (windowState clock d.validFrom d.validUntil) d.issuer d.generation d.validFrom d.validUntil (some key)
    (d.serial.extractLsb' 0 16) 0).settle

/-- R105, R115: the highest load serial takes the record's serial; what the retained store held before is kept for a write
cut short. -/
def State.raiseSerial (k : Fin 48) (serial : Word) (s : State) : State :=
  { s with keys := { s.keys with
      highestSerial := serial, lastWrite := some ⟨k, s.keys.entries.get k, s.keys.highestSerial⟩ } }

/-- R116: an OK INSTALL. -/
def State.install (k : Fin 48) (d : LoadRecord) (key : Key) (s : State) : State :=
  (s.raiseSerial k d.serial).setEntry k (d.entry key s.controller.seconds)

/-- R98: an entry revoked; its key is erased. -/
def KeyEntry.revoke (e : KeyEntry) : KeyEntry := { e with state := .revoked, key := none }

/-- R117, R81, R92: an OK REVOKE. -/
def State.revoke (k : Fin 48) (d : LoadRecord) (s : State) : State :=
  let e := s.keys.entries.get k
  ((s.raiseSerial k d.serial).setEntry k e.revoke.settle).closeHolders k

/-- R114 to R117: the record's effect on the key table. -/
def State.applyRecord (d : LoadRecord) (key : Key) (o : LoadOutcome × Option (Fin 48)) (s : State) : State :=
  match o with
  | (.ok, some k) => if d.isInstall then s.install k d key else s.revoke k d
  | _ => s

/-- R118: the end of a load. -/
def State.endLoad (d : LoadRecord) (o : LoadOutcome × Option (Fin 48)) (s : State) : State :=
  (s.setLoad { Load.reset with result := ⟨d.serial.extractLsb' 0 16, o.1, o.2⟩ }).raise .load

/-- R113: the load unit acts on a completed UNWRAP. -/
def State.openRecord (transport : Key) (words : List Word) (check : Wide) (s : State) : State :=
  let d := LoadRecord.ofBuffer s.load.buffer
  let o := s.loadOutcome d (decide (check = Config.unwrapCheck transport words))
  (s.applyRecord d (Config.unwrapKey transport words) o).endLoad d o

end Sys2Proof.Machine
end

