-- ==== Sys2Proof/Machine/Setup.lean ====
section
/-! DEFINITION. The setup (spec/09 R152 to R156, spec/12): the fields of the image, the checks word by word, the
application. -/

namespace Sys2Proof.Machine

/-! ## The image -/

/-- Word `n` of a fetched setup image. -/
def imageWord (image : List Word) (n : Nat) : Word := image.getD n 0

/-- Formats: set-time. -/
def setTime (image : List Word) : Bool := Word.field (imageWord image 0) 8 1 == 1

/-- Formats: a lane's four words. -/
def Lane.ofImage (image : List Word) (n : Fin 8) : Lane where
  enable := Word.field (imageWord image (12 + 4 * n.val)) 0 1 == 1
  slotWords := Word.field (imageWord image (12 + 4 * n.val)) 8 8
  inCount := Word.field (imageWord image (12 + 4 * n.val)) 16 5
  outCount := Word.field (imageWord image (12 + 4 * n.val)) 24 5
  inBase := (imageWord image (13 + 4 * n.val)).toNat
  outBase := (imageWord image (14 + 4 * n.val)).toNat
  holdLimit := Word.field (imageWord image (15 + 4 * n.val)) 0 16
  deadline := Word.field (imageWord image (15 + 4 * n.val)) 16 16

/-- Formats: a filter's word. -/
def Filter.ofImage (image : List Word) (f : Fin 8) : Filter where
  enable := Word.field (imageWord image (4 + f.val)) 24 1 == 1
  code := (imageWord image (4 + f.val)).extractLsb' 0 16
  maskWidth := Word.field (imageWord image (4 + f.val)) 16 5

/-- A table given by a function. -/
def tableOf {α : Type} (n : Nat) (f : Fin n → α) : Table n α :=
  ⟨(List.finRange n).map f, (List.length_map ..).trans List.length_finRange⟩

/-- Formats: the setup an image gives. -/
def Setup.ofImage (image : List Word) : Setup where
  lanes := tableOf 8 (Lane.ofImage image)
  filters := tableOf 8 (Filter.ofImage image)
  service := Word.field (imageWord image 0) 9 1 == 1
  holdOff := Word.field (imageWord image 3) 0 16
  ringOffset := Word.field (imageWord image 2) 0 16
  capacity := Word.field (imageWord image 2) 16 8
  enables := (imageWord image 3).extractLsb' 16 7

/-! ## The checks -/

/-- R14: a byte range, by its first byte and its length. -/
structure Range where
  base : Nat
  bytes : Nat
deriving DecidableEq, Repr

/-- R154: two ranges share a byte. -/
def Range.overlaps (a b : Range) : Bool := decide (a.base < b.base + b.bytes ∧ b.base < a.base + a.bytes)

/-- R14: the ranges of a lane's rings. -/
def Lane.inRange (l : Lane) : Range := ⟨l.inBase, l.inCount * (4 * l.slotWords)⟩
def Lane.outRange (l : Lane) : Range := ⟨l.outBase, l.outCount * (4 * l.slotWords)⟩

/-- R154: an enabled ring lies in the address space, outside the control block and clear of other rings. -/
def Range.placed (a block : Range) (others : List Range) : Bool :=
  decide (a.base + a.bytes ≤ Memory.bytes) && !a.overlaps block && others.all fun o => !a.overlaps o

/-- R154: the rings of the lower-numbered enabled lanes. -/
def lowerRings (x : Setup) (n : Fin 8) : List Range :=
  ((x.lanes.cells.take n.val).filter (·.enable)).flatMap fun l => [l.inRange, l.outRange]

/-- R154: a ring base of a lane. -/
def Lane.basePasses (l : Lane) (base : Nat) (placed : Bool) : Bool :=
  base % (4 * l.slotWords) == 0 && (!l.enable || placed)

/-- R154: the check of word `k` of the image (words 0 to 43), given the seconds clock, the control block range and the
setup the image gives. -/
def wordPasses (image : List Word) (clockSet : Bool) (block : Range) (x : Setup) (k : Nat) : Bool :=
  if k = 0 then Word.field (imageWord image 0) 0 8 == 1 && (clockSet || setTime image)
  else if k = 1 then true
  else if k = 2 then
    decide (0x1000 ≤ x.ringOffset ∧ x.ringOffset % 32 = 0 ∧ 16 ≤ x.capacity ∧ x.capacity ≤ 128
      ∧ x.ringOffset + x.capacity * 32 ≤ 0x10000)
  else if k = 3 then decide (x.holdOff ≤ 3600)
  else if k < 12 then decide ((x.filters.get (Fin.ofNat 8 (k - 4))).maskWidth ≤ 15)
  else
    let n : Fin 8 := Fin.ofNat 8 ((k - 12) / 4)
    let l := x.lanes.get n
    match (k - 12) % 4 with
    | 0 => (l.slotWords == 16 || l.slotWords == 32)
        && decide (1 ≤ l.inCount ∧ l.inCount ≤ 16 ∧ 1 ≤ l.outCount ∧ l.outCount ≤ 16)
    | 1 => l.basePasses l.inBase (l.inRange.placed block (lowerRings x n))
    | 2 => l.basePasses l.outBase (l.outRange.placed block (lowerRings x n ++ [l.inRange]))
    | _ => decide (l.holdLimit ≤ 255 ∧ 10 ≤ l.deadline ∧ l.deadline ≤ 2000)

/-- R14: the control block's byte range. -/
def State.blockRange (s : State) : Range := ⟨4 * s.blockBase, 65536⟩

/-- R154: the first failing word of the image. -/
def State.firstFailing (s : State) (image : List Word) : Option Nat :=
  (List.range 44).find? fun k => !wordPasses image s.controller.seconds.isSome s.blockRange (Setup.ofImage image) k

/-! ## Ending and applying -/

/-- The control block decoder replaced (R151, R162). -/
def State.setControl (x : Control) (s : State) : State := { s with control := x }

/-- R151: the command result word takes an outcome other than PENDING. -/
def State.result (code : BitVec 8) (o : CommandOutcome) (detail : BitVec 8) (s : State) : State :=
  (s.setControl { s.control with result := ⟨code, o, detail⟩ }).raise .command

/-- R153, R156: a running setup ends with an outcome. -/
def State.endSetup (o : CommandOutcome) (detail : BitVec 8) (s : State) : State :=
  (s.setControl { s.control with setupRunning := false }).result 1 o detail

/-- R57: the slot side of an applied setup. -/
def State.releaseSlotsForSetup (s : State) : State :=
  ((s.answerAnyHeld).mapSlots (fun _ => .free) OutSlot.releaseForSetup).dropJobs Job.fetchesFrame

/-- R85: an applied setup's hold-off drops the entries whose age reaches it. -/
def State.trimRecent (s : State) : State :=
  { s with contexts := { s.contexts with recent := s.contexts.recent.filter fun e => !s.recentDue e } }

/-- R167: the seconds clock takes a value, and counts its next second from this moment. -/
def State.setSeconds (t : Word) (s : State) : State :=
  { s with controller := { s.controller with seconds := some t, millis := 0 } }

/-- R93, R91, R167: the clock takes a value and the key table is evaluated. -/
def State.setClock (t : Word) (s : State) : State := (s.setSeconds t).evaluateKeys

/-- R155: the part goes to RUNNING, or stays PURGING. -/
def PartState.afterSetup (p : PartState) : PartState :=
  match p with
  | .purging => .purging
  | .unset => .running
  | .running => .running
  | .dormant => .running
  | .halted => .running

/-- R155, R138: a setup comes into force; P and C become 0. -/
def State.enforce (x : Setup) (s : State) : State :=
  { s with
    setup := x
    reports := { s.reports with producer := 0, consumer := 0 }
    controller := { s.controller with setupPresent := true, state := s.controller.state.afterSetup } }

/-- R155: with set-time on, the seconds clock takes the seconds value. -/
def State.setClockFrom (image : List Word) (s : State) : State :=
  if setTime image then s.setClock (imageWord image 1) else s

/-- R155: a setup that passes every check is applied. -/
def State.applySetup (image : List Word) (s : State) : State :=
  ((((s.releaseSlotsForSetup).enforce (Setup.ofImage image)).trimRecent).setClockFrom image).endSetup .done 0

/-- R152, R153: no context is open, the pending list is empty and no report write is in progress. -/
def State.quiet (s : State) : Bool :=
  s.contextsIn none == 24 && s.reports.waiting.isEmpty && s.reports.write == .idle

/-- R153: the take of the FETCH_SETUP. -/
def State.takeSetup (image : List Word) (s : State) : State :=
  if s.quiet then
    match s.firstFailing image with
    | some k => s.endSetup .badImage (BitVec.ofNat 8 k)
    | none => s.applySetup image
  else s.endSetup .busy 0

end Sys2Proof.Machine
end

