-- ==== Sys2Proof/Machine/Lines.lean ====
section
/-! DEFINITION. What a power warning and a purge do to the part (spec/10 R170 to R173), and what RESET and a loss of power
leave. -/

namespace Sys2Proof.Machine

/-! ## The power warning -/

/-- R88: every open context is cleared to FREE and counted as abandoned; R84: the recent passage list is emptied. -/
def State.abandonContexts (s : State) : State :=
  { s with contexts :=
      ⟨Table.fill 24 none, [], s.contexts.abandoned + BitVec.ofNat 32 (24 - s.contextsIn none)⟩ }

/-- R29: every agent job is removed. -/
def State.clearJobs (s : State) : State :=
  let t := s.abandonCurrent
  { t with agent := Agent.reset }

/-- R147: the pending list is emptied and no write is in progress. -/
def State.clearReports (s : State) : State :=
  { s with reports := { s.reports with waiting := [], write := .idle } }

/-- R58: every slot record returns to FREE, a held read answered. -/
def State.clearSlots (s : State) : State :=
  (s.answerAnyHeld).mapSlots (fun _ => .free) fun _ => OutSlot.reset

/-- R156: a setup that is running ends STATE. -/
def State.stopSetup (s : State) : State := if s.control.setupRunning then s.endSetup .state 0 else s

/-- The part enters a state; a wake it was in is over. -/
def State.enter (p : PartState) (s : State) : State :=
  { s with controller := { s.controller with state := p, wake := .asleep } }

/-- R121, R123: a load in progress is dropped. -/
def State.dropLoad (s : State) : State := s.setLoad s.load.drop

/-- R170: the power warning takes effect. -/
def State.powerWarning (s : State) : State :=
  ((((((((s.abandonContexts).dropReferences).cutEngine).clearJobs).clearReports).clearSlots).dropLoad).stopSetup).enter .halted

/-- R170, R171: the state the setup-present flag gives. -/
def Controller.restored (c : Controller) : PartState := if c.setupPresent then .running else .unset

/-- R171: the return from HALTED. -/
def State.returnFromHalted (s : State) : State := (s.enter s.controller.restored).raise .power

/-! ## The purge -/

/-- R82: a purge at one context; the marks are already clear. -/
def State.purgeContext (c : Fin 24) (s : State) : State :=
  match s.context c with
  | none => s
  | some x => if x.state = .closing then s.endClosing c else s.close .purged c

/-- R82, R134: a function on every open context. -/
def State.mapContexts (f : Context → Context) (s : State) : State :=
  { s with contexts := { s.contexts with table := s.contexts.table.map fun x => x.map f } }

/-- R82: the context side of a purge. -/
def State.purgeContexts (s : State) : State :=
  let t := s.mapContexts fun x => { x with mark := false }
  let t := Table.ascending 24 State.purgeContext t
  t.mapContexts fun x => { x with keyLink := none, tagKey := none }

/-- R172: the part records whether it entered PURGING from HALTED. -/
def State.markOrigin (s : State) : State :=
  { s with controller := { s.controller with fromHalted := s.controller.state == PartState.halted, purgeAtWake := false } }

/-- R120: the key side of a purge. -/
def State.purgeKeys (s : State) : State := { s with keys := s.keys.purge }

/-- R172: the part enters PURGING. The operation in progress is cut short with no completion (R134, R120, R82, R79); R9's
sentence, that a DERIVE whose entry is purged still completes with a tag key, is not followed (log 31). -/
def State.enterPurging (s : State) : State :=
  (((((((s.markOrigin).purgeKeys).dropLoad).cutEngine).purgeContexts).mapSlots id OutSlot.dropResult).enter .purging).settle

/-- R173: the erase mark is cleared and PURGE is raised. -/
def State.endErase (s : State) : State := { s with keys := s.keys.erased }.raise .purge

/-- R173: the part leaves PURGING by the PWARN line. -/
def State.completeErase (s : State) : State :=
  if s.controller.lines.pwarn then s.endErase.powerWarning
  else if s.controller.fromHalted then s.endErase.returnFromHalted
  else s.endErase.enter s.controller.restored

/-! ## RESET and loss of power -/

/-- R165 step 4, R136: every volatile item takes its RESET value. What stays: the retained store, the fixed straps and
lines, the ports and what occupies the memory port, frame memory, and the model's own fields. -/
def State.loseVolatile (c : Controller) (k : Keys) (s : State) : State where
  controller := c
  path := Path.reset
  ports := s.ports
  arbiter := s.arbiter
  agent := Agent.reset
  slots := Slots.reset
  contexts := Contexts.reset
  keys := k
  load := Load.reset
  engine := Engine.reset
  reports := Reports.reset
  control := Control.reset
  setup := Setup.reset
  mem := s.mem
  fresh := s.fresh
  pending := s.pending

/-- R165: an outstanding access becomes a plain pass-through access; one that was held is handed to the arbiter. -/
def Phase.unwatch (p : Phase) : Phase :=
  match p with
  | .wake => .waiting none
  | .waiting _ => .waiting none
  | .inFlight _ => .inFlight none
  | .codeHeld => .waiting none

/-- R165: a port's access at the assertion of RESET. -/
def PortState.unwatch (x : PortState) : PortState :=
  { x with access := x.access.map fun o => { o with phase := o.phase.unwatch, sinceWake := false } }

end Sys2Proof.Machine
end

