-- ==== Sys2Proof/Machine/Control.lean ====
section
/-! DEFINITION. The command word (spec/09 R150 to R160): deciding a command, and the five commands. -/

namespace Sys2Proof.Machine

/-! ## LANE_RESTART -/

/-- R55, R56: the slot records of a restarted lane. -/
def LaneSlots.restart (l : LaneSlots) : LaneSlots :=
  { l with inbound := l.inbound.map fun _ => .free, outbound := l.outbound.map OutSlot.release }

/-- R56, R133: a pending CODE of a slot of lane `n`. -/
def Holder.codesLane (n : Fin 8) (h : Holder) : Bool :=
  match h with
  | .code r => r.lane == n
  | .verify _ => false
  | .derive _ => false
  | .unwrap => false

/-- R146: an entry held by a slot of lane `n`. -/
def ReportHolder.inLane (n : Fin 8) (h : ReportHolder) : Bool :=
  match h with
  | .context _ => false
  | .inbound r => r.lane == n
  | .outbound r => r.lane == n

/-- R146: the pending list without the lane's slots; a write in progress for one of them goes on without its entry. -/
def Reports.dropLane (n : Fin 8) (p : Reports) : Reports :=
  { p with
    waiting := p.waiting.filter fun h => !h.inLane n
    write := if p.write = .writing ∧ (p.waiting.head?.map (ReportHolder.inLane n)) = some true then .orphan else p.write }

/-- R55, R56: a held read on any slot of the lane gets the fill pattern. -/
def State.answerHeldInLane (n : Fin 8) (s : State) : State :=
  match s.slots.held with
  | some h => if h.slot.lane = n then s.answerHeld h.slot fillPattern else s
  | none => s

/-- The context's bound slot is in lane `n`. -/
def Context.boundIn (n : Fin 8) (x : Context) : Bool := x.bound.any fun r => r.lane == n

/-- R87: a context that lane `n` is taken out of. -/
def Context.trim (n : Fin 8) (x : Context) : Context :=
  let y := { x with lanes := x.lanes &&& ~~~ laneBit n }
  if x.boundIn n then y.dropBinding else y

/-- R86, R87: what a LANE_RESTART does to one context; the lane's slots have been released. -/
def State.restartContext (n : Fin 8) (c : Fin 24) (s : State) : State :=
  match s.context c with
  | none => s
  | some x =>
    if x.state.closable then
      if x.homeLane = n then
        (if x.boundIn n then s.setContext c (some { x with bound := none }) else s).close .abandoned c
      else if laneIn n x.lanes then s.setContext c (some (x.trim n))
      else s
    else s

/-- R55, R56: the slots of lane `n` are released. -/
def State.releaseLane (n : Fin 8) (s : State) : State := s.setLane n (s.slots.lanes.get n).restart

/-- R56, R133: the pending CODEs of lane `n` leave the ready list. -/
def State.dropCodes (n : Fin 8) (s : State) : State :=
  { s with engine := { s.engine with ready := s.engine.ready.filter fun h => !h.codesLane n } }

/-- R146: the entries of lane `n`'s slots leave the pending list. -/
def State.dropLaneReports (n : Fin 8) (s : State) : State := { s with reports := s.reports.dropLane n }

/-- R158: the act of a LANE_RESTART. -/
def State.restartLane (n : Fin 8) (s : State) : State :=
  Table.ascending 24 (State.restartContext n)
    (((((s.answerHeldInLane n).releaseLane n).dropCodes n).dropJobs (Job.fetchesLane n)).dropLaneReports n)

/-! ## REST -/

/-- R157: what declines a REST. -/
def State.busyForRest (s : State) : Bool :=
  s.contextsIn none != 24 || !s.agent.jobs.isEmpty || !s.engine.ready.isEmpty || s.engine.operation.isSome
    || !s.reports.waiting.isEmpty || s.load.state == .unwrapping

/-! ## Deciding -/

/-- R150: the five commands, by code. -/
inductive Command where
  | setup
  | rest
  | laneRestart
  | releaseReports
  | clearAttention
deriving DecidableEq, Repr

/-- R150: the command of a code. -/
def Command.ofCode (code : BitVec 8) : Option Command :=
  if code = 1 then some .setup
  else if code = 2 then some .rest
  else if code = 3 then some .laneRestart
  else if code = 4 then some .releaseReports
  else if code = 5 then some .clearAttention
  else none

/-- R150 step 3, R164: the part state allows the command; the part awake from DORMANT decides as in RUNNING. -/
def PartState.allows (p : PartState) (c : Command) : Bool :=
  match p with
  | .unset => c == .setup || c == .clearAttention
  | .running => true
  | .dormant => true
  | .halted => c == .clearAttention
  | .purging => c == .clearAttention

/-- R150 step 4: the operand is in range. -/
def State.operandInRange (s : State) (c : Command) (operand : BitVec 24) : Bool :=
  match c with
  | .setup => true
  | .rest => true
  | .laneRestart => decide (operand.toNat < 8)
  | .releaseReports => decide (operand.toNat < s.setup.capacity)
  | .clearAttention => decide (operand.toNat < 128)

/-- R145: an index lies in the span from C to P. -/
def State.inSpan (s : State) (i : Nat) : Bool :=
  let n := s.setup.capacity
  decide ((i + n - s.reports.consumer) % n ≤ (s.reports.producer + n - s.reports.consumer) % n)

/-- R150 steps 1 to 5: the outcome with which a command word write is declined, none when it is accepted. -/
def State.declines (s : State) (code : BitVec 8) (operand : BitVec 24) : Option CommandOutcome :=
  if s.control.setupRunning then some .busy
  else
    match Command.ofCode code with
    | none => some .badOperand
    | some c =>
      if s.controller.state.allows c = false then some .state
      else if s.operandInRange c operand = false then some .badOperand
      else
        match c with
        | .setup => if s.quiet && s.load.state == .idle then none else some .busy
        | .rest => if s.busyForRest then some .busy else none
        | .laneRestart => none
        | .releaseReports => if s.inSpan operand.toNat then none else some .badOperand
        | .clearAttention => none

/-- R145: the consumer index. -/
def State.setConsumer (i : Nat) (s : State) : State := { s with reports := { s.reports with consumer := i } }

/-- R152: an accepted SETUP. -/
def State.startSetup (s : State) : State :=
  (s.setControl { s.control with setupRunning := true, result := ⟨1, .pending, 0⟩ }).queueJob .fetchSetup

/-- R168: an accepted REST; a part awake from DORMANT stays awake until R169 lets it sleep. -/
def State.goDormant (s : State) : State := { s with controller := { s.controller with state := .dormant } }

/-- R160: the named causes, other than REPORTS, stop being pending. -/
def State.clearCauses (set : BitVec 7) (s : State) : State :=
  { s with control := { s.control with raised := s.control.raised &&& ~~~ set } }

/-- R150: an accepted command is carried out. -/
def State.carryOut (c : Command) (code : BitVec 8) (operand : BitVec 24) (s : State) : State :=
  match c with
  | .setup => s.startSetup
  | .rest => (s.result code .done 0).goDormant
  | .laneRestart => (s.restartLane (Fin.ofNat 8 operand.toNat)).result code .done 0
  | .releaseReports => (s.setConsumer operand.toNat).result code .done 0
  | .clearAttention => (s.result code .done 0).clearCauses (operand.extractLsb' 0 7)

/-- R169: the wake phase of a part that has become RUNNING: a wake in progress goes on (log 33). -/
def Wake.running (w : Wake) : Wake :=
  match w with
  | .asleep => .asleep
  | .waking => .waking
  | .awake => .asleep

/-- R169: an access that changes state has been answered: a DORMANT part is RUNNING. -/
def State.rouse (s : State) : State :=
  if s.controller.state = .dormant then
    { s with controller := { s.controller with state := .running, wake := s.controller.wake.running } }
  else s

/-- R150: the command word write of a code and operand is decided in one act. -/
def State.command (code : BitVec 8) (operand : BitVec 24) (s : State) : State :=
  match s.declines code operand, Command.ofCode code with
  | none, some .rest => s.carryOut .rest code operand
  | none, some c => (s.carryOut c code operand).rouse
  | some o, _ => (s.result code o 0).rouse
  | none, none => s

end Sys2Proof.Machine
end

