-- ==== Sys2Proof/Machine/Path.lean ====
section
/-! DEFINITION. The path monitor (spec/02): the arrival of an access, its classification, pass-through, tracked writes,
code-word reads, and the wake that an access causes (spec/10 R169). -/

namespace Sys2Proof.Machine

/-! ## Sleeping again -/

/-- R169: the port has an access held or arrived since the wake. -/
def PortState.busySinceWake (x : PortState) : Bool :=
  match x.access with
  | some o => o.sinceWake
  | none => false

/-- R169: the awake part returns to sleep once every watched access since the wake has been answered without changing
state. -/
def State.relax (s : State) : State :=
  if s.controller.state = .dormant ∧ s.controller.wake = .awake ∧ s.ports.c.busySinceWake = false
      ∧ s.ports.r.busySinceWake = false then
    s.setWake .asleep
  else s

/-- R169: an access counts towards the return to sleep if it is watched and the part is DORMANT. -/
def State.sinceWake (s : State) (word : BitVec 20) : Bool := s.controller.state == .dormant && s.watched word

/-! ## Wakes -/

/-- R169: a watched access is held for a wake: the part is DORMANT and not awake, or a wake is in progress. -/
def Controller.holdsAccesses (c : Controller) : Bool :=
  match c.wake with
  | .asleep => c.state == .dormant
  | .waking => true
  | .awake => false

/-- R169: an access that is outstanding when a wake begins is not one of those held or arrived since that wake. -/
def PortState.beforeWake (x : PortState) : PortState :=
  { x with access := x.access.map fun o => { o with sinceWake := false } }

/-- R169: a wake begins, unless one is in progress. -/
def State.startWake (s : State) : State :=
  if s.controller.wake = .waking then s
  else { s with ports := ⟨s.ports.c.beforeWake, s.ports.r.beforeWake⟩ }.setWake .waking

/-! ## Pass-through and tracked accesses -/

/-- R18, R30: the refusal a tracked write meets, none for a permitted write and for an access that is not tracked. A write
whose address is no longer the slot word it was found at is not tracked any more (log 12). -/
def State.judgeTracked (s : State) (a : Access) (track : Option SlotWord) : Option RefusalKind :=
  match track with
  | none => none
  | some t => if s.slotAt a.word = some t then s.judge t else none

/-- R17, R30: a pass-through access is handed to the arbiter, or refused during MREST; a tracked write is judged by the
slot tracker first. -/
def State.passThrough (p : Port) (a : Access) (track : Option SlotWord) (s : State) : State :=
  if s.controller.lines.mrest then
    match s.judgeTracked a track with
    | some kind => s.refuse p kind a.address
    | none => s.refuse p .memoryResting a.address
  else s.hold p ⟨a, .waiting track, s.sinceWake a.word⟩

/-! ## Code-word reads -/

/-- R49: which code word of an outbound slot a word is: the low one, the high one, or none. -/
def OutSlot.codeWord (x : OutSlot) (w : Nat) : Option Bool :=
  match x.codePosition with
  | none => none
  | some k => if w = k then some false else if w = k + 1 then some true else none

/-- R51, R49: a read that arrives before the code is ready: held, or with a hold limit of 0 an underrun at once. -/
def State.holdRead (r : SlotRef) (high : Bool) (a : Access) (s : State) : State :=
  let limit := (s.setup.lanes.get r.lane).holdLimit
  if limit = 0 then (s.supply .r a.size fillPattern).underrun r
  else
    (s.setHeld (some ⟨r, high, s.controller.time, limit⟩)).hold .r ⟨a, .codeHeld, s.sinceWake a.word⟩

/-- R49, R50: a code-word read is answered by the slot's state. -/
def State.readCode (r : SlotRef) (high : Bool) (a : Access) (s : State) : State :=
  match (s.outSlot r).state with
  | .armed _ _ code =>
    let t := s.supply .r a.size (codeHalf high code)
    if high then t.send r else t
  | .closed _ => s.holdRead r high a
  | .fetching _ => s.holdRead r high a
  | .waitingKey _ _ => s.holdRead r high a
  | .coding _ _ => s.holdRead r high a
  | .free => s.supply .r a.size fillPattern
  | .composing _ _ => s.supply .r a.size fillPattern
  | .spoiled _ _ => s.supply .r a.size fillPattern
  | .draining _ => s.supply .r a.size fillPattern

/-! ## Classification -/

/-- R15, R39, R44, R49: an access that falls in a watched ring. -/
def State.ringAccess (p : Port) (a : Access) (t : SlotWord) (s : State) : State :=
  match t.ring, p, a.write with
  | .inbound, .c, true => s.refuse p .wrongPort a.address
  | .inbound, .r, true => if a.size = .word then s.passThrough p a (some t) else s.refuse p .partialWrite a.address
  | .inbound, _, false => s.passThrough p a none
  | .outbound, .r, true => s.refuse p .wrongPort a.address
  | .outbound, .c, true => if a.size = .word then s.passThrough p a (some t) else s.refuse p .partialWrite a.address
  | .outbound, .c, false => s.passThrough p a none
  | .outbound, .r, false =>
    match (s.outSlot t.slot).codeWord t.word with
    | some high => s.readCode t.slot high a
    | none => s.passThrough p a none

/-- R108, R110, R112: a C-port write to the load window. -/
def State.loadWindow (i : Fin 16) (a : Access) (s : State) : State :=
  match s.loadRefusal a.size with
  | some kind => s.refuse .c kind a.address
  | none => ((s.takeLoadWord i a.data).respond .c (.done none)).rouse

/-- R150: a C-port write to the command word. -/
def State.commandWrite (a : Access) (s : State) : State :=
  if a.size = .word then (s.respond .c (.done none)).command (commandCode a.data) (commandOperand a.data)
  else s.refuse .c .partialWrite a.address

/-- R149: a C-port access to the control block, by area. -/
def State.blockAccess (a : Access) (s : State) : State :=
  let area := s.area (a.word.toNat - s.blockBase)
  if a.write then
    match area with
    | .plain => s.passThrough .c a none
    | .command => s.commandWrite a
    | .overlay _ => s.refuse .c .readOnly a.address
    | .loadWindow i => s.loadWindow i a
    | .keyStatus _ _ => s.refuse .c .readOnly a.address
    | .reportRing => s.refuse .c .readOnly a.address
  else
    match s.suppliedWord area with
    | some w => s.supply .c a.size w
    | none => s.passThrough .c a none

/-- R15: the classification of an access of an operating, awake part. -/
def State.classify (p : Port) (a : Access) (s : State) : State :=
  if s.inBlock a.word then
    match p with
    | .c => s.blockAccess a
    | .r => s.refuse .r .wrongPort a.address
  else
    match s.slotAt a.word with
    | some t => s.ringAccess p a t
    | none => s.passThrough p a none

/-- R15, R169, R165: an access arrives. One that falls in a watched range of a sleeping part wakes it and is held, and so is
one that arrives during a wake; while RESET is asserted every access is handed to the arbiter; a port with an access
outstanding issues no other (log 2). -/
def State.arrive (p : Port) (a : Access) (s : State) : State :=
  if (s.port p).access.isSome then s
  else
    match s.controller.power with
    | .off => s
    | .inReset => s.hold p ⟨a, .waiting none, false⟩
    | .on =>
      if s.controller.holdsAccesses ∧ s.watched a.word then s.startWake.hold p ⟨a, .wake, true⟩
      else ((s.classify p a).relax).settle

/-- R169: an access held for a wake is classified. -/
def State.classifyHeld (p : Port) (s : State) : State :=
  match (s.port p).access with
  | some ⟨a, .wake, _⟩ => (s.setPort p { s.port p with access := none }).classify p a
  | _ => s

/-- R169: both ports' held accesses are classified, in an order. -/
def State.classifyAllHeld (order : Order) (s : State) : State :=
  match order with
  | .cFirst => (s.classifyHeld .c).classifyHeld .r
  | .rFirst => (s.classifyHeld .r).classifyHeld .c

/-! ## The accesses that have rows of their own -/

/-- A write of the command word (R150). -/
def State.writeCommand (code : BitVec 8) (operand : BitVec 24) (s : State) : State :=
  s.arrive .c ⟨true, s.blockWord 0x40, .word, commandWord code operand⟩

/-- R15: MEMORY_ACCESS. -/
def execMemoryAccess (p : Port) (a : Access) (s : State) : Host.Outcome State Fault Refusal := .next (s.arrive p a)

/-- R149: CONTROL_BLOCK_WRITE. -/
def execControlBlockWrite (offset : BitVec 14) (size : Size) (data : Word) (s : State) : Host.Outcome State Fault Refusal :=
  .next (s.arrive .c ⟨true, s.blockWord offset.toNat, size, data⟩)

/-- R49: CODE_WORD_READ. -/
def execCodeWordRead (word : BitVec 20) (size : Size) (s : State) : Host.Outcome State Fault Refusal :=
  .next (s.arrive .r ⟨false, word, size, 0⟩)

/-- R110: LOAD_WINDOW_WRITE. -/
def execLoadWindowWrite (index : Fin 16) (size : Size) (data : Word) (s : State) : Host.Outcome State Fault Refusal :=
  .next (s.arrive .c ⟨true, s.blockWord (0xC0 + index.val), size, data⟩)

/-- R152: SETUP. -/
def execSetup (operand : BitVec 24) (s : State) : Host.Outcome State Fault Refusal := .next (s.writeCommand 1 operand)

/-- R157: REST. -/
def execRest (operand : BitVec 24) (s : State) : Host.Outcome State Fault Refusal := .next (s.writeCommand 2 operand)

/-- R158: LANE_RESTART. -/
def execLaneRestart (operand : BitVec 24) (s : State) : Host.Outcome State Fault Refusal := .next (s.writeCommand 3 operand)

/-- R159: RELEASE_REPORTS. -/
def execReleaseReports (operand : BitVec 24) (s : State) : Host.Outcome State Fault Refusal := .next (s.writeCommand 4 operand)

/-- R160: CLEAR_ATTENTION. -/
def execClearAttention (operand : BitVec 24) (s : State) : Host.Outcome State Fault Refusal := .next (s.writeCommand 5 operand)

/-- R150: UNKNOWN_COMMAND. -/
def execUnknownCommand (code : BitVec 8) (operand : BitVec 24) (s : State) : Host.Outcome State Fault Refusal :=
  .next (s.writeCommand code operand)

/-- R52: HOLD_LIMIT_EXPIRY. -/
def State.holdLimitExpiry (s : State) : State :=
  match s.slots.held with
  | none => s
  | some h => ((s.answerHeld h.slot fillPattern).underrun h.slot).settle

/-- R52: HOLD_LIMIT_EXPIRY; nothing happens with no read held (log 2). -/
def execHoldLimitExpiry (s : State) : Host.Outcome State Fault Refusal := .next s.holdLimitExpiry

end Sys2Proof.Machine
end

