-- ==== Sys2Proof/Machine/MemoryPort.lean ====
section
/-! DEFINITION. The memory port (spec/02): arbiter grants, completions of pass-through accesses, the memory agent's jobs,
and MREST. -/

namespace Sys2Proof.Machine

/-! ## The arbiter -/

/-- R24: the port has a request waiting at the arbiter. -/
def PortState.request (x : PortState) : Option (Access × Option SlotWord) :=
  match x.access with
  | some ⟨a, .waiting track, _⟩ => some (a, track)
  | _ => none

/-- R25, R26: the word access the agent asks for: the word of its current job at its position. -/
def State.agentRequest (s : State) : Option AgentAccess :=
  match s.agent.position, s.agent.jobs with
  | some k, .fetchFrame ring r :: _ => some ⟨s.slotAddress ring r k, none, true⟩
  | some k, .fetchSetup :: _ => some ⟨s.blockWord k, none, true⟩
  | some k, .writeReport place record :: _ => some ⟨place + BitVec.ofNat 20 k, some (record.getD k 0), true⟩
  | _, _ => none

/-- R18: a port's request is granted: a tracked write is judged now, and refused or put in flight. -/
def State.grantPort (p : Port) (a : Access) (track : Option SlotWord) (s : State) : State :=
  match s.judgeTracked a track with
  | some kind => s.refuse p kind a.address
  | none =>
    let judged := match track with
      | some t => if s.slotAt a.word = some t then some (Judged.mk t (s.slotState t)) else none
      | none => none
    let since := match (s.port p).access with
      | some o => o.sinceWake
      | none => false
    (s.setArbiter (some (.port p))).hold p ⟨a, .inFlight judged, since⟩

/-- R24: the free memory port is granted to the R-port, the agent or the C-port, in this order. -/
def State.grant (s : State) : State :=
  if s.controller.lines.mrest ∨ s.arbiter.isSome then s
  else
    match s.ports.r.request, s.agentRequest, s.ports.c.request with
    | some (a, track), _, _ => s.grantPort .r a track
    | none, some w, _ => s.setArbiter (some (.agent w))
    | none, none, some (a, track) => s.grantPort .c a track
    | none, none, none => s

/-- R24: ARBITER_GRANT; nothing happens when the port is busy, nothing waits or MREST is asserted (log 2). -/
def execArbiterGrant (s : State) : Host.Outcome State Fault Refusal := .next s.grant.relax

/-! ## Pass-through completions -/

/-- R24: the memory port becomes free. -/
def State.freePort (s : State) : State := s.setArbiter none

/-- R17: a write lands in memory. -/
def State.store (word : BitVec 20) (size : Size) (data : Word) (s : State) : State :=
  { s with mem := s.mem.store word size data }

/-- R18: a completed tracked write takes effect if the slot is still where and in the state in which it was judged. -/
def State.applyTracked (a : Access) (judged : Option Judged) (s : State) : State :=
  match judged with
  | none => s
  | some j =>
    if s.slotAt a.word = some j.target ∧ s.slotState j.target = j.state then
      match s.writeSlot j.target a.data with
      | some t => t.rouse
      | none => s
    else s

/-- R17, R18: a pass-through word access completes at memory. -/
def State.completeAccess (p : Port) (a : Access) (judged : Option Judged) (s : State) : State :=
  if a.write then ((s.freePort.store a.word a.size a.data).respond p (.done none)).applyTracked a judged
  else s.freePort.supply p a.size (s.mem.readWord a.word)

/-- R17: WORD_ACCESS_COMPLETE, on the state. -/
def State.wordAccessComplete (s : State) : State :=
  match s.arbiter with
  | some (.port p) =>
    match (s.port p).access with
    | some ⟨a, .inFlight judged, _⟩ => ((s.completeAccess p a judged).relax).settle
    | _ => s
  | _ => s

/-- R17: WORD_ACCESS_COMPLETE; nothing happens with no pass-through access in flight (log 2). -/
def execWordAccessComplete (s : State) : Host.Outcome State Fault Refusal := .next s.wordAccessComplete

/-! ## The memory agent -/

/-- R26: the part states in which the agent starts jobs. -/
def Controller.agentStarts (c : Controller) : Bool :=
  c.power == .on && (c.state == .unset || c.state == .running || c.state == .purging)

/-- R25: the first word of a job. -/
def Job.firstWord (j : Job) : Nat :=
  match j with
  | .fetchFrame _ _ => 1
  | .fetchSetup => 0
  | .writeReport _ _ => 0

/-- R25: the word after a job's last. -/
def State.jobEnd (s : State) (j : Job) : Nat :=
  match j with
  | .fetchFrame ring r => ((s.slotHeader ring r).map fun h => h.length.toNat).getD 0
  | .fetchSetup => 64
  | .writeReport _ record => record.length

/-- R26, R40, R46: the slot of a started FETCH_FRAME goes from CLOSED to FETCHING. -/
def State.beginFetch (j : Job) (s : State) : State :=
  match j with
  | .fetchFrame .inbound r =>
    match s.inSlot r with
    | .closed h => s.setInSlot r (.fetching h)
    | _ => s
  | .fetchFrame .outbound r =>
    match (s.outSlot r).state with
    | .closed h => s.setOutSlot r { s.outSlot r with state := .fetching h }
    | _ => s
  | .fetchSetup => s
  | .writeReport _ _ => s

/-- R26: AGENT_JOB_START, on the state. -/
def State.agentJobStart (s : State) : State :=
  match s.agent.position, s.agent.jobs with
  | none, j :: _ =>
    if s.controller.agentStarts ∧ s.controller.lines.mrest = false then
      (s.setAgent { s.agent with position := some j.firstWord, buffer := [] }).beginFetch j
    else s
  | _, _ => s

/-- R26: AGENT_JOB_START; nothing happens with a current job, an empty list, MREST asserted or the agent stopped (log 2). -/
def execAgentJobStart (s : State) : Host.Outcome State Fault Refusal := .next s.agentJobStart

/-- R27: a job's result goes to its owner. -/
def State.endJob (j : Job) (buffer : List Word) (s : State) : State :=
  match j with
  | .fetchFrame ring r => s.takeFrame ring r buffer
  | .fetchSetup => s.takeSetup buffer
  | .writeReport _ _ => s.written

/-- R26, R27: the current job has had one word access completed, a read giving `data`. -/
def State.advanceJob (data : Option Word) (s : State) : State :=
  match s.agent.position, s.agent.jobs with
  | some k, j :: rest =>
    let buffer := s.agent.buffer ++ data.toList
    if s.jobEnd j ≤ k + 1 then ((s.setAgent ⟨rest, none, []⟩).endJob j buffer).settle
    else s.setAgent { s.agent with position := some (k + 1), buffer := buffer }
  | _, _ => s

/-- R26: AGENT_WORD_COMPLETE, on the state. A write lands in memory; the word of an abandoned job is discarded (R28). -/
def State.agentWordComplete (s : State) : State :=
  match s.arbiter with
  | some (.agent w) =>
    match w.write with
    | some data =>
      if w.live then (s.freePort.store w.word .word data).advanceJob none else s.freePort.store w.word .word data
    | none => if w.live then s.freePort.advanceJob (some (s.mem.readWord w.word)) else s.freePort
  | _ => s

/-- R26: AGENT_WORD_COMPLETE; nothing happens with no agent word in flight (log 2). -/
def execAgentWordComplete (s : State) : Host.Outcome State Fault Refusal := .next s.agentWordComplete

/-! ## MREST -/

/-- R17, R30: an access whose word access failed in flight: a write leaves its bytes unspecified. -/
def State.failInFlight (a : Access) (s : State) : State :=
  if a.write then s.freePort.spoilMemory a.word a.size else s.freePort

/-- R30: MREST at one port of an operating part. -/
def State.restPort (p : Port) (s : State) : State :=
  match (s.port p).access with
  | some ⟨a, .waiting track, _⟩ => s.refuse p ((s.judgeTracked a track).getD .memoryResting) a.address
  | some ⟨a, .inFlight _, _⟩ => (s.failInFlight a).refuse p .memoryResting a.address
  | _ => s

/-- R30, log 11: MREST at both ports, in an order. -/
def State.restPorts (order : Order) (s : State) : State :=
  match order with
  | .cFirst => (s.restPort .c).restPort .r
  | .rFirst => (s.restPort .r).restPort .c

/-- R165: MREST at one port while RESET is asserted: the access in flight is made again after the release. -/
def State.retryPort (p : Port) (s : State) : State :=
  match (s.port p).access with
  | some ⟨a, .inFlight _, _⟩ => (s.failInFlight a).hold p ⟨a, .waiting none, false⟩
  | _ => s

/-- R30, R31: a word of the agent in flight fails, and nothing is left at the memory port. -/
def State.failAgentWord (s : State) : State :=
  match s.arbiter with
  | some (.agent w) =>
    if w.write.isSome then s.freePort.spoilMemory w.word .word else s.freePort
  | _ => s.freePort

/-- R31: the current job goes back to its first word and the frame buffer is discarded. -/
def State.rewindJob (s : State) : State :=
  match s.agent.position, s.agent.jobs with
  | some _, j :: _ => s.setAgent { s.agent with position := some j.firstWord, buffer := [] }
  | _, _ => s

/-- The MREST line. -/
def State.setMrest (b : Bool) (s : State) : State :=
  { s with controller := { s.controller with lines := { s.controller.lines with mrest := b } } }

/-- R30, R31: MREST_ASSERT, on the state. -/
def State.mrestAssert (order : Order) (s : State) : State :=
  if s.controller.lines.mrest then s
  else
    let t := s.setMrest true
    match t.controller.power with
    | .off => t
    | .inReset => ((t.retryPort .c).retryPort .r).failAgentWord
    | .on => (((t.restPorts order).failAgentWord).rewindJob).relax

/-- R30: MREST_ASSERT; nothing happens if the line is asserted already (log 2). -/
def execMrestAssert (order : Order) (s : State) : Host.Outcome State Fault Refusal := .next (s.mrestAssert order)

/-- R31: MREST_RELEASE: the agent and the ports ask for the memory port again; nothing else changes. -/
def execMrestRelease (s : State) : Host.Outcome State Fault Refusal := .next (s.setMrest false)

end Sys2Proof.Machine
end

