-- ==== Sys2Proof/Machine/Operations.lean ====
section
/-! DEFINITION. The start and the completions of the code engine's operations (spec/07 R127 to R132). -/

namespace Sys2Proof.Machine

/-- R128: ENGINE_START. Every event after which an operation can start weighs the list itself (R127, log 5); nothing happens
when the engine is busy, stopped, or the list is empty (log 2). -/
def execEngineStart (s : State) : Host.Outcome State Fault Refusal := .next s.weighEngine

/-- R48, R50, R51: a CODING slot is armed with the code; a read held on it is answered, the high word's read being the
send. -/
def State.arm (r : SlotRef) (h : Header) (c : Fin 24) (code : Wide) (s : State) : State :=
  let t := s.setOutSlot r { s.outSlot r with state := .armed h c code }
  match s.slots.held with
  | some x =>
    if x.slot = r then
      let t := t.answerHeld r (codeHalf x.high code)
      if x.high then t.send r else t
    else t
  | none => t

/-- R48: a CODE completion at its slot, the mark still set. -/
def State.finishCode (r : SlotRef) (code : Wide) (s : State) : State :=
  match (s.outSlot r).state with
  | .coding h c => (s.setMark (.code r) false).arm r h c code
  | _ => s.setOutSlot r (s.outSlot r).dropResult

/-- R48: CODE_COMPLETE, on the state. -/
def State.codeComplete (s : State) : State :=
  match s.engine.operation with
  | some (.code r key identity tagNonce readerNonce record) =>
    ((s.setOperation none).finishCode r
      (Config.challengeCode key identity tagNonce readerNonce record)).settle
  | _ => s

/-- R48: CODE_COMPLETE; nothing happens unless a CODE is in the engine (log 2). -/
def execCodeComplete (s : State) : Host.Outcome State Fault Refusal := .next s.codeComplete

/-- R70: the tag key arrives at a context in DERIVING. -/
def Context.keyed (key : Key) (x : Context) : Context :=
  { x with tagKey := some key, state := if x.bound.isSome then .challenging else .keyed }

/-- R47, R70: the bound slot in WAITING_KEY goes to CODING and its CODE joins the ready list. -/
def State.startCoding (r : SlotRef) (s : State) : State :=
  match (s.outSlot r).state with
  | .waitingKey h c => (s.setOutSlot r { s.outSlot r with state := .coding h c }).joinReady (.code r)
  | _ => s

/-- R70, R79: a DERIVE completion at its context, the mark clear. -/
def State.finishDerive (c : Fin 24) (key : Key) (s : State) : State :=
  match s.context c with
  | none => s
  | some x =>
    if x.state = .derivingKey then
      let t := s.setContext c (some (x.keyed key))
      match x.bound with
      | some r => t.startCoding r
      | none => t
    else if x.state = .closing then s.endClosing c
    else s

/-- R70: DERIVE_COMPLETE, on the state. -/
def State.deriveComplete (s : State) : State :=
  match s.engine.operation with
  | some (.derive c key identity generation) =>
    ((s.endOperation (.derive c)).finishDerive c (Config.deriveTagKey key identity generation)).settle
  | _ => s

/-- R70: DERIVE_COMPLETE; nothing happens unless a DERIVE is in the engine (log 2). -/
def execDeriveComplete (s : State) : Host.Outcome State Fault Refusal := .next s.deriveComplete

/-- R75: the outcome a context decides from its confirm data and the comparison. -/
def Context.decide (x : Context) (codeMatches : Bool) : PassageCode :=
  if x.confirm.map (·.counter) ≠ some (x.announceCounter + 1) then .badCounter
  else if codeMatches = false then .badCode
  else if x.issuer = 0 then .servicePass
  else .paid

/-- R75, R79: a VERIFY completion at its context, the mark clear. -/
def State.finishVerify (c : Fin 24) (codeMatches : Bool) (s : State) : State :=
  match s.context c with
  | none => s
  | some x =>
    if x.state = .verifying then
      (s.setContext c (some { x with outcome := some (x.decide codeMatches, s.controller.time), state := .reporting })).joinReports
        (.context c)
    else if x.state = .closing then s.endClosing c
    else s

/-- R75: VERIFY_COMPLETE, on the state. -/
def State.verifyComplete (s : State) : State :=
  match s.engine.operation with
  | some (.verify c key identity nonce record counter tagCode) =>
    ((s.endOperation (.verify c)).finishVerify c
      (Decidable.decide (Config.expectedTagCode key identity nonce record counter = tagCode))).settle
  | _ => s

/-- R75: VERIFY_COMPLETE; nothing happens unless a VERIFY is in the engine (log 2). -/
def execVerifyComplete (s : State) : Host.Outcome State Fault Refusal := .next s.verifyComplete

/-- R113: UNWRAP_COMPLETE, on the state. -/
def State.unwrapComplete (s : State) : State :=
  match s.engine.operation with
  | some (.unwrap transport words check) =>
    ((s.endOperation .unwrap).openRecord transport words check).settle
  | _ => s

/-- R113: UNWRAP_COMPLETE; nothing happens unless an UNWRAP is in the engine (log 2). -/
def execUnwrapComplete (s : State) : Host.Outcome State Fault Refusal := .next s.unwrapComplete

end Sys2Proof.Machine
end

