-- ==== Sys2Proof/Machine/Time.lean ====
section
/-! DEFINITION. What falls due (spec/10 R166, R167, R169; spec/04 R76, R77, R85): deadline and recent-entry expiries, the
rise of the seconds clock, the end of a wake, and the millisecond tick. -/

namespace Sys2Proof.Machine

/-! ## Expiries -/

/-- R77: the context's running deadline has reached zero. -/
def Context.deadlineDue (x : Context) : Bool := x.running && x.deadline == 0

/-- R77: DEADLINE_EXPIRY, on the state. -/
def State.deadlineExpiry (c : Fin 24) (s : State) : State :=
  match s.context c with
  | none => s
  | some x => if x.deadlineDue then (s.close .late c).settle else s

/-- R77: DEADLINE_EXPIRY; nothing happens unless the context's deadline is due (log 2). -/
def execDeadlineExpiry (c : Fin 24) (s : State) : Host.Outcome State Fault Refusal := .next (s.deadlineExpiry c)

/-- R85: RECENT_ENTRY_EXPIRY, on the state. -/
def State.recentEntryExpiry (s : State) : State :=
  match s.contexts.recent with
  | [] => s
  | e :: rest => if s.recentDue e then { s with contexts := { s.contexts with recent := rest } } else s

/-- R85: RECENT_ENTRY_EXPIRY; nothing happens unless the oldest entry is due (log 2). -/
def execRecentEntryExpiry (s : State) : Host.Outcome State Fault Refusal := .next s.recentEntryExpiry

/-- R167, R91, R93: SECONDS_CLOCK_RISE, on the state. -/
def State.secondsClockRise (s : State) : State :=
  match s.controller.seconds with
  | none => s
  | some t =>
    if 1000 ≤ s.controller.millis then
      s.setClock (t + 1)
    else s

/-- R167: SECONDS_CLOCK_RISE; nothing happens unless 1000 ms have been counted (log 2). -/
def execSecondsClockRise (s : State) : Host.Outcome State Fault Refusal := .next s.secondsClockRise

/-! ## The end of a wake -/

/-- R169: the part is awake; one that has become RUNNING meanwhile is in no wake any more (log 33). -/
def State.awaken (s : State) : State := s.setWake (if s.controller.state = .dormant then .awake else .asleep)

/-- R169, R172: WAKE_END, on the state. A purge asserted in DORMANT takes effect now, before the held accesses are
classified. -/
def State.wakeEnd (order : Order) (s : State) : State :=
  if s.controller.purgeAtWake then (((s.enterPurging).classifyAllHeld order).relax).settle
  else if s.controller.wake = .waking then (((s.awaken).classifyAllHeld order).relax).settle
  else s

/-- R169: WAKE_END; nothing happens unless the part is waking (log 2). -/
def execWakeEnd (order : Order) (s : State) : Host.Outcome State Fault Refusal := .next (s.wakeEnd order)

/-! ## The millisecond -/

/-- R51, log 4: the held read's hold began in an earlier millisecond, so its limit, below one millisecond, has passed. -/
def State.holdOverdue (s : State) : Bool :=
  match s.slots.held with
  | some h => h.began != s.controller.time
  | none => false

/-- Log 4: an overdue hold expires. -/
def State.expireOverdue (s : State) : State := if s.holdOverdue then s.holdLimitExpiry else s

/-- R85: every entry of the recent passage list that is due leaves it. -/
def State.dropDueRecent (s : State) : State :=
  { s with contexts := { s.contexts with recent := s.contexts.recent.dropWhile s.recentDue } }

/-- Log 3: what is due in this millisecond and has not been taken is taken before the time base moves on: an overdue hold, then
the deadlines in ascending order of context, the recent passage list and the seconds clock. That the hold is first, so that its
slot's notice is UNDERRUN and not a close's CLOSED_TRANSACTION, is the model's choice: the spec lets either be first. -/
def State.takeDue (s : State) : State :=
  ((Table.ascending 24 State.deadlineExpiry s.expireOverdue).dropDueRecent).secondsClockRise

/-- R76: a running deadline falls by one. -/
def Context.elapse (x : Context) : Context := if x.running then { x with deadline := x.deadline - 1 } else x

/-- R166: the time base rises by one; R76, R167: deadlines and the pace of the seconds clock follow it. -/
def State.advance (s : State) : State :=
  { s with
    controller := { s.controller with
      time := s.controller.time + 1
      millis := if s.controller.seconds.isSome then s.controller.millis + 1 else s.controller.millis } }.mapContexts
    Context.elapse

/-- Log 3: one millisecond of an operating part: what the step does on an empty queue. -/
def State.tick (s : State) : State := if s.controller.power = .on then s.takeDue.advance else s

end Sys2Proof.Machine
end

