-- ==== Sys2Proof/Machine/Power.lean ====
section
/-! DEFINITION. The lines PWARN, PURGE and RESET, start-up and loss of power (spec/10 R165, R170 to R173). -/

namespace Sys2Proof.Machine

/-- The PWARN line. -/
def State.setPwarn (b : Bool) (s : State) : State :=
  { s with controller := { s.controller with lines := { s.controller.lines with pwarn := b } } }

/-- The PURGE line. -/
def State.setPurge (b : Bool) (s : State) : State :=
  { s with controller := { s.controller with lines := { s.controller.lines with purge := b } } }

/-! ## PWARN -/

/-- R170: the part states in which an asserted PWARN takes effect. -/
def PartState.warned (p : PartState) : Bool :=
  match p with
  | .unset => true
  | .running => true
  | .dormant => true
  | .halted => false
  | .purging => false

/-- R170, R169: PWARN_ASSERT, on the state; accesses held for a wake are classified in HALTED. -/
def State.pwarnAssert (order : Order) (s : State) : State :=
  if s.controller.lines.pwarn then s
  else
    let t := s.setPwarn true
    if t.controller.power = .on ∧ t.controller.state.warned then (t.powerWarning).classifyAllHeld order else t

/-- R170: PWARN_ASSERT; nothing happens if the line is asserted already (log 2). -/
def execPwarnAssert (order : Order) (s : State) : Host.Outcome State Fault Refusal := .next (s.pwarnAssert order)

/-- R171: PWARN_RELEASE, on the state. -/
def State.pwarnRelease (s : State) : State :=
  if s.controller.lines.pwarn then
    let t := s.setPwarn false
    if t.controller.power = .on ∧ t.controller.state = .halted then t.returnFromHalted else t
  else s

/-- R171: PWARN_RELEASE; in a state other than HALTED only the line changes. -/
def execPwarnRelease (s : State) : Host.Outcome State Fault Refusal := .next s.pwarnRelease

/-! ## PURGE -/

/-- R172: a purge asserted in DORMANT, or during a wake, waits for the end of the wake, which it starts. R122: the erase mark
is written at the assertion, so that a RESET or a loss of power before the end of the wake escapes no erase (log 32). -/
def State.purgeAfterWake (s : State) : State :=
  let t := s.startWake
  { t with controller := { t.controller with purgeAtWake := true }, keys := { t.keys with eraseMark := true } }

/-- R172: a purge asserted in a state other than PURGING. -/
def State.purgeNow (s : State) : State := if s.controller.holdsAccesses then s.purgeAfterWake else s.enterPurging

/-- R172, R165: PURGE_ASSERT, on the state. -/
def State.purgeAssert (s : State) : State :=
  if s.controller.lines.purge then s
  else
    let t := s.setPurge true
    match t.controller.power with
    | .off => t
    | .inReset => { t with keys := { t.keys with eraseMark := true } }
    | .on =>
      match t.controller.state with
      | .purging => t
      | .dormant => t.purgeNow
      | .unset => t.purgeNow
      | .running => t.purgeNow
      | .halted => t.purgeNow

/-- R172: PURGE_ASSERT; nothing happens if the line is asserted already (log 2). -/
def execPurgeAssert (s : State) : Host.Outcome State Fault Refusal := .next s.purgeAssert

/-- R122: PURGE_RELEASE: the erase goes on and the part stays as it is. -/
def execPurgeRelease (s : State) : Host.Outcome State Fault Refusal := .next (s.setPurge false)

/-- R173: ERASE_COMPLETION, on the state. -/
def State.eraseCompletion (s : State) : State :=
  if s.controller.power = .on ∧ s.controller.state = .purging then s.completeErase else s

/-- R173: ERASE_COMPLETION; nothing happens unless the part is PURGING (log 2). -/
def execEraseCompletion (s : State) : Host.Outcome State Fault Refusal := .next s.eraseCompletion

/-! ## RESET and power -/

/-- R165, R136: the controller of a part that does not operate. -/
def Controller.stopped (power : Power) (c : Controller) : Controller :=
  { Controller.reset c.straps c.lines with power := power }

/-- R165: every outstanding access becomes an unwatched pass-through access; an agent word in flight is abandoned. -/
def State.unwatchPorts (s : State) : State :=
  { s with ports := ⟨s.ports.c.unwatch, s.ports.r.unwatch⟩, arbiter := s.arbiter.map InFlight.abandon }

/-- R136, log 9: the masters' accesses get no answer; what frame memory then holds is unspecified. -/
def State.loseMemory (s : State) : State :=
  { s with
    ports := ⟨{ s.ports.c with access := none }, { s.ports.r with access := none }⟩
    arbiter := none
    mem := Memory.ofCells (Config.memoryAfterPowerLoss s.fresh)
    fresh := s.fresh + 1 }

/-- R165, R136, R105: RESET_ASSERT, on the state. -/
def State.resetAssert (cut : Bool) (s : State) : State :=
  if s.controller.power = .on then
    (s.loseVolatile (s.controller.stopped .inReset) (s.keys.losePower cut)).unwatchPorts
  else s

/-- R165: RESET_ASSERT; nothing happens unless the part operates (log 2). -/
def execResetAssert (cut : Bool) (s : State) : Host.Outcome State Fault Refusal := .next (s.resetAssert cut)

/-- R165 step 7: a line found asserted is taken as an assertion made in UNSET. -/
def State.sampleLines (purgeFirst : Bool) (s : State) : State :=
  let l := s.controller.lines
  if l.pwarn ∧ l.purge then
    if purgeFirst then s.enterPurging else (s.powerWarning).enterPurging
  else if l.pwarn then s.powerWarning
  else if l.purge then s.enterPurging
  else s

/-- R165: START_UP, on the state. Accesses that wait at the arbiter while MREST is asserted are refused when the part begins
to operate (log 28). -/
def State.startUp (straps : BitVec 6) (purgeFirst : Bool) (order : Order) (s : State) : State :=
  if s.controller.power = .on then s
  else
    let t := s.loseVolatile (Controller.reset straps s.controller.lines) s.keys.startUp
    let t := if t.controller.lines.mrest then t.restPorts order else t
    t.sampleLines purgeFirst

/-- R165: START_UP; nothing happens while the part operates (log 2). -/
def execStartUp (straps : BitVec 6) (purgeFirst : Bool) (order : Order) (s : State) : Host.Outcome State Fault Refusal :=
  .next (s.startUp straps purgeFirst order)

/-- R136, R103, R105: POWER_LOSS, on the state. -/
def State.powerLoss (cut : Bool) (s : State) : State :=
  if s.controller.power = .off then s
  else
    (s.loseVolatile (s.controller.stopped .off) (s.keys.losePower cut)).loseMemory

/-- R136: POWER_LOSS; nothing happens without power (log 2). -/
def execPowerLoss (cut : Bool) (s : State) : Host.Outcome State Fault Refusal := .next (s.powerLoss cut)

end Sys2Proof.Machine
end

