-- ==== Sys2Proof/Machine/Dispatch.lean ====
section
/-! DEFINITION. One arm per command. -/

namespace Sys2Proof.Machine

def exec (i : Instr) (s : State) : Host.Outcome State Fault Refusal :=
  match i with
  | .memoryAccess port access => Sys2Proof.Machine.execMemoryAccess port access s
  | .controlBlockWrite offset size data => Sys2Proof.Machine.execControlBlockWrite offset size data s
  | .arbiterGrant => Sys2Proof.Machine.execArbiterGrant s
  | .wordAccessComplete => Sys2Proof.Machine.execWordAccessComplete s
  | .codeWordRead word size => Sys2Proof.Machine.execCodeWordRead word size s
  | .holdLimitExpiry => Sys2Proof.Machine.execHoldLimitExpiry s
  | .agentJobStart => Sys2Proof.Machine.execAgentJobStart s
  | .agentWordComplete => Sys2Proof.Machine.execAgentWordComplete s
  | .engineStart => Sys2Proof.Machine.execEngineStart s
  | .codeComplete => Sys2Proof.Machine.execCodeComplete s
  | .deriveComplete => Sys2Proof.Machine.execDeriveComplete s
  | .verifyComplete => Sys2Proof.Machine.execVerifyComplete s
  | .unwrapComplete => Sys2Proof.Machine.execUnwrapComplete s
  | .loadWindowWrite index size data => Sys2Proof.Machine.execLoadWindowWrite index size data s
  | .setup operand => Sys2Proof.Machine.execSetup operand s
  | .rest operand => Sys2Proof.Machine.execRest operand s
  | .laneRestart operand => Sys2Proof.Machine.execLaneRestart operand s
  | .releaseReports operand => Sys2Proof.Machine.execReleaseReports operand s
  | .clearAttention operand => Sys2Proof.Machine.execClearAttention operand s
  | .unknownCommand code operand => Sys2Proof.Machine.execUnknownCommand code operand s
  | .deadlineExpiry context => Sys2Proof.Machine.execDeadlineExpiry context s
  | .recentEntryExpiry => Sys2Proof.Machine.execRecentEntryExpiry s
  | .secondsClockRise => Sys2Proof.Machine.execSecondsClockRise s
  | .wakeEnd order => Sys2Proof.Machine.execWakeEnd order s
  | .mrestAssert order => Sys2Proof.Machine.execMrestAssert order s
  | .mrestRelease => Sys2Proof.Machine.execMrestRelease s
  | .pwarnAssert order => Sys2Proof.Machine.execPwarnAssert order s
  | .pwarnRelease => Sys2Proof.Machine.execPwarnRelease s
  | .purgeAssert => Sys2Proof.Machine.execPurgeAssert s
  | .purgeRelease => Sys2Proof.Machine.execPurgeRelease s
  | .eraseCompletion => Sys2Proof.Machine.execEraseCompletion s
  | .resetAssert cut => Sys2Proof.Machine.execResetAssert cut s
  | .startUp straps purgeFirst order => Sys2Proof.Machine.execStartUp straps purgeFirst order s
  | .powerLoss cut => Sys2Proof.Machine.execPowerLoss cut s

end Sys2Proof.Machine
end

