-- ==== Sys2Proof/Safety.lean ====
section
/-! DEFINITION. What the statements say: when an access is classified on its arrival, and the invariants of the machine. -/

namespace Sys2Proof.Machine

/-! ## When a port is heard -/

/-- R15, R169: an access on the port is classified on its arrival: the port has none outstanding, the part operates, and it
is not asleep, and in no wake. -/
abbrev State.hears (s : State) (p : Port) : Prop :=
  (s.port p).access = none ∧ s.controller.power = .on ∧ (s.controller.state = .dormant → s.controller.wake = .awake)
    ∧ s.controller.wake ≠ .waking

/-- R169: the controller once an access that changes state has been answered; a wake in progress goes on (log 33). -/
def Controller.roused (c : Controller) : Controller :=
  if c.state = .dormant then { c with state := .running, wake := if c.wake = .waking then .waking else .asleep } else c

/-- No access is held for a wake. -/
abbrev State.noneHeld (s : State) : Prop :=
  ∀ p o, (s.port p).access = some o → o.phase ≠ .wake

/-! ## What an event leaves behind -/

/-- R53: the bound slot of a context, if it has a frame, is a holder that joins the pending list when the context closes. -/
def State.boundHolder (s : State) (x : Context) : List ReportHolder :=
  match x.bound with
  | none => []
  | some r => if (s.outSlot r).state.header = none then [] else [.outbound r]

/-- R78: what an open context joins to the pending list. -/
def State.joinedBy (s : State) (joins : Fin 24 → Context → List ReportHolder) (c : Fin 24) : List ReportHolder :=
  match s.context c with
  | none => []
  | some x => joins c x

/-- R78: what the open contexts join to the pending list, one after another in ascending order of context. -/
def State.eachContext (s : State) (joins : Fin 24 → Context → List ReportHolder) : List ReportHolder :=
  (List.finRange 24).flatMap (s.joinedBy joins)

/-- R78, R53, R133: the holders that a close of the contexts in `closes` cancels: their DERIVE or VERIFY, but with the engine
mark, and the CODE of their bound slot. -/
def State.cancelled (s : State) (closes : Fin 24 → Context → Prop) (h : Holder) : Prop :=
  ∃ c x, closes c x
    ∧ ((x.mark = false ∧ (h = .derive c ∨ h = .verify c))
      ∨ ∃ r, x.bound = some r ∧ (s.outSlot r).state.header ≠ none ∧ h = .code r)

/-- R28, R29, R52: the current job of `s` is abandoned in `t`: the agent has no current job, and a word of it in flight belongs
to no job any more. -/
def State.abandonsJob (s t : State) : Prop :=
  t.agent.position = none ∧ t.agent.buffer = []
    ∧ t.arbiter = s.arbiter.map fun x =>
      match x with
      | .port p => .port p
      | .agent w => .agent { w with live := false }

/-- R26: the agent goes on with its current job, if it has one. -/
def State.keepsJob (s t : State) : Prop :=
  t.agent.position = s.agent.position ∧ t.agent.buffer = s.agent.buffer ∧ t.arbiter = s.arbiter

/-- R165 step 4 with R25, R34, R52, R59, R84, R88, R109, R119, R125, R138, R139, R143, R151, R161, R163: the volatile items have their
reset values, all but the refusal record and the causes (R23, R162). That the frame buffer is empty and no report write is in progress
is the model's (log 36, log 29). -/
def State.holdsResetValues (t : State) : Prop :=
  (∀ c, t.context c = none) ∧ t.contexts.recent = [] ∧ t.contexts.abandoned = 0
    ∧ t.engine = ⟨none, []⟩ ∧ t.agent = ⟨[], none, []⟩ ∧ t.reports = ⟨0, 0, 0, [], .idle⟩
    ∧ t.load = ⟨.idle, Table.fill 16 0, 0, false, ⟨0, .none, none⟩⟩
    ∧ t.control.result = ⟨0, .none, 0⟩ ∧ t.control.setupRunning = false
    ∧ (∀ r, t.inSlot r = .free ∧ t.outSlot r = ⟨.free, none, false⟩) ∧ t.slots.held = none
    ∧ (∀ n, (t.slots.lanes.get n).underruns = 0 ∧ (t.setup.lanes.get n).enable = false)
    ∧ t.setup.capacity = 0 ∧ t.setup.enables = 0

/-- R170 with R29, R58, R84, R88, R92, R123, R135, R147, R156: what a power warning leaves of an operating part, the access held
as a code-word read having had the fill pattern (R58, R51). -/
def State.haltedFrom (s t : State) : Prop :=
  t.controller = { s.controller with state := .halted, wake := .asleep }
    ∧ (∀ c, t.context c = none) ∧ t.contexts.recent = []
    ∧ t.contexts.abandoned = s.contexts.abandoned + BitVec.ofNat 32 (24 - s.contextsIn none)
    ∧ t.keys = { s.keys with entries := s.keys.entries.map fun e => ({ e with references := 0 } : KeyEntry).settle }
    ∧ t.engine = ⟨none, []⟩ ∧ t.agent.jobs = [] ∧ s.abandonsJob t
    ∧ t.reports = { s.reports with waiting := [], write := .idle }
    ∧ (∀ r, t.inSlot r = .free ∧ t.outSlot r = ⟨.free, none, false⟩)
    ∧ (∀ n, (t.slots.lanes.get n).underruns = (s.slots.lanes.get n).underruns)
    ∧ t.load = ⟨.idle, Table.fill 16 0, 0, false, s.load.result⟩
    ∧ (s.control.setupRunning = false → t.control = s.control)
    ∧ (s.control.setupRunning = true → t.control = ⟨⟨1, .state, 0⟩, false, s.control.raised ||| 2⟩)
    ∧ (∀ q x, s.slots.held = some q → s.ports.r.access = some x → t.slots.held = none
      ∧ t.port .r = ⟨none, some (.done (some (x.access.size.extract 0xFFFFFFFF#32)))⟩)
    ∧ (s.slots.held = none ∨ s.ports.r.access = none → t.slots.held = s.slots.held ∧ t.port .r = s.port .r)
    ∧ t.port .c = s.port .c ∧ t.path = s.path ∧ t.setup = s.setup ∧ t.mem = s.mem

/-- R172 with R78, R82, R99, R120, R121, R134: what the entry into PURGING leaves of an operating part. An open context ends PURGED,
its bound slot (if no other context is bound to it) spoiled first. Every agent job stays (R156, R147), and the report writer, if it
is idle and its ring has room, joins the WRITE_REPORT of the pending list's head to them (R141). That the operation in progress does not complete is the model's
choice between R134 and R9 (log 31). -/
def State.purgedFrom (s t : State) : Prop :=
  let closes := fun c x => s.context c = some x ∧ x.state ∉ [ContextState.closing, .reporting]
  t.controller = { s.controller with
      state := .purging, wake := .asleep, purgeAtWake := false, fromHalted := s.controller.state == .halted }
    ∧ t.keys.eraseMark = true ∧ t.keys.highestSerial = s.keys.highestSerial
    ∧ (∀ k, t.keys.entries.get k = ⟨.empty, 0, 0, 0, 0, none, 0, 0⟩)
    ∧ t.load = ⟨.idle, Table.fill 16 0, 0, false, s.load.result⟩ ∧ t.engine = ⟨none, []⟩
    ∧ (∀ c, s.context c = none → t.context c = none)
    ∧ (∀ c x, closes c x → t.context c = some
      { x with
        outcome := some (.purged, s.controller.time), running := false, bound := none, keyLink := none, tagKey := none
        mark := false, state := .reporting })
    ∧ (∀ c x, s.context c = some x → x.state ∈ [ContextState.closing, .reporting] →
      t.context c = some { x with keyLink := none, tagKey := none, mark := false, state := .reporting })
    ∧ t.reports.waiting = s.reports.waiting ++ (s.eachContext fun c x =>
      if x.state = .reporting then [] else (if x.state = .closing then [] else s.boundHolder x) ++ [.context c])
    ∧ t.reports.producer = s.reports.producer ∧ t.reports.consumer = s.reports.consumer
    ∧ t.reports.sequence = s.reports.sequence
    ∧ (∀ h rest record, s.reports.write = .idle → t.reports.waiting = h :: rest → t.ringFull = false →
      t.heldReport h = some record →
        t.reports.write = .writing
          ∧ t.agent.jobs = s.agent.jobs ++ [.writeReport t.producerWord (record.words t.reports.sequence)])
    ∧ (s.reports.write ≠ .idle ∨ t.ringFull = true ∨ (∀ h rest, t.reports.waiting = h :: rest → t.heldReport h = none) →
      t.reports.write = s.reports.write ∧ t.agent.jobs = s.agent.jobs)
    ∧ (∀ c x r h, closes c x → x.bound = some r → (∀ d y, s.context d = some y → y.bound = some r → d = c) →
      (s.outSlot r).state.header = some h →
        t.outSlot r = { s.outSlot r with
          state := .spoiled h (some (s.notice .closedTransaction r (some c) (some x.identity) none)), mark := false })
    ∧ (∀ c x q o, closes c x → x.bound = some q.slot → (s.outSlot q.slot).state.header ≠ none → s.slots.held = some q →
      s.ports.r.access = some o →
        t.slots.held = none ∧ t.port .r = ⟨none, some (.done (some (o.access.size.extract 0xFFFFFFFF#32)))⟩)
    ∧ ((∀ c x q, closes c x → s.slots.held = some q → x.bound ≠ some q.slot) →
      t.slots.held = s.slots.held ∧ t.port .r = s.port .r)
    ∧ t.port .c = s.port .c ∧ s.keepsJob t
    ∧ (∀ r, t.inSlot r = s.inSlot r)
    ∧ (∀ r h, (s.outSlot r).state = .draining h → (∀ c x, closes c x → x.bound ≠ some r) →
      t.outSlot r = { s.outSlot r with state := .free, mark := false })
    ∧ (∀ r, (∀ h, (s.outSlot r).state ≠ .draining h) → (∀ c x, closes c x → x.bound ≠ some r) →
      t.outSlot r = { s.outSlot r with mark := false })
    ∧ (∀ r, (t.outSlot r).mark = false)
    ∧ (∀ n, (t.slots.lanes.get n).underruns = (s.slots.lanes.get n).underruns) ∧ t.control = s.control
    ∧ t.contexts.recent = s.contexts.recent ∧ t.contexts.abandoned = s.contexts.abandoned ∧ t.setup = s.setup
    ∧ t.path = s.path ∧ t.mem = s.mem

/-! ## Invariants -/

/-- Log 8: frame memory keeps its canonical form. -/
abbrev State.memoryCanonical (s : State) : Prop := Memory.wf s.mem

/-- R138, R148: with a ring, P and C lie inside it; the REPORTS cause follows P and C and is never stored. -/
abbrev State.ringIndices (s : State) : Prop :=
  (s.setup.capacity = 0 ∨ (s.reports.producer < s.setup.capacity ∧ s.reports.consumer < s.setup.capacity))
    ∧ s.control.raised &&& Cause.reports.bit = 0

/-- R35, R164, R161: without a setup no lane is enabled or has slots, and the report ring has no capacity; while the part is UNSET
or HALTED, or has no setup, every slot is FREE. -/
def State.idleSlots (s : State) : Prop :=
  (s.controller.setupPresent = false → s.setup.capacity = 0
      ∧ ∀ n, (s.setup.lanes.get n).enable = false ∧ (s.setup.lanes.get n).inCount = 0 ∧ (s.setup.lanes.get n).outCount = 0)
    ∧ (s.controller.state = .unset ∨ s.controller.state = .halted ∨ s.controller.setupPresent = false →
        ∀ r, s.inSlot r = .free ∧ (s.outSlot r).state = .free)

/-- R14, R154: two byte ranges, by their first byte and their length, share no byte. -/
def clear (base bytes otherBase otherBytes : Nat) : Prop := base + bytes ≤ otherBase ∨ otherBase + otherBytes ≤ base

/-- R14, R33: the first byte of a lane's ring, and its slot count. -/
def Lane.ringBase (l : Lane) (ring : Ring) : Nat :=
  match ring with
  | .inbound => l.inBase
  | .outbound => l.outBase

def Lane.ringSlots (l : Lane) (ring : Ring) : Nat :=
  match ring with
  | .inbound => l.inCount
  | .outbound => l.outCount

/-- R154, R33: what the checks leave true of an enabled lane: slots of 16 or 32 words, at most 16 in a ring, and each ring
aligned to its slot size and inside the address space. -/
def Lane.placed (l : Lane) : Prop :=
  (l.slotWords = 16 ∨ l.slotWords = 32)
    ∧ ∀ ring, l.ringSlots ring ≤ 16 ∧ l.ringBase ring % (4 * l.slotWords) = 0
      ∧ l.ringBase ring + l.ringSlots ring * (4 * l.slotWords) ≤ Memory.bytes

/-- R154, R14, R137: the setup in force is laid out as its checks require: the rings of enabled lanes are placed and share no
byte, and the report ring lies in the control block above the areas of fixed place. -/
def State.laidOut (s : State) : Prop :=
  (∀ n, (s.setup.lanes.get n).enable = true → (s.setup.lanes.get n).placed)
    ∧ (∀ n m ring ring', (s.setup.lanes.get n).enable = true → (s.setup.lanes.get m).enable = true →
      (n, ring) ≠ (m, ring') →
        clear ((s.setup.lanes.get n).ringBase ring)
          ((s.setup.lanes.get n).ringSlots ring * (4 * (s.setup.lanes.get n).slotWords))
          ((s.setup.lanes.get m).ringBase ring')
          ((s.setup.lanes.get m).ringSlots ring' * (4 * (s.setup.lanes.get m).slotWords)))
    ∧ (s.controller.setupPresent = true →
      0x1000 ≤ s.setup.ringOffset ∧ s.setup.ringOffset % 32 = 0 ∧ s.setup.ringOffset + s.setup.capacity * 32 ≤ 0x10000)

/-- The number of contexts outside FREE whose key link names an entry (R96). -/
def State.linksTo (s : State) (k : Fin 48) : Nat :=
  s.contexts.table.count fun x => x.bind (·.keyLink) == some k

/-- R96: each reference count is the number of contexts that link to its entry, and an entry whose count is above zero is
not EMPTY. -/
def State.referenceCounts (s : State) : Prop :=
  ∀ k, (s.keys.entries.get k).references = s.linksTo k
    ∧ ((s.keys.entries.get k).state = .empty → (s.keys.entries.get k).references = 0)

/-- R92: while the part operates, no EXPIRED or REVOKED entry has a reference count of 0. -/
def State.spentEntries (s : State) : Prop :=
  s.controller.power = .on → ∀ k, (s.keys.entries.get k).state = .expired ∨ (s.keys.entries.get k).state = .revoked →
    (s.keys.entries.get k).references ≠ 0

/-- R94: no two non-EMPTY entries hold one pair of issuer and generation. -/
def uniqueLabels (t : Table 48 KeyEntry) : Prop :=
  ∀ i j, (t.get i).state ≠ .empty → (t.get j).state ≠ .empty → (t.get i).issuer = (t.get j).issuer →
    (t.get i).generation = (t.get j).generation → i = j

/-- R94, R105: the labels are unique, and would be if the last load record's effect were cut short. -/
def State.entryLabels (s : State) : Prop :=
  uniqueLabels s.keys.entries
    ∧ ∀ w, s.keys.lastWrite = some w → uniqueLabels (s.keys.entries.set w.index w.before)

/-- R90: every entry has the state that the seconds clock gives it. -/
def State.clockStates (s : State) : Prop :=
  ∀ k, (s.keys.entries.get k).evaluate s.controller.seconds = s.keys.entries.get k

/-- R90, R92, R94, R96: what the key table keeps. -/
def State.keyTable (s : State) : Prop := s.referenceCounts ∧ s.spentEntries ∧ s.entryLabels ∧ s.clockStates

/-- R66, R84: at most one context holds an identity, the recent passage list has no duplicate, and no identity is in both. -/
def State.identities (s : State) : Prop :=
  (∀ c c' x x', s.context c = some x → s.context c' = some x' → x.identity = x'.identity → c = c')
    ∧ (s.contexts.recent.map (·.identity)).Nodup
    ∧ ∀ c x, s.context c = some x → s.recentlyPaid x.identity = false

/-! ## Key material -/

/-- A state with every key and code replaced by nothing: what the C-port may not depend on (R20). -/
def State.withoutKeys (s : State) : State :=
  { s with
    keys := { s.keys with entries := s.keys.entries.map fun e => { e with key := none }, unerased := none, lastWrite := none }
    contexts := { s.contexts with table := s.contexts.table.map fun x => x.map fun y => { y with tagKey := none } }
    engine := { s.engine with operation := none }
    load := { s.load with buffer := Table.fill 16 0 }
    slots := { s.slots with lanes := s.slots.lanes.map fun l =>
      { l with outbound := l.outbound.map fun x =>
          match x.state with
          | .armed h c _ => { x with state := .armed h c 0 }
          | _ => x } } }

end Sys2Proof.Machine
end

