-- ==== Sys2Proof/Certificates/Slice0/Obligations.lean ====
section
/-! DEFINITION. The statements for the provers. Every event ends with `settle`: the idle engine and the report writer weigh
their conditions (R127, R141), which ReportWriterQueuesTheHead states; an access also ends with `relax`, the return to sleep of
an awake part (R169), which WakeEndClassifiesHeldAccesses states. A result written as an equation of states is the frame
too: what the right side does not name is as it was. -/

open Sys2Proof Sys2Proof.Machine

/-! ## The queue and the step -/

/-- Log 3: the model's queue. -/
def Obligations.StepRunsFrontCommand : Prop :=
  ∀ (s : State) (c : Instr) (rest : List Instr), s.pending = c :: rest → step s = exec c { s with pending := rest }

/-- Log 3: on an empty queue one millisecond passes. R166, R76: the time base rises by one; a running deadline that has not
reached zero falls by one, and a stopped one stays. R167: the set seconds clock counts the millisecond, and rises when 1000 have
been counted; an unset one counts nothing. What fell due and was not taken by its own command is taken first, in an order that is
the model's choice (log 3, log 4): a hold that began in an earlier millisecond, the contexts in ascending order, the recent passage
list, the clock; HoldLimitExpiryUnderruns and DueEventsAreTakenWhenDue give what each of them does. -/
def Obligations.EmptyQueueStepIsOneMillisecond : Prop :=
  ∀ s : State, s.pending = [] →
    let after := fun (i : Instr) (u : State) =>
      match exec i u with
      | .next t => t
      | .fault _ | .refused _ => u
    let expired := match s.slots.held with
      | some h => if h.began = s.controller.time then s else after .holdLimitExpiry s
      | none => s
    let closed := (List.finRange 24).foldl (fun u c => after (.deadlineExpiry c) u) expired
    let trimmed := { closed with
      contexts := { closed.contexts with
        recent := closed.contexts.recent.dropWhile fun e =>
          decide (closed.setup.holdOff * 1000 ≤ (closed.controller.time - e.time).toNat) } }
    let risen := after .secondsClockRise trimmed
    step s = .next s.tick
      ∧ (s.controller.power ≠ .on → s.tick = s)
      ∧ (s.controller.power = .on → s.tick =
        { risen with
          controller := { risen.controller with
            time := risen.controller.time + 1
            millis := if risen.controller.seconds.isSome then risen.controller.millis + 1 else risen.controller.millis }
          contexts := { risen.contexts with
            table := risen.contexts.table.map fun x =>
              x.map fun y => if y.running then { y with deadline := y.deadline - 1 } else y } })
      ∧ (s.controller.power = .on →
        s.tick.controller.time = s.controller.time + 1 ∧ s.tick.mem = s.mem ∧ s.tick.setup = s.setup ∧ s.tick.path = s.path
          ∧ s.tick.controller.state = s.controller.state
          ∧ (s.controller.seconds = none → s.tick.controller.seconds = none ∧ s.tick.controller.millis = s.controller.millis)
          ∧ (∀ clock, s.controller.seconds = some clock →
            (s.controller.millis < 1000 →
                s.tick.controller.seconds = some clock ∧ s.tick.controller.millis = s.controller.millis + 1)
              ∧ (1000 ≤ s.controller.millis →
                s.tick.controller.seconds = some (clock + 1) ∧ s.tick.controller.millis = 1))
          ∧ ∀ c x, s.context c = some x →
            (x.running = true → 0 < x.deadline → ∃ y, s.tick.context c = some y ∧ y.deadline + 1 = x.deadline ∧ y.running = true)
              ∧ (x.running = false → ∃ y, s.tick.context c = some y ∧ y.deadline = x.deadline ∧ y.running = false))

/-- Every command completes, and leaves the commands that wait behind it as they are. That a command named where its event
cannot occur answers a next state is log 2, and the queue is log 30: both are the model's choices. -/
def Obligations.EveryCommandAnswersNext : Prop :=
  ∀ (i : Instr) (s : State), ∃ t, exec i s = .next t ∧ t.pending = s.pending

/-- Frame: frame memory changes only where a word access completes or fails in flight and when power is lost; the setup in
force changes only at the end of a setup fetch, at RESET, at start-up and at a loss of power. -/
def Obligations.CommandsLeaveMemoryAndSetup : Prop :=
  ∀ (i : Instr) (s t : State), exec i s = .next t →
    i ≠ .agentWordComplete → (∀ a b o, i ≠ .startUp a b o) → (∀ cut, i ≠ .powerLoss cut) →
      (i ≠ .wordAccessComplete → (∀ o, i ≠ .mrestAssert o) → ∀ a, t.mem.read a = s.mem.read a)
        ∧ ((∀ cut, i ≠ .resetAssert cut) → t.setup = s.setup)

/-- R165 steps 4 to 6, with the reset values of R23, R25, R34, R59, R84, R88, R109, R119, R125, R138, R143, R151, R162, R163:
the fields that the spec gives a reset value. The last two are the model's choices: nothing is listed in memory (log 8) and no
command waits (log 30). The straps, the lines and the empty retained store are the model's choice (log 17) and are not
stated. -/
def Obligations.ResetHoldsStartUpValues : Prop :=
  let s := State.reset
  s.controller.state = .unset ∧ s.controller.setupPresent = false ∧ s.controller.power = .on ∧ s.controller.time = 0
    ∧ s.controller.seconds = none
    ∧ s.path.count = 0 ∧ s.path.port = none ∧ s.path.kind = none ∧ s.path.address = 0
    ∧ s.agent.jobs = [] ∧ s.engine.operation = none ∧ s.engine.ready = [] ∧ s.reports.waiting = []
    ∧ s.reports.producer = 0 ∧ s.reports.consumer = 0 ∧ s.reports.sequence = 0
    ∧ (∀ c, s.context c = none) ∧ s.contexts.recent = [] ∧ s.contexts.abandoned = 0
    ∧ (∀ r, s.inSlot r = .free ∧ (s.outSlot r).state = .free ∧ (s.outSlot r).codePosition = none ∧ (s.outSlot r).mark = false)
    ∧ s.slots.held = none ∧ (∀ n, (s.slots.lanes.get n).underruns = 0 ∧ (s.setup.lanes.get n).enable = false)
    ∧ s.load.state = .idle ∧ s.load.fill = 0 ∧ (∀ i, s.load.buffer.get i = 0) ∧ s.load.result = ⟨0, .none, none⟩
    ∧ s.control.result = ⟨0, .none, 0⟩ ∧ s.pendingCauses = 0 ∧ s.setup.enables = 0 ∧ s.setup.capacity = 0
    ∧ s.pending = [] ∧ s.mem = []

/-! ## Arrival of an access -/

/-- R23: a refusal replaces the record, counts, raises REFUSAL and is answered error; nothing else changes. Of two refusals the
record holds the second, and the count has gone up by two. The address is the byte address of the access. -/
def Obligations.RefusalRecordsPortKindAddress : Prop :=
  (∀ a : Access, a.address.toNat = 4 * a.word.toNat + match a.size with
    | .word => 0
    | .half upper => if upper then 2 else 0
    | .byte i => i.val)
  ∧ ∀ (s : State) (p : Port) (kind : RefusalKind) (address : BitVec 22),
    s.refuse p kind address =
        ({ s with
          path := ⟨s.path.count + 1, some p, some kind, address⟩
          control := { s.control with raised := s.control.raised ||| 8 } }).setPort p ⟨none, some .error⟩
      ∧ ∀ (q : Port) (kind' : RefusalKind) (address' : BitVec 22),
        ((s.refuse p kind address).refuse q kind' address').path = ⟨s.path.count + 2, some q, some kind', address'⟩

/-- R15, R17, R30: every R-port access to the control block is refused, and an access that falls in no watched range is passed
through, or refused during MREST. R14: the control block range, and which accesses are watched (RingWriteIsJudged gives the
rings); R169: which of them count towards the return to sleep. -/
def Obligations.AccessOutsideTheRings : Prop :=
  (∀ (s : State) (word : BitVec 20),
    let base := s.controller.straps.toNat * 0x10000
    (s.inBlock word = true ↔ base ≤ 4 * word.toNat ∧ 4 * word.toNat < base + 0x10000)
      ∧ (s.watched word = true ↔ s.inBlock word = true ∨ ∃ t, s.slotAt word = some t)
      ∧ (s.sinceWake word = true ↔ s.controller.state = .dormant ∧ s.watched word = true))
  ∧ ∀ (s : State) (p : Port) (a : Access), (s.port p).access = none → s.controller.power = .on →
    (p = .r → s.inBlock a.word = true → s.hears .r →
        exec (.memoryAccess p a) s = .next (((s.refuse .r .wrongPort a.address).relax).settle))
      ∧ (s.watched a.word = false → s.controller.lines.mrest = false →
        exec (.memoryAccess p a) s = .next (((s.hold p ⟨a, .waiting none, false⟩).relax).settle))
      ∧ (s.watched a.word = false → s.controller.lines.mrest = true →
        exec (.memoryAccess p a) s = .next (((s.refuse p .memoryResting a.address).relax).settle))

/-- R169: a watched access of a sleeping part is held and wakes it, and one that arrives during a wake is held with it. That a
wake goes on, and so holds accesses, in a part made RUNNING meanwhile, and that an access outstanding on the other port when the
wake begins is none of this wake's, are the model's choices (log 33). R165: while RESET is asserted every access, to the control block and
to rings too, is handed to the arbiter. Log 2: a port with an access outstanding takes no other. -/
def Obligations.AccessToPartThatDoesNotListen : Prop :=
  ∀ (s : State) (p : Port) (a : Access),
    let held := fun t : State => t.setPort p ⟨some ⟨a, .wake, true⟩, (s.port p).response⟩
    let before := fun x : PortState => { x with access := x.access.map fun o => { o with sinceWake := false } }
    ((s.port p).access = none → s.controller.power = .on → s.watched a.word = true → s.controller.wake = .waking →
        exec (.memoryAccess p a) s = .next (held s))
      ∧ ((s.port p).access = none → s.controller.power = .on → s.watched a.word = true → s.controller.state = .dormant →
        s.controller.wake = .asleep →
          exec (.memoryAccess p a) s = .next (held { s with
            controller := { s.controller with wake := .waking }, ports := ⟨before s.ports.c, before s.ports.r⟩ }))
      ∧ ((s.port p).access = none → s.controller.power = .inReset →
        exec (.memoryAccess p a) s = .next (s.setPort p ⟨some ⟨a, .waiting none, false⟩, (s.port p).response⟩))
      ∧ ((s.port p).access ≠ none → exec (.memoryAccess p a) s = .next s)

/-- R39, R44, R18, R30: a write that falls in a watched ring. R39, R44, R49, R30: a read of a ring passes through, but for the
R-port's reads of an outbound slot's code words; a slot with no code position has none. R14, R33: the slot word that an address
falls in, of the enabled lanes of a part in RUNNING, DORMANT or PURGING; the premise on the setup in force is kept by every step
(EveryStepKeepsIdleSlotsFree). -/
def Obligations.RingWriteIsJudged : Prop :=
  (∀ (s : State) (word : BitVec 20),
    let watches := s.controller.state = .running ∨ s.controller.state = .dormant ∨ s.controller.state = .purging
    (s.controller.power ≠ .on ∨ ¬ watches → s.slotAt word = none)
      ∧ ∀ (n : Fin 8) (k : Fin 16) (w : Nat), s.laidOut → s.controller.power = .on → watches →
        let l := s.setup.lanes.get n
        let bytes := 4 * l.slotWords
        (s.slotAt word = some ⟨.inbound, ⟨n, k⟩, w⟩ ↔
            l.enable = true ∧ k.val < l.inCount ∧ w < l.slotWords ∧ 4 * word.toNat = l.inBase + k.val * bytes + 4 * w)
          ∧ (s.slotAt word = some ⟨.outbound, ⟨n, k⟩, w⟩ ↔
            l.enable = true ∧ k.val < l.outCount ∧ w < l.slotWords ∧ 4 * word.toNat = l.outBase + k.val * bytes + 4 * w))
  ∧ ∀ (s : State) (p : Port) (a : Access) (t : SlotWord), s.hears p → s.inBlock a.word = false → s.slotAt a.word = some t →
    let refused := fun kind => Host.Outcome.next (φ := Fault) (ρ := Refusal) (((s.refuse p kind a.address).relax).settle)
    let waits := fun track => Host.Outcome.next (φ := Fault) (ρ := Refusal)
      (((s.hold p ⟨a, .waiting track, s.sinceWake a.word⟩).relax).settle)
    (a.write = true →
      (t.ring = .inbound → p = .c → exec (.memoryAccess p a) s = refused .wrongPort)
        ∧ (t.ring = .outbound → p = .r → exec (.memoryAccess p a) s = refused .wrongPort)
        ∧ ((t.ring = .inbound ∧ p = .r) ∨ (t.ring = .outbound ∧ p = .c) →
          (a.size ≠ .word → exec (.memoryAccess p a) s = refused .partialWrite)
            ∧ (a.size = .word → s.controller.lines.mrest = false → exec (.memoryAccess p a) s = waits (some t))
            ∧ (a.size = .word → s.controller.lines.mrest = true →
              exec (.memoryAccess p a) s = refused ((s.judge t).getD .memoryResting))))
      ∧ (a.write = false →
        (t.ring = .inbound ∨ p = .c ∨ ∀ k, (s.outSlot t.slot).codePosition = some k → t.word ≠ k ∧ t.word ≠ k + 1) →
          (s.controller.lines.mrest = false → exec (.memoryAccess p a) s = waits none)
            ∧ (s.controller.lines.mrest = true → exec (.memoryAccess p a) s = refused .memoryResting))

/-- R149, R106, R108, R137, R161: the area of every byte offset of the control block, and R14 the address it stands at; the premise
on the setup in force is kept by every step (EveryStepKeepsIdleSlotsFree). R149, R150, R137: a C-port write at a control block
offset that is no command and no load window write. -/
def Obligations.BlockWriteFollowsItsArea : Prop :=
  (∀ (s : State) (off : Nat), off < 16384 →
    let byte := 4 * off
    let ringEnd := s.setup.ringOffset + s.setup.capacity * 32
    4 * (s.blockWord off).toNat = s.controller.straps.toNat * 0x10000 + byte
      ∧ (s.laidOut →
        (byte = 0x100 → s.area off = .command)
          ∧ (∀ n, n < 64 → byte = 0x200 + 4 * n → s.area off = .overlay n)
          ∧ (∀ i : Fin 16, byte = 0x300 + 4 * i.val → s.area off = .loadWindow i)
          ∧ (∀ (e : Fin 48) (n : Nat), n < 4 → byte = 0x400 + 16 * e.val + 4 * n → s.area off = .keyStatus e n)
          ∧ (s.controller.setupPresent = true → s.setup.ringOffset ≤ byte → byte < ringEnd → s.area off = .reportRing)
          ∧ (byte < 0x100 ∨ (0x100 < byte ∧ byte < 0x200) ∨ (0x340 ≤ byte ∧ byte < 0x400)
            ∨ (0x700 ≤ byte ∧ (s.controller.setupPresent = false ∨ byte < s.setup.ringOffset ∨ ringEnd ≤ byte)) →
              s.area off = .plain)))
  ∧ ∀ (s : State) (off : BitVec 14) (size : Size) (data : Word), s.hears .c →
    let a : Access := ⟨true, s.blockWord off.toNat, size, data⟩
    ((∃ n, s.area off.toNat = .overlay n) ∨ (∃ e n, s.area off.toNat = .keyStatus e n) ∨ s.area off.toNat = .reportRing →
        exec (.controlBlockWrite off size data) s = .next (((s.refuse .c .readOnly a.address).relax).settle))
      ∧ (s.area off.toNat = .command → size ≠ .word →
        exec (.controlBlockWrite off size data) s = .next (((s.refuse .c .partialWrite a.address).relax).settle))
      ∧ (s.area off.toNat = .plain → s.controller.lines.mrest = false →
        exec (.controlBlockWrite off size data) s = .next (((s.hold .c ⟨a, .waiting none, s.sinceWake a.word⟩).relax).settle))
      ∧ (s.area off.toNat = .plain → s.controller.lines.mrest = true →
        exec (.controlBlockWrite off size data) s = .next (((s.refuse .c .memoryResting a.address).relax).settle))

/-- R149, R20, R175: a C-port read, narrow or full, of an area the part supplies; R137, R149, R30: one of a plain area or of the
report ring passes through. R151, R119, R107, R161 and Formats: the codes and the words supplied, field by field, for counts that
fit their fields. R59, R107, R34, R161: what the counts of the overlay count, of a lane enabled or not; the premise of the counts
before any setup is kept by every step (EveryStepKeepsIdleSlotsFree). R20: the addressed part of a word; that it stands in the
low bits is the model's choice (log 1). -/
def Obligations.BlockReadIsSupplied : Prop :=
  (∀ w : Word, Size.word.extract w = w
    ∧ (∀ upper, (Size.half upper).extract w = 0#16 ++ w.extractLsb' (if upper then 16 else 0) 16)
    ∧ ∀ i : Fin 4, (Size.byte i).extract w = 0#24 ++ w.extractLsb' (8 * i.val) 8) ∧
  (∀ (s : State) (off : Nat) (size : Size), s.hears .c → off < 16384 →
    let a : Access := ⟨false, s.blockWord off, size, 0⟩
    let supplied := fun w : Word => Host.Outcome.next (φ := Fault) (ρ := Refusal)
      ((({ s with ports := { s.ports with c := ⟨none, some (.done (some (size.extract w)))⟩ } } : State).relax).settle)
    (s.area off = .command → exec (.memoryAccess .c a) s = supplied s.control.result.word)
      ∧ (∀ n, s.area off = .overlay n → exec (.memoryAccess .c a) s = supplied (s.overlayWord n))
      ∧ (∀ i, s.area off = .loadWindow i → exec (.memoryAccess .c a) s = supplied s.load.result.word)
      ∧ (∀ e n, s.area off = .keyStatus e n → exec (.memoryAccess .c a) s = supplied ((s.keys.entries.get e).statusWord n))
      ∧ (s.area off = .plain ∨ s.area off = .reportRing → s.controller.lines.mrest = false →
        exec (.memoryAccess .c a) s = .next (((s.hold .c ⟨a, .waiting none, s.sinceWake a.word⟩).relax).settle))
      ∧ (s.area off = .plain ∨ s.area off = .reportRing → s.controller.lines.mrest = true →
        exec (.memoryAccess .c a) s = .next (((s.refuse .c .memoryResting a.address).relax).settle)))
    ∧ [PartState.unset, .running, .dormant, .halted, .purging].map PartState.code = [0, 1, 2, 3, 4]
    ∧ [RefusalKind.wrongPort, .lockedSlot, .overrun, .partialWrite, .codeField, .readOnly, .loadBusy, .memoryResting,
        .state].map RefusalKind.code = [1, 2, 3, 4, 5, 6, 7, 8, 9]
    ∧ [CommandOutcome.none, .pending, .done, .busy, .state, .badOperand, .badImage].map CommandOutcome.code
      = [0, 1, 2, 3, 4, 5, 6]
    ∧ [LoadOutcome.none, .ok, .badCheck, .badRecord, .stale, .badWindow, .duplicate, .tableFull, .notFound].map
        LoadOutcome.code = [0, 1, 2, 3, 4, 5, 6, 7, 8]
    ∧ [KeyState.empty, .waiting, .live, .expired, .revoked].map KeyState.code = [0, 1, 2, 3, 4]
    ∧ (∀ i : Fin 48, indexByte (some i) = i.val) ∧ indexByte (none : Option (Fin 48)) = 0xFF
    ∧ (∀ r : CommandResult, r.word = 0#8 ++ r.detail ++ BitVec.ofNat 8 r.outcome.code ++ r.code)
    ∧ (∀ r : LoadResult, r.word = BitVec.ofNat 8 (indexByte r.index) ++ BitVec.ofNat 8 r.outcome.code ++ r.serial)
    ∧ (∀ e : KeyEntry, e.references < 256 →
      e.statusWord 0 = e.issuer ++ e.generation ++ BitVec.ofNat 8 e.state.code ∧ e.statusWord 1 = e.validFrom
        ∧ e.statusWord 2 = e.validUntil ∧ e.statusWord 3 = 0#8 ++ BitVec.ofNat 8 e.references ++ e.installSerial)
    ∧ (∀ s : State,
      (∀ x, s.contextsIn x = (List.finRange 24).countP fun c => decide ((s.context c).map (·.state) = x))
        ∧ s.contextsIn none + s.contextsIn (some .derivingKey) + s.contextsIn (some .keyed) + s.contextsIn (some .challenging)
          + s.contextsIn (some .awaiting) + s.contextsIn (some .verifying) + s.contextsIn (some .closing)
          + s.contextsIn (some .reporting) = 24
        ∧ (∀ x, s.entriesIn x = (List.finRange 48).countP fun k => decide ((s.keys.entries.get k).state = x))
        ∧ s.entriesIn .empty + s.entriesIn .waiting + s.entriesIn .live + s.entriesIn .expired + s.entriesIn .revoked = 48
        ∧ (∀ n, s.freeInbound n = (List.finRange 16).countP fun k =>
          decide (k.val < (s.setup.lanes.get n).inCount ∧ s.inSlot ⟨n, k⟩ = .free))
        ∧ (∀ n, s.armedOutbound n = (List.finRange 16).countP fun k =>
          decide (k.val < (s.setup.lanes.get n).outCount) && match (s.outSlot ⟨n, k⟩).state with
            | .armed _ _ _ => true
            | .free | .composing _ _ | .closed _ | .fetching _ | .waitingKey _ _ | .coding _ _ | .spoiled _ _ | .draining _ => false)
        ∧ (s.idleSlots → s.controller.setupPresent = false →
          s.setup.capacity = 0 ∧ ∀ n, s.freeInbound n = 0 ∧ s.armedOutbound n = 0))
    ∧ ∀ s : State, s.reports.producer < 256 → s.reports.consumer < 256 → s.setup.capacity < 256 →
      s.engine.ready.length < 256 → s.agent.jobs.length < 65536 →
      let bytes := fun a b c d : Nat => BitVec.ofNat 8 d ++ BitVec.ofNat 8 c ++ BitVec.ofNat 8 b ++ BitVec.ofNat 8 a
      let lines := s.controller.lines
      let port := match s.path.port with
        | none => 0#2
        | some .c => 1#2
        | some .r => 2#2
      let kind := match s.path.kind with
        | none => 0
        | some k => k.code
      s.overlayWord 0 = Config.partCode ++ Config.vendorCode ∧ s.overlayWord 1 = 0#24 ++ Config.revision
        ∧ s.overlayWord 3 ++ s.overlayWord 2 = Config.unitSerial
        ∧ s.overlayWord 4 = 0#15 ++ BitVec.ofBool s.controller.seconds.isSome ++ 0#5 ++ BitVec.ofBool lines.purge
          ++ BitVec.ofBool lines.mrest ++ BitVec.ofBool lines.pwarn ++ BitVec.ofNat 8 s.controller.state.code
        ∧ s.overlayWord 5 = s.controller.time ∧ s.overlayWord 6 = s.controller.seconds.getD 0
        ∧ s.overlayWord 7 = s.control.result.word ∧ s.overlayWord 8 = s.load.result.word
        ∧ s.overlayWord 9 = s.keys.highestSerial
        ∧ s.overlayWord 10 = bytes s.reports.producer s.reports.consumer s.setup.capacity 0
        ∧ s.overlayWord 11 = s.reports.sequence ∧ s.overlayWord 12 = 0#9 ++ s.setup.enables ++ 0#9 ++ s.pendingCauses
        ∧ s.overlayWord 13 = s.path.count ∧ s.overlayWord 14 = 0#16 ++ BitVec.ofNat 8 kind ++ 0#6 ++ port
        ∧ s.overlayWord 15 = 0#10 ++ s.path.address
        ∧ s.overlayWord 16 = bytes (s.contextsIn none) (s.contextsIn (some .derivingKey)) (s.contextsIn (some .keyed))
          (s.contextsIn (some .challenging))
        ∧ s.overlayWord 17 = bytes (s.contextsIn (some .awaiting)) (s.contextsIn (some .verifying))
          (s.contextsIn (some .closing)) (s.contextsIn (some .reporting))
        ∧ s.overlayWord 18 = bytes (s.entriesIn .empty) (s.entriesIn .waiting) (s.entriesIn .live) (s.entriesIn .expired)
        ∧ s.overlayWord 19 = bytes (s.entriesIn .revoked) 0 0 0
        ∧ s.overlayWord 20 = s.contexts.abandoned
        ∧ s.overlayWord 21 = BitVec.ofNat 16 s.agent.jobs.length ++ 0#8 ++ BitVec.ofNat 8 s.engine.ready.length
        ∧ (∀ n : Fin 8, s.overlayWord (22 + n.val) = (s.slots.lanes.get n).underruns ++ BitVec.ofNat 8 (s.armedOutbound n)
          ++ BitVec.ofNat 8 (s.freeInbound n))
        ∧ ∀ k, 30 ≤ k → s.overlayWord k = 0

/-- R20: nothing the C-port is supplied depends on a key, a tag key, a code or the load buffer. -/
def Obligations.SuppliedWordsCarryNoKey : Prop :=
  ∀ (s : State) (area : Area), s.withoutKeys.suppliedWord area = s.suppliedWord area

/-! ## The memory port -/

/-- R24, R18: the free memory port is granted to the R-port, the agent or the C-port in this order; at its grant a tracked write
that the slot refuses gives the grant up, and every other access is in flight, a tracked write with the state it was judged
in. A write whose address is no longer the slot word it was found at goes in flight unjudged: the model's choice (log 12). With
the port busy, MREST asserted or nothing waiting, nothing is granted. R25, R26: the word the agent asks for. -/
def Obligations.GrantFollowsFixedPriority : Prop :=
  (∀ s : State,
    (s.controller.lines.mrest = true ∨ s.arbiter ≠ none
        ∨ (s.ports.r.request = none ∧ s.agentRequest = none ∧ s.ports.c.request = none) →
      exec .arbiterGrant s = .next s.relax)
    ∧ (s.controller.lines.mrest = false → s.arbiter = none →
      (∀ a track, s.ports.r.request = some (a, track) → exec .arbiterGrant s = .next (s.grantPort .r a track).relax)
        ∧ (∀ w, s.ports.r.request = none → s.agentRequest = some w →
          exec .arbiterGrant s = .next ({ s with arbiter := some (.agent w) } : State).relax)
        ∧ (∀ a track, s.ports.r.request = none → s.agentRequest = none → s.ports.c.request = some (a, track) →
          exec .arbiterGrant s = .next (s.grantPort .c a track).relax))
    ∧ ∀ p a since,
      (∀ track, (s.port p).request = some (a, track) ↔ ∃ since, (s.port p).access = some ⟨a, .waiting track, since⟩)
        ∧ (∀ t kind, (s.port p).access = some ⟨a, .waiting (some t), since⟩ → s.slotAt a.word = some t → s.judge t = some kind →
          s.grantPort p a (some t) = s.refuse p kind a.address)
        ∧ (∀ t, (s.port p).access = some ⟨a, .waiting (some t), since⟩ → s.slotAt a.word = some t → s.judge t = none →
          s.grantPort p a (some t) =
            ({ s with arbiter := some (.port p) } : State).hold p ⟨a, .inFlight (some ⟨t, s.slotState t⟩), since⟩)
        ∧ (∀ t, (s.port p).access = some ⟨a, .waiting (some t), since⟩ → s.slotAt a.word ≠ some t →
          s.grantPort p a (some t) = ({ s with arbiter := some (.port p) } : State).hold p ⟨a, .inFlight none, since⟩)
        ∧ ((s.port p).access = some ⟨a, .waiting none, since⟩ →
          s.grantPort p a none = ({ s with arbiter := some (.port p) } : State).hold p ⟨a, .inFlight none, since⟩))
  ∧ ∀ (s : State) (k : Nat) (rest : List Job),
    let at_ := fun byte => BitVec.ofNat 20 (byte / 4)
    (s.agent.position = none ∨ s.agent.jobs = [] → s.agentRequest = none)
      ∧ (s.agent.position = some k →
        (∀ r, s.agent.jobs = .fetchFrame .inbound r :: rest →
            let l := s.setup.lanes.get r.lane
            s.agentRequest = some ⟨at_ (l.inBase + r.index.val * (4 * l.slotWords) + 4 * k), none, true⟩)
          ∧ (∀ r, s.agent.jobs = .fetchFrame .outbound r :: rest →
            let l := s.setup.lanes.get r.lane
            s.agentRequest = some ⟨at_ (l.outBase + r.index.val * (4 * l.slotWords) + 4 * k), none, true⟩)
          ∧ (s.agent.jobs = .fetchSetup :: rest →
            s.agentRequest = some ⟨at_ (s.controller.straps.toNat * 0x10000 + 4 * k), none, true⟩)
          ∧ ∀ place record word, s.agent.jobs = .writeReport place record :: rest → record[k]? = some word →
            s.agentRequest = some ⟨place + BitVec.ofNat 20 k, some word, true⟩)

/-- R39, R43, R44, R45: what a slot refuses a full-word write with. R34: the name and the latched header of each slot state, and
the context an outbound one is bound to. -/
def Obligations.SlotJudgesByItsState : Prop :=
  (∀ (s : State) (r : SlotRef) (w : Nat),
    s.judge ⟨.inbound, r, w⟩ = (s.inSlot r).judge ∧ s.judge ⟨.outbound, r, w⟩ = (s.outSlot r).judge w
      ∧ s.slotState ⟨.inbound, r, w⟩ = (s.inSlot r).tag ∧ s.slotState ⟨.outbound, r, w⟩ = (s.outSlot r).state.tag)
    ∧ (∀ (h : Header) (n : Nat) (c : Fin 24) (code : Wide) (report : Report) (held : Option Report),
      let inbound := [InSlot.free, .filling h n, .closed h, .fetching h, .reportWait h report]
      let outbound := [OutState.free, .composing h n, .closed h, .fetching h, .waitingKey h c, .coding h c, .armed h c code,
        .spoiled h held, .draining h]
      inbound.map InSlot.tag = [.free, .filling, .closed, .fetching, .reportWait]
        ∧ inbound.map InSlot.header = [none, some h, some h, some h, some h]
        ∧ outbound.map OutState.tag = [.free, .composing, .closed, .fetching, .waitingKey, .coding, .armed, .spoiled, .draining]
        ∧ outbound.map OutState.header = [none, some h, some h, some h, some h, some h, some h, some h, some h]
        ∧ outbound.map OutState.boundContext = [none, none, none, none, some c, some c, some c, none, none])
    ∧ (∀ x : InSlot, x.judge = if x.tag = .closed ∨ x.tag = .fetching ∨ x.tag = .reportWait then some .overrun else none)
    ∧ ∀ (x : OutSlot) (w : Nat), x.judge w =
      match x.state with
      | .free => none
      | .composing h _ => if w + 2 = h.length.toNat ∨ w + 1 = h.length.toNat then some .codeField else none
      | .spoiled _ report => if report ≠ none ∨ x.mark = true then some .lockedSlot else none
      | .closed _ | .fetching _ | .waitingKey _ _ | .coding _ _ | .armed _ _ _ | .draining _ => some .lockedSlot

/-- R17: a pass-through access completes: a write that is not tracked stores the bytes it names and no other, and a read returns
memory's data. R175: the bytes an access names and the byte order of a word. -/
def Obligations.WordAccessCompletesAtMemory : Prop :=
  (Size.word.bytes = 4 ∧ (∀ upper, (Size.half upper).bytes = 2) ∧ (∀ i, (Size.byte i).bytes = 1)
    ∧ Size.word.offset = 0 ∧ (∀ upper, (Size.half upper).offset = if upper then 2 else 0) ∧ (∀ i, (Size.byte i).offset = i.val)
    ∧ (∀ (v : Word) (i : Nat), v.byte i = v.extractLsb' (8 * i) 8)
    ∧ ∀ (m : Memory) (word : BitVec 20), let a := 4 * word.toNat
      m.readWord word = m.read (a + 3) ++ m.read (a + 2) ++ m.read (a + 1) ++ m.read a)
  ∧ ∀ (s : State) (p : Port) (a : Access) (since : Bool), s.arbiter = some (.port p) →
    (s.port p).access = some ⟨a, .inFlight none, since⟩ →
    (Memory.wf s.mem → a.write = true → ∃ t, exec .wordAccessComplete s = .next t
        ∧ (∀ i, i < a.size.bytes → t.mem.read (4 * a.word.toNat + a.size.offset + i) = a.data.byte i)
        ∧ (∀ b, b < 4 * a.word.toNat + a.size.offset ∨ 4 * a.word.toNat + a.size.offset + a.size.bytes ≤ b →
          t.mem.read b = s.mem.read b)
        ∧ t = (((({ s with arbiter := none, mem := t.mem } : State).setPort p ⟨none, some (.done none)⟩).relax).settle))
      ∧ (a.write = false → exec .wordAccessComplete s =
        .next (((({ s with arbiter := none } : State).setPort p
          ⟨none, some (.done (some (a.size.extract (s.mem.readWord a.word))))⟩).relax).settle))

/-- R18: a permitted tracked write takes effect on its slot when it completes, if the slot is still as it was judged; the
effect rouses a DORMANT part (R169). That a write whose address is no longer the slot word it was judged at takes no effect is
the model's choice (log 12), and so is that a wake in progress goes on (log 33). -/
def Obligations.TrackedWriteTakesEffect : Prop :=
  ∀ (s : State) (p : Port) (a : Access) (j : Judged) (since : Bool), s.arbiter = some (.port p) →
    (s.port p).access = some ⟨a, .inFlight (some j), since⟩ → a.write = true →
    let t := ({ s with arbiter := none, mem := s.mem.store a.word a.size a.data } : State).setPort p ⟨none, some (.done none)⟩
    (s.slotAt a.word ≠ some j.target ∨ s.slotState j.target ≠ j.state → exec .wordAccessComplete s = .next (t.relax.settle))
      ∧ (s.slotAt a.word = some j.target → s.slotState j.target = j.state → t.writeSlot j.target a.data = none →
        exec .wordAccessComplete s = .next (t.relax.settle))
      ∧ ∀ u, s.slotAt a.word = some j.target → s.slotState j.target = j.state → t.writeSlot j.target a.data = some u →
        exec .wordAccessComplete s = .next (({ u with controller := u.controller.roused } : State).settle)

/-- R1, R2, R8: the fields of a header word and the conditions met at the latch. R36 to R38 and R42, R43, R45: what a write that
takes effect does to an inbound slot (the first five parts) and to an outbound slot. -/
def Obligations.SlotsCountTheirWrites : Prop :=
  (∀ sequencer form length kind : BitVec 8, Header.ofWord (sequencer ++ form ++ length ++ kind) = ⟨kind, length, form⟩)
  ∧ (∀ (h : Header) (ring : Ring) (words : Nat), h.wellFormed ring words = true ↔
    ((ring = .inbound ∧ (h.kind = 1 ∨ h.kind = 2)) ∨ (ring = .outbound ∧ h.kind = 3)) ∧ (h.form = 0 ∨ h.form = 1)
      ∧ h.length.toNat = (if h.kind = 1 then 6 else if h.kind = 2 then 7 else 10) + h.form.toNat ∧ h.length.toNat ≤ words)
  ∧ ∀ (s : State) (r : SlotRef) (w : Nat) (data : Word),
    let h := Header.ofWord data
    let words := (s.setup.lanes.get r.lane).slotWords
    let x := s.outSlot r
    let inbound := fun w => s.writeSlot ⟨.inbound, r, w⟩ data
    let outbound := fun w => s.writeSlot ⟨.outbound, r, w⟩ data
    (h.wellFormed .inbound words = true → inbound 0 = some (s.setInSlot r (.filling h 0)))
      ∧ (h.wellFormed .inbound words = false →
        inbound 0 = some ((s.setInSlot r (.reportWait h (s.notice .malformed r none none none))).joinReports (.inbound r)))
      ∧ (w ≠ 0 → s.inSlot r = .free → inbound w = none)
      ∧ (∀ g n, w ≠ 0 → s.inSlot r = .filling g n → n + 1 ≠ g.length.toNat - 1 →
        inbound w = some (s.setInSlot r (.filling g (n + 1))))
      ∧ (∀ g n, w ≠ 0 → s.inSlot r = .filling g n → n + 1 = g.length.toNat - 1 →
        inbound w = some ((s.setInSlot r (.closed g)).queueJob (.fetchFrame .inbound r)))
      ∧ (h.wellFormed .outbound words = true →
        outbound 0 = some (s.setOutSlot r ⟨.composing h 0, some (h.length.toNat - 2), false⟩))
      ∧ (h.wellFormed .outbound words = false → (∀ q, s.slots.held = some q → q.slot ≠ r) →
        outbound 0 = some (((s.leaveReady (.code r)).setOutSlot r
          { x with codePosition := none, state := .spoiled h (some (s.notice .malformed r none none none)) }).joinReports
            (.outbound r)))
      ∧ (w ≠ 0 → (x.state = .free ∨ ∃ g, x.state = .spoiled g none) → outbound w = none)
      ∧ (∀ g n, w ≠ 0 → x.state = .composing g n → g.length.toNat ≤ w + 2 → outbound w = none)
      ∧ (∀ g n, w ≠ 0 → x.state = .composing g n → w + 2 < g.length.toNat → n + 1 ≠ g.length.toNat - 3 →
        outbound w = some (s.setOutSlot r { x with state := .composing g (n + 1) }))
      ∧ (∀ g n, w ≠ 0 → x.state = .composing g n → w + 2 < g.length.toNat → n + 1 = g.length.toNat - 3 →
        outbound w = some ((s.setOutSlot r { x with state := .closed g }).queueJob (.fetchFrame .outbound r)))

/-- R26: the head job becomes current at its first word (R25: 1 of a frame, 0 of a setup image and of a record), and the slot of a
FETCH_FRAME goes from CLOSED to FETCHING; no job starts with a current one, an empty list, MREST asserted, in DORMANT or HALTED,
or while the part does not operate. R25: a job joins the tail of the list. That the buffer starts empty is the model's form (log
36). -/
def Obligations.AgentStartsHeadJob : Prop :=
  (∀ s : State,
    (s.agent.position ≠ none ∨ s.agent.jobs = [] ∨ s.controller.lines.mrest = true ∨ s.controller.power ≠ .on
        ∨ s.controller.state = .dormant ∨ s.controller.state = .halted → exec .agentJobStart s = .next s)
      ∧ ∀ j, s.queueJob j = { s with agent := { s.agent with jobs := s.agent.jobs ++ [j] } })
  ∧ (∀ ring r, (Job.fetchFrame ring r).firstWord = 1) ∧ Job.fetchSetup.firstWord = 0
  ∧ (∀ place record, (Job.writeReport place record).firstWord = 0)
  ∧ ∀ (s : State) (j : Job) (rest : List Job), s.agent.position = none → s.agent.jobs = j :: rest →
    s.controller.power = .on → s.controller.lines.mrest = false →
    s.controller.state = .unset ∨ s.controller.state = .running ∨ s.controller.state = .purging →
    let t : State := { s with agent := ⟨s.agent.jobs, some j.firstWord, []⟩ }
    (∀ r h, j = .fetchFrame .inbound r → s.inSlot r = .closed h → exec .agentJobStart s = .next (t.setInSlot r (.fetching h)))
      ∧ (∀ r h, j = .fetchFrame .outbound r → (s.outSlot r).state = .closed h →
        exec .agentJobStart s = .next (t.setOutSlot r { s.outSlot r with state := .fetching h }))
      ∧ (j = .fetchSetup → exec .agentJobStart s = .next t)
      ∧ (∀ place record, j = .writeReport place record → exec .agentJobStart s = .next t)

/-- R25, R26, R27: a word of the current job completes: a word read goes into the buffer and a word of a record to memory, and
the last one ends the job with the take or the written event of its owner; R28: the word of an abandoned job is discarded, or
lands in memory, and nothing more. R40, R46, R8: a taken frame is MALFORMED or goes to the take of its kind, with the fields that
R1 to R4, R7 and Formats give in the short and in the extended form. R25: the word after a job's last is the latched length of a
frame and 64 for a setup image. That the frame buffer is empty between jobs is the model's choice (log 36). -/
def Obligations.AgentWordContinuesOrEndsTheJob : Prop :=
  (∀ (s : State) (r : SlotRef) (h : Header),
    ((s.inSlot r).header = some h → s.jobEnd (.fetchFrame .inbound r) = h.length.toNat)
      ∧ ((s.outSlot r).state.header = some h → s.jobEnd (.fetchFrame .outbound r) = h.length.toNat)
      ∧ s.jobEnd .fetchSetup = 64) ∧
  (∀ (s : State) (w : AgentAccess), s.arbiter = some (.agent w) →
    let stored := fun (data : Word) (t : State) =>
      (∀ i, i < 4 → t.mem.read (4 * w.word.toNat + i) = data.byte i)
        ∧ ∀ b, b < 4 * w.word.toNat ∨ 4 * w.word.toNat + 4 ≤ b → t.mem.read b = s.mem.read b
    (w.live = false → w.write = none → exec .agentWordComplete s = .next { s with arbiter := none })
      ∧ (∀ data, w.live = false → w.write = some data → Memory.wf s.mem →
        ∃ t, exec .agentWordComplete s = .next t ∧ stored data t ∧ t = { s with arbiter := none, mem := t.mem })
      ∧ ∀ (k : Nat) (j : Job) (rest : List Job), w.live = true → s.agent.position = some k → s.agent.jobs = j :: rest →
        let buffer := s.agent.buffer ++ [s.mem.readWord w.word]
        let ended : State := { s with arbiter := none, agent := ⟨rest, none, []⟩ }
        (w.write = none → k + 1 < s.jobEnd j →
            exec .agentWordComplete s = .next { s with arbiter := none, agent := ⟨s.agent.jobs, some (k + 1), buffer⟩ })
          ∧ (∀ ring r, w.write = none → s.jobEnd j ≤ k + 1 → j = .fetchFrame ring r →
            exec .agentWordComplete s = .next (ended.takeFrame ring r buffer).settle)
          ∧ (w.write = none → s.jobEnd j ≤ k + 1 → j = .fetchSetup →
            exec .agentWordComplete s = .next (ended.takeSetup buffer).settle)
          ∧ ∀ data place record, Memory.wf s.mem → w.write = some data → j = .writeReport place record →
            ∃ t, exec .agentWordComplete s = .next t ∧ stored data t
              ∧ (k + 1 < record.length →
                t = { s with arbiter := none, mem := t.mem, agent := { s.agent with position := some (k + 1) } })
              ∧ (record.length ≤ k + 1 → t = (({ ended with mem := t.mem } : State).written).settle))
    ∧ ∀ (s : State) (r : SlotRef) (h : Header) (rest : List Word) (i₀ i₁ n₀ n₁ counter p₀ p₁ p₂ p₃ x₀ x₁ : Word)
      (flags generation : BitVec 8) (issuer : BitVec 16),
      let malformed := s.notice .malformed r none none none
      let label : Word := flags ++ generation ++ issuer
      ((s.inSlot r).header = some h →
        (h.form = 1 →
            s.takeFrame .inbound r (i₀ :: 0 :: rest)
              = (s.setInSlot r (.reportWait h malformed)).joinReports (.inbound r))
          ∧ (h.kind = 1 → h.form = 0 →
            s.takeFrame .inbound r [i₀, label, n₀, n₁, counter]
              = s.takeAnnounce h r ⟨0#32 ++ i₀, issuer, generation, n₁ ++ n₀, counter⟩)
          ∧ (h.kind = 1 → h.form = 1 → i₁ ≠ 0 →
            s.takeFrame .inbound r [i₀, i₁, label, n₀, n₁, counter]
              = s.takeAnnounce h r ⟨i₁ ++ i₀, issuer, generation, n₁ ++ n₀, counter⟩)
          ∧ (h.kind = 2 → h.form = 0 →
            s.takeFrame .inbound r [i₀, n₀, n₁, counter, x₀, x₁] = s.takeConfirm h r ⟨0#32 ++ i₀, n₁ ++ n₀, counter, x₁ ++ x₀⟩)
          ∧ (h.kind = 2 → h.form = 1 → i₁ ≠ 0 →
            s.takeFrame .inbound r [i₀, i₁, n₀, n₁, counter, x₀, x₁]
              = s.takeConfirm h r ⟨i₁ ++ i₀, n₁ ++ n₀, counter, x₁ ++ x₀⟩))
        ∧ ((s.outSlot r).state.header = some h →
          (h.form = 1 → s.takeFrame .outbound r (i₀ :: 0 :: rest) = s.spoil r malformed)
            ∧ (h.form = 0 →
              s.takeFrame .outbound r [i₀, n₀, n₁, p₀, p₁, p₂, p₃, x₀, x₁]
                = s.takeChallenge h r ⟨0#32 ++ i₀, n₁ ++ n₀, ⟨p₀, p₁, p₂, p₃⟩⟩)
            ∧ (h.form = 1 → i₁ ≠ 0 →
              s.takeFrame .outbound r [i₀, i₁, n₀, n₁, p₀, p₁, p₂, p₃, x₀, x₁]
                = s.takeChallenge h r ⟨i₁ ++ i₀, n₁ ++ n₀, ⟨p₀, p₁, p₂, p₃⟩⟩))

/-- R30, R31, R18, R23: the assertion of MREST at an operating part; where both ports' accesses are refused, the order the command
carries (log 11) decides which the record holds. R165: while RESET is asserted nothing is refused. That the access
in flight under RESET goes back to waiting and is made again is the model's choice (log 19), and so is that without power only the
line changes (log 20). R17: of memory only the bytes named
by a write in flight may change; that a word of the agent in flight may change its bytes too is the model's choice (log 24). -/
def Obligations.MrestRefusesAndRewinds : Prop :=
  ∀ (s : State) (o : Order), s.controller.lines.mrest = false →
    let written := fun b : Nat =>
      (∃ p x judged, (s.port p).access = some x ∧ x.phase = .inFlight judged ∧ x.access.write = true
        ∧ 4 * x.access.word.toNat + x.access.size.offset ≤ b
        ∧ b < 4 * x.access.word.toNat + x.access.size.offset + x.access.size.bytes)
      ∨ ∃ w data, s.arbiter = some (.agent w) ∧ w.write = some data ∧ 4 * w.word.toNat ≤ b ∧ b < 4 * w.word.toNat + 4
    let refused := fun p kind (address : BitVec 22) => ∃ x, (s.port p).access = some x ∧ x.access.address = address
      ∧ ((∃ track, x.phase = .waiting track ∧ kind = (s.judgeTracked x.access track).getD .memoryResting)
        ∨ (∃ judged, x.phase = .inFlight judged ∧ kind = .memoryResting))
    let stays := fun p => ∀ x, (s.port p).access = some x → x.phase = .wake ∨ x.phase = .codeHeld
    (s.controller.power = .on →
      ∃ t : State, exec (.mrestAssert o) s = .next t.relax
        ∧ t.controller = { s.controller with lines := { s.controller.lines with mrest := true } }
        ∧ (Memory.wf s.mem → ∀ b, ¬ written b → t.mem.read b = s.mem.read b)
        ∧ (∀ p x, (s.port p).access = some x → (x.phase = .wake ∨ x.phase = .codeHeld) → t.port p = s.port p)
        ∧ (∀ p x track, (s.port p).access = some x → x.phase = .waiting track → t.port p = ⟨none, some .error⟩)
        ∧ (∀ p x judged, (s.port p).access = some x → x.phase = .inFlight judged → t.port p = ⟨none, some .error⟩)
        ∧ (stays .c → stays .r → t.path = s.path ∧ t.control = s.control)
        ∧ (∀ p q kind address, q ≠ p → stays q → refused p kind address →
          t.path = ⟨s.path.count + 1, some p, some kind, address⟩
            ∧ t.control = { s.control with raised := s.control.raised ||| 8 })
        ∧ (∀ kind address kind' address', refused .c kind address → refused .r kind' address' →
          t.path = (if o = .cFirst then ⟨s.path.count + 2, some .r, some kind', address'⟩
            else ⟨s.path.count + 2, some .c, some kind, address⟩)
            ∧ t.control = { s.control with raised := s.control.raised ||| 8 })
        ∧ (∀ p, (s.port p).access = none → t.port p = s.port p) ∧ t.arbiter = none
        ∧ (∀ k j rest, s.agent.position = some k → s.agent.jobs = j :: rest → t.agent = ⟨s.agent.jobs, some j.firstWord, []⟩)
        ∧ t.slots = s.slots ∧ t.contexts = s.contexts ∧ t.keys = s.keys ∧ t.load = s.load ∧ t.engine = s.engine
        ∧ (s.agent.position = none → t.agent = s.agent)
        ∧ t.reports = s.reports ∧ t.setup = s.setup
        ∧ t.control = { s.control with raised := t.control.raised }
        ∧ (s.arbiter = none → (∀ p x judged, (s.port p).access = some x → x.phase ≠ .inFlight judged) → t.mem = s.mem))
      ∧ (s.controller.power = .inReset →
        ∃ t, exec (.mrestAssert o) s = .next t ∧ t.path = s.path ∧ t.arbiter = none
          ∧ t.controller = { s.controller with lines := { s.controller.lines with mrest := true } }
          ∧ (Memory.wf s.mem → ∀ b, ¬ written b → t.mem.read b = s.mem.read b)
          ∧ (s.arbiter = none → (∀ p x judged, (s.port p).access = some x → x.phase ≠ .inFlight judged) → t.mem = s.mem)
          ∧ (∀ p x judged, (s.port p).access = some x → x.phase = .inFlight judged →
            t.port p = ⟨some ⟨x.access, .waiting none, false⟩, (s.port p).response⟩)
          ∧ (∀ p, (∀ x judged, (s.port p).access = some x → x.phase ≠ .inFlight judged) → t.port p = s.port p)
          ∧ t.slots = s.slots ∧ t.contexts = s.contexts ∧ t.keys = s.keys ∧ t.load = s.load ∧ t.engine = s.engine
          ∧ t.agent = s.agent ∧ t.reports = s.reports ∧ t.control = s.control ∧ t.setup = s.setup)
      ∧ (s.controller.power = .off → exec (.mrestAssert o) s =
        .next { s with controller := { s.controller with lines := { s.controller.lines with mrest := true } } })

/-! ## Code-word reads -/

/-- R49, R50: a code-word read of an ARMED slot supplies the code, the high word's read being the send; of a FREE, COMPOSING,
SPOILED or DRAINING slot the fill pattern. R71: at the send the newest attempt takes the time base as its send time, the others
stay. -/
def Obligations.CodeReadIsAnsweredByTheSlot : Prop :=
  (∀ (time : Word) (before : List Attempt) (a : Attempt),
    sendNewest time [] = [] ∧ sendNewest time (before ++ [a]) = before ++ [{ a with sentAt := some time }])
  ∧ ∀ (s : State) (word : BitVec 20) (size : Size) (r : SlotRef) (w k : Nat), s.hears .r → s.inBlock word = false →
    s.slotAt word = some ⟨.outbound, r, w⟩ → (s.outSlot r).codePosition = some k →
    (∀ h c code, (s.outSlot r).state = .armed h c code → w = k →
        exec (.codeWordRead word size) s =
          .next (((s.setPort .r ⟨none, some (.done (some (size.extract code.low)))⟩).relax).settle))
      ∧ (∀ h c code x, (s.outSlot r).state = .armed h c code → s.context c = some x → w = k + 1 →
        exec (.codeWordRead word size) s =
          .next (((((s.setPort .r ⟨none, some (.done (some (size.extract code.high)))⟩).setOutSlot r
            { s.outSlot r with state := .free }).setContext c
              (some { x with attempts := sendNewest s.controller.time x.attempts, bound := none, state := .awaiting })).relax).settle))
      ∧ ((s.outSlot r).state.tag ∈ [SlotState.free, .composing, .spoiled, .draining] → w = k ∨ w = k + 1 →
        exec (.codeWordRead word size) s =
          .next (((s.setPort .r ⟨none, some (.done (some (size.extract 0xFFFFFFFF#32)))⟩).relax).settle))

/-- R49, R51, R52: a code-word read that comes before the code: held, or with a hold limit of 0 filled and underrun. -/
def Obligations.EarlyCodeReadIsHeld : Prop :=
  ∀ (s : State) (word : BitVec 20) (size : Size) (r : SlotRef) (w k : Nat) (high : Bool), s.hears .r → s.inBlock word = false →
    s.slotAt word = some ⟨.outbound, r, w⟩ → (s.outSlot r).codePosition = some k → w = (if high then k + 1 else k) →
    (s.outSlot r).state.tag ∈ [SlotState.closed, .fetching, .waitingKey, .coding] →
    let limit := (s.setup.lanes.get r.lane).holdLimit
    (0 < limit → exec (.codeWordRead word size) s =
        .next (((({ s with slots := { s.slots with held := some ⟨r, high, s.controller.time, limit⟩ } } : State).hold .r
          ⟨⟨false, word, size, 0⟩, .codeHeld, s.sinceWake word⟩).relax).settle))
      ∧ (limit = 0 → exec (.codeWordRead word size) s =
        .next (((((s.setPort .r ⟨none, some (.done (some (size.extract 0xFFFFFFFF#32)))⟩).underrun r)).relax).settle))

/-- R52, R53, R72: the hold limit of a held read expires: the read gets the fill pattern and the slot is spoiled with UNDERRUN; a
bound slot's context drops the binding without a send, and a slot with no context loses its fetch, a current one being abandoned
(R28). -/
def Obligations.HoldLimitExpiryUnderruns : Prop :=
  ∀ (s : State) (held : HeldRead) (o : Outstanding), s.slots.held = some held → s.ports.r.access = some o →
    let r := held.slot
    let spoiled := fun h c identity =>
      { s.outSlot r with state := .spoiled h (some (s.notice .underrun r c identity none)) }
    (s.outSlot r).state.tag ∈ [SlotState.closed, .fetching, .waitingKey, .coding] →
    (∀ c, (s.outSlot r).state.boundContext = some c → s.context c ≠ none) →
    ∃ t : State, exec .holdLimitExpiry s = .next t.settle
      ∧ t.port .r = ⟨none, some (.done (some (o.access.size.extract 0xFFFFFFFF#32)))⟩ ∧ t.port .c = s.port .c
      ∧ t.slots.held = none ∧ (t.slots.lanes.get r.lane).underruns = (s.slots.lanes.get r.lane).underruns + 1
      ∧ (∀ q, q ≠ r → t.outSlot q = s.outSlot q) ∧ (∀ q, t.inSlot q = s.inSlot q)
      ∧ (∀ n, n ≠ r.lane → (t.slots.lanes.get n).underruns = (s.slots.lanes.get n).underruns)
      ∧ t.reports = { s.reports with waiting := s.reports.waiting ++ [.outbound r] }
      ∧ t.engine = { s.engine with ready := s.engine.ready.filter (· != .code r) }
      ∧ t.contexts.recent = s.contexts.recent ∧ t.contexts.abandoned = s.contexts.abandoned
      ∧ t.controller = s.controller ∧ t.control = s.control ∧ t.load = s.load ∧ t.setup = s.setup
      ∧ t.keys = s.keys ∧ t.mem = s.mem ∧ t.path = s.path
      ∧ (∀ h c x, (s.outSlot r).state = .coding h c ∨ (s.outSlot r).state = .waitingKey h c → s.context c = some x →
        t.outSlot r = spoiled h (some c) (some x.identity) ∧ t.agent = s.agent ∧ t.arbiter = s.arbiter
          ∧ (∀ d, d ≠ c → t.context d = s.context d)
          ∧ t.context c = some
            { x with
              bound := none
              accepted := x.accepted - 1
              state := if x.state = .challenging then (if ∃ a ∈ x.attempts, a.sentAt ≠ none then .awaiting else .keyed)
                else x.state })
      ∧ (∀ h, (s.outSlot r).state = .closed h ∨ (s.outSlot r).state = .fetching h →
        t.outSlot r = spoiled h none none ∧ (∀ d, t.context d = s.context d)
          ∧ t.agent.jobs = s.agent.jobs.filter (· != .fetchFrame .outbound r)
          ∧ (∀ k rest, s.agent.position = some k → s.agent.jobs = .fetchFrame .outbound r :: rest → s.abandonsJob t)
          ∧ (s.agent.position = none ∨ (∀ rest, s.agent.jobs ≠ .fetchFrame .outbound r :: rest) → s.keepsJob t))

/-! ## The take of a frame -/

/-- R63: an ANNOUNCE absorbed into an open context. R62: the context found is the lowest-numbered one with the identity (R66: no
two have it). Formats: a lane's bit in a lane set. -/
def Obligations.AnnounceIsAbsorbed : Prop :=
  (∀ (s : State) (identity : Wide),
    let has := fun c => ∃ x, s.context c = some x ∧ x.identity = identity
    (∀ c, s.findContext identity = some c ↔ has c ∧ ∀ d, d < c → ¬ has d)
      ∧ (s.findContext identity = none ↔ ∀ c, ¬ has c))
  ∧ (∀ n m : Fin 8, (laneBit n).getLsbD m.val = decide (m = n))
  ∧ ∀ (s : State) (h : Header) (r : SlotRef) (a : Announce) (c : Fin 24) (x : Context), s.findContext a.identity = some c →
    s.context c = some x →
    s.takeAnnounce h r a = (s.setInSlot r .free).setContext c (some
      (if x.state ∈ [ContextState.derivingKey, .keyed, .challenging, .awaiting] then
        { x with hearings := min 255 (x.hearings + 1), lanes := x.lanes ||| laneBit r.lane }
      else x))

/-- R94: a lookup gives none while the part is PURGING, and otherwise the entry that holds the pair (LoadTestsAreMadeInOrder).
R62, R64, R65, R66: an ANNOUNCE that is not absorbed meets the checks in order: it is declined, or it opens the lowest-numbered
FREE context. R140, R176: the report of a DECLINED. R84: the identities on the recent passage list. -/
def Obligations.AnnounceIsDeclinedOrOpens : Prop :=
  (∀ (s : State) (code : DeclineCode) (r : SlotRef) (a : Announce) (k : Option (Fin 48)),
    s.decline code r a k =
      { ending := .declined code
        lane := r.lane
        slotIndex := some r.index
        context := none
        passage := none
        identity := some a.identity
        label := some (a.issuer, a.generation)
        keyIndex := k
        time := s.controller.time
        tagCounter := some a.counter })
  ∧ (∀ (s : State) (identity : Wide), s.recentlyPaid identity = true ↔ ∃ e ∈ s.contexts.recent, e.identity = identity) ∧
  (∀ (s : State) (issuer : BitVec 16) (generation : BitVec 8),
    s.lookup issuer generation = if s.controller.state = .purging then none else s.findKey issuer generation)
  ∧ ∀ (s : State) (h : Header) (r : SlotRef) (a : Announce), s.findContext a.identity = none →
    let take := s.takeAnnounce h r a
    let declined := fun code k => (s.setInSlot r (.reportWait h (s.decline code r a k))).joinReports (.inbound r)
    (s.recentlyPaid a.identity = true → take = declined .repeated none)
      ∧ (s.recentlyPaid a.identity = false → s.setup.serves a.issuer = false → take = declined .foreign none)
      ∧ (s.recentlyPaid a.identity = false → s.setup.serves a.issuer = true → a.counter = 0xFFFFFFFF#32 →
        take = declined .tagExhausted none)
      ∧ (s.recentlyPaid a.identity = false → s.setup.serves a.issuer = true → a.counter ≠ 0xFFFFFFFF#32 →
        (s.lookup a.issuer a.generation = none → take = declined .noKey none)
          ∧ ∀ k, s.lookup a.issuer a.generation = some k →
            ((s.keys.entries.get k).state = .waiting → take = declined .keyNotYet (some k))
              ∧ ((s.keys.entries.get k).state = .expired → take = declined .keyExpired (some k))
              ∧ ((s.keys.entries.get k).state = .revoked → take = declined .keyRevoked (some k))
              ∧ ((s.keys.entries.get k).state = .live → (∀ c, s.context c ≠ none) → take = declined .noContext (some k))
              ∧ ∀ c, (s.keys.entries.get k).state = .live → s.context c = none → (∀ d, d < c → s.context d ≠ none) →
                ∃ x, take = (((s.setInSlot r .free).setContext c (some x)).setEntry k
                    { s.keys.entries.get k with references := (s.keys.entries.get k).references + 1 }).joinReady (.derive c)
                  ∧ x.state = .derivingKey ∧ x.homeLane = r.lane ∧ x.lanes = laneBit r.lane ∧ x.identity = a.identity
                  ∧ x.issuer = a.issuer ∧ x.generation = a.generation ∧ x.tagNonce = a.tagNonce
                  ∧ x.announceCounter = a.counter ∧ x.hearings = 1 ∧ x.keyLink = some k ∧ x.attempts = [] ∧ x.accepted = 0
                  ∧ x.bound = none ∧ x.tagKey = none ∧ x.confirm = none ∧ x.outcome = none ∧ x.mark = false
                  ∧ x.running = true ∧ x.deadline = (s.setup.lanes.get r.lane).deadline)

/-- R67, R68, R69, R53: a CHALLENGE meets the notice of the first row that holds, and with none it is bound; an attempt list of
three loses its oldest unsent attempt. The last part is the spoil of a slot (R53): a read held on it gets the fill pattern at once
(R51), another held read stays. R140, R176: the report of a NOTICE. -/
def Obligations.ChallengeIsRefusedOrBound : Prop :=
  (∀ (s : State) (code : NoticeCode) (r : SlotRef) (c : Option (Fin 24)) (identity : Option Wide) (counter : Option Word),
    s.notice code r c identity counter =
      { ending := .notice code
        lane := r.lane
        slotIndex := some r.index
        context := c
        passage := none
        identity := identity
        label := none
        keyIndex := none
        time := s.controller.time
        tagCounter := counter })
  ∧ (∀ (n : Fin 8) (set : BitVec 8), laneIn n set = set.getLsbD n.val) ∧
  (∀ (lane : Fin 8) (x : Context),
    let closed := x.state = .verifying ∨ x.state = .closing ∨ x.state = .reporting
    let busy := x.state = .challenging ∨ (x.state = .derivingKey ∧ x.bound ≠ none)
    (laneIn lane x.lanes = false → x.challengeNotice lane = some .wrongLane)
      ∧ (laneIn lane x.lanes = true → closed → x.challengeNotice lane = some .closedTransaction)
      ∧ (laneIn lane x.lanes = true → ¬ closed → busy → x.challengeNotice lane = some .busyTransaction)
      ∧ (laneIn lane x.lanes = true → ¬ closed → ¬ busy → x.accepted = 3 → x.challengeNotice lane = some .tooMany)
      ∧ (laneIn lane x.lanes = true → ¬ closed → ¬ busy → x.accepted ≠ 3 → x.challengeNotice lane = none))
    ∧ (∀ (s : State) (h : Header) (r : SlotRef) (f : Challenge),
      (s.findContext f.identity = none →
        s.takeChallenge h r f = s.spoil r (s.notice .noTransaction r none (some f.identity) none))
        ∧ ∀ c x, s.findContext f.identity = some c → s.context c = some x →
          let attempt : Attempt := ⟨f.readerNonce, f.record, none⟩
          let bound := fun attempts state => s.setContext c
            (some { x with attempts := attempts, accepted := x.accepted + 1, bound := some r, state := state })
          (∀ code, x.challengeNotice r.lane = some code →
            s.takeChallenge h r f = s.spoil r (s.notice code r (some c) (some f.identity) none))
            ∧ (x.challengeNotice r.lane = none → x.state = .derivingKey → x.attempts.length < 3 →
              s.takeChallenge h r f =
                (bound (x.attempts ++ [attempt]) .derivingKey).setOutSlot r { s.outSlot r with state := .waitingKey h c })
            ∧ (x.challengeNotice r.lane = none → x.state ≠ .derivingKey → x.attempts.length < 3 →
              s.takeChallenge h r f =
                ((bound (x.attempts ++ [attempt]) .challenging).setOutSlot r { s.outSlot r with state := .coding h c }).joinReady
                  (.code r))
            ∧ (∀ before a after, x.challengeNotice r.lane = none → x.attempts = before ++ a :: after →
              x.attempts.length = 3 → (∀ b ∈ before, b.sentAt ≠ none) → a.sentAt = none →
              (x.state = .derivingKey → s.takeChallenge h r f =
                (bound (before ++ after ++ [attempt]) .derivingKey).setOutSlot r
                  { s.outSlot r with state := .waitingKey h c })
                ∧ (x.state ≠ .derivingKey → s.takeChallenge h r f =
                  ((bound (before ++ after ++ [attempt]) .challenging).setOutSlot r
                    { s.outSlot r with state := .coding h c }).joinReady (.code r))))
    ∧ ∀ (s : State) (r : SlotRef) (h : Header) (report : Report), (s.outSlot r).state.header = some h →
      let spoiled := fun t : State => ((t.leaveReady (.code r)).setOutSlot r
        { s.outSlot r with state := .spoiled h (some report) }).joinReports (.outbound r)
      ((∀ q, s.slots.held = some q → q.slot ≠ r) → s.spoil r report = spoiled s)
        ∧ ∀ q o, s.slots.held = some q → q.slot = r → s.ports.r.access = some o →
          s.spoil r report = spoiled (({ s with slots := { s.slots with held := none } } : State).setPort .r
            ⟨none, some (.done (some (o.access.size.extract 0xFFFFFFFF#32)))⟩)

/-- R73, R74: a CONFIRM is matched to the oldest sent attempt whose nonce it echoes, and a bound slot is spoiled SUPERSEDED; a
stray leaves every context as it was. -/
def Obligations.ConfirmIsMatchedOrStray : Prop :=
  ∀ (s : State) (h : Header) (r : SlotRef) (f : Confirm),
    let stray := fun c => (s.setInSlot r (.reportWait h
      (s.notice .strayConfirm r c (some f.identity) (some f.counter)))).joinReports (.inbound r)
    (s.findContext f.identity = none → s.takeConfirm h r f = stray none)
      ∧ ∀ c x, s.findContext f.identity = some c → s.context c = some x →
        ((x.state ≠ .challenging ∧ x.state ≠ .awaiting) ∨ (∀ a ∈ x.attempts, a.sentAt = none ∨ a.nonce ≠ f.echo) →
            s.takeConfirm h r f = stray (some c))
          ∧ ∀ before a after, x.attempts = before ++ a :: after → a.sentAt ≠ none → a.nonce = f.echo →
            (∀ b ∈ before, b.sentAt = none ∨ b.nonce ≠ f.echo) → x.state = .challenging ∨ x.state = .awaiting →
            let matched := fun t : State =>
              ((t.setContext c (some
                { x with
                  confirm := some ⟨f.echo, f.counter, f.tagCode, before.length⟩
                  lanes := x.lanes ||| laneBit r.lane
                  bound := none
                  running := false
                  state := .verifying })).setInSlot r .free).joinReady (.verify c)
            (x.bound = none → s.takeConfirm h r f = matched s)
              ∧ ∀ o, x.bound = some o →
                s.takeConfirm h r f = matched (s.spoil o (s.notice .superseded o (some c) (some x.identity) none))

/-! ## Key table and load unit -/

/-- R90: the state of an entry that is neither EMPTY nor REVOKED, and what is left as it is. R92: an EXPIRED or REVOKED entry
with a count of 0 becomes EMPTY, its key erased, and any other stays. -/
def Obligations.ClockGivesTheKeyState : Prop :=
  (∀ (clock : Option Word) (first until_ : Word),
    windowState clock first until_ = match clock with
      | none => .waiting
      | some t => if t < first then .waiting else if t < until_ then .live else .expired)
    ∧ (∀ (clock : Option Word) (e : KeyEntry),
      e.evaluate clock =
        if e.state = .empty ∨ e.state = .revoked then e else { e with state := windowState clock e.validFrom e.validUntil })
    ∧ ∀ e : KeyEntry,
      e.settle =
        if (e.state = .expired ∨ e.state = .revoked) ∧ e.references = 0 then ⟨.empty, 0, 0, 0, 0, none, 0, 0⟩ else e

/-- R101, R102: when an issuer code matches a filter, and when it is served. -/
def Obligations.IssuersAreServedByFilters : Prop :=
  (∀ (f : Filter) (i : BitVec 16),
    f.matches i = true ↔
      f.enable = true ∧ (∀ b, f.maskWidth ≤ b → b < 16 → i.getLsbD b = f.code.getLsbD b)
        ∧ (0 < f.maskWidth → i ≠ 0 ∧ i ≠ 0xFFFF#16))
    ∧ ∀ (x : Setup) (i : BitVec 16),
      (i = 0xFFFF#16 → x.serves i = false)
        ∧ (i = 0 → x.serves i = x.service)
        ∧ (i ≠ 0 → i ≠ 0xFFFF#16 → (x.serves i = true ↔ ∃ n, (x.filters.get n).matches i = true))

/-- R94: the entry that holds a pair is the non-EMPTY one with that issuer and generation. The table of "Opening the record" with
R114 to R117: the load outcome by the first test that holds. Formats: the fields of a load record. -/
def Obligations.LoadTestsAreMadeInOrder : Prop :=
  (∀ b : Table 16 Word,
    let d := LoadRecord.ofBuffer b
    d.kind = (b.get 0).extractLsb' 0 8 ∧ d.format = (b.get 0).extractLsb' 8 8 ∧ d.serial = b.get 1
      ∧ d.issuer = (b.get 2).extractLsb' 0 16 ∧ d.generation = (b.get 2).extractLsb' 16 8 ∧ d.validFrom = b.get 3
      ∧ d.validUntil = b.get 4) ∧
  (∀ (s : State) (issuer : BitVec 16) (generation : BitVec 8),
    let holds := fun k => (s.keys.entries.get k).state ≠ .empty ∧ (s.keys.entries.get k).issuer = issuer
      ∧ (s.keys.entries.get k).generation = generation
    (∀ k, s.findKey issuer generation = some k ↔ holds k ∧ ∀ j, j < k → ¬ holds j)
      ∧ (s.findKey issuer generation = none ↔ ∀ k, ¬ holds k))
  ∧ ∀ (s : State) (d : LoadRecord) (pass : Bool),
    let known := (d.kind = 1 ∨ d.kind = 2) ∧ d.format = 1 ∧ ¬ (d.kind = 1 ∧ d.issuer = 0xFFFF#16)
    let fresh := s.keys.highestSerial < d.serial
    (pass = false → s.loadOutcome d pass = (.badCheck, none))
      ∧ (pass = true → ¬ known → s.loadOutcome d pass = (.badRecord, none))
      ∧ (pass = true → known → ¬ fresh → s.loadOutcome d pass = (.stale, none))
      ∧ (pass = true → known → fresh → d.kind = 1 →
        (¬ d.validFrom < d.validUntil → s.loadOutcome d pass = (.badWindow, none))
          ∧ (d.validFrom < d.validUntil →
            (∀ k, s.findKey d.issuer d.generation = some k → s.loadOutcome d pass = (.duplicate, some k))
              ∧ (s.findKey d.issuer d.generation = none →
                ((∀ k, (s.keys.entries.get k).state ≠ .empty) → s.loadOutcome d pass = (.tableFull, none))
                  ∧ ∀ k, (s.keys.entries.get k).state = .empty → (∀ j, j < k → (s.keys.entries.get j).state ≠ .empty) →
                    s.loadOutcome d pass = (.ok, some k))))
      ∧ (pass = true → known → fresh → d.kind = 2 →
        (s.findKey d.issuer d.generation = none → s.loadOutcome d pass = (.notFound, none))
          ∧ ∀ k, s.findKey d.issuer d.generation = some k → s.loadOutcome d pass = (.ok, some k))

/-- R81, R78: closing the holders of a revoked entry in ascending order: each open context that links it ends KEY_REVOKED, its
bound slot (if no other context is bound to it) spoiled CLOSED_TRANSACTION, a read held on it filled (R53), and the rest
stays. R113, R118: the completion of an UNWRAP: the
record's effect, then the end of the load. -/
def Obligations.UnwrapCompletionEndsTheLoad : Prop :=
  (∀ (s : State) (k : Fin 48),
    let t := s.closeHolders k
    let closes := fun c x => s.context c = some x ∧ x.keyLink = some k ∧ x.state ∉ [ContextState.closing, .reporting]
    let joined := s.eachContext fun c x =>
      if x.keyLink = some k ∧ x.state ∉ [ContextState.closing, .reporting] then
        s.boundHolder x ++ if x.mark then [] else [.context c]
      else []
    (∀ c x, closes c x → t.context c = some
        { x with
          outcome := some (.keyRevoked, s.controller.time), running := false, bound := none
          state := if x.mark then .closing else .reporting })
      ∧ (∀ c, (∀ x, ¬ closes c x) → t.context c = s.context c)
      ∧ t.contexts.recent = s.contexts.recent ∧ t.contexts.abandoned = s.contexts.abandoned
      ∧ t.reports = { s.reports with waiting := s.reports.waiting ++ joined }
      ∧ (∃ keep : Holder → Bool, t.engine = { s.engine with ready := s.engine.ready.filter keep }
        ∧ ∀ h, keep h = true ↔ ¬ s.cancelled closes h)
      ∧ (∀ c x r h, closes c x → x.bound = some r → (∀ d y, s.context d = some y → y.bound = some r → d = c) →
        (s.outSlot r).state.header = some h →
          t.outSlot r = { s.outSlot r with
            state := .spoiled h (some (s.notice .closedTransaction r (some c) (some x.identity) none)) })
      ∧ (∀ r, (∀ c x, closes c x → x.bound ≠ some r) → t.outSlot r = s.outSlot r)
      ∧ (∀ r, t.inSlot r = s.inSlot r) ∧ (∀ n, (t.slots.lanes.get n).underruns = (s.slots.lanes.get n).underruns)
      ∧ (∀ c x q o, closes c x → x.bound = some q.slot → (s.outSlot q.slot).state.header ≠ none → s.slots.held = some q →
        s.ports.r.access = some o →
          t.slots.held = none ∧ t.port .r = ⟨none, some (.done (some (o.access.size.extract 0xFFFFFFFF#32)))⟩)
      ∧ ((∀ c x q, closes c x → s.slots.held = some q → x.bound ≠ some q.slot) →
        t.slots.held = s.slots.held ∧ t.port .r = s.port .r)
      ∧ t.port .c = s.port .c ∧ t.arbiter = s.arbiter ∧ t.keys = s.keys
      ∧ t.load = s.load ∧ t.agent = s.agent ∧ t.controller = s.controller ∧ t.control = s.control ∧ t.setup = s.setup
      ∧ t.mem = s.mem ∧ t.path = s.path)
  ∧ ∀ (s : State) (transport : Key) (words : List Word) (check : Wide),
    s.engine.operation = some (.unwrap transport words check) →
    let d := LoadRecord.ofBuffer s.load.buffer
    let o := s.loadOutcome d (decide (check = Config.unwrapCheck transport words))
    let idle : State := { s with engine := { s.engine with operation := none }, load := { s.load with mark := false } }
    let done := fun t : State => ({ t with load := ⟨.idle, Table.fill 16 0, 0, false, ⟨d.serial.extractLsb' 0 16, o.1, o.2⟩⟩ } : State).raise .load
    (o.1 ≠ .ok → exec .unwrapComplete s = .next (done idle).settle)
      ∧ (∀ k, o = (.ok, some k) → d.kind = 1 →
        exec .unwrapComplete s = .next (done { idle with keys := { s.keys with
          entries := s.keys.entries.set k (KeyEntry.settle ⟨windowState s.controller.seconds d.validFrom d.validUntil, d.issuer,
            d.generation, d.validFrom, d.validUntil, some (Config.unwrapKey transport words), d.serial.extractLsb' 0 16, 0⟩)
          highestSerial := d.serial
          lastWrite := some ⟨k, s.keys.entries.get k, s.keys.highestSerial⟩ } }).settle)
      ∧ (∀ k, o = (.ok, some k) → d.kind = 2 →
        exec .unwrapComplete s = .next (done (State.closeHolders k { idle with keys := { s.keys with
          entries := s.keys.entries.set k (KeyEntry.settle { s.keys.entries.get k with state := .revoked, key := none })
          highestSerial := d.serial
          lastWrite := some ⟨k, s.keys.entries.get k, s.keys.highestSerial⟩ } })).settle)

/-- R103, R115: the highest load serial never falls, but for a record whose effect RESET or a loss of power cut short (R105). -/
def Obligations.HighestSerialNeverFalls : Prop :=
  ∀ (i : Instr) (s t : State), exec i s = .next t →
    (i = .resetAssert true ∨ i = .powerLoss true → s.keys.lastWrite = none) →
      s.keys.highestSerial ≤ t.keys.highestSerial

/-- R112, R109, R110, R111: a load window write is refused, in the order of R21, or taken by the load unit. -/
def Obligations.LoadWindowWriteIsRefusedOrTaken : Prop :=
  ∀ (s : State) (i : Fin 16) (size : Size) (data : Word), s.hears .c →
    let closed := s.controller.state = .unset ∨ s.controller.state = .halted ∨ s.controller.state = .purging
    let write := exec (.loadWindowWrite i size data) s
    let refused := fun kind => Host.Outcome.next (φ := Fault) (ρ := Refusal)
      (((s.refuse .c kind (Access.address ⟨true, s.blockWord (0xC0 + i.val), size, data⟩)).relax).settle)
    let taken := fun l : Load =>
      ({ s with load := l, ports := { s.ports with c := ⟨none, some (.done none)⟩ }, controller := s.controller.roused } : State)
    (closed → write = refused .state)
      ∧ (¬ closed → size ≠ .word → write = refused .partialWrite)
      ∧ (¬ closed → size = .word → s.load.state = .unwrapping → write = refused .loadBusy)
      ∧ (¬ closed → size = .word → s.load.state = .idle → i ≠ 0 → write = .next (taken s.load).settle)
      ∧ (¬ closed → size = .word → s.load.state = .idle ∨ s.load.state = .filling → i = 0 →
        write = .next (taken { s.load with state := .filling, buffer := (Table.fill 16 0).set 0 data, fill := 1 }).settle)
      ∧ (¬ closed → size = .word → s.load.state = .filling → i ≠ 0 → s.load.fill + 1 ≠ 16 →
        write = .next (taken { s.load with buffer := s.load.buffer.set i data, fill := s.load.fill + 1 }).settle)
      ∧ (¬ closed → size = .word → s.load.state = .filling → i ≠ 0 → s.load.fill + 1 = 16 →
        write = .next ((taken { s.load with state := .unwrapping, buffer := s.load.buffer.set i data, fill := 16 }).joinReady
          .unwrap).settle)

/-! ## The code engine -/

/-- R127, R128: the idle engine takes the holder of the lowest class on the list, the oldest of that class; with the engine busy
or stopped, or nothing on the list, nothing happens. R124: the classes. R126, R133: a holder joins the tail of the list, and
leaves it. R129: the engine mark of a holder. -/
def Obligations.EngineStartTakesLowestClassOldest : Prop :=
  (∀ (s : State) (h : Holder),
    s.joinReady h = { s with engine := { s.engine with ready := s.engine.ready ++ [h] } }
      ∧ s.leaveReady h = { s with engine := { s.engine with ready := s.engine.ready.filter (· != h) } })
  ∧ (∀ (s : State) (m : Bool) (r : SlotRef) (c : Fin 24),
    s.setMark (.code r) m = s.setOutSlot r { s.outSlot r with mark := m }
      ∧ s.setMark (.verify c) m = s.setContext c ((s.context c).map fun x => { x with mark := m })
      ∧ s.setMark (.derive c) m = s.setContext c ((s.context c).map fun x => { x with mark := m })
      ∧ s.setMark .unwrap m = { s with load := { s.load with mark := m } }
      ∧ (Holder.code r).priority < (Holder.verify c).priority ∧ (Holder.verify c).priority < (Holder.derive c).priority
      ∧ (Holder.derive c).priority < Holder.unwrap.priority) ∧
  (∀ (ready : List Holder) (h : Holder), nextHolder ready = some h ↔
    ∃ older younger, ready = older ++ h :: younger
      ∧ (∀ x ∈ older, h.priority < x.priority) ∧ (∀ x ∈ younger, h.priority ≤ x.priority))
    ∧ ∀ (s : State),
      (∀ h o, s.controller.power = .on →
          s.controller.state = .unset ∨ s.controller.state = .running ∨ s.controller.state = .purging →
          s.engine.operation = none → nextHolder s.engine.ready = some h → s.operationOf h = some o →
            exec .engineStart s = .next (({ s with engine := ⟨some o, s.engine.ready.filter (· != h)⟩ } : State).setMark h true))
        ∧ (s.controller.state = .dormant ∨ s.controller.state = .halted ∨ s.engine.operation ≠ none ∨ s.engine.ready = [] →
          exec .engineStart s = .next s)

/-- R128: the inputs an operation copies at its start; for an UNWRAP the transport key, words 0 to 13 of the load buffer, and the
check in words 14 and 15, low word first. -/
def Obligations.OperationCopiesItsInputs : Prop :=
  (∀ (s : State) (words : List Word) (low high : Word), s.load.buffer.cells = words ++ [low, high] →
    s.operationOf .unwrap = some (.unwrap Config.transportKey words (high ++ low)))
  ∧ ∀ (s : State) (c : Fin 24) (x : Context) (key : Key), s.context c = some x →
    (∀ r h a, (s.outSlot r).state = .coding h c → x.tagKey = some key → x.attempts.getLast? = some a →
        s.operationOf (.code r) = some (.code r key x.identity x.tagNonce a.nonce a.record))
      ∧ (∀ d a, x.tagKey = some key → x.confirm = some d → x.attempts[d.matched]? = some a →
        s.operationOf (.verify c) = some (.verify c key x.identity a.nonce a.record d.counter d.tagCode))
      ∧ (∀ k, x.keyLink = some k → (s.keys.entries.get k).key = some key →
        s.operationOf (.derive c) = some (.derive c key x.identity x.generation))

/-- R48, R50, R51, R132: a CODE completion, by the slot's state; what `sendNewest` does to the attempts is stated in
CodeReadIsAnsweredByTheSlot. -/
def Obligations.CodeCompletionFollowsTheSlot : Prop :=
  ∀ (s : State) (r : SlotRef) (key : Key) (id tn rn : Wide) (rec : PassageRecord),
    s.engine.operation = some (.code r key id tn rn rec) →
    let idle : State := { s with engine := { s.engine with operation := none } }
    let x := s.outSlot r
    let code := Config.challengeCode key id tn rn rec
    (∀ h c, x.state = .coding h c → (∀ q, s.slots.held = some q → q.slot ≠ r) →
        exec .codeComplete s = .next (idle.setOutSlot r ⟨.armed h c code, x.codePosition, false⟩).settle)
      ∧ (∀ h c q o, x.state = .coding h c → s.slots.held = some q → q.slot = r → q.high = false → s.ports.r.access = some o →
        exec .codeComplete s = .next (((({ idle with slots := { s.slots with held := none } } : State).setOutSlot r
          ⟨.armed h c code, x.codePosition, false⟩).setPort .r ⟨none, some (.done (some (o.access.size.extract code.low)))⟩)).settle)
      ∧ (∀ h c q o y, x.state = .coding h c → s.slots.held = some q → q.slot = r → q.high = true → s.ports.r.access = some o →
        s.context c = some y →
        exec .codeComplete s = .next ((((({ idle with slots := { s.slots with held := none } } : State).setOutSlot r
          ⟨.free, x.codePosition, false⟩).setPort .r ⟨none, some (.done (some (o.access.size.extract code.high)))⟩).setContext c
            (some { y with attempts := sendNewest s.controller.time y.attempts, bound := none, state := .awaiting }))).settle)
      ∧ (∀ h report, x.state = .spoiled h report →
        exec .codeComplete s = .next (idle.setOutSlot r { x with mark := false }).settle)
      ∧ (∀ h, x.state = .draining h →
        exec .codeComplete s = .next (idle.setOutSlot r ⟨.free, x.codePosition, false⟩).settle)

/-- R70, R47, R79: a DERIVE completion, by the context's state. -/
def Obligations.DeriveCompletionFollowsTheContext : Prop :=
  ∀ (s : State) (c : Fin 24) (master : Key) (id : Wide) (g : BitVec 8) (x : Context),
    s.engine.operation = some (.derive c master id g) → s.context c = some x →
    let idle : State := { s with engine := { s.engine with operation := none } }
    let key := Config.deriveTagKey master id g
    (x.state = .derivingKey → x.bound = none →
        exec .deriveComplete s =
          .next (idle.setContext c (some { x with mark := false, tagKey := some key, state := .keyed })).settle)
      ∧ (∀ r h, x.state = .derivingKey → x.bound = some r → (s.outSlot r).state = .waitingKey h c →
        exec .deriveComplete s =
          .next (((idle.setContext c (some { x with mark := false, tagKey := some key, state := .challenging })).setOutSlot r
            { s.outSlot r with state := .coding h c }).joinReady (.code r)).settle)
      ∧ (x.state = .closing →
        exec .deriveComplete s =
          .next ((idle.setContext c (some { x with mark := false, state := .reporting })).joinReports (.context c)).settle)

/-- R75, R79: a VERIFY completion, by the context's state and confirm data. -/
def Obligations.VerifyCompletionDecidesTheOutcome : Prop :=
  ∀ (s : State) (c : Fin 24) (key : Key) (id nonce : Wide) (rec : PassageRecord) (counter : Word) (tagCode : Wide) (x : Context)
    (d : ConfirmData), s.engine.operation = some (.verify c key id nonce rec counter tagCode) → s.context c = some x →
    x.confirm = some d →
    let idle : State := { s with engine := { s.engine with operation := none } }
    let ended := fun y : Context => Host.Outcome.next (φ := Fault) (ρ := Refusal)
      ((idle.setContext c (some { y with mark := false, state := .reporting })).joinReports (.context c)).settle
    let good := Config.expectedTagCode key id nonce rec counter = tagCode
    let decided := fun code => { x with outcome := some (code, s.controller.time) }
    (x.state = .verifying → d.counter ≠ x.announceCounter + 1 → exec .verifyComplete s = ended (decided .badCounter))
      ∧ (x.state = .verifying → d.counter = x.announceCounter + 1 → ¬ good → exec .verifyComplete s = ended (decided .badCode))
      ∧ (x.state = .verifying → d.counter = x.announceCounter + 1 → good → x.issuer = 0 →
        exec .verifyComplete s = ended (decided .servicePass))
      ∧ (x.state = .verifying → d.counter = x.announceCounter + 1 → good → x.issuer ≠ 0 →
        exec .verifyComplete s = ended (decided .paid))
      ∧ (x.state = .closing → exec .verifyComplete s = ended x)


/-! ## The report ring -/

/-- R127, R141: what `settle` does: the engine is weighed as ENGINE_START does, then the report writer queues the head entry's
record when the ring is not full and no write is in progress, and otherwise nothing. That it stands at the end of every event is
the model's reading (log 5, log 7) and is no part of this statement. R80, R140: the report each holder on the list holds. R140,
R176, R13 and Formats: the words of a record, for counts that fit their fields. R139: a holder joins the tail of the pending list.
What a DECLINED and a NOTICE hold is stated in AnnounceIsDeclinedOrOpens and ChallengeIsRefusedOrBound. -/
def Obligations.ReportWriterQueuesTheHead : Prop :=
  (∀ (s : State) (h : ReportHolder), s.joinReports h = { s with reports := { s.reports with waiting := s.reports.waiting ++ [h] } }) ∧
  (∀ (s : State),
    s.settle = s.weighEngine.weighReports ∧ exec .engineStart s = .next s.weighEngine
      ∧ (s.reports.waiting = [] ∨ s.ringFull = true ∨ s.reports.write ≠ .idle → s.weighReports = s)
      ∧ (∀ h rest r, s.reports.waiting = h :: rest → s.ringFull = false → s.reports.write = .idle → s.heldReport h = some r →
        s.weighReports =
          { s with
            reports := { s.reports with write := .writing }
            agent := { s.agent with
              jobs := s.agent.jobs ++ [.writeReport (s.blockWord (s.setup.ringOffset / 4 + s.reports.producer * 8))
                (r.words s.reports.sequence)] } })
      ∧ (s.ringFull = true ↔ (s.reports.producer + 1) % s.setup.capacity = s.reports.consumer)
      ∧ (∀ r h report, s.inSlot r = .reportWait h report → s.heldReport (.inbound r) = some report)
      ∧ (∀ r h report, (s.outSlot r).state = .spoiled h (some report) → s.heldReport (.outbound r) = some report)
      ∧ ∀ c x code time, s.context c = some x → x.outcome = some (code, time) →
        s.heldReport (.context c) = some
          { ending := .passage code
            lane := x.homeLane
            slotIndex := none
            context := some c
            passage := some ⟨(x.attempts.filter fun a => a.sentAt ≠ none).length, x.hearings, x.lanes⟩
            identity := some x.identity
            label := some (x.issuer, x.generation)
            keyIndex := x.keyLink
            time := time
            tagCounter := some (match x.confirm with
              | some d => d.counter
              | none => x.announceCounter) })
    ∧ (∀ (r : Report) (sequence : Word), (∀ f, r.passage = some f → f.attemptsSent < 4 ∧ f.hearings < 256) →
      let fields := match r.passage with
        | some f => (BitVec.ofNat 2 f.attemptsSent, BitVec.ofNat 8 f.hearings, f.lanes)
        | none => (0, 0, 0)
      let context : BitVec 5 := match r.context with
        | some c => BitVec.ofNat 5 c.val
        | none => 0x1F
      let identity := r.identity.getD 0
      let label := r.label.getD (0, 0)
      r.words sequence =
        [ BitVec.ofNat 8 (indexByte r.slotIndex) ++ BitVec.ofNat 8 r.lane.val ++ BitVec.ofNat 8 r.ending.code
            ++ BitVec.ofNat 8 r.ending.classCode,
          fields.2.2 ++ fields.2.1 ++ 0#2 ++ BitVec.ofBool r.tagCounter.isSome ++ BitVec.ofBool r.label.isSome
            ++ BitVec.ofBool r.identity.isSome ++ BitVec.ofBool r.passage.isSome ++ fields.1 ++ 0#3 ++ context,
          identity.extractLsb' 0 32, identity.extractLsb' 32 32,
          BitVec.ofNat 8 (indexByte r.keyIndex) ++ label.2 ++ label.1,
          r.time, r.tagCounter.getD 0, sequence ])
    ∧ (∀ c d n, (Ending.passage c).classCode = 1 ∧ (Ending.declined d).classCode = 2 ∧ (Ending.notice n).classCode = 3)
    ∧ [PassageCode.paid, .servicePass, .badCounter, .badCode, .late, .keyRevoked, .abandoned, .purged].map
        (fun c => (Ending.passage c).code) = [1, 2, 3, 4, 5, 6, 7, 8]
    ∧ [DeclineCode.repeated, .foreign, .tagExhausted, .noKey, .keyNotYet, .keyExpired, .keyRevoked, .noContext].map
        (fun c => (Ending.declined c).code) = [1, 2, 3, 4, 5, 6, 7, 8]
    ∧ [NoticeCode.malformed, .noTransaction, .wrongLane, .closedTransaction, .busyTransaction, .tooMany, .strayConfirm,
        .superseded, .underrun].map (fun c => (Ending.notice c).code) = [1, 2, 3, 4, 5, 6, 7, 8, 9]

/-- R142, R143, R41, R54, R83, R84: the written event; R146: of a write whose entry a restart has removed, the list being empty
or not. -/
def Obligations.WrittenEventReleasesTheHolder : Prop :=
  (∀ s : State, s.reports.waiting = [] →
    s.written = { s with reports :=
      ⟨(s.reports.producer + 1) % s.setup.capacity, s.reports.consumer, s.reports.sequence + 1, [], .idle⟩ })
  ∧ ∀ (s : State) (h : ReportHolder) (rest : List ReportHolder), s.reports.waiting = h :: rest →
    let t : State := { s with reports :=
      ⟨(s.reports.producer + 1) % s.setup.capacity, s.reports.consumer, s.reports.sequence + 1, rest, .idle⟩ }
    (s.reports.write ≠ .writing → s.written = { t with reports := { t.reports with waiting := h :: rest } })
      ∧ (∀ r g report, s.reports.write = .writing → h = .inbound r → s.inSlot r = .reportWait g report →
        s.written = t.setInSlot r .free)
      ∧ (∀ r g report, s.reports.write = .writing → h = .outbound r → (s.outSlot r).state = .spoiled g (some report) →
        s.written = t.setOutSlot r { s.outSlot r with state := .spoiled g none })
      ∧ (∀ c x freed, s.reports.write = .writing → h = .context c → s.context c = some x → x.state = .reporting →
        (x.keyLink = none → freed = t.setContext c none) →
        (∀ k, x.keyLink = some k → freed = (t.setContext c none).setEntry k
          ({ s.keys.entries.get k with references := (s.keys.entries.get k).references - 1 } : KeyEntry).settle) →
        ((∃ time, x.outcome = some (.paid, time)) → s.setup.holdOff ≠ 0 →
            s.written = { freed with contexts := { freed.contexts with
              recent := (if 64 ≤ s.contexts.recent.length then s.contexts.recent.drop 1 else s.contexts.recent)
                ++ [⟨x.identity, s.controller.time⟩] } })
          ∧ ((∀ time, x.outcome ≠ some (.paid, time)) ∨ s.setup.holdOff = 0 → s.written = freed))

/-- R148: REPORTS is pending exactly while P differs from C: so after a written event, a release, a CLEAR_ATTENTION and a setup
application too; alone it drives ATTN by its enable. The premise is kept by every step (EveryStepKeepsRingIndices). Formats: the
cause order. R163: ATTN is active in every state of an operating part exactly while a pending cause is enabled; the other six
causes are pending as they were raised (R162). -/
def Obligations.ReportsCauseFollowsTheRing : Prop :=
  [Cause.reports, .command, .load, .refusal, .keytime, .power, .purge].map Cause.bit = [1, 2, 4, 8, 16, 32, 64]
    ∧ (∀ (s : State) (c : Cause), c ≠ .reports → (s.isPending c = true ↔ s.control.raised &&& c.bit ≠ 0))
    ∧ (∀ s : State, s.controller.power = .on →
      (s.attn = true ↔ ∃ c : Cause, s.isPending c = true ∧ s.setup.enables &&& c.bit ≠ 0)) ∧
  (∀ s : State, s.control.raised &&& Cause.reports.bit = 0 →
      (s.isPending .reports = true ↔ s.reports.producer ≠ s.reports.consumer)
        ∧ (s.advanceRing.isPending .reports = true ↔ (s.reports.producer + 1) % s.setup.capacity ≠ s.reports.consumer)
        ∧ (∀ i, (s.setConsumer i).isPending .reports = true ↔ s.reports.producer ≠ i)
        ∧ (∀ set, (s.clearCauses set).isPending .reports = s.isPending .reports)
        ∧ (∀ x, (s.enforce x).isPending .reports = false)
        ∧ (s.controller.power = .on → s.control.raised = 0 →
          (s.attn = true ↔ s.reports.producer ≠ s.reports.consumer ∧ s.setup.enables &&& Cause.reports.bit ≠ 0)))
    ∧ State.reset.isPending .reports = false

/-! ## The command word -/

/-- R150, R152, R157, R159: the tests that decline or accept a command word write, in order. -/
def Obligations.CommandTestsAreMadeInOrder : Prop :=
  ∀ (s : State) (code : BitVec 8) (operand : BitVec 24),
    let state := s.controller.state
    let n := operand.toNat
    let cap := s.setup.capacity
    let working := state = .running ∨ state = .dormant
    let inSpan := (n + cap - s.reports.consumer) % cap ≤ (s.reports.producer + cap - s.reports.consumer) % cap
    let quiet := (∀ c, s.context c = none) ∧ s.reports.waiting = [] ∧ s.reports.write = .idle ∧ s.load.state = .idle
    let atRest := (∀ c, s.context c = none) ∧ s.agent.jobs = [] ∧ s.engine.ready = [] ∧ s.engine.operation = none
      ∧ s.reports.waiting = [] ∧ s.load.state ≠ .unwrapping
    (s.control.setupRunning = true → s.declines code operand = some .busy)
      ∧ (s.control.setupRunning = false →
        (code = 0 ∨ 5 < code → s.declines code operand = some .badOperand)
          ∧ (code = 2 ∨ code = 3 ∨ code = 4 → ¬ working → s.declines code operand = some .state)
          ∧ (code = 1 → state = .halted ∨ state = .purging → s.declines code operand = some .state)
          ∧ (code = 1 → working ∨ state = .unset → quiet → s.declines code operand = none)
          ∧ (code = 1 → working ∨ state = .unset → ¬ quiet → s.declines code operand = some .busy)
          ∧ (code = 2 → working → atRest → s.declines code operand = none)
          ∧ (code = 2 → working → ¬ atRest → s.declines code operand = some .busy)
          ∧ (code = 3 → working → n < 8 → s.declines code operand = none)
          ∧ (code = 3 → working → 8 ≤ n → s.declines code operand = some .badOperand)
          ∧ (code = 4 → working → n < cap ∧ inSpan → s.declines code operand = none)
          ∧ (code = 4 → working → ¬ (n < cap ∧ inSpan) → s.declines code operand = some .badOperand)
          ∧ (code = 5 → n < 128 → s.declines code operand = none)
          ∧ (code = 5 → 128 ≤ n → s.declines code operand = some .badOperand))

/-- R150, R151, R169: a command that is declined is answered done, changes the result word and raises COMMAND, and nothing
else. -/
def Obligations.DeclinedCommandOnlyReports : Prop :=
  ∀ (s : State) (code : BitVec 8) (operand : BitVec 24) (o : CommandOutcome), s.hears .c → s.declines code operand = some o →
    let ended := Host.Outcome.next (φ := Fault) (ρ := Refusal) ({ s with
      ports := { s.ports with c := ⟨none, some (.done none)⟩ }
      control := { s.control with result := ⟨code, o, 0⟩, raised := s.control.raised ||| 2 }
      controller := s.controller.roused } : State).settle
    exec (.unknownCommand code operand) s = ended
      ∧ (code = 1 → exec (.setup operand) s = ended) ∧ (code = 2 → exec (.rest operand) s = ended)
      ∧ (code = 3 → exec (.laneRestart operand) s = ended) ∧ (code = 4 → exec (.releaseReports operand) s = ended)
      ∧ (code = 5 → exec (.clearAttention operand) s = ended)

/-- R152, R157, R168, R159, R145, R160, R151: what an accepted SETUP, REST, RELEASE_REPORTS and CLEAR_ATTENTION do; R169: all but
REST rouse a DORMANT part. That a REST accepted by a part awake from DORMANT leaves it awake until R169 lets it sleep is the
model's reading (log 13). -/
def Obligations.AcceptedCommandIsCarriedOut : Prop :=
  ∀ (s : State) (operand : BitVec 24), s.hears .c →
    let t : State := { s with ports := { s.ports with c := ⟨none, some (.done none)⟩ }, controller := s.controller.roused }
    let done := fun code : BitVec 8 => { s.control with result := ⟨code, .done, 0⟩, raised := s.control.raised ||| 2 }
    (s.declines 1 operand = none →
        exec (.setup operand) s = .next ({ t with
          control := { s.control with setupRunning := true, result := ⟨1, .pending, 0⟩ }
          agent := { s.agent with jobs := s.agent.jobs ++ [.fetchSetup] } } : State).settle)
      ∧ (s.declines 2 operand = none →
        exec (.rest operand) s = .next ((({ t with
          control := done 2
          controller := { s.controller with state := .dormant } } : State).relax).settle))
      ∧ (s.declines 4 operand = none →
        exec (.releaseReports operand) s = .next ({ t with
          control := done 4
          reports := { s.reports with consumer := operand.toNat } } : State).settle)
      ∧ (s.declines 5 operand = none →
        exec (.clearAttention operand) s = .next ({ t with
          control := { done 5 with raised := (s.control.raised ||| 2) &&& ~~~ (operand.extractLsb' 0 7) } } : State).settle)

/-- R158 with R28, R51, R55, R56, R86, R87, R133, R146: an accepted LANE_RESTART. The home contexts close in ascending order
(R78), so the pending list takes each one's slot of another lane and then the context. The first part says which jobs, holders and
entries are a lane's. -/
def Obligations.LaneRestartFreesTheLane : Prop :=
  (∀ (n : Fin 8) (ring : Ring) (r : SlotRef) (c : Fin 24) (place : BitVec 20) (record : List Word),
    (Job.fetchFrame ring r).fetchesLane n = decide (r.lane = n) ∧ Job.fetchSetup.fetchesLane n = false
      ∧ (Job.writeReport place record).fetchesLane n = false
      ∧ (Holder.code r).codesLane n = decide (r.lane = n) ∧ (Holder.verify c).codesLane n = false
      ∧ (Holder.derive c).codesLane n = false ∧ Holder.unwrap.codesLane n = false
      ∧ (ReportHolder.inbound r).inLane n = decide (r.lane = n) ∧ (ReportHolder.outbound r).inLane n = decide (r.lane = n)
      ∧ (ReportHolder.context c).inLane n = false)
  ∧ ∀ (s : State) (operand : BitVec 24), s.hears .c → s.declines 3 operand = none →
    ∃ (n : Fin 8) (u : State), n.val = operand.toNat ∧
      let abandoned := fun c x => s.context c = some x ∧ x.homeLane = n ∧ x.state ∉ [ContextState.closing, .reporting]
      exec (.laneRestart operand) s = .next ({ u with
          control := { s.control with result := ⟨3, .done, 0⟩, raised := s.control.raised ||| 2 }
          controller := s.controller.roused } : State).settle
      ∧ u.port .c = ⟨none, some (.done none)⟩
      ∧ (∀ i, u.inSlot ⟨n, i⟩ = .free)
      ∧ (∀ i, (s.outSlot ⟨n, i⟩).mark = false → u.outSlot ⟨n, i⟩ = { s.outSlot ⟨n, i⟩ with state := .free })
      ∧ (∀ i h, (s.outSlot ⟨n, i⟩).mark = true → (s.outSlot ⟨n, i⟩).state.header = some h →
        u.outSlot ⟨n, i⟩ = { s.outSlot ⟨n, i⟩ with state := .draining h })
      ∧ (∀ i, (s.outSlot ⟨n, i⟩).mark = true → (s.outSlot ⟨n, i⟩).state.header = none → u.outSlot ⟨n, i⟩ = s.outSlot ⟨n, i⟩)
      ∧ (∀ r, r.lane ≠ n → u.inSlot r = s.inSlot r)
      ∧ (∀ r, r.lane ≠ n → (∀ c x, abandoned c x → x.bound ≠ some r) → u.outSlot r = s.outSlot r)
      ∧ (∀ c x r h, abandoned c x → x.bound = some r → r.lane ≠ n →
        (∀ d y, s.context d = some y → y.bound = some r → d = c) → (s.outSlot r).state.header = some h →
          u.outSlot r = { s.outSlot r with
            state := .spoiled h (some (s.notice .closedTransaction r (some c) (some x.identity) none)) })
      ∧ u.agent.jobs = s.agent.jobs.filter (fun j => !j.fetchesLane n)
      ∧ (∀ k j rest, s.agent.position = some k → s.agent.jobs = j :: rest → j.fetchesLane n = true → s.abandonsJob u)
      ∧ (s.agent.position = none ∨ (∀ j rest, s.agent.jobs = j :: rest → j.fetchesLane n = false) → s.keepsJob u)
      ∧ (∃ keep : Holder → Bool, u.engine = { s.engine with ready := s.engine.ready.filter keep }
        ∧ ∀ h, keep h = true ↔ h.codesLane n = false ∧ ¬ s.cancelled abandoned h)
      ∧ u.reports.waiting = s.reports.waiting.filter (fun h => !h.inLane n) ++ (s.eachContext fun c x =>
          if x.homeLane = n ∧ x.state ∉ [ContextState.closing, .reporting] then
            (s.boundHolder x).filter (fun h => !h.inLane n) ++ if x.mark then [] else [.context c]
          else [])
      ∧ (∀ h rest, s.reports.waiting = h :: rest → h.inLane n = true → s.reports.write = .writing → u.reports.write = .orphan)
      ∧ ((∀ h rest, s.reports.waiting = h :: rest → h.inLane n = false) ∨ s.reports.write ≠ .writing →
        u.reports.write = s.reports.write)
      ∧ (∀ q o, s.slots.held = some q → s.ports.r.access = some o →
        (q.slot.lane = n ∨ ((s.outSlot q.slot).state.header ≠ none ∧ ∃ c x, abandoned c x ∧ x.bound = some q.slot)) →
        u.slots.held = none ∧ u.port .r = ⟨none, some (.done (some (o.access.size.extract 0xFFFFFFFF#32)))⟩)
      ∧ ((∀ q, s.slots.held = some q → q.slot.lane ≠ n ∧ ∀ c x, abandoned c x → x.bound ≠ some q.slot) →
        u.slots.held = s.slots.held ∧ u.port .r = s.port .r)
      ∧ u.keys = s.keys ∧ u.load = s.load
      ∧ u.contexts.recent = s.contexts.recent ∧ u.contexts.abandoned = s.contexts.abandoned
      ∧ (∀ c, s.context c = none → u.context c = none)
      ∧ (∀ c x, abandoned c x → u.context c = some
        { x with
          outcome := some (.abandoned, s.controller.time), running := false, bound := none
          state := if x.mark then .closing else .reporting })
      ∧ (∀ c x, s.context c = some x → x.state ∉ [ContextState.closing, .reporting] → x.homeLane ≠ n → laneIn n x.lanes = true →
        (∀ r, x.bound = some r → r.lane ≠ n) → u.context c = some { x with lanes := x.lanes &&& ~~~ laneBit n })
      ∧ (∀ c x r, s.context c = some x → x.state ∉ [ContextState.closing, .reporting] → x.homeLane ≠ n →
        laneIn n x.lanes = true → x.bound = some r → r.lane = n →
        u.context c = some
          { x with
            lanes := x.lanes &&& ~~~ laneBit n
            bound := none
            accepted := x.accepted - 1
            state := if x.state = .challenging then (if ∃ a ∈ x.attempts, a.sentAt ≠ none then .awaiting else .keyed)
              else x.state })
      ∧ (∀ c x, s.context c = some x → x.homeLane ≠ n → laneIn n x.lanes = false → u.context c = some x)
      ∧ (∀ c x, s.context c = some x → x.state ∈ [ContextState.closing, .reporting] → u.context c = some x)
      ∧ (∀ m, (u.slots.lanes.get m).underruns = (s.slots.lanes.get m).underruns)
      ∧ u.setup = s.setup ∧ u.mem = s.mem ∧ u.path = s.path ∧ u.reports.producer = s.reports.producer
      ∧ u.reports.consumer = s.reports.consumer ∧ u.reports.sequence = s.reports.sequence

/-- Formats: the fields of the setup image. R154, R14: what the check of each word asks. R153, R154, R155: the take of the setup
image: BUSY, the first failing word, or the setup in force, with COMMAND raised and KEYTIME if an entry changes state (R93); the
recent passage list keeps what is younger than the hold-off (R85), and a fetch of a frame is removed, a current one abandoned
(R28). R166, R167: the time base counts on, and a seconds clock that is set starts its seconds afresh. -/
def Obligations.SetupIsAppliedWholeOrNotAtAll : Prop :=
  (∀ image : List Word,
    let bits := fun (k start width : Nat) => ((image.getD k 0).extractLsb' start width).toNat
    let x := Setup.ofImage image
    (∀ n : Fin 8,
      let l := x.lanes.get n
      (l.enable = true ↔ bits (12 + 4 * n.val) 0 1 = 1) ∧ l.slotWords = bits (12 + 4 * n.val) 8 8
        ∧ l.inCount = bits (12 + 4 * n.val) 16 5 ∧ l.outCount = bits (12 + 4 * n.val) 24 5 ∧ l.inBase = bits (13 + 4 * n.val) 0 32
        ∧ l.outBase = bits (14 + 4 * n.val) 0 32 ∧ l.holdLimit = bits (15 + 4 * n.val) 0 16 ∧ l.deadline = bits (15 + 4 * n.val) 16 16)
      ∧ (∀ f : Fin 8,
        let y := x.filters.get f
        (y.enable = true ↔ bits (4 + f.val) 24 1 = 1) ∧ y.code.toNat = bits (4 + f.val) 0 16 ∧ y.maskWidth = bits (4 + f.val) 16 5)
      ∧ (x.service = true ↔ bits 0 9 1 = 1) ∧ x.ringOffset = bits 2 0 16 ∧ x.capacity = bits 2 16 8
      ∧ x.holdOff = bits 3 0 16 ∧ x.enables.toNat = bits 3 16 7 ∧ (setTime image = true ↔ bits 0 8 1 = 1))
  ∧ (∀ (image : List Word) (clockSet : Bool) (blockBase : Nat),
    let x := Setup.ofImage image
    let passes := fun k => wordPasses image clockSet ⟨blockBase, 65536⟩ x k = true
    let clear := fun base bytes otherBase otherBytes : Nat =>
      base + bytes ≤ otherBase ∨ otherBase + otherBytes ≤ base
    (passes 0 ↔ ((image.getD 0 0).extractLsb' 0 8 = 1#8 ∧ (clockSet = true ∨ setTime image = true)))
      ∧ passes 1
      ∧ (passes 2 ↔ (0x1000 ≤ x.ringOffset ∧ x.ringOffset % 32 = 0 ∧ 16 ≤ x.capacity ∧ x.capacity ≤ 128
        ∧ x.ringOffset + x.capacity * 32 ≤ 0x10000))
      ∧ (passes 3 ↔ x.holdOff ≤ 3600)
      ∧ (∀ f : Fin 8, passes (4 + f.val) ↔ (x.filters.get f).maskWidth ≤ 15)
      ∧ ∀ n : Fin 8,
        let l := x.lanes.get n
        let slot := 4 * l.slotWords
        let placed := fun base bytes => base + bytes ≤ 0x400000 ∧ clear base bytes blockBase 65536
          ∧ ∀ m, m < n → (x.lanes.get m).enable = true →
            clear base bytes (x.lanes.get m).inBase ((x.lanes.get m).inCount * (4 * (x.lanes.get m).slotWords))
              ∧ clear base bytes (x.lanes.get m).outBase ((x.lanes.get m).outCount * (4 * (x.lanes.get m).slotWords))
        (passes (12 + 4 * n.val) ↔ ((l.slotWords = 16 ∨ l.slotWords = 32) ∧ 1 ≤ l.inCount ∧ l.inCount ≤ 16 ∧ 1 ≤ l.outCount
            ∧ l.outCount ≤ 16))
          ∧ (passes (13 + 4 * n.val) ↔ (l.inBase % slot = 0 ∧ (l.enable = true → placed l.inBase (l.inCount * slot))))
          ∧ (passes (14 + 4 * n.val) ↔ (l.outBase % slot = 0 ∧ (l.enable = true →
            placed l.outBase (l.outCount * slot) ∧ clear l.outBase (l.outCount * slot) l.inBase (l.inCount * slot))))
          ∧ (passes (15 + 4 * n.val) ↔ (l.holdLimit ≤ 255 ∧ 10 ≤ l.deadline ∧ l.deadline ≤ 2000)))
  ∧ ∀ (s : State) (image : List Word),
    let ended := fun o detail => ({ s with control := ⟨⟨1, o, detail⟩, false, s.control.raised ||| 2⟩ } : State)
    let quiet := (∀ c, s.context c = none) ∧ s.reports.waiting = [] ∧ s.reports.write = .idle
    let passes := fun k => wordPasses image s.controller.seconds.isSome s.blockRange (Setup.ofImage image) k
    (¬ quiet → s.takeSetup image = ended .busy 0)
      ∧ (∀ k : BitVec 8, quiet → k.toNat < 44 → passes k.toNat = false → (∀ j, j < k.toNat → passes j = true) →
        s.takeSetup image = ended .badImage k)
      ∧ (quiet → (∀ k, k < 44 → passes k = true) →
        let t := s.takeSetup image
        let changed := ∃ k,
          ((s.keys.entries.get k).evaluate (some (imageWord image 1))).state ≠ (s.keys.entries.get k).state
        t.setup = Setup.ofImage image ∧ t.reports.producer = 0 ∧ t.reports.consumer = 0
          ∧ t.reports.sequence = s.reports.sequence ∧ t.controller.setupPresent = true
          ∧ (s.controller.state ≠ .purging → t.controller.state = .running)
          ∧ (s.controller.state = .purging → t.controller.state = .purging)
          ∧ t.controller = { s.controller with
              state := t.controller.state
              setupPresent := true
              seconds := if setTime image = true then some (imageWord image 1) else s.controller.seconds
              millis := if setTime image = true then 0 else s.controller.millis }
          ∧ t.control.result = ⟨1, .done, 0⟩ ∧ t.control.setupRunning = false ∧ t.path = s.path ∧ t.mem = s.mem
          ∧ t.keys.highestSerial = s.keys.highestSerial ∧ t.contexts.table = s.contexts.table
          ∧ t.contexts.abandoned = s.contexts.abandoned
          ∧ (∀ q o, s.slots.held = some q → s.ports.r.access = some o → t.slots.held = none
            ∧ t.port .r = ⟨none, some (.done (some (o.access.size.extract 0xFFFFFFFF#32)))⟩)
          ∧ (s.slots.held = none ∨ s.ports.r.access = none → t.slots.held = s.slots.held ∧ t.port .r = s.port .r)
          ∧ t.port .c = s.port .c
          ∧ (∀ n, (t.slots.lanes.get n).underruns = (s.slots.lanes.get n).underruns)
          ∧ t.engine = s.engine ∧ t.load = s.load ∧ t.reports.waiting = s.reports.waiting ∧ t.reports.write = s.reports.write
          ∧ (∀ r, t.inSlot r = .free)
          ∧ (∀ r, (s.outSlot r).mark = false → t.outSlot r = ⟨.free, none, false⟩)
          ∧ (∀ r, (s.outSlot r).mark = true → t.outSlot r = { s.outSlot r with
              state := match (s.outSlot r).state.header with
                | some h => .draining h
                | none => (s.outSlot r).state })
          ∧ (∀ j : Job, j.fetchesFrame = true ↔ ∃ ring r, j = .fetchFrame ring r)
          ∧ t.agent.jobs = s.agent.jobs.filter (fun j => !j.fetchesFrame)
          ∧ (∀ k j rest, s.agent.position = some k → s.agent.jobs = j :: rest → j.fetchesFrame = true → s.abandonsJob t)
          ∧ (s.agent.position = none ∨ (∀ j rest, s.agent.jobs = j :: rest → j.fetchesFrame = false) → s.keepsJob t)
          ∧ (setTime image = true → changed → t.control.raised = s.control.raised ||| 16 ||| 2)
          ∧ (setTime image = false ∨ ¬ changed → t.control.raised = s.control.raised ||| 2)
          ∧ (setTime image = true → t.controller.seconds = some (imageWord image 1)
            ∧ t.keys = { s.keys with
              entries := s.keys.entries.map fun e => (e.evaluate (some (imageWord image 1))).settle })
          ∧ (setTime image = false → t.controller.seconds = s.controller.seconds ∧ t.keys = s.keys)
          ∧ t.contexts.recent = s.contexts.recent.filter fun e =>
            decide ((s.controller.time - e.time).toNat < (Setup.ofImage image).holdOff * 1000))

/-! ## Time -/

/-- R77, R78: a deadline that has reached zero closes a context LATE, a bound slot being spoiled first. R85: the oldest recent
entry expires at the hold-off. R167, R91, R93: the seconds clock rises after 1000 ms, and each key entry takes the state the new clock
gives it. That the event named when it is not due changes nothing is the model's choice (log 2). -/
def Obligations.DueEventsAreTakenWhenDue : Prop :=
  (∀ (s : State) (c : Fin 24) (x : Context), s.context c = some x →
    let late := fun state =>
      some { x with outcome := some (.late, s.controller.time), running := false, bound := none, state := state }
    let due := x.running = true ∧ x.deadline = 0
    let undecided := x.state ≠ .closing ∧ x.state ≠ .reporting
    let t := match x.bound with
      | some r => s.spoil r (s.notice .closedTransaction r (some c) (some x.identity) none)
      | none => s
    (¬ due → exec (.deadlineExpiry c) s = .next s)
      ∧ (due → undecided → x.mark = true → exec (.deadlineExpiry c) s = .next (t.setContext c (late .closing)).settle)
      ∧ (due → undecided → x.mark = false →
        exec (.deadlineExpiry c) s =
          .next ((((t.setContext c (late .reporting)).leaveReady (.derive c)).leaveReady (.verify c)).joinReports (.context c)).settle))
    ∧ (∀ (s : State) (e : RecentEntry) (rest : List RecentEntry), s.contexts.recent = e :: rest →
      (s.setup.holdOff * 1000 ≤ (s.controller.time - e.time).toNat →
          exec .recentEntryExpiry s = .next { s with contexts := { s.contexts with recent := rest } })
        ∧ ((s.controller.time - e.time).toNat < s.setup.holdOff * 1000 → exec .recentEntryExpiry s = .next s))
    ∧ ∀ (s : State) (clock : Word), s.controller.seconds = some clock →
      let aged := fun e : KeyEntry => (e.evaluate (some (clock + 1))).settle
      let changed := ∃ k, ((s.keys.entries.get k).evaluate (some (clock + 1))).state ≠ (s.keys.entries.get k).state
      let t : State := { s with
        controller := { s.controller with seconds := some (clock + 1), millis := 0 }
        keys := { s.keys with entries := s.keys.entries.map aged } }
      (s.controller.millis < 1000 → exec .secondsClockRise s = .next s)
        ∧ (1000 ≤ s.controller.millis → changed →
          exec .secondsClockRise s = .next { t with control := { s.control with raised := s.control.raised ||| 16 } })
        ∧ (1000 ≤ s.controller.millis → ¬ changed → exec .secondsClockRise s = .next t)

/-- R169: the end of a wake classifies the held accesses, each port's in turn, in the order the command carries (log 11); R172: a
purge that waited for it takes effect first, in any part state (a part halted or made RUNNING meanwhile is the model's choice,
log 14 and log 33). An awake part goes back to sleep when no watched access since the wake is unanswered, and not before. -/
def Obligations.WakeEndClassifiesHeldAccesses : Prop :=
  ∀ (s : State) (o : Order),
    (s.controller.purgeAtWake = false → s.controller.wake = .waking →
        exec (.wakeEnd o) s =
          .next (((({ s with controller := { s.controller with
            wake := if s.controller.state = .dormant then .awake else .asleep } } : State).classifyAllHeld o).relax).settle))
      ∧ (s.controller.purgeAtWake = true →
        ∃ t, s.purgedFrom t ∧ exec (.wakeEnd o) s = .next (((t.classifyAllHeld o).relax).settle))
      ∧ s.classifyAllHeld .cFirst = (s.classifyHeld .c).classifyHeld .r
      ∧ s.classifyAllHeld .rFirst = (s.classifyHeld .r).classifyHeld .c
      ∧ (∀ p a since, (s.port p).access = some ⟨a, .wake, since⟩ →
        s.classifyHeld p = (s.setPort p { s.port p with access := none }).classify p a)
      ∧ (∀ p, (∀ x, (s.port p).access = some x → x.phase ≠ .wake) → s.classifyHeld p = s)
      ∧ (s.noneHeld → s.classifyAllHeld o = s)
      ∧ (∀ p x, ((s.classifyAllHeld o).port p).access = some x → x.phase ≠ .wake)
      ∧ (s.controller.state = .dormant → s.controller.wake = .awake →
        (∀ p x, (s.port p).access = some x → x.sinceWake = false) →
          s.relax = { s with controller := { s.controller with wake := .asleep } })
      ∧ (s.controller.state ≠ .dormant ∨ s.controller.wake ≠ .awake
          ∨ (∃ p x, (s.port p).access = some x ∧ x.sinceWake = true) → s.relax = s)

/-! ## Lines, reset and power -/

/-- R170 with R29, R58, R84, R88, R96, R92, R123, R135, R147, R156: the power warning; accesses held for a wake are
classified after it (R169), which WakeEndClassifiesHeldAccesses states. That without power only the line changes is the model's
choice (log 20; while RESET is asserted it is R165), and so is that a purge which waits for a wake is kept (log 14). -/
def Obligations.PowerWarningHaltsThePart : Prop :=
  ∀ (s : State) (o : Order), s.controller.lines.pwarn = false →
    (s.controller.state = .halted ∨ s.controller.state = .purging ∨ s.controller.power ≠ .on →
        exec (.pwarnAssert o) s =
          .next { s with controller := { s.controller with lines := { s.controller.lines with pwarn := true } } })
      ∧ (s.controller.power = .on → s.controller.state ≠ .halted → s.controller.state ≠ .purging →
        ∃ t : State, exec (.pwarnAssert o) s = .next (t.classifyAllHeld o)
          ∧ ({ s with controller := { s.controller with lines := { s.controller.lines with pwarn := true } } } : State).haltedFrom t)

/-- R31, R122, R171: the releases of MREST, PURGE and PWARN; only the release of PWARN in HALTED does more than change its
line. -/
def Obligations.LineReleasesDoNoMore : Prop :=
  ∀ s : State,
    (exec .mrestRelease s = .next { s with controller := { s.controller with lines := { s.controller.lines with mrest := false } } })
      ∧ (exec .purgeRelease s = .next { s with controller := { s.controller with lines := { s.controller.lines with purge := false } } })
      ∧ (s.controller.lines.pwarn = true → ¬ (s.controller.power = .on ∧ s.controller.state = .halted) →
        exec .pwarnRelease s = .next { s with controller := { s.controller with lines := { s.controller.lines with pwarn := false } } })
      ∧ (s.controller.lines.pwarn = true → s.controller.power = .on → s.controller.state = .halted →
        exec .pwarnRelease s = .next { s with
          controller := { s.controller with
            state := if s.controller.setupPresent then .running else .unset
            wake := .asleep
            lines := { s.controller.lines with pwarn := false } }
          control := { s.control with raised := s.control.raised ||| 32 } })

/-- R172 with R82, R99, R120, R121, R134: the entry into PURGING, the assertion that waits for a wake or finds the part
PURGING, and (R165) the one made while RESET is asserted. The model's choices: without power only the line changes (log 20), the
erase mark of an assertion that waits is written at the assertion (log 32), and a part made RUNNING during a wake waits for its
end too (log 33); the operation is cut short against R9 (log 31). -/
def Obligations.PurgeEmptiesTheKeyTable : Prop :=
  ∀ s : State, s.controller.lines.purge = false →
    let lined := { s.controller with lines := { s.controller.lines with purge := true } }
    let marked := { s.keys with eraseMark := true }
    let waiting := { lined with wake := .waking, purgeAtWake := true }
    let before := fun x : PortState => { x with access := x.access.map fun o => { o with sinceWake := false } }
    (s.controller.power = .off ∨ (s.controller.power = .on ∧ s.controller.state = .purging) →
        exec .purgeAssert s = .next { s with controller := lined })
      ∧ (s.controller.power = .inReset → exec .purgeAssert s = .next { s with controller := lined, keys := marked })
      ∧ (s.controller.power = .on → s.controller.state ≠ .purging → s.controller.wake = .waking →
        exec .purgeAssert s = .next { s with controller := waiting, keys := marked })
      ∧ (s.controller.power = .on → s.controller.state = .dormant → s.controller.wake = .asleep →
        exec .purgeAssert s =
          .next { s with controller := waiting, keys := marked, ports := ⟨before s.ports.c, before s.ports.r⟩ })
      ∧ (s.controller.power = .on → s.controller.state ≠ .purging → s.controller.wake ≠ .waking →
        (s.controller.state = .dormant → s.controller.wake = .awake) →
        ∃ t, exec .purgeAssert s = .next t ∧ ({ s with controller := lined } : State).purgedFrom t)

/-- R173, R171: the erase completion, by the PWARN line and by how PURGING was entered; with PWARN asserted the power warning takes
effect, with every effect R170 lists. -/
def Obligations.EraseCompletionLeavesPurging : Prop :=
  ∀ s : State, s.controller.power = .on → s.controller.state = .purging →
    let erased := { s.keys with eraseMark := false, unerased := none }
    let left := { s.controller with
      state := if s.controller.setupPresent then PartState.running else .unset, wake := .asleep }
    (s.controller.lines.pwarn = false → s.controller.fromHalted = false →
        exec .eraseCompletion s =
          .next { s with keys := erased, controller := left, control := { s.control with raised := s.control.raised ||| 64 } })
      ∧ (s.controller.lines.pwarn = false → s.controller.fromHalted = true →
        exec .eraseCompletion s =
          .next { s with keys := erased, controller := left, control := { s.control with raised := s.control.raised ||| 64 ||| 32 } })
      ∧ (s.controller.lines.pwarn = true →
        let marked : State := { s with keys := erased, control := { s.control with raised := s.control.raised ||| 64 } }
        ∃ t, exec .eraseCompletion s = .next t ∧ t = marked.powerWarning ∧ marked.haltedFrom t)

/-- R165, R103, R105, R136: RESET and a loss of power lose what is volatile and keep the retained store, where a load record whose
effect was being written has changed nothing. R165: an outstanding access goes on as an unwatched one, and so does what occupies the
memory port: a word of the agent's abandoned job, and an access in flight, which ends as a plain one. That the volatile items take
their reset values, UNSET among them, already at the assertion of RESET is the model's choice (log 19); that the lines keep their
levels without power and the accesses end unanswered is too (log 20), and so is when a record counts as being written (log 15), that
the frame buffer is empty (log 36), and what the commands answer when the part is off or in reset already (log 2). R166, R167: the
clocks; that the wake, the purge marks and the milliseconds are at rest is inferred (log 29). R103: what the store keeps of an
entry. -/
def Obligations.ResetAndPowerLossKeepRetainedStore : Prop :=
  (∀ e : KeyEntry, e.retained =
    { e with references := 0, state := if e.state = .empty ∨ e.state = .revoked then e.state else .waiting })
  ∧ ∀ (s : State) (cut : Bool),
    let kept := fun t : State =>
      t.keys.eraseMark = s.keys.eraseMark
        ∧ (cut = false ∨ s.keys.lastWrite = none → t.keys.highestSerial = s.keys.highestSerial
          ∧ ∀ k, t.keys.entries.get k = (s.keys.entries.get k).retained)
        ∧ ∀ w, cut = true → s.keys.lastWrite = some w → t.keys.highestSerial = w.serialBefore
          ∧ ∀ k, t.keys.entries.get k = (if k = w.index then w.before else s.keys.entries.get k).retained
    let unwatched := fun x : Outstanding => Outstanding.mk x.access
      (match x.phase with
        | .inFlight _ => .inFlight none
        | .wake | .waiting _ | .codeHeld => .waiting none) false
    let stopped := fun power : Power =>
      { s.controller with
        state := .unset, setupPresent := false, power := power, wake := .asleep, purgeAtWake := false, fromHalted := false
        time := 0, seconds := none, millis := 0 }
    (s.controller.power ≠ .on → exec (.resetAssert cut) s = .next s)
      ∧ (s.controller.power = .on → ∃ t, exec (.resetAssert cut) s = .next t ∧ kept t
        ∧ t.controller = stopped .inReset ∧ t.attn = false ∧ t.mem = s.mem
        ∧ t.holdsResetValues ∧ t.path = ⟨0, none, none, 0⟩ ∧ t.control.raised = 0 ∧ s.abandonsJob t
        ∧ (∀ p, t.port p = ⟨(s.port p).access.map unwatched, (s.port p).response⟩)
        ∧ (∀ w, t.arbiter = some (.agent w) → exec .agentWordComplete t =
          .next { t with
            arbiter := none
            mem := match w.write with
              | some data => t.mem.store w.word .word data
              | none => t.mem })
        ∧ ∀ p a, t.arbiter = some (.port p) → (t.port p).access = some ⟨a, .inFlight none, false⟩ →
          (a.write = true → exec .wordAccessComplete t =
              .next (({ t with arbiter := none, mem := t.mem.store a.word a.size a.data } : State).setPort p
                ⟨none, some (.done none)⟩))
            ∧ (a.write = false → exec .wordAccessComplete t =
              .next (({ t with arbiter := none } : State).setPort p
                ⟨none, some (.done (some (a.size.extract (t.mem.readWord a.word))))⟩)))
      ∧ (s.controller.power = .off → exec (.powerLoss cut) s = .next s)
      ∧ (s.controller.power ≠ .off → ∃ t, exec (.powerLoss cut) s = .next t ∧ kept t
        ∧ t.controller = stopped .off
        ∧ t.holdsResetValues ∧ t.path = ⟨0, none, none, 0⟩ ∧ t.control.raised = 0
        ∧ (∀ p, (t.port p).access = none) ∧ t.arbiter = none ∧ Memory.wf t.mem)

/-- R165, R104, R109: start-up, with every line as it stands. R165 step 7, R172: of PWARN and PURGE found asserted together, the
command's operand says which is taken first, and the part records whether it entered PURGING from HALTED. The model's choices: with
MREST asserted the accesses that wait are refused (log 28), in the order the command carries (log 11); the frame buffer is empty
(log 36); no report write is in progress (log 29); start-up named while the part operates (log 2). No access is in flight while
MREST is asserted (MrestRefusesAndRewinds), but the statement says what would become of one. -/
def Obligations.StartUpReadsTheRetainedStore : Prop :=
  ∀ (s : State) (straps : BitVec 6) (purgeFirst : Bool) (o : Order),
    let lines := s.controller.lines
    let flying := fun (p : Port) x => (s.port p).access = some x ∧ ∃ judged, x.phase = .inFlight judged
    let written := fun b : Nat => ∃ p x, flying p x ∧ x.access.write = true
      ∧ 4 * x.access.word.toNat + x.access.size.offset ≤ b
      ∧ b < 4 * x.access.word.toNat + x.access.size.offset + x.access.size.bytes
    let refused := fun (p : Port) (address : BitVec 22) => lines.mrest = true ∧ ∃ x, (s.port p).access = some x
      ∧ x.access.address = address ∧ ((∃ track, x.phase = .waiting track) ∨ ∃ judged, x.phase = .inFlight judged)
    let stays := fun p =>
      lines.mrest = false ∨ ∀ x, (s.port p).access = some x → x.phase = .wake ∨ x.phase = .codeHeld
    let warned := lines.pwarn = true ∧ (lines.purge = false ∨ purgeFirst = false)
    (s.controller.power = .on → exec (.startUp straps purgeFirst o) s = .next s)
    ∧ (s.controller.power ≠ .on → ∃ t, exec (.startUp straps purgeFirst o) s = .next t
      ∧ t.controller =
        { state := if lines.purge then .purging else if lines.pwarn then .halted else .unset
          setupPresent := false, power := .on, wake := .asleep, purgeAtWake := false
          fromHalted := lines.purge && lines.pwarn && !purgeFirst
          straps := straps, time := 0, seconds := none, millis := 0, lines := lines }
      ∧ t.holdsResetValues ∧ t.keys.highestSerial = s.keys.highestSerial ∧ t.keys.eraseMark = lines.purge
      ∧ (lines.purge = true ∨ s.keys.eraseMark = true → ∀ k, t.keys.entries.get k = ⟨.empty, 0, 0, 0, 0, none, 0, 0⟩)
      ∧ (lines.purge = false → s.keys.eraseMark = false → ∀ k,
        let e := s.keys.entries.get k
        (e.state = .empty → (t.keys.entries.get k).state = .empty)
          ∧ (e.state = .revoked → t.keys.entries.get k = ⟨.empty, 0, 0, 0, 0, none, 0, 0⟩)
          ∧ (e.state ≠ .empty → e.state ≠ .revoked →
            t.keys.entries.get k = { e with state := .waiting, references := 0 }))
      ∧ (∀ p, stays p → t.port p = s.port p)
      ∧ (∀ p address, refused p address → t.port p = ⟨none, some .error⟩)
      ∧ (stays .c → stays .r → t.path = ⟨0, none, none, 0⟩ ∧ t.control.raised = 0)
      ∧ (∀ p q address, q ≠ p → stays q → refused p address →
        t.path = ⟨1, some p, some .memoryResting, address⟩ ∧ t.control.raised = 8)
      ∧ (∀ address address', refused .c address → refused .r address' →
        t.path = ⟨2, some (if o = .cFirst then .r else .c), some .memoryResting, if o = .cFirst then address' else address⟩
          ∧ t.control.raised = 8)
      ∧ (lines.mrest = false ∨ (∀ p x, ¬ flying p x) → t.mem = s.mem
        ∧ (¬ warned → t.arbiter = s.arbiter)
        ∧ (warned → t.arbiter = s.arbiter.map fun x =>
          match x with
          | .port p => .port p
          | .agent w => .agent { w with live := false }))
      ∧ (lines.mrest = true → (∃ p x, flying p x) →
        t.arbiter = none ∧ (Memory.wf s.mem → ∀ b, ¬ written b → t.mem.read b = s.mem.read b)))

/-! ## Invariants of every step -/

/-- Log 8: frame memory keeps its canonical form. -/
def Obligations.EveryStepKeepsMemoryCanonical : Prop :=
  ∀ s t : State, s.memoryCanonical → step s = .next t → t.memoryCanonical

/-- R138, R148: P and C stay inside the ring, and the REPORTS cause is never stored. -/
def Obligations.EveryStepKeepsRingIndices : Prop :=
  ∀ s t : State, s.ringIndices → step s = .next t → t.ringIndices

/-- R35, R164: every slot is FREE while the part is UNSET or HALTED. R154, R14: the setup in force is laid out as its checks
require. -/
def Obligations.EveryStepKeepsIdleSlotsFree : Prop :=
  ∀ s t : State, step s = .next t → (s.idleSlots → t.idleSlots) ∧ (s.laidOut → t.laidOut)

/-- R90, R92, R94, R96: the key table stays consistent with itself, the seconds clock and the contexts. -/
def Obligations.EveryStepKeepsTheKeyTable : Prop :=
  ∀ s t : State, s.keyTable → step s = .next t → t.keyTable

/-- R66, R84: no identity is held twice. -/
def Obligations.EveryStepKeepsIdentitiesUnique : Prop :=
  ∀ s t : State, s.identities → step s = .next t → t.identities

/-- The invariants hold after reset. -/
def Obligations.InvariantsHoldAtReset : Prop :=
  State.reset.memoryCanonical ∧ State.reset.ringIndices ∧ State.reset.idleSlots ∧ State.reset.laidOut
    ∧ State.reset.keyTable ∧ State.reset.identities
end

