-- ==== Sys2Proof/Laws/Table.lean ====
section
/-! SUPPORT. The laws of Table: reading after filling, replacing, mapping; counting and searching. -/

namespace Sys2Proof.Machine.Table

variable {n : Nat} {α β : Type}

theorem ext_cells {s t : Table n α} (h : s.cells = t.cells) : s = t := by
  cases s; cases t; cases h; rfl

/-- Two tables are equal when every cell is. -/
theorem ext_get {s t : Table n α} (h : ∀ i, s.get i = t.get i) : s = t := by
  apply ext_cells
  apply List.ext_getElem
  · rw [s.size, t.size]
  · intro i h₁ h₂
    exact h ⟨i, s.size ▸ h₁⟩

@[simp] theorem get_fill (a : α) (i : Fin n) : (fill n a).get i = a := by
  simp [fill, get]

@[simp] theorem get_set_self (t : Table n α) (i : Fin n) (a : α) : (t.set i a).get i = a := by
  simp [set, get]

theorem get_set_ne (t : Table n α) {i j : Fin n} (a : α) (h : j ≠ i) : (t.set i a).get j = t.get j := by
  simp only [set, get]
  rw [List.getElem_set_ne]
  exact fun e => h (Fin.ext e.symm)

theorem get_set (t : Table n α) (i j : Fin n) (a : α) : (t.set i a).get j = if j = i then a else t.get j := by
  by_cases h : j = i
  · subst h; simp
  · simp [h, get_set_ne t a h]

@[simp] theorem set_set (t : Table n α) (i : Fin n) (a b : α) : (t.set i a).set i b = t.set i b := by
  apply ext_cells; simp [set]

@[simp] theorem set_get (t : Table n α) (i : Fin n) : t.set i (t.get i) = t := by
  apply ext_get; intro j; rw [get_set]; split
  · next h => subst h; rfl
  · rfl

@[simp] theorem get_map (f : α → β) (t : Table n α) (i : Fin n) : (t.map f).get i = f (t.get i) := by
  simp [map, get]

theorem map_set (f : α → β) (t : Table n α) (i : Fin n) (a : α) : (t.set i a).map f = (t.map f).set i (f a) := by
  apply ext_get; intro j; simp only [get_map, get_set]; split <;> simp_all

theorem map_map {γ : Type} (f : α → β) (g : β → γ) (t : Table n α) : (t.map f).map g = t.map (g ∘ f) := by
  apply ext_get; intro j; simp

theorem map_id' (t : Table n α) : t.map (fun a => a) = t := by
  apply ext_get; intro j; simp

@[simp] theorem map_fill (f : α → β) (a : α) : (fill n a).map f = fill n (f a) := by
  apply ext_get; intro j; simp

/-- Some cell satisfies `p`. -/
theorem any_iff (p : α → Bool) (t : Table n α) : t.any p = true ↔ ∃ i, p (t.get i) = true := by
  unfold any get
  rw [List.any_eq_true]
  constructor
  · rintro ⟨x, hx, hp⟩
    obtain ⟨i, hi, rfl⟩ := List.mem_iff_getElem.mp hx
    exact ⟨⟨i, t.size ▸ hi⟩, hp⟩
  · rintro ⟨i, hp⟩
    exact ⟨_, List.getElem_mem _, hp⟩

/-- What `first` finds satisfies the predicate. -/
theorem first_some {p : α → Bool} {t : Table n α} {i : Fin n} (h : t.first p = some i) : p (t.get i) = true := by
  unfold first at h; simpa using List.find?_some h

/-- When `first` finds nothing, no cell satisfies the predicate. -/
theorem first_none {p : α → Bool} {t : Table n α} (h : t.first p = none) (i : Fin n) : p (t.get i) = false := by
  unfold first at h; rw [List.find?_eq_none] at h
  simpa using h i (List.mem_finRange i)

/-- `first` finds the lowest index. -/
theorem first_lowest {p : α → Bool} {t : Table n α} {i j : Fin n} (h : t.first p = some i) (hj : p (t.get j) = true) :
    i ≤ j := by
  unfold first at h
  obtain ⟨_, l₁, l₂, e, hl⟩ := List.find?_eq_some_iff_append.mp h
  by_contra hlt
  have hlt : j < i := not_le.mp hlt
  have hm : j ∈ l₁ ++ i :: l₂ := e ▸ List.mem_finRange j
  have sorted : (l₁ ++ i :: l₂).Pairwise (· < ·) := e ▸ List.pairwise_lt_finRange n
  rcases List.mem_append.mp hm with h₁ | h₂
  · have := hl j h₁; simp [hj] at this
  · rcases List.mem_cons.mp h₂ with rfl | h₃
    · exact lt_irrefl _ hlt
    · have := (List.pairwise_append.mp sorted).2.1
      exact lt_asymm hlt (List.rel_of_pairwise_cons this h₃)

theorem count_set (p : α → Bool) (t : Table n α) (i : Fin n) (a : α) :
    (t.set i a).count p + (if p (t.get i) then 1 else 0) = t.count p + if p a then 1 else 0 := by
  obtain ⟨l, hl⟩ := t
  simp only [count, set, get]
  have hi : i.val < l.length := hl.symm ▸ i.isLt
  rw [List.countP_set hi]
  have pos : p l[i.val] = true → 0 < List.countP p l := fun h => List.countP_pos_iff.mpr ⟨_, List.getElem_mem hi, h⟩
  by_cases hp : p l[i.val] = true
  · have := pos hp
    by_cases ha : p a = true <;> simp [hp, ha] <;> omega
  · by_cases ha : p a = true <;> simp [hp, ha]

@[simp] theorem count_fill (p : α → Bool) (a : α) : (fill n a).count p = if p a then n else 0 := by
  simp [count, fill, List.countP_replicate]

theorem count_map (f : α → β) (p : β → Bool) (t : Table n α) : (t.map f).count p = t.count (p ∘ f) := by
  simp [count, map, List.countP_map]

theorem count_congr {p q : α → Bool} (t : Table n α) (h : ∀ i, p (t.get i) = q (t.get i)) : t.count p = t.count q := by
  unfold count
  apply List.countP_congr
  intro x hx
  obtain ⟨i, hi, rfl⟩ := List.mem_iff_getElem.mp hx
  exact Bool.eq_iff_iff.mp (h ⟨i, t.size ▸ hi⟩)

/-- What every step of an ascending pass keeps, the pass keeps. -/
theorem ascending_keeps {σ : Type} {P : σ → Prop} {f : Fin n → σ → σ} (step : ∀ i s, P s → P (f i s)) (s : σ) (h : P s) :
    P (ascending n f s) := by
  unfold ascending
  generalize List.finRange n = l
  induction l generalizing s with
  | nil => exact h
  | cons i l ih => exact ih _ (step i s h)

/-- The cells in order of index. -/
theorem cells_eq (t : Table n α) : t.cells = (List.finRange n).map t.get := by
  apply List.ext_getElem
  · rw [t.size, List.length_map, List.length_finRange]
  · intro i h₁ h₂; simp [get]

/-- A count over the indices. -/
theorem count_eq (p : α → Bool) (t : Table n α) :
    t.count p = (List.finRange n).countP fun i => p (t.get i) := by
  unfold count; rw [t.cells_eq, List.countP_map]; rfl

/-- A count over the first `k` cells. -/
theorem countP_take (p : α → Bool) (k : Nat) (t : Table n α) :
    (t.cells.take k).countP p = (List.finRange n).countP fun i => decide (i.val < k) && p (t.get i) := by
  have pre : ∀ l : List (Fin n), ∀ a, l.map Fin.val = List.range' a l.length →
      ((l.map t.get).take (k - a)).countP p = l.countP fun i => decide (i.val < k) && p (t.get i) := by
    intro l
    induction l with
    | nil => intro a _; simp
    | cons i l ih =>
      intro a h
      simp only [List.map_cons, List.length_cons, List.range'_succ, List.cons.injEq] at h
      have e : k - (a + 1) = k - a - 1 := by omega
      have := ih (a + 1) h.2
      rw [e] at this
      rcases hk : k - a with _ | m
      · have : ¬ i.val < k := by omega
        have none : ∀ j ∈ i :: l, ¬ j.val < k := by
          intro j hj
          rcases List.mem_cons.mp hj with rfl | hj
          · exact this
          · have := List.mem_map_of_mem (f := Fin.val) hj
            rw [h.2, List.mem_range'_1] at this; omega
        rw [List.take_zero, List.countP_nil, eq_comm, List.countP_eq_zero]
        intro j hj; simp [none j hj]
      · have hi : i.val < k := by omega
        rw [hk] at this
        simp only [List.map_cons, List.take_succ_cons, List.countP_cons, hi, decide_true, Bool.true_and]
        rw [← this]; rfl
  have := pre (List.finRange n) 0 (by simp [List.range_eq_range'])
  rw [t.cells_eq, ← this]; rfl

end Sys2Proof.Machine.Table
end

