-- ==== Sys2Proof/Laws/Counts.lean ====
section
/-! SUPPORT. What the counts of the status overlay count (R34, R59, R107, R161). -/

namespace Sys2Proof.Machine.State

/-- R59: the number of contexts in a state. -/
theorem contextsIn_eq (s : State) (x : Option ContextState) :
    s.contextsIn x = (List.finRange 24).countP fun c => decide ((s.context c).map (·.state) = x) := by
  unfold contextsIn; rw [Table.count_eq]
  apply List.countP_congr; intro c _; rw [beq_iff_eq, decide_eq_true_iff]; rfl

/-- R107: the number of key entries in a state. -/
theorem entriesIn_eq (s : State) (x : KeyState) :
    s.entriesIn x = (List.finRange 48).countP fun k => decide ((s.keys.entries.get k).state = x) := by
  unfold entriesIn; rw [Table.count_eq]; rfl

/-- R34, R161: the FREE inbound slots among the applied descriptor's. -/
theorem freeInbound_eq (s : State) (n : Fin 8) :
    s.freeInbound n = (List.finRange 16).countP fun k =>
      decide (k.val < (s.setup.lanes.get n).inCount ∧ s.inSlot ⟨n, k⟩ = .free) := by
  unfold freeInbound; rw [Table.countP_take]
  apply List.countP_congr; intro k _
  rw [Bool.and_eq_true, decide_eq_true_iff, decide_eq_true_iff, beq_iff_eq]; rfl

/-- R34, R161: the ARMED outbound slots among the applied descriptor's. -/
theorem armedOutbound_eq (s : State) (n : Fin 8) :
    s.armedOutbound n = (List.finRange 16).countP fun k =>
      decide (k.val < (s.setup.lanes.get n).outCount) && match (s.outSlot ⟨n, k⟩).state with
            | .armed _ _ _ => true
            | .free | .composing _ _ | .closed _ | .fetching _ | .waitingKey _ _ | .coding _ _ | .spoiled _ _ | .draining _ => false := by
  unfold armedOutbound; rw [Table.countP_take]
  apply List.countP_congr; intro k _
  show _ ↔ _
  simp only [State.outSlot]
  cases (((s.slots.lanes.get n).outbound.get k).state) <;> simp [OutState.isArmed]

/-- R161: the eight counts of contexts add up to 24. -/
theorem contextsIn_add (s : State) :
    s.contextsIn none + s.contextsIn (some .derivingKey) + s.contextsIn (some .keyed) + s.contextsIn (some .challenging)
          + s.contextsIn (some .awaiting) + s.contextsIn (some .verifying) + s.contextsIn (some .closing)
          + s.contextsIn (some .reporting) = 24 := by
  have all : ∀ l : List (Option Context),
      l.countP (fun c => c.map (·.state) == none) + l.countP (fun c => c.map (·.state) == some .derivingKey)
      + l.countP (fun c => c.map (·.state) == some .keyed) + l.countP (fun c => c.map (·.state) == some .challenging)
      + l.countP (fun c => c.map (·.state) == some .awaiting) + l.countP (fun c => c.map (·.state) == some .verifying)
      + l.countP (fun c => c.map (·.state) == some .closing) + l.countP (fun c => c.map (·.state) == some .reporting) = l.length := by
    intro l
    induction l with
    | nil => rfl
    | cons c l ih =>
      simp only [List.countP_cons, List.length_cons]
      rw [← ih]
      rcases c with _ | x
      · simp; omega
      · rcases e : x.state <;> simp [e] <;> omega
  have := all s.contexts.table.cells
  rw [s.contexts.table.size] at this
  exact this

/-- R107: the five counts of key entries add up to 48. -/
theorem entriesIn_add (s : State) :
    s.entriesIn .empty + s.entriesIn .waiting + s.entriesIn .live + s.entriesIn .expired + s.entriesIn .revoked = 48 := by
  have all : ∀ l : List KeyEntry,
      l.countP (fun e => e.state == .empty) + l.countP (fun e => e.state == .waiting) + l.countP (fun e => e.state == .live)
      + l.countP (fun e => e.state == .expired) + l.countP (fun e => e.state == .revoked) = l.length := by
    intro l
    induction l with
    | nil => rfl
    | cons x l ih =>
      simp only [List.countP_cons, List.length_cons]
      rw [← ih]
      rcases e : x.state <;> simp <;> omega
  have := all s.keys.entries.cells
  rw [s.keys.entries.size] at this
  exact this

/-- R161: the capacity and the slot counts read 0 before any setup. -/
theorem counts_without_setup {s : State} (h : s.idleSlots) (p : s.controller.setupPresent = false) :
   s.setup.capacity = 0 ∧ ∀ n, s.freeInbound n = 0 ∧ s.armedOutbound n = 0 := by
  obtain ⟨a, b⟩ := h.1 p
  refine ⟨a, fun n => ⟨?_, ?_⟩⟩
  · rw [freeInbound, (b n).2.1]; rfl
  · rw [armedOutbound, (b n).2.2]; rfl

end Sys2Proof.Machine.State
end

