-- ==== Sys2Proof/Laws/State.lean ====
section
/-! SUPPORT. One lemma per field for every named update: what it leaves as it was, and what a port, slot, context or entry
reads after it. -/

namespace Sys2Proof.Machine.State

@[simp] theorem controller_setPort (p : Port) (x : PortState) (s : State) : (s.setPort p x).controller = s.controller := by cases p <;> rfl
@[simp] theorem path_setPort (p : Port) (x : PortState) (s : State) : (s.setPort p x).path = s.path := by cases p <;> rfl
@[simp] theorem arbiter_setPort (p : Port) (x : PortState) (s : State) : (s.setPort p x).arbiter = s.arbiter := by cases p <;> rfl
@[simp] theorem agent_setPort (p : Port) (x : PortState) (s : State) : (s.setPort p x).agent = s.agent := by cases p <;> rfl
@[simp] theorem slots_setPort (p : Port) (x : PortState) (s : State) : (s.setPort p x).slots = s.slots := by cases p <;> rfl
@[simp] theorem contexts_setPort (p : Port) (x : PortState) (s : State) : (s.setPort p x).contexts = s.contexts := by cases p <;> rfl
@[simp] theorem keys_setPort (p : Port) (x : PortState) (s : State) : (s.setPort p x).keys = s.keys := by cases p <;> rfl
@[simp] theorem load_setPort (p : Port) (x : PortState) (s : State) : (s.setPort p x).load = s.load := by cases p <;> rfl
@[simp] theorem engine_setPort (p : Port) (x : PortState) (s : State) : (s.setPort p x).engine = s.engine := by cases p <;> rfl
@[simp] theorem reports_setPort (p : Port) (x : PortState) (s : State) : (s.setPort p x).reports = s.reports := by cases p <;> rfl
@[simp] theorem control_setPort (p : Port) (x : PortState) (s : State) : (s.setPort p x).control = s.control := by cases p <;> rfl
@[simp] theorem setup_setPort (p : Port) (x : PortState) (s : State) : (s.setPort p x).setup = s.setup := by cases p <;> rfl
@[simp] theorem mem_setPort (p : Port) (x : PortState) (s : State) : (s.setPort p x).mem = s.mem := by cases p <;> rfl
@[simp] theorem fresh_setPort (p : Port) (x : PortState) (s : State) : (s.setPort p x).fresh = s.fresh := by cases p <;> rfl
@[simp] theorem pending_setPort (p : Port) (x : PortState) (s : State) : (s.setPort p x).pending = s.pending := by cases p <;> rfl

@[simp] theorem controller_hold (p : Port) (o : Outstanding) (s : State) : (s.hold p o).controller = s.controller := by cases p <;> rfl
@[simp] theorem path_hold (p : Port) (o : Outstanding) (s : State) : (s.hold p o).path = s.path := by cases p <;> rfl
@[simp] theorem arbiter_hold (p : Port) (o : Outstanding) (s : State) : (s.hold p o).arbiter = s.arbiter := by cases p <;> rfl
@[simp] theorem agent_hold (p : Port) (o : Outstanding) (s : State) : (s.hold p o).agent = s.agent := by cases p <;> rfl
@[simp] theorem slots_hold (p : Port) (o : Outstanding) (s : State) : (s.hold p o).slots = s.slots := by cases p <;> rfl
@[simp] theorem contexts_hold (p : Port) (o : Outstanding) (s : State) : (s.hold p o).contexts = s.contexts := by cases p <;> rfl
@[simp] theorem keys_hold (p : Port) (o : Outstanding) (s : State) : (s.hold p o).keys = s.keys := by cases p <;> rfl
@[simp] theorem load_hold (p : Port) (o : Outstanding) (s : State) : (s.hold p o).load = s.load := by cases p <;> rfl
@[simp] theorem engine_hold (p : Port) (o : Outstanding) (s : State) : (s.hold p o).engine = s.engine := by cases p <;> rfl
@[simp] theorem reports_hold (p : Port) (o : Outstanding) (s : State) : (s.hold p o).reports = s.reports := by cases p <;> rfl
@[simp] theorem control_hold (p : Port) (o : Outstanding) (s : State) : (s.hold p o).control = s.control := by cases p <;> rfl
@[simp] theorem setup_hold (p : Port) (o : Outstanding) (s : State) : (s.hold p o).setup = s.setup := by cases p <;> rfl
@[simp] theorem mem_hold (p : Port) (o : Outstanding) (s : State) : (s.hold p o).mem = s.mem := by cases p <;> rfl
@[simp] theorem fresh_hold (p : Port) (o : Outstanding) (s : State) : (s.hold p o).fresh = s.fresh := by cases p <;> rfl
@[simp] theorem pending_hold (p : Port) (o : Outstanding) (s : State) : (s.hold p o).pending = s.pending := by cases p <;> rfl

@[simp] theorem controller_respond (p : Port) (r : Response) (s : State) : (s.respond p r).controller = s.controller := by cases p <;> rfl
@[simp] theorem path_respond (p : Port) (r : Response) (s : State) : (s.respond p r).path = s.path := by cases p <;> rfl
@[simp] theorem arbiter_respond (p : Port) (r : Response) (s : State) : (s.respond p r).arbiter = s.arbiter := by cases p <;> rfl
@[simp] theorem agent_respond (p : Port) (r : Response) (s : State) : (s.respond p r).agent = s.agent := by cases p <;> rfl
@[simp] theorem slots_respond (p : Port) (r : Response) (s : State) : (s.respond p r).slots = s.slots := by cases p <;> rfl
@[simp] theorem contexts_respond (p : Port) (r : Response) (s : State) : (s.respond p r).contexts = s.contexts := by cases p <;> rfl
@[simp] theorem keys_respond (p : Port) (r : Response) (s : State) : (s.respond p r).keys = s.keys := by cases p <;> rfl
@[simp] theorem load_respond (p : Port) (r : Response) (s : State) : (s.respond p r).load = s.load := by cases p <;> rfl
@[simp] theorem engine_respond (p : Port) (r : Response) (s : State) : (s.respond p r).engine = s.engine := by cases p <;> rfl
@[simp] theorem reports_respond (p : Port) (r : Response) (s : State) : (s.respond p r).reports = s.reports := by cases p <;> rfl
@[simp] theorem control_respond (p : Port) (r : Response) (s : State) : (s.respond p r).control = s.control := by cases p <;> rfl
@[simp] theorem setup_respond (p : Port) (r : Response) (s : State) : (s.respond p r).setup = s.setup := by cases p <;> rfl
@[simp] theorem mem_respond (p : Port) (r : Response) (s : State) : (s.respond p r).mem = s.mem := by cases p <;> rfl
@[simp] theorem fresh_respond (p : Port) (r : Response) (s : State) : (s.respond p r).fresh = s.fresh := by cases p <;> rfl
@[simp] theorem pending_respond (p : Port) (r : Response) (s : State) : (s.respond p r).pending = s.pending := by cases p <;> rfl

@[simp] theorem controller_supply (p : Port) (size : Size) (w : Word) (s : State) : (s.supply p size w).controller = s.controller := by cases p <;> rfl
@[simp] theorem path_supply (p : Port) (size : Size) (w : Word) (s : State) : (s.supply p size w).path = s.path := by cases p <;> rfl
@[simp] theorem arbiter_supply (p : Port) (size : Size) (w : Word) (s : State) : (s.supply p size w).arbiter = s.arbiter := by cases p <;> rfl
@[simp] theorem agent_supply (p : Port) (size : Size) (w : Word) (s : State) : (s.supply p size w).agent = s.agent := by cases p <;> rfl
@[simp] theorem slots_supply (p : Port) (size : Size) (w : Word) (s : State) : (s.supply p size w).slots = s.slots := by cases p <;> rfl
@[simp] theorem contexts_supply (p : Port) (size : Size) (w : Word) (s : State) : (s.supply p size w).contexts = s.contexts := by cases p <;> rfl
@[simp] theorem keys_supply (p : Port) (size : Size) (w : Word) (s : State) : (s.supply p size w).keys = s.keys := by cases p <;> rfl
@[simp] theorem load_supply (p : Port) (size : Size) (w : Word) (s : State) : (s.supply p size w).load = s.load := by cases p <;> rfl
@[simp] theorem engine_supply (p : Port) (size : Size) (w : Word) (s : State) : (s.supply p size w).engine = s.engine := by cases p <;> rfl
@[simp] theorem reports_supply (p : Port) (size : Size) (w : Word) (s : State) : (s.supply p size w).reports = s.reports := by cases p <;> rfl
@[simp] theorem control_supply (p : Port) (size : Size) (w : Word) (s : State) : (s.supply p size w).control = s.control := by cases p <;> rfl
@[simp] theorem setup_supply (p : Port) (size : Size) (w : Word) (s : State) : (s.supply p size w).setup = s.setup := by cases p <;> rfl
@[simp] theorem mem_supply (p : Port) (size : Size) (w : Word) (s : State) : (s.supply p size w).mem = s.mem := by cases p <;> rfl
@[simp] theorem fresh_supply (p : Port) (size : Size) (w : Word) (s : State) : (s.supply p size w).fresh = s.fresh := by cases p <;> rfl
@[simp] theorem pending_supply (p : Port) (size : Size) (w : Word) (s : State) : (s.supply p size w).pending = s.pending := by cases p <;> rfl

@[simp] theorem controller_raise (c : Cause) (s : State) : (s.raise c).controller = s.controller := rfl
@[simp] theorem path_raise (c : Cause) (s : State) : (s.raise c).path = s.path := rfl
@[simp] theorem ports_raise (c : Cause) (s : State) : (s.raise c).ports = s.ports := rfl
@[simp] theorem arbiter_raise (c : Cause) (s : State) : (s.raise c).arbiter = s.arbiter := rfl
@[simp] theorem agent_raise (c : Cause) (s : State) : (s.raise c).agent = s.agent := rfl
@[simp] theorem slots_raise (c : Cause) (s : State) : (s.raise c).slots = s.slots := rfl
@[simp] theorem contexts_raise (c : Cause) (s : State) : (s.raise c).contexts = s.contexts := rfl
@[simp] theorem keys_raise (c : Cause) (s : State) : (s.raise c).keys = s.keys := rfl
@[simp] theorem load_raise (c : Cause) (s : State) : (s.raise c).load = s.load := rfl
@[simp] theorem engine_raise (c : Cause) (s : State) : (s.raise c).engine = s.engine := rfl
@[simp] theorem reports_raise (c : Cause) (s : State) : (s.raise c).reports = s.reports := rfl
@[simp] theorem setup_raise (c : Cause) (s : State) : (s.raise c).setup = s.setup := rfl
@[simp] theorem mem_raise (c : Cause) (s : State) : (s.raise c).mem = s.mem := rfl
@[simp] theorem fresh_raise (c : Cause) (s : State) : (s.raise c).fresh = s.fresh := rfl
@[simp] theorem pending_raise (c : Cause) (s : State) : (s.raise c).pending = s.pending := rfl

@[simp] theorem controller_recordRefusal (p : Port) (kind : RefusalKind) (address : BitVec 22) (s : State) : (s.recordRefusal p kind address).controller = s.controller := rfl
@[simp] theorem ports_recordRefusal (p : Port) (kind : RefusalKind) (address : BitVec 22) (s : State) : (s.recordRefusal p kind address).ports = s.ports := rfl
@[simp] theorem arbiter_recordRefusal (p : Port) (kind : RefusalKind) (address : BitVec 22) (s : State) : (s.recordRefusal p kind address).arbiter = s.arbiter := rfl
@[simp] theorem agent_recordRefusal (p : Port) (kind : RefusalKind) (address : BitVec 22) (s : State) : (s.recordRefusal p kind address).agent = s.agent := rfl
@[simp] theorem slots_recordRefusal (p : Port) (kind : RefusalKind) (address : BitVec 22) (s : State) : (s.recordRefusal p kind address).slots = s.slots := rfl
@[simp] theorem contexts_recordRefusal (p : Port) (kind : RefusalKind) (address : BitVec 22) (s : State) : (s.recordRefusal p kind address).contexts = s.contexts := rfl
@[simp] theorem keys_recordRefusal (p : Port) (kind : RefusalKind) (address : BitVec 22) (s : State) : (s.recordRefusal p kind address).keys = s.keys := rfl
@[simp] theorem load_recordRefusal (p : Port) (kind : RefusalKind) (address : BitVec 22) (s : State) : (s.recordRefusal p kind address).load = s.load := rfl
@[simp] theorem engine_recordRefusal (p : Port) (kind : RefusalKind) (address : BitVec 22) (s : State) : (s.recordRefusal p kind address).engine = s.engine := rfl
@[simp] theorem reports_recordRefusal (p : Port) (kind : RefusalKind) (address : BitVec 22) (s : State) : (s.recordRefusal p kind address).reports = s.reports := rfl
@[simp] theorem setup_recordRefusal (p : Port) (kind : RefusalKind) (address : BitVec 22) (s : State) : (s.recordRefusal p kind address).setup = s.setup := rfl
@[simp] theorem mem_recordRefusal (p : Port) (kind : RefusalKind) (address : BitVec 22) (s : State) : (s.recordRefusal p kind address).mem = s.mem := rfl
@[simp] theorem fresh_recordRefusal (p : Port) (kind : RefusalKind) (address : BitVec 22) (s : State) : (s.recordRefusal p kind address).fresh = s.fresh := rfl
@[simp] theorem pending_recordRefusal (p : Port) (kind : RefusalKind) (address : BitVec 22) (s : State) : (s.recordRefusal p kind address).pending = s.pending := rfl

@[simp] theorem controller_refuse (p : Port) (kind : RefusalKind) (address : BitVec 22) (s : State) : (s.refuse p kind address).controller = s.controller := by cases p <;> rfl
@[simp] theorem arbiter_refuse (p : Port) (kind : RefusalKind) (address : BitVec 22) (s : State) : (s.refuse p kind address).arbiter = s.arbiter := by cases p <;> rfl
@[simp] theorem agent_refuse (p : Port) (kind : RefusalKind) (address : BitVec 22) (s : State) : (s.refuse p kind address).agent = s.agent := by cases p <;> rfl
@[simp] theorem slots_refuse (p : Port) (kind : RefusalKind) (address : BitVec 22) (s : State) : (s.refuse p kind address).slots = s.slots := by cases p <;> rfl
@[simp] theorem contexts_refuse (p : Port) (kind : RefusalKind) (address : BitVec 22) (s : State) : (s.refuse p kind address).contexts = s.contexts := by cases p <;> rfl
@[simp] theorem keys_refuse (p : Port) (kind : RefusalKind) (address : BitVec 22) (s : State) : (s.refuse p kind address).keys = s.keys := by cases p <;> rfl
@[simp] theorem load_refuse (p : Port) (kind : RefusalKind) (address : BitVec 22) (s : State) : (s.refuse p kind address).load = s.load := by cases p <;> rfl
@[simp] theorem engine_refuse (p : Port) (kind : RefusalKind) (address : BitVec 22) (s : State) : (s.refuse p kind address).engine = s.engine := by cases p <;> rfl
@[simp] theorem reports_refuse (p : Port) (kind : RefusalKind) (address : BitVec 22) (s : State) : (s.refuse p kind address).reports = s.reports := by cases p <;> rfl
@[simp] theorem setup_refuse (p : Port) (kind : RefusalKind) (address : BitVec 22) (s : State) : (s.refuse p kind address).setup = s.setup := by cases p <;> rfl
@[simp] theorem mem_refuse (p : Port) (kind : RefusalKind) (address : BitVec 22) (s : State) : (s.refuse p kind address).mem = s.mem := by cases p <;> rfl
@[simp] theorem fresh_refuse (p : Port) (kind : RefusalKind) (address : BitVec 22) (s : State) : (s.refuse p kind address).fresh = s.fresh := by cases p <;> rfl
@[simp] theorem pending_refuse (p : Port) (kind : RefusalKind) (address : BitVec 22) (s : State) : (s.refuse p kind address).pending = s.pending := by cases p <;> rfl

@[simp] theorem controller_setLane (n : Fin 8) (x : LaneSlots) (s : State) : (s.setLane n x).controller = s.controller := rfl
@[simp] theorem path_setLane (n : Fin 8) (x : LaneSlots) (s : State) : (s.setLane n x).path = s.path := rfl
@[simp] theorem ports_setLane (n : Fin 8) (x : LaneSlots) (s : State) : (s.setLane n x).ports = s.ports := rfl
@[simp] theorem arbiter_setLane (n : Fin 8) (x : LaneSlots) (s : State) : (s.setLane n x).arbiter = s.arbiter := rfl
@[simp] theorem agent_setLane (n : Fin 8) (x : LaneSlots) (s : State) : (s.setLane n x).agent = s.agent := rfl
@[simp] theorem contexts_setLane (n : Fin 8) (x : LaneSlots) (s : State) : (s.setLane n x).contexts = s.contexts := rfl
@[simp] theorem keys_setLane (n : Fin 8) (x : LaneSlots) (s : State) : (s.setLane n x).keys = s.keys := rfl
@[simp] theorem load_setLane (n : Fin 8) (x : LaneSlots) (s : State) : (s.setLane n x).load = s.load := rfl
@[simp] theorem engine_setLane (n : Fin 8) (x : LaneSlots) (s : State) : (s.setLane n x).engine = s.engine := rfl
@[simp] theorem reports_setLane (n : Fin 8) (x : LaneSlots) (s : State) : (s.setLane n x).reports = s.reports := rfl
@[simp] theorem control_setLane (n : Fin 8) (x : LaneSlots) (s : State) : (s.setLane n x).control = s.control := rfl
@[simp] theorem setup_setLane (n : Fin 8) (x : LaneSlots) (s : State) : (s.setLane n x).setup = s.setup := rfl
@[simp] theorem mem_setLane (n : Fin 8) (x : LaneSlots) (s : State) : (s.setLane n x).mem = s.mem := rfl
@[simp] theorem fresh_setLane (n : Fin 8) (x : LaneSlots) (s : State) : (s.setLane n x).fresh = s.fresh := rfl
@[simp] theorem pending_setLane (n : Fin 8) (x : LaneSlots) (s : State) : (s.setLane n x).pending = s.pending := rfl

@[simp] theorem controller_setInSlot (r : SlotRef) (x : InSlot) (s : State) : (s.setInSlot r x).controller = s.controller := rfl
@[simp] theorem path_setInSlot (r : SlotRef) (x : InSlot) (s : State) : (s.setInSlot r x).path = s.path := rfl
@[simp] theorem ports_setInSlot (r : SlotRef) (x : InSlot) (s : State) : (s.setInSlot r x).ports = s.ports := rfl
@[simp] theorem arbiter_setInSlot (r : SlotRef) (x : InSlot) (s : State) : (s.setInSlot r x).arbiter = s.arbiter := rfl
@[simp] theorem agent_setInSlot (r : SlotRef) (x : InSlot) (s : State) : (s.setInSlot r x).agent = s.agent := rfl
@[simp] theorem contexts_setInSlot (r : SlotRef) (x : InSlot) (s : State) : (s.setInSlot r x).contexts = s.contexts := rfl
@[simp] theorem keys_setInSlot (r : SlotRef) (x : InSlot) (s : State) : (s.setInSlot r x).keys = s.keys := rfl
@[simp] theorem load_setInSlot (r : SlotRef) (x : InSlot) (s : State) : (s.setInSlot r x).load = s.load := rfl
@[simp] theorem engine_setInSlot (r : SlotRef) (x : InSlot) (s : State) : (s.setInSlot r x).engine = s.engine := rfl
@[simp] theorem reports_setInSlot (r : SlotRef) (x : InSlot) (s : State) : (s.setInSlot r x).reports = s.reports := rfl
@[simp] theorem control_setInSlot (r : SlotRef) (x : InSlot) (s : State) : (s.setInSlot r x).control = s.control := rfl
@[simp] theorem setup_setInSlot (r : SlotRef) (x : InSlot) (s : State) : (s.setInSlot r x).setup = s.setup := rfl
@[simp] theorem mem_setInSlot (r : SlotRef) (x : InSlot) (s : State) : (s.setInSlot r x).mem = s.mem := rfl
@[simp] theorem fresh_setInSlot (r : SlotRef) (x : InSlot) (s : State) : (s.setInSlot r x).fresh = s.fresh := rfl
@[simp] theorem pending_setInSlot (r : SlotRef) (x : InSlot) (s : State) : (s.setInSlot r x).pending = s.pending := rfl

@[simp] theorem controller_setOutSlot (r : SlotRef) (x : OutSlot) (s : State) : (s.setOutSlot r x).controller = s.controller := rfl
@[simp] theorem path_setOutSlot (r : SlotRef) (x : OutSlot) (s : State) : (s.setOutSlot r x).path = s.path := rfl
@[simp] theorem ports_setOutSlot (r : SlotRef) (x : OutSlot) (s : State) : (s.setOutSlot r x).ports = s.ports := rfl
@[simp] theorem arbiter_setOutSlot (r : SlotRef) (x : OutSlot) (s : State) : (s.setOutSlot r x).arbiter = s.arbiter := rfl
@[simp] theorem agent_setOutSlot (r : SlotRef) (x : OutSlot) (s : State) : (s.setOutSlot r x).agent = s.agent := rfl
@[simp] theorem contexts_setOutSlot (r : SlotRef) (x : OutSlot) (s : State) : (s.setOutSlot r x).contexts = s.contexts := rfl
@[simp] theorem keys_setOutSlot (r : SlotRef) (x : OutSlot) (s : State) : (s.setOutSlot r x).keys = s.keys := rfl
@[simp] theorem load_setOutSlot (r : SlotRef) (x : OutSlot) (s : State) : (s.setOutSlot r x).load = s.load := rfl
@[simp] theorem engine_setOutSlot (r : SlotRef) (x : OutSlot) (s : State) : (s.setOutSlot r x).engine = s.engine := rfl
@[simp] theorem reports_setOutSlot (r : SlotRef) (x : OutSlot) (s : State) : (s.setOutSlot r x).reports = s.reports := rfl
@[simp] theorem control_setOutSlot (r : SlotRef) (x : OutSlot) (s : State) : (s.setOutSlot r x).control = s.control := rfl
@[simp] theorem setup_setOutSlot (r : SlotRef) (x : OutSlot) (s : State) : (s.setOutSlot r x).setup = s.setup := rfl
@[simp] theorem mem_setOutSlot (r : SlotRef) (x : OutSlot) (s : State) : (s.setOutSlot r x).mem = s.mem := rfl
@[simp] theorem fresh_setOutSlot (r : SlotRef) (x : OutSlot) (s : State) : (s.setOutSlot r x).fresh = s.fresh := rfl
@[simp] theorem pending_setOutSlot (r : SlotRef) (x : OutSlot) (s : State) : (s.setOutSlot r x).pending = s.pending := rfl

@[simp] theorem controller_mapSlots (f : InSlot → InSlot) (g : OutSlot → OutSlot) (s : State) : (s.mapSlots f g).controller = s.controller := rfl
@[simp] theorem path_mapSlots (f : InSlot → InSlot) (g : OutSlot → OutSlot) (s : State) : (s.mapSlots f g).path = s.path := rfl
@[simp] theorem ports_mapSlots (f : InSlot → InSlot) (g : OutSlot → OutSlot) (s : State) : (s.mapSlots f g).ports = s.ports := rfl
@[simp] theorem arbiter_mapSlots (f : InSlot → InSlot) (g : OutSlot → OutSlot) (s : State) : (s.mapSlots f g).arbiter = s.arbiter := rfl
@[simp] theorem agent_mapSlots (f : InSlot → InSlot) (g : OutSlot → OutSlot) (s : State) : (s.mapSlots f g).agent = s.agent := rfl
@[simp] theorem contexts_mapSlots (f : InSlot → InSlot) (g : OutSlot → OutSlot) (s : State) : (s.mapSlots f g).contexts = s.contexts := rfl
@[simp] theorem keys_mapSlots (f : InSlot → InSlot) (g : OutSlot → OutSlot) (s : State) : (s.mapSlots f g).keys = s.keys := rfl
@[simp] theorem load_mapSlots (f : InSlot → InSlot) (g : OutSlot → OutSlot) (s : State) : (s.mapSlots f g).load = s.load := rfl
@[simp] theorem engine_mapSlots (f : InSlot → InSlot) (g : OutSlot → OutSlot) (s : State) : (s.mapSlots f g).engine = s.engine := rfl
@[simp] theorem reports_mapSlots (f : InSlot → InSlot) (g : OutSlot → OutSlot) (s : State) : (s.mapSlots f g).reports = s.reports := rfl
@[simp] theorem control_mapSlots (f : InSlot → InSlot) (g : OutSlot → OutSlot) (s : State) : (s.mapSlots f g).control = s.control := rfl
@[simp] theorem setup_mapSlots (f : InSlot → InSlot) (g : OutSlot → OutSlot) (s : State) : (s.mapSlots f g).setup = s.setup := rfl
@[simp] theorem mem_mapSlots (f : InSlot → InSlot) (g : OutSlot → OutSlot) (s : State) : (s.mapSlots f g).mem = s.mem := rfl
@[simp] theorem fresh_mapSlots (f : InSlot → InSlot) (g : OutSlot → OutSlot) (s : State) : (s.mapSlots f g).fresh = s.fresh := rfl
@[simp] theorem pending_mapSlots (f : InSlot → InSlot) (g : OutSlot → OutSlot) (s : State) : (s.mapSlots f g).pending = s.pending := rfl

@[simp] theorem controller_setHeld (x : Option HeldRead) (s : State) : (s.setHeld x).controller = s.controller := rfl
@[simp] theorem path_setHeld (x : Option HeldRead) (s : State) : (s.setHeld x).path = s.path := rfl
@[simp] theorem ports_setHeld (x : Option HeldRead) (s : State) : (s.setHeld x).ports = s.ports := rfl
@[simp] theorem arbiter_setHeld (x : Option HeldRead) (s : State) : (s.setHeld x).arbiter = s.arbiter := rfl
@[simp] theorem agent_setHeld (x : Option HeldRead) (s : State) : (s.setHeld x).agent = s.agent := rfl
@[simp] theorem contexts_setHeld (x : Option HeldRead) (s : State) : (s.setHeld x).contexts = s.contexts := rfl
@[simp] theorem keys_setHeld (x : Option HeldRead) (s : State) : (s.setHeld x).keys = s.keys := rfl
@[simp] theorem load_setHeld (x : Option HeldRead) (s : State) : (s.setHeld x).load = s.load := rfl
@[simp] theorem engine_setHeld (x : Option HeldRead) (s : State) : (s.setHeld x).engine = s.engine := rfl
@[simp] theorem reports_setHeld (x : Option HeldRead) (s : State) : (s.setHeld x).reports = s.reports := rfl
@[simp] theorem control_setHeld (x : Option HeldRead) (s : State) : (s.setHeld x).control = s.control := rfl
@[simp] theorem setup_setHeld (x : Option HeldRead) (s : State) : (s.setHeld x).setup = s.setup := rfl
@[simp] theorem mem_setHeld (x : Option HeldRead) (s : State) : (s.setHeld x).mem = s.mem := rfl
@[simp] theorem fresh_setHeld (x : Option HeldRead) (s : State) : (s.setHeld x).fresh = s.fresh := rfl
@[simp] theorem pending_setHeld (x : Option HeldRead) (s : State) : (s.setHeld x).pending = s.pending := rfl

@[simp] theorem controller_setLoad (x : Load) (s : State) : (s.setLoad x).controller = s.controller := rfl
@[simp] theorem path_setLoad (x : Load) (s : State) : (s.setLoad x).path = s.path := rfl
@[simp] theorem ports_setLoad (x : Load) (s : State) : (s.setLoad x).ports = s.ports := rfl
@[simp] theorem arbiter_setLoad (x : Load) (s : State) : (s.setLoad x).arbiter = s.arbiter := rfl
@[simp] theorem agent_setLoad (x : Load) (s : State) : (s.setLoad x).agent = s.agent := rfl
@[simp] theorem slots_setLoad (x : Load) (s : State) : (s.setLoad x).slots = s.slots := rfl
@[simp] theorem contexts_setLoad (x : Load) (s : State) : (s.setLoad x).contexts = s.contexts := rfl
@[simp] theorem keys_setLoad (x : Load) (s : State) : (s.setLoad x).keys = s.keys := rfl
@[simp] theorem engine_setLoad (x : Load) (s : State) : (s.setLoad x).engine = s.engine := rfl
@[simp] theorem reports_setLoad (x : Load) (s : State) : (s.setLoad x).reports = s.reports := rfl
@[simp] theorem control_setLoad (x : Load) (s : State) : (s.setLoad x).control = s.control := rfl
@[simp] theorem setup_setLoad (x : Load) (s : State) : (s.setLoad x).setup = s.setup := rfl
@[simp] theorem mem_setLoad (x : Load) (s : State) : (s.setLoad x).mem = s.mem := rfl
@[simp] theorem fresh_setLoad (x : Load) (s : State) : (s.setLoad x).fresh = s.fresh := rfl
@[simp] theorem pending_setLoad (x : Load) (s : State) : (s.setLoad x).pending = s.pending := rfl

@[simp] theorem controller_setArbiter (x : Option InFlight) (s : State) : (s.setArbiter x).controller = s.controller := rfl
@[simp] theorem path_setArbiter (x : Option InFlight) (s : State) : (s.setArbiter x).path = s.path := rfl
@[simp] theorem ports_setArbiter (x : Option InFlight) (s : State) : (s.setArbiter x).ports = s.ports := rfl
@[simp] theorem agent_setArbiter (x : Option InFlight) (s : State) : (s.setArbiter x).agent = s.agent := rfl
@[simp] theorem slots_setArbiter (x : Option InFlight) (s : State) : (s.setArbiter x).slots = s.slots := rfl
@[simp] theorem contexts_setArbiter (x : Option InFlight) (s : State) : (s.setArbiter x).contexts = s.contexts := rfl
@[simp] theorem keys_setArbiter (x : Option InFlight) (s : State) : (s.setArbiter x).keys = s.keys := rfl
@[simp] theorem load_setArbiter (x : Option InFlight) (s : State) : (s.setArbiter x).load = s.load := rfl
@[simp] theorem engine_setArbiter (x : Option InFlight) (s : State) : (s.setArbiter x).engine = s.engine := rfl
@[simp] theorem reports_setArbiter (x : Option InFlight) (s : State) : (s.setArbiter x).reports = s.reports := rfl
@[simp] theorem control_setArbiter (x : Option InFlight) (s : State) : (s.setArbiter x).control = s.control := rfl
@[simp] theorem setup_setArbiter (x : Option InFlight) (s : State) : (s.setArbiter x).setup = s.setup := rfl
@[simp] theorem mem_setArbiter (x : Option InFlight) (s : State) : (s.setArbiter x).mem = s.mem := rfl
@[simp] theorem fresh_setArbiter (x : Option InFlight) (s : State) : (s.setArbiter x).fresh = s.fresh := rfl
@[simp] theorem pending_setArbiter (x : Option InFlight) (s : State) : (s.setArbiter x).pending = s.pending := rfl

@[simp] theorem controller_setAgent (x : Agent) (s : State) : (s.setAgent x).controller = s.controller := rfl
@[simp] theorem path_setAgent (x : Agent) (s : State) : (s.setAgent x).path = s.path := rfl
@[simp] theorem ports_setAgent (x : Agent) (s : State) : (s.setAgent x).ports = s.ports := rfl
@[simp] theorem arbiter_setAgent (x : Agent) (s : State) : (s.setAgent x).arbiter = s.arbiter := rfl
@[simp] theorem slots_setAgent (x : Agent) (s : State) : (s.setAgent x).slots = s.slots := rfl
@[simp] theorem contexts_setAgent (x : Agent) (s : State) : (s.setAgent x).contexts = s.contexts := rfl
@[simp] theorem keys_setAgent (x : Agent) (s : State) : (s.setAgent x).keys = s.keys := rfl
@[simp] theorem load_setAgent (x : Agent) (s : State) : (s.setAgent x).load = s.load := rfl
@[simp] theorem engine_setAgent (x : Agent) (s : State) : (s.setAgent x).engine = s.engine := rfl
@[simp] theorem reports_setAgent (x : Agent) (s : State) : (s.setAgent x).reports = s.reports := rfl
@[simp] theorem control_setAgent (x : Agent) (s : State) : (s.setAgent x).control = s.control := rfl
@[simp] theorem setup_setAgent (x : Agent) (s : State) : (s.setAgent x).setup = s.setup := rfl
@[simp] theorem mem_setAgent (x : Agent) (s : State) : (s.setAgent x).mem = s.mem := rfl
@[simp] theorem fresh_setAgent (x : Agent) (s : State) : (s.setAgent x).fresh = s.fresh := rfl
@[simp] theorem pending_setAgent (x : Agent) (s : State) : (s.setAgent x).pending = s.pending := rfl

@[simp] theorem path_setWake (w : Wake) (s : State) : (s.setWake w).path = s.path := rfl
@[simp] theorem ports_setWake (w : Wake) (s : State) : (s.setWake w).ports = s.ports := rfl
@[simp] theorem arbiter_setWake (w : Wake) (s : State) : (s.setWake w).arbiter = s.arbiter := rfl
@[simp] theorem agent_setWake (w : Wake) (s : State) : (s.setWake w).agent = s.agent := rfl
@[simp] theorem slots_setWake (w : Wake) (s : State) : (s.setWake w).slots = s.slots := rfl
@[simp] theorem contexts_setWake (w : Wake) (s : State) : (s.setWake w).contexts = s.contexts := rfl
@[simp] theorem keys_setWake (w : Wake) (s : State) : (s.setWake w).keys = s.keys := rfl
@[simp] theorem load_setWake (w : Wake) (s : State) : (s.setWake w).load = s.load := rfl
@[simp] theorem engine_setWake (w : Wake) (s : State) : (s.setWake w).engine = s.engine := rfl
@[simp] theorem reports_setWake (w : Wake) (s : State) : (s.setWake w).reports = s.reports := rfl
@[simp] theorem control_setWake (w : Wake) (s : State) : (s.setWake w).control = s.control := rfl
@[simp] theorem setup_setWake (w : Wake) (s : State) : (s.setWake w).setup = s.setup := rfl
@[simp] theorem mem_setWake (w : Wake) (s : State) : (s.setWake w).mem = s.mem := rfl
@[simp] theorem fresh_setWake (w : Wake) (s : State) : (s.setWake w).fresh = s.fresh := rfl
@[simp] theorem pending_setWake (w : Wake) (s : State) : (s.setWake w).pending = s.pending := rfl

@[simp] theorem path_startWake (s : State) : s.startWake.path = s.path := by unfold startWake; split <;> rfl
@[simp] theorem arbiter_startWake (s : State) : s.startWake.arbiter = s.arbiter := by unfold startWake; split <;> rfl
@[simp] theorem agent_startWake (s : State) : s.startWake.agent = s.agent := by unfold startWake; split <;> rfl
@[simp] theorem slots_startWake (s : State) : s.startWake.slots = s.slots := by unfold startWake; split <;> rfl
@[simp] theorem contexts_startWake (s : State) : s.startWake.contexts = s.contexts := by unfold startWake; split <;> rfl
@[simp] theorem keys_startWake (s : State) : s.startWake.keys = s.keys := by unfold startWake; split <;> rfl
@[simp] theorem load_startWake (s : State) : s.startWake.load = s.load := by unfold startWake; split <;> rfl
@[simp] theorem engine_startWake (s : State) : s.startWake.engine = s.engine := by unfold startWake; split <;> rfl
@[simp] theorem reports_startWake (s : State) : s.startWake.reports = s.reports := by unfold startWake; split <;> rfl
@[simp] theorem control_startWake (s : State) : s.startWake.control = s.control := by unfold startWake; split <;> rfl
@[simp] theorem setup_startWake (s : State) : s.startWake.setup = s.setup := by unfold startWake; split <;> rfl
@[simp] theorem mem_startWake (s : State) : s.startWake.mem = s.mem := by unfold startWake; split <;> rfl
@[simp] theorem fresh_startWake (s : State) : s.startWake.fresh = s.fresh := by unfold startWake; split <;> rfl
@[simp] theorem pending_startWake (s : State) : s.startWake.pending = s.pending := by unfold startWake; split <;> rfl

@[simp] theorem path_rouse (s : State) : s.rouse.path = s.path := by unfold rouse; split <;> rfl
@[simp] theorem ports_rouse (s : State) : s.rouse.ports = s.ports := by unfold rouse; split <;> rfl
@[simp] theorem arbiter_rouse (s : State) : s.rouse.arbiter = s.arbiter := by unfold rouse; split <;> rfl
@[simp] theorem agent_rouse (s : State) : s.rouse.agent = s.agent := by unfold rouse; split <;> rfl
@[simp] theorem slots_rouse (s : State) : s.rouse.slots = s.slots := by unfold rouse; split <;> rfl
@[simp] theorem contexts_rouse (s : State) : s.rouse.contexts = s.contexts := by unfold rouse; split <;> rfl
@[simp] theorem keys_rouse (s : State) : s.rouse.keys = s.keys := by unfold rouse; split <;> rfl
@[simp] theorem load_rouse (s : State) : s.rouse.load = s.load := by unfold rouse; split <;> rfl
@[simp] theorem engine_rouse (s : State) : s.rouse.engine = s.engine := by unfold rouse; split <;> rfl
@[simp] theorem reports_rouse (s : State) : s.rouse.reports = s.reports := by unfold rouse; split <;> rfl
@[simp] theorem control_rouse (s : State) : s.rouse.control = s.control := by unfold rouse; split <;> rfl
@[simp] theorem setup_rouse (s : State) : s.rouse.setup = s.setup := by unfold rouse; split <;> rfl
@[simp] theorem mem_rouse (s : State) : s.rouse.mem = s.mem := by unfold rouse; split <;> rfl
@[simp] theorem fresh_rouse (s : State) : s.rouse.fresh = s.fresh := by unfold rouse; split <;> rfl
@[simp] theorem pending_rouse (s : State) : s.rouse.pending = s.pending := by unfold rouse; split <;> rfl

@[simp] theorem path_purgeAfterWake (s : State) : s.purgeAfterWake.path = s.path := path_startWake s
@[simp] theorem arbiter_purgeAfterWake (s : State) : s.purgeAfterWake.arbiter = s.arbiter := arbiter_startWake s
@[simp] theorem agent_purgeAfterWake (s : State) : s.purgeAfterWake.agent = s.agent := agent_startWake s
@[simp] theorem slots_purgeAfterWake (s : State) : s.purgeAfterWake.slots = s.slots := slots_startWake s
@[simp] theorem contexts_purgeAfterWake (s : State) : s.purgeAfterWake.contexts = s.contexts := contexts_startWake s
@[simp] theorem load_purgeAfterWake (s : State) : s.purgeAfterWake.load = s.load := load_startWake s
@[simp] theorem engine_purgeAfterWake (s : State) : s.purgeAfterWake.engine = s.engine := engine_startWake s
@[simp] theorem reports_purgeAfterWake (s : State) : s.purgeAfterWake.reports = s.reports := reports_startWake s
@[simp] theorem control_purgeAfterWake (s : State) : s.purgeAfterWake.control = s.control := control_startWake s
@[simp] theorem setup_purgeAfterWake (s : State) : s.purgeAfterWake.setup = s.setup := setup_startWake s
@[simp] theorem mem_purgeAfterWake (s : State) : s.purgeAfterWake.mem = s.mem := mem_startWake s
@[simp] theorem fresh_purgeAfterWake (s : State) : s.purgeAfterWake.fresh = s.fresh := fresh_startWake s
@[simp] theorem pending_purgeAfterWake (s : State) : s.purgeAfterWake.pending = s.pending := pending_startWake s

@[simp] theorem controller_setOperation (o : Option Operation) (s : State) : (s.setOperation o).controller = s.controller := rfl
@[simp] theorem path_setOperation (o : Option Operation) (s : State) : (s.setOperation o).path = s.path := rfl
@[simp] theorem ports_setOperation (o : Option Operation) (s : State) : (s.setOperation o).ports = s.ports := rfl
@[simp] theorem arbiter_setOperation (o : Option Operation) (s : State) : (s.setOperation o).arbiter = s.arbiter := rfl
@[simp] theorem agent_setOperation (o : Option Operation) (s : State) : (s.setOperation o).agent = s.agent := rfl
@[simp] theorem slots_setOperation (o : Option Operation) (s : State) : (s.setOperation o).slots = s.slots := rfl
@[simp] theorem contexts_setOperation (o : Option Operation) (s : State) : (s.setOperation o).contexts = s.contexts := rfl
@[simp] theorem keys_setOperation (o : Option Operation) (s : State) : (s.setOperation o).keys = s.keys := rfl
@[simp] theorem load_setOperation (o : Option Operation) (s : State) : (s.setOperation o).load = s.load := rfl
@[simp] theorem reports_setOperation (o : Option Operation) (s : State) : (s.setOperation o).reports = s.reports := rfl
@[simp] theorem control_setOperation (o : Option Operation) (s : State) : (s.setOperation o).control = s.control := rfl
@[simp] theorem setup_setOperation (o : Option Operation) (s : State) : (s.setOperation o).setup = s.setup := rfl
@[simp] theorem mem_setOperation (o : Option Operation) (s : State) : (s.setOperation o).mem = s.mem := rfl
@[simp] theorem fresh_setOperation (o : Option Operation) (s : State) : (s.setOperation o).fresh = s.fresh := rfl
@[simp] theorem pending_setOperation (o : Option Operation) (s : State) : (s.setOperation o).pending = s.pending := rfl

@[simp] theorem controller_setWrite (w : WriteState) (s : State) : (s.setWrite w).controller = s.controller := rfl
@[simp] theorem path_setWrite (w : WriteState) (s : State) : (s.setWrite w).path = s.path := rfl
@[simp] theorem ports_setWrite (w : WriteState) (s : State) : (s.setWrite w).ports = s.ports := rfl
@[simp] theorem arbiter_setWrite (w : WriteState) (s : State) : (s.setWrite w).arbiter = s.arbiter := rfl
@[simp] theorem agent_setWrite (w : WriteState) (s : State) : (s.setWrite w).agent = s.agent := rfl
@[simp] theorem slots_setWrite (w : WriteState) (s : State) : (s.setWrite w).slots = s.slots := rfl
@[simp] theorem contexts_setWrite (w : WriteState) (s : State) : (s.setWrite w).contexts = s.contexts := rfl
@[simp] theorem keys_setWrite (w : WriteState) (s : State) : (s.setWrite w).keys = s.keys := rfl
@[simp] theorem load_setWrite (w : WriteState) (s : State) : (s.setWrite w).load = s.load := rfl
@[simp] theorem engine_setWrite (w : WriteState) (s : State) : (s.setWrite w).engine = s.engine := rfl
@[simp] theorem control_setWrite (w : WriteState) (s : State) : (s.setWrite w).control = s.control := rfl
@[simp] theorem setup_setWrite (w : WriteState) (s : State) : (s.setWrite w).setup = s.setup := rfl
@[simp] theorem mem_setWrite (w : WriteState) (s : State) : (s.setWrite w).mem = s.mem := rfl
@[simp] theorem fresh_setWrite (w : WriteState) (s : State) : (s.setWrite w).fresh = s.fresh := rfl
@[simp] theorem pending_setWrite (w : WriteState) (s : State) : (s.setWrite w).pending = s.pending := rfl

@[simp] theorem controller_setWaiting (l : List ReportHolder) (s : State) : (s.setWaiting l).controller = s.controller := rfl
@[simp] theorem path_setWaiting (l : List ReportHolder) (s : State) : (s.setWaiting l).path = s.path := rfl
@[simp] theorem ports_setWaiting (l : List ReportHolder) (s : State) : (s.setWaiting l).ports = s.ports := rfl
@[simp] theorem arbiter_setWaiting (l : List ReportHolder) (s : State) : (s.setWaiting l).arbiter = s.arbiter := rfl
@[simp] theorem agent_setWaiting (l : List ReportHolder) (s : State) : (s.setWaiting l).agent = s.agent := rfl
@[simp] theorem slots_setWaiting (l : List ReportHolder) (s : State) : (s.setWaiting l).slots = s.slots := rfl
@[simp] theorem contexts_setWaiting (l : List ReportHolder) (s : State) : (s.setWaiting l).contexts = s.contexts := rfl
@[simp] theorem keys_setWaiting (l : List ReportHolder) (s : State) : (s.setWaiting l).keys = s.keys := rfl
@[simp] theorem load_setWaiting (l : List ReportHolder) (s : State) : (s.setWaiting l).load = s.load := rfl
@[simp] theorem engine_setWaiting (l : List ReportHolder) (s : State) : (s.setWaiting l).engine = s.engine := rfl
@[simp] theorem control_setWaiting (l : List ReportHolder) (s : State) : (s.setWaiting l).control = s.control := rfl
@[simp] theorem setup_setWaiting (l : List ReportHolder) (s : State) : (s.setWaiting l).setup = s.setup := rfl
@[simp] theorem mem_setWaiting (l : List ReportHolder) (s : State) : (s.setWaiting l).mem = s.mem := rfl
@[simp] theorem fresh_setWaiting (l : List ReportHolder) (s : State) : (s.setWaiting l).fresh = s.fresh := rfl
@[simp] theorem pending_setWaiting (l : List ReportHolder) (s : State) : (s.setWaiting l).pending = s.pending := rfl

@[simp] theorem controller_setConsumer (i : Nat) (s : State) : (s.setConsumer i).controller = s.controller := rfl
@[simp] theorem path_setConsumer (i : Nat) (s : State) : (s.setConsumer i).path = s.path := rfl
@[simp] theorem ports_setConsumer (i : Nat) (s : State) : (s.setConsumer i).ports = s.ports := rfl
@[simp] theorem arbiter_setConsumer (i : Nat) (s : State) : (s.setConsumer i).arbiter = s.arbiter := rfl
@[simp] theorem agent_setConsumer (i : Nat) (s : State) : (s.setConsumer i).agent = s.agent := rfl
@[simp] theorem slots_setConsumer (i : Nat) (s : State) : (s.setConsumer i).slots = s.slots := rfl
@[simp] theorem contexts_setConsumer (i : Nat) (s : State) : (s.setConsumer i).contexts = s.contexts := rfl
@[simp] theorem keys_setConsumer (i : Nat) (s : State) : (s.setConsumer i).keys = s.keys := rfl
@[simp] theorem load_setConsumer (i : Nat) (s : State) : (s.setConsumer i).load = s.load := rfl
@[simp] theorem engine_setConsumer (i : Nat) (s : State) : (s.setConsumer i).engine = s.engine := rfl
@[simp] theorem control_setConsumer (i : Nat) (s : State) : (s.setConsumer i).control = s.control := rfl
@[simp] theorem setup_setConsumer (i : Nat) (s : State) : (s.setConsumer i).setup = s.setup := rfl
@[simp] theorem mem_setConsumer (i : Nat) (s : State) : (s.setConsumer i).mem = s.mem := rfl
@[simp] theorem fresh_setConsumer (i : Nat) (s : State) : (s.setConsumer i).fresh = s.fresh := rfl
@[simp] theorem pending_setConsumer (i : Nat) (s : State) : (s.setConsumer i).pending = s.pending := rfl

@[simp] theorem controller_advanceRing (s : State) : (s.advanceRing).controller = s.controller := rfl
@[simp] theorem path_advanceRing (s : State) : (s.advanceRing).path = s.path := rfl
@[simp] theorem ports_advanceRing (s : State) : (s.advanceRing).ports = s.ports := rfl
@[simp] theorem arbiter_advanceRing (s : State) : (s.advanceRing).arbiter = s.arbiter := rfl
@[simp] theorem agent_advanceRing (s : State) : (s.advanceRing).agent = s.agent := rfl
@[simp] theorem slots_advanceRing (s : State) : (s.advanceRing).slots = s.slots := rfl
@[simp] theorem contexts_advanceRing (s : State) : (s.advanceRing).contexts = s.contexts := rfl
@[simp] theorem keys_advanceRing (s : State) : (s.advanceRing).keys = s.keys := rfl
@[simp] theorem load_advanceRing (s : State) : (s.advanceRing).load = s.load := rfl
@[simp] theorem engine_advanceRing (s : State) : (s.advanceRing).engine = s.engine := rfl
@[simp] theorem control_advanceRing (s : State) : (s.advanceRing).control = s.control := rfl
@[simp] theorem setup_advanceRing (s : State) : (s.advanceRing).setup = s.setup := rfl
@[simp] theorem mem_advanceRing (s : State) : (s.advanceRing).mem = s.mem := rfl
@[simp] theorem fresh_advanceRing (s : State) : (s.advanceRing).fresh = s.fresh := rfl
@[simp] theorem pending_advanceRing (s : State) : (s.advanceRing).pending = s.pending := rfl

@[simp] theorem controller_setControl (x : Control) (s : State) : (s.setControl x).controller = s.controller := rfl
@[simp] theorem path_setControl (x : Control) (s : State) : (s.setControl x).path = s.path := rfl
@[simp] theorem ports_setControl (x : Control) (s : State) : (s.setControl x).ports = s.ports := rfl
@[simp] theorem arbiter_setControl (x : Control) (s : State) : (s.setControl x).arbiter = s.arbiter := rfl
@[simp] theorem agent_setControl (x : Control) (s : State) : (s.setControl x).agent = s.agent := rfl
@[simp] theorem slots_setControl (x : Control) (s : State) : (s.setControl x).slots = s.slots := rfl
@[simp] theorem contexts_setControl (x : Control) (s : State) : (s.setControl x).contexts = s.contexts := rfl
@[simp] theorem keys_setControl (x : Control) (s : State) : (s.setControl x).keys = s.keys := rfl
@[simp] theorem load_setControl (x : Control) (s : State) : (s.setControl x).load = s.load := rfl
@[simp] theorem engine_setControl (x : Control) (s : State) : (s.setControl x).engine = s.engine := rfl
@[simp] theorem reports_setControl (x : Control) (s : State) : (s.setControl x).reports = s.reports := rfl
@[simp] theorem setup_setControl (x : Control) (s : State) : (s.setControl x).setup = s.setup := rfl
@[simp] theorem mem_setControl (x : Control) (s : State) : (s.setControl x).mem = s.mem := rfl
@[simp] theorem fresh_setControl (x : Control) (s : State) : (s.setControl x).fresh = s.fresh := rfl
@[simp] theorem pending_setControl (x : Control) (s : State) : (s.setControl x).pending = s.pending := rfl

@[simp] theorem path_setSeconds (t : Word) (s : State) : (s.setSeconds t).path = s.path := rfl
@[simp] theorem ports_setSeconds (t : Word) (s : State) : (s.setSeconds t).ports = s.ports := rfl
@[simp] theorem arbiter_setSeconds (t : Word) (s : State) : (s.setSeconds t).arbiter = s.arbiter := rfl
@[simp] theorem agent_setSeconds (t : Word) (s : State) : (s.setSeconds t).agent = s.agent := rfl
@[simp] theorem slots_setSeconds (t : Word) (s : State) : (s.setSeconds t).slots = s.slots := rfl
@[simp] theorem contexts_setSeconds (t : Word) (s : State) : (s.setSeconds t).contexts = s.contexts := rfl
@[simp] theorem keys_setSeconds (t : Word) (s : State) : (s.setSeconds t).keys = s.keys := rfl
@[simp] theorem load_setSeconds (t : Word) (s : State) : (s.setSeconds t).load = s.load := rfl
@[simp] theorem engine_setSeconds (t : Word) (s : State) : (s.setSeconds t).engine = s.engine := rfl
@[simp] theorem reports_setSeconds (t : Word) (s : State) : (s.setSeconds t).reports = s.reports := rfl
@[simp] theorem control_setSeconds (t : Word) (s : State) : (s.setSeconds t).control = s.control := rfl
@[simp] theorem setup_setSeconds (t : Word) (s : State) : (s.setSeconds t).setup = s.setup := rfl
@[simp] theorem mem_setSeconds (t : Word) (s : State) : (s.setSeconds t).mem = s.mem := rfl
@[simp] theorem fresh_setSeconds (t : Word) (s : State) : (s.setSeconds t).fresh = s.fresh := rfl
@[simp] theorem pending_setSeconds (t : Word) (s : State) : (s.setSeconds t).pending = s.pending := rfl

@[simp] theorem controller_ageEntries (s : State) : (s.ageEntries).controller = s.controller := rfl
@[simp] theorem path_ageEntries (s : State) : (s.ageEntries).path = s.path := rfl
@[simp] theorem ports_ageEntries (s : State) : (s.ageEntries).ports = s.ports := rfl
@[simp] theorem arbiter_ageEntries (s : State) : (s.ageEntries).arbiter = s.arbiter := rfl
@[simp] theorem agent_ageEntries (s : State) : (s.ageEntries).agent = s.agent := rfl
@[simp] theorem slots_ageEntries (s : State) : (s.ageEntries).slots = s.slots := rfl
@[simp] theorem contexts_ageEntries (s : State) : (s.ageEntries).contexts = s.contexts := rfl
@[simp] theorem load_ageEntries (s : State) : (s.ageEntries).load = s.load := rfl
@[simp] theorem engine_ageEntries (s : State) : (s.ageEntries).engine = s.engine := rfl
@[simp] theorem reports_ageEntries (s : State) : (s.ageEntries).reports = s.reports := rfl
@[simp] theorem control_ageEntries (s : State) : (s.ageEntries).control = s.control := rfl
@[simp] theorem setup_ageEntries (s : State) : (s.ageEntries).setup = s.setup := rfl
@[simp] theorem mem_ageEntries (s : State) : (s.ageEntries).mem = s.mem := rfl
@[simp] theorem fresh_ageEntries (s : State) : (s.ageEntries).fresh = s.fresh := rfl
@[simp] theorem pending_ageEntries (s : State) : (s.ageEntries).pending = s.pending := rfl

@[simp] theorem controller_freePort (s : State) : (s.freePort).controller = s.controller := rfl
@[simp] theorem path_freePort (s : State) : (s.freePort).path = s.path := rfl
@[simp] theorem ports_freePort (s : State) : (s.freePort).ports = s.ports := rfl
@[simp] theorem agent_freePort (s : State) : (s.freePort).agent = s.agent := rfl
@[simp] theorem slots_freePort (s : State) : (s.freePort).slots = s.slots := rfl
@[simp] theorem contexts_freePort (s : State) : (s.freePort).contexts = s.contexts := rfl
@[simp] theorem keys_freePort (s : State) : (s.freePort).keys = s.keys := rfl
@[simp] theorem load_freePort (s : State) : (s.freePort).load = s.load := rfl
@[simp] theorem engine_freePort (s : State) : (s.freePort).engine = s.engine := rfl
@[simp] theorem reports_freePort (s : State) : (s.freePort).reports = s.reports := rfl
@[simp] theorem control_freePort (s : State) : (s.freePort).control = s.control := rfl
@[simp] theorem setup_freePort (s : State) : (s.freePort).setup = s.setup := rfl
@[simp] theorem mem_freePort (s : State) : (s.freePort).mem = s.mem := rfl
@[simp] theorem fresh_freePort (s : State) : (s.freePort).fresh = s.fresh := rfl
@[simp] theorem pending_freePort (s : State) : (s.freePort).pending = s.pending := rfl

@[simp] theorem controller_store (word : BitVec 20) (size : Size) (data : Word) (s : State) : (s.store word size data).controller = s.controller := rfl
@[simp] theorem path_store (word : BitVec 20) (size : Size) (data : Word) (s : State) : (s.store word size data).path = s.path := rfl
@[simp] theorem ports_store (word : BitVec 20) (size : Size) (data : Word) (s : State) : (s.store word size data).ports = s.ports := rfl
@[simp] theorem arbiter_store (word : BitVec 20) (size : Size) (data : Word) (s : State) : (s.store word size data).arbiter = s.arbiter := rfl
@[simp] theorem agent_store (word : BitVec 20) (size : Size) (data : Word) (s : State) : (s.store word size data).agent = s.agent := rfl
@[simp] theorem slots_store (word : BitVec 20) (size : Size) (data : Word) (s : State) : (s.store word size data).slots = s.slots := rfl
@[simp] theorem contexts_store (word : BitVec 20) (size : Size) (data : Word) (s : State) : (s.store word size data).contexts = s.contexts := rfl
@[simp] theorem keys_store (word : BitVec 20) (size : Size) (data : Word) (s : State) : (s.store word size data).keys = s.keys := rfl
@[simp] theorem load_store (word : BitVec 20) (size : Size) (data : Word) (s : State) : (s.store word size data).load = s.load := rfl
@[simp] theorem engine_store (word : BitVec 20) (size : Size) (data : Word) (s : State) : (s.store word size data).engine = s.engine := rfl
@[simp] theorem reports_store (word : BitVec 20) (size : Size) (data : Word) (s : State) : (s.store word size data).reports = s.reports := rfl
@[simp] theorem control_store (word : BitVec 20) (size : Size) (data : Word) (s : State) : (s.store word size data).control = s.control := rfl
@[simp] theorem setup_store (word : BitVec 20) (size : Size) (data : Word) (s : State) : (s.store word size data).setup = s.setup := rfl
@[simp] theorem fresh_store (word : BitVec 20) (size : Size) (data : Word) (s : State) : (s.store word size data).fresh = s.fresh := rfl
@[simp] theorem pending_store (word : BitVec 20) (size : Size) (data : Word) (s : State) : (s.store word size data).pending = s.pending := rfl

@[simp] theorem controller_purgeKeys (s : State) : (s.purgeKeys).controller = s.controller := rfl
@[simp] theorem path_purgeKeys (s : State) : (s.purgeKeys).path = s.path := rfl
@[simp] theorem ports_purgeKeys (s : State) : (s.purgeKeys).ports = s.ports := rfl
@[simp] theorem arbiter_purgeKeys (s : State) : (s.purgeKeys).arbiter = s.arbiter := rfl
@[simp] theorem agent_purgeKeys (s : State) : (s.purgeKeys).agent = s.agent := rfl
@[simp] theorem slots_purgeKeys (s : State) : (s.purgeKeys).slots = s.slots := rfl
@[simp] theorem contexts_purgeKeys (s : State) : (s.purgeKeys).contexts = s.contexts := rfl
@[simp] theorem load_purgeKeys (s : State) : (s.purgeKeys).load = s.load := rfl
@[simp] theorem engine_purgeKeys (s : State) : (s.purgeKeys).engine = s.engine := rfl
@[simp] theorem reports_purgeKeys (s : State) : (s.purgeKeys).reports = s.reports := rfl
@[simp] theorem control_purgeKeys (s : State) : (s.purgeKeys).control = s.control := rfl
@[simp] theorem setup_purgeKeys (s : State) : (s.purgeKeys).setup = s.setup := rfl
@[simp] theorem mem_purgeKeys (s : State) : (s.purgeKeys).mem = s.mem := rfl
@[simp] theorem fresh_purgeKeys (s : State) : (s.purgeKeys).fresh = s.fresh := rfl
@[simp] theorem pending_purgeKeys (s : State) : (s.purgeKeys).pending = s.pending := rfl

@[simp] theorem path_markOrigin (s : State) : (s.markOrigin).path = s.path := rfl
@[simp] theorem ports_markOrigin (s : State) : (s.markOrigin).ports = s.ports := rfl
@[simp] theorem arbiter_markOrigin (s : State) : (s.markOrigin).arbiter = s.arbiter := rfl
@[simp] theorem agent_markOrigin (s : State) : (s.markOrigin).agent = s.agent := rfl
@[simp] theorem slots_markOrigin (s : State) : (s.markOrigin).slots = s.slots := rfl
@[simp] theorem contexts_markOrigin (s : State) : (s.markOrigin).contexts = s.contexts := rfl
@[simp] theorem keys_markOrigin (s : State) : (s.markOrigin).keys = s.keys := rfl
@[simp] theorem load_markOrigin (s : State) : (s.markOrigin).load = s.load := rfl
@[simp] theorem engine_markOrigin (s : State) : (s.markOrigin).engine = s.engine := rfl
@[simp] theorem reports_markOrigin (s : State) : (s.markOrigin).reports = s.reports := rfl
@[simp] theorem control_markOrigin (s : State) : (s.markOrigin).control = s.control := rfl
@[simp] theorem setup_markOrigin (s : State) : (s.markOrigin).setup = s.setup := rfl
@[simp] theorem mem_markOrigin (s : State) : (s.markOrigin).mem = s.mem := rfl
@[simp] theorem fresh_markOrigin (s : State) : (s.markOrigin).fresh = s.fresh := rfl
@[simp] theorem pending_markOrigin (s : State) : (s.markOrigin).pending = s.pending := rfl

@[simp] theorem controller_dropLoad (s : State) : (s.dropLoad).controller = s.controller := rfl
@[simp] theorem path_dropLoad (s : State) : (s.dropLoad).path = s.path := rfl
@[simp] theorem ports_dropLoad (s : State) : (s.dropLoad).ports = s.ports := rfl
@[simp] theorem arbiter_dropLoad (s : State) : (s.dropLoad).arbiter = s.arbiter := rfl
@[simp] theorem agent_dropLoad (s : State) : (s.dropLoad).agent = s.agent := rfl
@[simp] theorem slots_dropLoad (s : State) : (s.dropLoad).slots = s.slots := rfl
@[simp] theorem contexts_dropLoad (s : State) : (s.dropLoad).contexts = s.contexts := rfl
@[simp] theorem keys_dropLoad (s : State) : (s.dropLoad).keys = s.keys := rfl
@[simp] theorem engine_dropLoad (s : State) : (s.dropLoad).engine = s.engine := rfl
@[simp] theorem reports_dropLoad (s : State) : (s.dropLoad).reports = s.reports := rfl
@[simp] theorem control_dropLoad (s : State) : (s.dropLoad).control = s.control := rfl
@[simp] theorem setup_dropLoad (s : State) : (s.dropLoad).setup = s.setup := rfl
@[simp] theorem mem_dropLoad (s : State) : (s.dropLoad).mem = s.mem := rfl
@[simp] theorem fresh_dropLoad (s : State) : (s.dropLoad).fresh = s.fresh := rfl
@[simp] theorem pending_dropLoad (s : State) : (s.dropLoad).pending = s.pending := rfl

@[simp] theorem controller_unwatchPorts (s : State) : (s.unwatchPorts).controller = s.controller := rfl
@[simp] theorem path_unwatchPorts (s : State) : (s.unwatchPorts).path = s.path := rfl
@[simp] theorem agent_unwatchPorts (s : State) : (s.unwatchPorts).agent = s.agent := rfl
@[simp] theorem slots_unwatchPorts (s : State) : (s.unwatchPorts).slots = s.slots := rfl
@[simp] theorem contexts_unwatchPorts (s : State) : (s.unwatchPorts).contexts = s.contexts := rfl
@[simp] theorem keys_unwatchPorts (s : State) : (s.unwatchPorts).keys = s.keys := rfl
@[simp] theorem load_unwatchPorts (s : State) : (s.unwatchPorts).load = s.load := rfl
@[simp] theorem engine_unwatchPorts (s : State) : (s.unwatchPorts).engine = s.engine := rfl
@[simp] theorem reports_unwatchPorts (s : State) : (s.unwatchPorts).reports = s.reports := rfl
@[simp] theorem control_unwatchPorts (s : State) : (s.unwatchPorts).control = s.control := rfl
@[simp] theorem setup_unwatchPorts (s : State) : (s.unwatchPorts).setup = s.setup := rfl
@[simp] theorem mem_unwatchPorts (s : State) : (s.unwatchPorts).mem = s.mem := rfl
@[simp] theorem fresh_unwatchPorts (s : State) : (s.unwatchPorts).fresh = s.fresh := rfl
@[simp] theorem pending_unwatchPorts (s : State) : (s.unwatchPorts).pending = s.pending := rfl

@[simp] theorem controller_setContext (c : Fin 24) (x : Option Context) (s : State) : (s.setContext c x).controller = s.controller := rfl
@[simp] theorem path_setContext (c : Fin 24) (x : Option Context) (s : State) : (s.setContext c x).path = s.path := rfl
@[simp] theorem ports_setContext (c : Fin 24) (x : Option Context) (s : State) : (s.setContext c x).ports = s.ports := rfl
@[simp] theorem arbiter_setContext (c : Fin 24) (x : Option Context) (s : State) : (s.setContext c x).arbiter = s.arbiter := rfl
@[simp] theorem agent_setContext (c : Fin 24) (x : Option Context) (s : State) : (s.setContext c x).agent = s.agent := rfl
@[simp] theorem slots_setContext (c : Fin 24) (x : Option Context) (s : State) : (s.setContext c x).slots = s.slots := rfl
@[simp] theorem keys_setContext (c : Fin 24) (x : Option Context) (s : State) : (s.setContext c x).keys = s.keys := rfl
@[simp] theorem load_setContext (c : Fin 24) (x : Option Context) (s : State) : (s.setContext c x).load = s.load := rfl
@[simp] theorem engine_setContext (c : Fin 24) (x : Option Context) (s : State) : (s.setContext c x).engine = s.engine := rfl
@[simp] theorem reports_setContext (c : Fin 24) (x : Option Context) (s : State) : (s.setContext c x).reports = s.reports := rfl
@[simp] theorem control_setContext (c : Fin 24) (x : Option Context) (s : State) : (s.setContext c x).control = s.control := rfl
@[simp] theorem setup_setContext (c : Fin 24) (x : Option Context) (s : State) : (s.setContext c x).setup = s.setup := rfl
@[simp] theorem mem_setContext (c : Fin 24) (x : Option Context) (s : State) : (s.setContext c x).mem = s.mem := rfl
@[simp] theorem fresh_setContext (c : Fin 24) (x : Option Context) (s : State) : (s.setContext c x).fresh = s.fresh := rfl
@[simp] theorem pending_setContext (c : Fin 24) (x : Option Context) (s : State) : (s.setContext c x).pending = s.pending := rfl

@[simp] theorem controller_modifyContext (c : Fin 24) (f : Context → Context) (s : State) : (s.modifyContext c f).controller = s.controller := rfl
@[simp] theorem path_modifyContext (c : Fin 24) (f : Context → Context) (s : State) : (s.modifyContext c f).path = s.path := rfl
@[simp] theorem ports_modifyContext (c : Fin 24) (f : Context → Context) (s : State) : (s.modifyContext c f).ports = s.ports := rfl
@[simp] theorem arbiter_modifyContext (c : Fin 24) (f : Context → Context) (s : State) : (s.modifyContext c f).arbiter = s.arbiter := rfl
@[simp] theorem agent_modifyContext (c : Fin 24) (f : Context → Context) (s : State) : (s.modifyContext c f).agent = s.agent := rfl
@[simp] theorem slots_modifyContext (c : Fin 24) (f : Context → Context) (s : State) : (s.modifyContext c f).slots = s.slots := rfl
@[simp] theorem keys_modifyContext (c : Fin 24) (f : Context → Context) (s : State) : (s.modifyContext c f).keys = s.keys := rfl
@[simp] theorem load_modifyContext (c : Fin 24) (f : Context → Context) (s : State) : (s.modifyContext c f).load = s.load := rfl
@[simp] theorem engine_modifyContext (c : Fin 24) (f : Context → Context) (s : State) : (s.modifyContext c f).engine = s.engine := rfl
@[simp] theorem reports_modifyContext (c : Fin 24) (f : Context → Context) (s : State) : (s.modifyContext c f).reports = s.reports := rfl
@[simp] theorem control_modifyContext (c : Fin 24) (f : Context → Context) (s : State) : (s.modifyContext c f).control = s.control := rfl
@[simp] theorem setup_modifyContext (c : Fin 24) (f : Context → Context) (s : State) : (s.modifyContext c f).setup = s.setup := rfl
@[simp] theorem mem_modifyContext (c : Fin 24) (f : Context → Context) (s : State) : (s.modifyContext c f).mem = s.mem := rfl
@[simp] theorem fresh_modifyContext (c : Fin 24) (f : Context → Context) (s : State) : (s.modifyContext c f).fresh = s.fresh := rfl
@[simp] theorem pending_modifyContext (c : Fin 24) (f : Context → Context) (s : State) : (s.modifyContext c f).pending = s.pending := rfl

@[simp] theorem controller_mapContexts (f : Context → Context) (s : State) : (s.mapContexts f).controller = s.controller := rfl
@[simp] theorem path_mapContexts (f : Context → Context) (s : State) : (s.mapContexts f).path = s.path := rfl
@[simp] theorem ports_mapContexts (f : Context → Context) (s : State) : (s.mapContexts f).ports = s.ports := rfl
@[simp] theorem arbiter_mapContexts (f : Context → Context) (s : State) : (s.mapContexts f).arbiter = s.arbiter := rfl
@[simp] theorem agent_mapContexts (f : Context → Context) (s : State) : (s.mapContexts f).agent = s.agent := rfl
@[simp] theorem slots_mapContexts (f : Context → Context) (s : State) : (s.mapContexts f).slots = s.slots := rfl
@[simp] theorem keys_mapContexts (f : Context → Context) (s : State) : (s.mapContexts f).keys = s.keys := rfl
@[simp] theorem load_mapContexts (f : Context → Context) (s : State) : (s.mapContexts f).load = s.load := rfl
@[simp] theorem engine_mapContexts (f : Context → Context) (s : State) : (s.mapContexts f).engine = s.engine := rfl
@[simp] theorem reports_mapContexts (f : Context → Context) (s : State) : (s.mapContexts f).reports = s.reports := rfl
@[simp] theorem control_mapContexts (f : Context → Context) (s : State) : (s.mapContexts f).control = s.control := rfl
@[simp] theorem setup_mapContexts (f : Context → Context) (s : State) : (s.mapContexts f).setup = s.setup := rfl
@[simp] theorem mem_mapContexts (f : Context → Context) (s : State) : (s.mapContexts f).mem = s.mem := rfl
@[simp] theorem fresh_mapContexts (f : Context → Context) (s : State) : (s.mapContexts f).fresh = s.fresh := rfl
@[simp] theorem pending_mapContexts (f : Context → Context) (s : State) : (s.mapContexts f).pending = s.pending := rfl

@[simp] theorem controller_setEntry (k : Fin 48) (e : KeyEntry) (s : State) : (s.setEntry k e).controller = s.controller := rfl
@[simp] theorem path_setEntry (k : Fin 48) (e : KeyEntry) (s : State) : (s.setEntry k e).path = s.path := rfl
@[simp] theorem ports_setEntry (k : Fin 48) (e : KeyEntry) (s : State) : (s.setEntry k e).ports = s.ports := rfl
@[simp] theorem arbiter_setEntry (k : Fin 48) (e : KeyEntry) (s : State) : (s.setEntry k e).arbiter = s.arbiter := rfl
@[simp] theorem agent_setEntry (k : Fin 48) (e : KeyEntry) (s : State) : (s.setEntry k e).agent = s.agent := rfl
@[simp] theorem slots_setEntry (k : Fin 48) (e : KeyEntry) (s : State) : (s.setEntry k e).slots = s.slots := rfl
@[simp] theorem contexts_setEntry (k : Fin 48) (e : KeyEntry) (s : State) : (s.setEntry k e).contexts = s.contexts := rfl
@[simp] theorem load_setEntry (k : Fin 48) (e : KeyEntry) (s : State) : (s.setEntry k e).load = s.load := rfl
@[simp] theorem engine_setEntry (k : Fin 48) (e : KeyEntry) (s : State) : (s.setEntry k e).engine = s.engine := rfl
@[simp] theorem reports_setEntry (k : Fin 48) (e : KeyEntry) (s : State) : (s.setEntry k e).reports = s.reports := rfl
@[simp] theorem control_setEntry (k : Fin 48) (e : KeyEntry) (s : State) : (s.setEntry k e).control = s.control := rfl
@[simp] theorem setup_setEntry (k : Fin 48) (e : KeyEntry) (s : State) : (s.setEntry k e).setup = s.setup := rfl
@[simp] theorem mem_setEntry (k : Fin 48) (e : KeyEntry) (s : State) : (s.setEntry k e).mem = s.mem := rfl
@[simp] theorem fresh_setEntry (k : Fin 48) (e : KeyEntry) (s : State) : (s.setEntry k e).fresh = s.fresh := rfl
@[simp] theorem pending_setEntry (k : Fin 48) (e : KeyEntry) (s : State) : (s.setEntry k e).pending = s.pending := rfl

@[simp] theorem controller_addReference (k : Fin 48) (s : State) : (s.addReference k).controller = s.controller := rfl
@[simp] theorem path_addReference (k : Fin 48) (s : State) : (s.addReference k).path = s.path := rfl
@[simp] theorem ports_addReference (k : Fin 48) (s : State) : (s.addReference k).ports = s.ports := rfl
@[simp] theorem arbiter_addReference (k : Fin 48) (s : State) : (s.addReference k).arbiter = s.arbiter := rfl
@[simp] theorem agent_addReference (k : Fin 48) (s : State) : (s.addReference k).agent = s.agent := rfl
@[simp] theorem slots_addReference (k : Fin 48) (s : State) : (s.addReference k).slots = s.slots := rfl
@[simp] theorem contexts_addReference (k : Fin 48) (s : State) : (s.addReference k).contexts = s.contexts := rfl
@[simp] theorem load_addReference (k : Fin 48) (s : State) : (s.addReference k).load = s.load := rfl
@[simp] theorem engine_addReference (k : Fin 48) (s : State) : (s.addReference k).engine = s.engine := rfl
@[simp] theorem reports_addReference (k : Fin 48) (s : State) : (s.addReference k).reports = s.reports := rfl
@[simp] theorem control_addReference (k : Fin 48) (s : State) : (s.addReference k).control = s.control := rfl
@[simp] theorem setup_addReference (k : Fin 48) (s : State) : (s.addReference k).setup = s.setup := rfl
@[simp] theorem mem_addReference (k : Fin 48) (s : State) : (s.addReference k).mem = s.mem := rfl
@[simp] theorem fresh_addReference (k : Fin 48) (s : State) : (s.addReference k).fresh = s.fresh := rfl
@[simp] theorem pending_addReference (k : Fin 48) (s : State) : (s.addReference k).pending = s.pending := rfl

@[simp] theorem controller_releaseReference (k : Fin 48) (s : State) : (s.releaseReference k).controller = s.controller := rfl
@[simp] theorem path_releaseReference (k : Fin 48) (s : State) : (s.releaseReference k).path = s.path := rfl
@[simp] theorem ports_releaseReference (k : Fin 48) (s : State) : (s.releaseReference k).ports = s.ports := rfl
@[simp] theorem arbiter_releaseReference (k : Fin 48) (s : State) : (s.releaseReference k).arbiter = s.arbiter := rfl
@[simp] theorem agent_releaseReference (k : Fin 48) (s : State) : (s.releaseReference k).agent = s.agent := rfl
@[simp] theorem slots_releaseReference (k : Fin 48) (s : State) : (s.releaseReference k).slots = s.slots := rfl
@[simp] theorem contexts_releaseReference (k : Fin 48) (s : State) : (s.releaseReference k).contexts = s.contexts := rfl
@[simp] theorem load_releaseReference (k : Fin 48) (s : State) : (s.releaseReference k).load = s.load := rfl
@[simp] theorem engine_releaseReference (k : Fin 48) (s : State) : (s.releaseReference k).engine = s.engine := rfl
@[simp] theorem reports_releaseReference (k : Fin 48) (s : State) : (s.releaseReference k).reports = s.reports := rfl
@[simp] theorem control_releaseReference (k : Fin 48) (s : State) : (s.releaseReference k).control = s.control := rfl
@[simp] theorem setup_releaseReference (k : Fin 48) (s : State) : (s.releaseReference k).setup = s.setup := rfl
@[simp] theorem mem_releaseReference (k : Fin 48) (s : State) : (s.releaseReference k).mem = s.mem := rfl
@[simp] theorem fresh_releaseReference (k : Fin 48) (s : State) : (s.releaseReference k).fresh = s.fresh := rfl
@[simp] theorem pending_releaseReference (k : Fin 48) (s : State) : (s.releaseReference k).pending = s.pending := rfl

@[simp] theorem controller_dropReferences (s : State) : (s.dropReferences).controller = s.controller := rfl
@[simp] theorem path_dropReferences (s : State) : (s.dropReferences).path = s.path := rfl
@[simp] theorem ports_dropReferences (s : State) : (s.dropReferences).ports = s.ports := rfl
@[simp] theorem arbiter_dropReferences (s : State) : (s.dropReferences).arbiter = s.arbiter := rfl
@[simp] theorem agent_dropReferences (s : State) : (s.dropReferences).agent = s.agent := rfl
@[simp] theorem slots_dropReferences (s : State) : (s.dropReferences).slots = s.slots := rfl
@[simp] theorem contexts_dropReferences (s : State) : (s.dropReferences).contexts = s.contexts := rfl
@[simp] theorem load_dropReferences (s : State) : (s.dropReferences).load = s.load := rfl
@[simp] theorem engine_dropReferences (s : State) : (s.dropReferences).engine = s.engine := rfl
@[simp] theorem reports_dropReferences (s : State) : (s.dropReferences).reports = s.reports := rfl
@[simp] theorem control_dropReferences (s : State) : (s.dropReferences).control = s.control := rfl
@[simp] theorem setup_dropReferences (s : State) : (s.dropReferences).setup = s.setup := rfl
@[simp] theorem mem_dropReferences (s : State) : (s.dropReferences).mem = s.mem := rfl
@[simp] theorem fresh_dropReferences (s : State) : (s.dropReferences).fresh = s.fresh := rfl
@[simp] theorem pending_dropReferences (s : State) : (s.dropReferences).pending = s.pending := rfl

@[simp] theorem controller_joinReady (h : Holder) (s : State) : (s.joinReady h).controller = s.controller := rfl
@[simp] theorem path_joinReady (h : Holder) (s : State) : (s.joinReady h).path = s.path := rfl
@[simp] theorem ports_joinReady (h : Holder) (s : State) : (s.joinReady h).ports = s.ports := rfl
@[simp] theorem arbiter_joinReady (h : Holder) (s : State) : (s.joinReady h).arbiter = s.arbiter := rfl
@[simp] theorem agent_joinReady (h : Holder) (s : State) : (s.joinReady h).agent = s.agent := rfl
@[simp] theorem slots_joinReady (h : Holder) (s : State) : (s.joinReady h).slots = s.slots := rfl
@[simp] theorem contexts_joinReady (h : Holder) (s : State) : (s.joinReady h).contexts = s.contexts := rfl
@[simp] theorem keys_joinReady (h : Holder) (s : State) : (s.joinReady h).keys = s.keys := rfl
@[simp] theorem load_joinReady (h : Holder) (s : State) : (s.joinReady h).load = s.load := rfl
@[simp] theorem reports_joinReady (h : Holder) (s : State) : (s.joinReady h).reports = s.reports := rfl
@[simp] theorem control_joinReady (h : Holder) (s : State) : (s.joinReady h).control = s.control := rfl
@[simp] theorem setup_joinReady (h : Holder) (s : State) : (s.joinReady h).setup = s.setup := rfl
@[simp] theorem mem_joinReady (h : Holder) (s : State) : (s.joinReady h).mem = s.mem := rfl
@[simp] theorem fresh_joinReady (h : Holder) (s : State) : (s.joinReady h).fresh = s.fresh := rfl
@[simp] theorem pending_joinReady (h : Holder) (s : State) : (s.joinReady h).pending = s.pending := rfl

@[simp] theorem controller_leaveReady (h : Holder) (s : State) : (s.leaveReady h).controller = s.controller := rfl
@[simp] theorem path_leaveReady (h : Holder) (s : State) : (s.leaveReady h).path = s.path := rfl
@[simp] theorem ports_leaveReady (h : Holder) (s : State) : (s.leaveReady h).ports = s.ports := rfl
@[simp] theorem arbiter_leaveReady (h : Holder) (s : State) : (s.leaveReady h).arbiter = s.arbiter := rfl
@[simp] theorem agent_leaveReady (h : Holder) (s : State) : (s.leaveReady h).agent = s.agent := rfl
@[simp] theorem slots_leaveReady (h : Holder) (s : State) : (s.leaveReady h).slots = s.slots := rfl
@[simp] theorem contexts_leaveReady (h : Holder) (s : State) : (s.leaveReady h).contexts = s.contexts := rfl
@[simp] theorem keys_leaveReady (h : Holder) (s : State) : (s.leaveReady h).keys = s.keys := rfl
@[simp] theorem load_leaveReady (h : Holder) (s : State) : (s.leaveReady h).load = s.load := rfl
@[simp] theorem reports_leaveReady (h : Holder) (s : State) : (s.leaveReady h).reports = s.reports := rfl
@[simp] theorem control_leaveReady (h : Holder) (s : State) : (s.leaveReady h).control = s.control := rfl
@[simp] theorem setup_leaveReady (h : Holder) (s : State) : (s.leaveReady h).setup = s.setup := rfl
@[simp] theorem mem_leaveReady (h : Holder) (s : State) : (s.leaveReady h).mem = s.mem := rfl
@[simp] theorem fresh_leaveReady (h : Holder) (s : State) : (s.leaveReady h).fresh = s.fresh := rfl
@[simp] theorem pending_leaveReady (h : Holder) (s : State) : (s.leaveReady h).pending = s.pending := rfl

@[simp] theorem controller_cutEngine (s : State) : (s.cutEngine).controller = s.controller := rfl
@[simp] theorem path_cutEngine (s : State) : (s.cutEngine).path = s.path := rfl
@[simp] theorem ports_cutEngine (s : State) : (s.cutEngine).ports = s.ports := rfl
@[simp] theorem arbiter_cutEngine (s : State) : (s.cutEngine).arbiter = s.arbiter := rfl
@[simp] theorem agent_cutEngine (s : State) : (s.cutEngine).agent = s.agent := rfl
@[simp] theorem slots_cutEngine (s : State) : (s.cutEngine).slots = s.slots := rfl
@[simp] theorem contexts_cutEngine (s : State) : (s.cutEngine).contexts = s.contexts := rfl
@[simp] theorem keys_cutEngine (s : State) : (s.cutEngine).keys = s.keys := rfl
@[simp] theorem load_cutEngine (s : State) : (s.cutEngine).load = s.load := rfl
@[simp] theorem reports_cutEngine (s : State) : (s.cutEngine).reports = s.reports := rfl
@[simp] theorem control_cutEngine (s : State) : (s.cutEngine).control = s.control := rfl
@[simp] theorem setup_cutEngine (s : State) : (s.cutEngine).setup = s.setup := rfl
@[simp] theorem mem_cutEngine (s : State) : (s.cutEngine).mem = s.mem := rfl
@[simp] theorem fresh_cutEngine (s : State) : (s.cutEngine).fresh = s.fresh := rfl
@[simp] theorem pending_cutEngine (s : State) : (s.cutEngine).pending = s.pending := rfl

@[simp] theorem controller_joinReports (h : ReportHolder) (s : State) : (s.joinReports h).controller = s.controller := rfl
@[simp] theorem path_joinReports (h : ReportHolder) (s : State) : (s.joinReports h).path = s.path := rfl
@[simp] theorem ports_joinReports (h : ReportHolder) (s : State) : (s.joinReports h).ports = s.ports := rfl
@[simp] theorem arbiter_joinReports (h : ReportHolder) (s : State) : (s.joinReports h).arbiter = s.arbiter := rfl
@[simp] theorem agent_joinReports (h : ReportHolder) (s : State) : (s.joinReports h).agent = s.agent := rfl
@[simp] theorem slots_joinReports (h : ReportHolder) (s : State) : (s.joinReports h).slots = s.slots := rfl
@[simp] theorem contexts_joinReports (h : ReportHolder) (s : State) : (s.joinReports h).contexts = s.contexts := rfl
@[simp] theorem keys_joinReports (h : ReportHolder) (s : State) : (s.joinReports h).keys = s.keys := rfl
@[simp] theorem load_joinReports (h : ReportHolder) (s : State) : (s.joinReports h).load = s.load := rfl
@[simp] theorem engine_joinReports (h : ReportHolder) (s : State) : (s.joinReports h).engine = s.engine := rfl
@[simp] theorem control_joinReports (h : ReportHolder) (s : State) : (s.joinReports h).control = s.control := rfl
@[simp] theorem setup_joinReports (h : ReportHolder) (s : State) : (s.joinReports h).setup = s.setup := rfl
@[simp] theorem mem_joinReports (h : ReportHolder) (s : State) : (s.joinReports h).mem = s.mem := rfl
@[simp] theorem fresh_joinReports (h : ReportHolder) (s : State) : (s.joinReports h).fresh = s.fresh := rfl
@[simp] theorem pending_joinReports (h : ReportHolder) (s : State) : (s.joinReports h).pending = s.pending := rfl

@[simp] theorem controller_clearReports (s : State) : (s.clearReports).controller = s.controller := rfl
@[simp] theorem path_clearReports (s : State) : (s.clearReports).path = s.path := rfl
@[simp] theorem ports_clearReports (s : State) : (s.clearReports).ports = s.ports := rfl
@[simp] theorem arbiter_clearReports (s : State) : (s.clearReports).arbiter = s.arbiter := rfl
@[simp] theorem agent_clearReports (s : State) : (s.clearReports).agent = s.agent := rfl
@[simp] theorem slots_clearReports (s : State) : (s.clearReports).slots = s.slots := rfl
@[simp] theorem contexts_clearReports (s : State) : (s.clearReports).contexts = s.contexts := rfl
@[simp] theorem keys_clearReports (s : State) : (s.clearReports).keys = s.keys := rfl
@[simp] theorem load_clearReports (s : State) : (s.clearReports).load = s.load := rfl
@[simp] theorem engine_clearReports (s : State) : (s.clearReports).engine = s.engine := rfl
@[simp] theorem control_clearReports (s : State) : (s.clearReports).control = s.control := rfl
@[simp] theorem setup_clearReports (s : State) : (s.clearReports).setup = s.setup := rfl
@[simp] theorem mem_clearReports (s : State) : (s.clearReports).mem = s.mem := rfl
@[simp] theorem fresh_clearReports (s : State) : (s.clearReports).fresh = s.fresh := rfl
@[simp] theorem pending_clearReports (s : State) : (s.clearReports).pending = s.pending := rfl

@[simp] theorem controller_queueJob (j : Job) (s : State) : (s.queueJob j).controller = s.controller := rfl
@[simp] theorem path_queueJob (j : Job) (s : State) : (s.queueJob j).path = s.path := rfl
@[simp] theorem ports_queueJob (j : Job) (s : State) : (s.queueJob j).ports = s.ports := rfl
@[simp] theorem arbiter_queueJob (j : Job) (s : State) : (s.queueJob j).arbiter = s.arbiter := rfl
@[simp] theorem slots_queueJob (j : Job) (s : State) : (s.queueJob j).slots = s.slots := rfl
@[simp] theorem contexts_queueJob (j : Job) (s : State) : (s.queueJob j).contexts = s.contexts := rfl
@[simp] theorem keys_queueJob (j : Job) (s : State) : (s.queueJob j).keys = s.keys := rfl
@[simp] theorem load_queueJob (j : Job) (s : State) : (s.queueJob j).load = s.load := rfl
@[simp] theorem engine_queueJob (j : Job) (s : State) : (s.queueJob j).engine = s.engine := rfl
@[simp] theorem reports_queueJob (j : Job) (s : State) : (s.queueJob j).reports = s.reports := rfl
@[simp] theorem control_queueJob (j : Job) (s : State) : (s.queueJob j).control = s.control := rfl
@[simp] theorem setup_queueJob (j : Job) (s : State) : (s.queueJob j).setup = s.setup := rfl
@[simp] theorem mem_queueJob (j : Job) (s : State) : (s.queueJob j).mem = s.mem := rfl
@[simp] theorem fresh_queueJob (j : Job) (s : State) : (s.queueJob j).fresh = s.fresh := rfl
@[simp] theorem pending_queueJob (j : Job) (s : State) : (s.queueJob j).pending = s.pending := rfl

@[simp] theorem controller_result (code : BitVec 8) (o : CommandOutcome) (detail : BitVec 8) (s : State) : (s.result code o detail).controller = s.controller := rfl
@[simp] theorem path_result (code : BitVec 8) (o : CommandOutcome) (detail : BitVec 8) (s : State) : (s.result code o detail).path = s.path := rfl
@[simp] theorem ports_result (code : BitVec 8) (o : CommandOutcome) (detail : BitVec 8) (s : State) : (s.result code o detail).ports = s.ports := rfl
@[simp] theorem arbiter_result (code : BitVec 8) (o : CommandOutcome) (detail : BitVec 8) (s : State) : (s.result code o detail).arbiter = s.arbiter := rfl
@[simp] theorem agent_result (code : BitVec 8) (o : CommandOutcome) (detail : BitVec 8) (s : State) : (s.result code o detail).agent = s.agent := rfl
@[simp] theorem slots_result (code : BitVec 8) (o : CommandOutcome) (detail : BitVec 8) (s : State) : (s.result code o detail).slots = s.slots := rfl
@[simp] theorem contexts_result (code : BitVec 8) (o : CommandOutcome) (detail : BitVec 8) (s : State) : (s.result code o detail).contexts = s.contexts := rfl
@[simp] theorem keys_result (code : BitVec 8) (o : CommandOutcome) (detail : BitVec 8) (s : State) : (s.result code o detail).keys = s.keys := rfl
@[simp] theorem load_result (code : BitVec 8) (o : CommandOutcome) (detail : BitVec 8) (s : State) : (s.result code o detail).load = s.load := rfl
@[simp] theorem engine_result (code : BitVec 8) (o : CommandOutcome) (detail : BitVec 8) (s : State) : (s.result code o detail).engine = s.engine := rfl
@[simp] theorem reports_result (code : BitVec 8) (o : CommandOutcome) (detail : BitVec 8) (s : State) : (s.result code o detail).reports = s.reports := rfl
@[simp] theorem setup_result (code : BitVec 8) (o : CommandOutcome) (detail : BitVec 8) (s : State) : (s.result code o detail).setup = s.setup := rfl
@[simp] theorem mem_result (code : BitVec 8) (o : CommandOutcome) (detail : BitVec 8) (s : State) : (s.result code o detail).mem = s.mem := rfl
@[simp] theorem fresh_result (code : BitVec 8) (o : CommandOutcome) (detail : BitVec 8) (s : State) : (s.result code o detail).fresh = s.fresh := rfl
@[simp] theorem pending_result (code : BitVec 8) (o : CommandOutcome) (detail : BitVec 8) (s : State) : (s.result code o detail).pending = s.pending := rfl

@[simp] theorem controller_endSetup (o : CommandOutcome) (detail : BitVec 8) (s : State) : (s.endSetup o detail).controller = s.controller := rfl
@[simp] theorem path_endSetup (o : CommandOutcome) (detail : BitVec 8) (s : State) : (s.endSetup o detail).path = s.path := rfl
@[simp] theorem ports_endSetup (o : CommandOutcome) (detail : BitVec 8) (s : State) : (s.endSetup o detail).ports = s.ports := rfl
@[simp] theorem arbiter_endSetup (o : CommandOutcome) (detail : BitVec 8) (s : State) : (s.endSetup o detail).arbiter = s.arbiter := rfl
@[simp] theorem agent_endSetup (o : CommandOutcome) (detail : BitVec 8) (s : State) : (s.endSetup o detail).agent = s.agent := rfl
@[simp] theorem slots_endSetup (o : CommandOutcome) (detail : BitVec 8) (s : State) : (s.endSetup o detail).slots = s.slots := rfl
@[simp] theorem contexts_endSetup (o : CommandOutcome) (detail : BitVec 8) (s : State) : (s.endSetup o detail).contexts = s.contexts := rfl
@[simp] theorem keys_endSetup (o : CommandOutcome) (detail : BitVec 8) (s : State) : (s.endSetup o detail).keys = s.keys := rfl
@[simp] theorem load_endSetup (o : CommandOutcome) (detail : BitVec 8) (s : State) : (s.endSetup o detail).load = s.load := rfl
@[simp] theorem engine_endSetup (o : CommandOutcome) (detail : BitVec 8) (s : State) : (s.endSetup o detail).engine = s.engine := rfl
@[simp] theorem reports_endSetup (o : CommandOutcome) (detail : BitVec 8) (s : State) : (s.endSetup o detail).reports = s.reports := rfl
@[simp] theorem setup_endSetup (o : CommandOutcome) (detail : BitVec 8) (s : State) : (s.endSetup o detail).setup = s.setup := rfl
@[simp] theorem mem_endSetup (o : CommandOutcome) (detail : BitVec 8) (s : State) : (s.endSetup o detail).mem = s.mem := rfl
@[simp] theorem fresh_endSetup (o : CommandOutcome) (detail : BitVec 8) (s : State) : (s.endSetup o detail).fresh = s.fresh := rfl
@[simp] theorem pending_endSetup (o : CommandOutcome) (detail : BitVec 8) (s : State) : (s.endSetup o detail).pending = s.pending := rfl

@[simp] theorem controller_clearCauses (set : BitVec 7) (s : State) : (s.clearCauses set).controller = s.controller := rfl
@[simp] theorem path_clearCauses (set : BitVec 7) (s : State) : (s.clearCauses set).path = s.path := rfl
@[simp] theorem ports_clearCauses (set : BitVec 7) (s : State) : (s.clearCauses set).ports = s.ports := rfl
@[simp] theorem arbiter_clearCauses (set : BitVec 7) (s : State) : (s.clearCauses set).arbiter = s.arbiter := rfl
@[simp] theorem agent_clearCauses (set : BitVec 7) (s : State) : (s.clearCauses set).agent = s.agent := rfl
@[simp] theorem slots_clearCauses (set : BitVec 7) (s : State) : (s.clearCauses set).slots = s.slots := rfl
@[simp] theorem contexts_clearCauses (set : BitVec 7) (s : State) : (s.clearCauses set).contexts = s.contexts := rfl
@[simp] theorem keys_clearCauses (set : BitVec 7) (s : State) : (s.clearCauses set).keys = s.keys := rfl
@[simp] theorem load_clearCauses (set : BitVec 7) (s : State) : (s.clearCauses set).load = s.load := rfl
@[simp] theorem engine_clearCauses (set : BitVec 7) (s : State) : (s.clearCauses set).engine = s.engine := rfl
@[simp] theorem reports_clearCauses (set : BitVec 7) (s : State) : (s.clearCauses set).reports = s.reports := rfl
@[simp] theorem setup_clearCauses (set : BitVec 7) (s : State) : (s.clearCauses set).setup = s.setup := rfl
@[simp] theorem mem_clearCauses (set : BitVec 7) (s : State) : (s.clearCauses set).mem = s.mem := rfl
@[simp] theorem fresh_clearCauses (set : BitVec 7) (s : State) : (s.clearCauses set).fresh = s.fresh := rfl
@[simp] theorem pending_clearCauses (set : BitVec 7) (s : State) : (s.clearCauses set).pending = s.pending := rfl

@[simp] theorem path_enter (p : PartState) (s : State) : (s.enter p).path = s.path := rfl
@[simp] theorem ports_enter (p : PartState) (s : State) : (s.enter p).ports = s.ports := rfl
@[simp] theorem arbiter_enter (p : PartState) (s : State) : (s.enter p).arbiter = s.arbiter := rfl
@[simp] theorem agent_enter (p : PartState) (s : State) : (s.enter p).agent = s.agent := rfl
@[simp] theorem slots_enter (p : PartState) (s : State) : (s.enter p).slots = s.slots := rfl
@[simp] theorem contexts_enter (p : PartState) (s : State) : (s.enter p).contexts = s.contexts := rfl
@[simp] theorem keys_enter (p : PartState) (s : State) : (s.enter p).keys = s.keys := rfl
@[simp] theorem load_enter (p : PartState) (s : State) : (s.enter p).load = s.load := rfl
@[simp] theorem engine_enter (p : PartState) (s : State) : (s.enter p).engine = s.engine := rfl
@[simp] theorem reports_enter (p : PartState) (s : State) : (s.enter p).reports = s.reports := rfl
@[simp] theorem control_enter (p : PartState) (s : State) : (s.enter p).control = s.control := rfl
@[simp] theorem setup_enter (p : PartState) (s : State) : (s.enter p).setup = s.setup := rfl
@[simp] theorem mem_enter (p : PartState) (s : State) : (s.enter p).mem = s.mem := rfl
@[simp] theorem fresh_enter (p : PartState) (s : State) : (s.enter p).fresh = s.fresh := rfl
@[simp] theorem pending_enter (p : PartState) (s : State) : (s.enter p).pending = s.pending := rfl

@[simp] theorem path_setMrest (b : Bool) (s : State) : (s.setMrest b).path = s.path := rfl
@[simp] theorem ports_setMrest (b : Bool) (s : State) : (s.setMrest b).ports = s.ports := rfl
@[simp] theorem arbiter_setMrest (b : Bool) (s : State) : (s.setMrest b).arbiter = s.arbiter := rfl
@[simp] theorem agent_setMrest (b : Bool) (s : State) : (s.setMrest b).agent = s.agent := rfl
@[simp] theorem slots_setMrest (b : Bool) (s : State) : (s.setMrest b).slots = s.slots := rfl
@[simp] theorem contexts_setMrest (b : Bool) (s : State) : (s.setMrest b).contexts = s.contexts := rfl
@[simp] theorem keys_setMrest (b : Bool) (s : State) : (s.setMrest b).keys = s.keys := rfl
@[simp] theorem load_setMrest (b : Bool) (s : State) : (s.setMrest b).load = s.load := rfl
@[simp] theorem engine_setMrest (b : Bool) (s : State) : (s.setMrest b).engine = s.engine := rfl
@[simp] theorem reports_setMrest (b : Bool) (s : State) : (s.setMrest b).reports = s.reports := rfl
@[simp] theorem control_setMrest (b : Bool) (s : State) : (s.setMrest b).control = s.control := rfl
@[simp] theorem setup_setMrest (b : Bool) (s : State) : (s.setMrest b).setup = s.setup := rfl
@[simp] theorem mem_setMrest (b : Bool) (s : State) : (s.setMrest b).mem = s.mem := rfl
@[simp] theorem fresh_setMrest (b : Bool) (s : State) : (s.setMrest b).fresh = s.fresh := rfl
@[simp] theorem pending_setMrest (b : Bool) (s : State) : (s.setMrest b).pending = s.pending := rfl

@[simp] theorem path_setPwarn (b : Bool) (s : State) : (s.setPwarn b).path = s.path := rfl
@[simp] theorem ports_setPwarn (b : Bool) (s : State) : (s.setPwarn b).ports = s.ports := rfl
@[simp] theorem arbiter_setPwarn (b : Bool) (s : State) : (s.setPwarn b).arbiter = s.arbiter := rfl
@[simp] theorem agent_setPwarn (b : Bool) (s : State) : (s.setPwarn b).agent = s.agent := rfl
@[simp] theorem slots_setPwarn (b : Bool) (s : State) : (s.setPwarn b).slots = s.slots := rfl
@[simp] theorem contexts_setPwarn (b : Bool) (s : State) : (s.setPwarn b).contexts = s.contexts := rfl
@[simp] theorem keys_setPwarn (b : Bool) (s : State) : (s.setPwarn b).keys = s.keys := rfl
@[simp] theorem load_setPwarn (b : Bool) (s : State) : (s.setPwarn b).load = s.load := rfl
@[simp] theorem engine_setPwarn (b : Bool) (s : State) : (s.setPwarn b).engine = s.engine := rfl
@[simp] theorem reports_setPwarn (b : Bool) (s : State) : (s.setPwarn b).reports = s.reports := rfl
@[simp] theorem control_setPwarn (b : Bool) (s : State) : (s.setPwarn b).control = s.control := rfl
@[simp] theorem setup_setPwarn (b : Bool) (s : State) : (s.setPwarn b).setup = s.setup := rfl
@[simp] theorem mem_setPwarn (b : Bool) (s : State) : (s.setPwarn b).mem = s.mem := rfl
@[simp] theorem fresh_setPwarn (b : Bool) (s : State) : (s.setPwarn b).fresh = s.fresh := rfl
@[simp] theorem pending_setPwarn (b : Bool) (s : State) : (s.setPwarn b).pending = s.pending := rfl

@[simp] theorem path_setPurge (b : Bool) (s : State) : (s.setPurge b).path = s.path := rfl
@[simp] theorem ports_setPurge (b : Bool) (s : State) : (s.setPurge b).ports = s.ports := rfl
@[simp] theorem arbiter_setPurge (b : Bool) (s : State) : (s.setPurge b).arbiter = s.arbiter := rfl
@[simp] theorem agent_setPurge (b : Bool) (s : State) : (s.setPurge b).agent = s.agent := rfl
@[simp] theorem slots_setPurge (b : Bool) (s : State) : (s.setPurge b).slots = s.slots := rfl
@[simp] theorem contexts_setPurge (b : Bool) (s : State) : (s.setPurge b).contexts = s.contexts := rfl
@[simp] theorem keys_setPurge (b : Bool) (s : State) : (s.setPurge b).keys = s.keys := rfl
@[simp] theorem load_setPurge (b : Bool) (s : State) : (s.setPurge b).load = s.load := rfl
@[simp] theorem engine_setPurge (b : Bool) (s : State) : (s.setPurge b).engine = s.engine := rfl
@[simp] theorem reports_setPurge (b : Bool) (s : State) : (s.setPurge b).reports = s.reports := rfl
@[simp] theorem control_setPurge (b : Bool) (s : State) : (s.setPurge b).control = s.control := rfl
@[simp] theorem setup_setPurge (b : Bool) (s : State) : (s.setPurge b).setup = s.setup := rfl
@[simp] theorem mem_setPurge (b : Bool) (s : State) : (s.setPurge b).mem = s.mem := rfl
@[simp] theorem fresh_setPurge (b : Bool) (s : State) : (s.setPurge b).fresh = s.fresh := rfl
@[simp] theorem pending_setPurge (b : Bool) (s : State) : (s.setPurge b).pending = s.pending := rfl

/-! ## What is read after an update -/

/-- An update that gives what is there already changes nothing. -/
@[simp] theorem setArbiter_self (s : State) : s.setArbiter s.arbiter = s := rfl

@[simp] theorem port_setPort_self (p : Port) (x : PortState) (s : State) : (s.setPort p x).port p = x := by cases p <;> rfl

theorem port_setPort_ne {p q : Port} (h : q ≠ p) (x : PortState) (s : State) : (s.setPort p x).port q = s.port q := by
  cases p <;> cases q <;> first | rfl | exact absurd rfl h

@[simp] theorem port_respond_self (p : Port) (r : Response) (s : State) : (s.respond p r).port p = ⟨none, some r⟩ :=
  port_setPort_self ..

theorem port_respond_ne {p q : Port} (h : q ≠ p) (r : Response) (s : State) : (s.respond p r).port q = s.port q :=
  port_setPort_ne h ..

@[simp] theorem port_refuse_self (p : Port) (kind : RefusalKind) (address : BitVec 22) (s : State) :
    (s.refuse p kind address).port p = ⟨none, some .error⟩ := by cases p <;> rfl

theorem port_refuse_ne {p q : Port} (h : q ≠ p) (kind : RefusalKind) (address : BitVec 22) (s : State) :
    (s.refuse p kind address).port q = s.port q := by cases p <;> cases q <;> first | rfl | exact absurd rfl h

theorem context_eq (s : State) (c : Fin 24) : s.context c = s.contexts.table.get c := rfl

@[simp] theorem context_setContext_self (c : Fin 24) (x : Option Context) (s : State) : (s.setContext c x).context c = x :=
  Table.get_set_self ..

theorem context_setContext (c d : Fin 24) (x : Option Context) (s : State) :
    (s.setContext c x).context d = if d = c then x else s.context d := Table.get_set ..

theorem context_modifyContext (c d : Fin 24) (f : Context → Context) (s : State) :
    (s.modifyContext c f).context d = if d = c then (s.context c).map f else s.context d := Table.get_set ..

@[simp] theorem context_mapContexts (f : Context → Context) (s : State) (c : Fin 24) :
    (s.mapContexts f).context c = (s.context c).map f := Table.get_map ..

@[simp] theorem lane_setLane_self (n : Fin 8) (x : LaneSlots) (s : State) : (s.setLane n x).slots.lanes.get n = x :=
  Table.get_set_self ..

theorem lane_setLane (n m : Fin 8) (x : LaneSlots) (s : State) :
    (s.setLane n x).slots.lanes.get m = if m = n then x else s.slots.lanes.get m := Table.get_set ..

theorem inSlot_setInSlot (r q : SlotRef) (x : InSlot) (s : State) :
    (s.setInSlot r x).inSlot q = if q = r then x else s.inSlot q := by
  unfold setInSlot inSlot
  rw [lane_setLane]
  by_cases hl : q.lane = r.lane
  · simp only [hl, if_true, Table.get_set]
    by_cases hi : q.index = r.index
    · have : q = r := by cases q; cases r; simp_all
      simp [this]
    · have : q ≠ r := fun e => hi (e ▸ rfl)
      simp [this, hi]
  · have : q ≠ r := fun e => hl (e ▸ rfl)
    simp [hl, this]

theorem outSlot_setOutSlot (r q : SlotRef) (x : OutSlot) (s : State) :
    (s.setOutSlot r x).outSlot q = if q = r then x else s.outSlot q := by
  unfold setOutSlot outSlot
  rw [lane_setLane]
  by_cases hl : q.lane = r.lane
  · simp only [hl, if_true, Table.get_set]
    by_cases hi : q.index = r.index
    · have : q = r := by cases q; cases r; simp_all
      simp [this]
    · have : q ≠ r := fun e => hi (e ▸ rfl)
      simp [this, hi]
  · have : q ≠ r := fun e => hl (e ▸ rfl)
    simp [hl, this]

@[simp] theorem outSlot_setInSlot (r q : SlotRef) (x : InSlot) (s : State) : (s.setInSlot r x).outSlot q = s.outSlot q := by
  unfold setInSlot outSlot; rw [lane_setLane]; split
  · next h => rw [h]
  · rfl

@[simp] theorem inSlot_setOutSlot (r q : SlotRef) (x : OutSlot) (s : State) : (s.setOutSlot r x).inSlot q = s.inSlot q := by
  unfold setOutSlot inSlot; rw [lane_setLane]; split
  · next h => rw [h]
  · rfl

@[simp] theorem inSlot_mapSlots (f : InSlot → InSlot) (g : OutSlot → OutSlot) (r : SlotRef) (s : State) :
    (s.mapSlots f g).inSlot r = f (s.inSlot r) := by simp [mapSlots, inSlot]

@[simp] theorem outSlot_mapSlots (f : InSlot → InSlot) (g : OutSlot → OutSlot) (r : SlotRef) (s : State) :
    (s.mapSlots f g).outSlot r = g (s.outSlot r) := by simp [mapSlots, outSlot]

theorem entry_setEntry (k j : Fin 48) (e : KeyEntry) (s : State) :
    (s.setEntry k e).keys.entries.get j = if j = k then e else s.keys.entries.get j := Table.get_set ..

end Sys2Proof.Machine.State
end

