-- ==== Sys2Proof/Laws/Ops.lean ====
section
/-! SUPPORT. What the shared operations of an access do: the addresses of the control block, the command word, and the arrival
of an access that is classified at once. -/

namespace Sys2Proof.Machine

@[simp] theorem commandCode_commandWord (code : BitVec 8) (operand : BitVec 24) :
    commandCode (commandWord code operand) = code := by
  apply BitVec.eq_of_toNat_eq
  have h₁ := code.isLt
  have h₂ := operand.isLt
  simp only [commandCode, commandWord, BitVec.extractLsb'_toNat, BitVec.toNat_append]
  rw [← Nat.shiftLeft_add_eq_or_of_lt h₂]
  simp only [Nat.shiftLeft_eq, Nat.shiftRight_eq_div_pow]
  omega

@[simp] theorem commandOperand_commandWord (code : BitVec 8) (operand : BitVec 24) :
    commandOperand (commandWord code operand) = operand := by
  apply BitVec.eq_of_toNat_eq
  have h₁ := code.isLt
  have h₂ := operand.isLt
  simp only [commandOperand, commandWord, BitVec.extractLsb'_toNat, BitVec.toNat_append]
  rw [← Nat.shiftLeft_add_eq_or_of_lt h₂]
  simp only [Nat.shiftLeft_eq, Nat.shiftRight_eq_div_pow]
  omega

/-! ## The control block -/

theorem State.blockWord_toNat (s : State) {off : Nat} (h : off < 16384) : (s.blockWord off).toNat = s.blockBase + off := by
  have := s.controller.straps.isLt
  simp only [blockWord, blockBase, BitVec.toNat_ofNat]
  omega

/-- A word of the control block lies in its range. -/
theorem State.inBlock_blockWord (s : State) {off : Nat} (h : off < 16384) : s.inBlock (s.blockWord off) = true := by
  have e := s.blockWord_toNat h
  simp only [inBlock, e, blockBase, beq_iff_eq]
  omega

theorem State.offset_blockWord (s : State) {off : Nat} (h : off < 16384) :
    (s.blockWord off).toNat - s.blockBase = off := by
  rw [s.blockWord_toNat h]; omega

theorem State.watched_blockWord (s : State) {off : Nat} (h : off < 16384) : s.watched (s.blockWord off) = true := by
  simp [watched, s.inBlock_blockWord h]

theorem State.area_command (s : State) : s.area 0x40 = .command := by simp [area]

theorem State.area_loadWindow (s : State) (i : Fin 16) : s.area (0xC0 + i.val) = .loadWindow i := by
  have := i.isLt
  unfold area
  rw [if_neg (by omega), if_neg (by omega), if_pos (by omega)]
  rw [Nat.add_sub_cancel_left]
  exact congrArg Area.loadWindow (Fin.ext (Nat.mod_eq_of_lt this))

/-! ## Arrival -/

/-- Accesses are classified on arrival by a part that does not sleep and is in no wake. -/
theorem Controller.holdsAccesses_false_iff (c : Controller) :
    c.holdsAccesses = false ↔ (c.state = .dormant → c.wake = .awake) ∧ c.wake ≠ .waking := by
  unfold holdsAccesses; cases c.wake <;> simp

/-- During a wake nothing begins. -/
theorem State.startWake_waking {s : State} (h : s.controller.wake = .waking) : s.startWake = s := if_pos h

/-- A wake begins: the accesses outstanding are not of it. -/
theorem State.startWake_begins {s : State} (h : s.controller.wake ≠ .waking) :
    s.startWake = ({ s with ports := ⟨s.ports.c.beforeWake, s.ports.r.beforeWake⟩ } : State).setWake .waking := if_neg h

/-- An access on a port that is heard is classified, then the part may return to sleep, then the engine and the report writer
weigh their conditions. -/
theorem State.arrive_hears {s : State} {p : Port} (h : s.hears p) (a : Access) :
    s.arrive p a = ((s.classify p a).relax).settle := by
  obtain ⟨free, on, awake, idle⟩ := h
  unfold arrive
  rw [free, on, (Controller.holdsAccesses_false_iff _).mpr ⟨awake, idle⟩]
  rfl

/-- A port with an access outstanding takes no other. -/
theorem State.arrive_busy {s : State} {p : Port} (h : (s.port p).access ≠ none) (a : Access) : s.arrive p a = s := by
  unfold arrive
  rw [if_pos]
  exact Option.isSome_iff_ne_none.mpr h

/-- R127, R141: with nothing on the ready list and no holder waiting, an event weighs nothing. -/
theorem State.settle_of_idle {s : State} (e : s.engine.ready = []) (r : s.reports.waiting = []) : s.settle = s := by
  have w : s.weighEngine = s := by
    unfold weighEngine; split
    · rw [e]; rfl
    · rfl
  unfold settle weighReports; rw [w, r]

/-- A watched access of a sleeping part, or of one in a wake, is held for the wake. -/
theorem State.arrive_held {s : State} {p : Port} {a : Access} (free : (s.port p).access = none) (on : s.controller.power = .on)
    (holds : s.controller.holdsAccesses = true) (w : s.watched a.word = true) :
    s.arrive p a = s.startWake.hold p ⟨a, .wake, true⟩ := by
  unfold arrive
  rw [free, on, holds, w]
  rfl

theorem State.relax_of_not_dormant {s : State} (h : s.controller.state ≠ .dormant) : s.relax = s := by
  unfold relax; rw [if_neg]; exact fun e => h e.1

/-- A full-word write of a control block word, by the area it falls in. -/
theorem State.classify_block {s : State} {off : Nat} (h : off < 16384) (write : Bool) (size : Size) (data : Word) :
    s.classify .c ⟨write, s.blockWord off, size, data⟩ = s.blockAccess ⟨write, s.blockWord off, size, data⟩ := by
  simp [classify, s.inBlock_blockWord h]

/-- A write of the command word is answered done and decided. -/
theorem State.writeCommand_hears {s : State} (h : s.hears .c) (code : BitVec 8) (operand : BitVec 24) :
    s.writeCommand code operand = (((s.respond .c (.done none)).command code operand).relax).settle := by
  rw [writeCommand, arrive_hears h, classify_block (by decide)]
  simp only [blockAccess, s.offset_blockWord (show 0x40 < 16384 by decide), area_command, commandWrite, if_true,
    commandCode_commandWord, commandOperand_commandWord]

/-- After an access that changes state the part is not DORMANT. -/
theorem State.rouse_not_dormant (s : State) : s.rouse.controller.state ≠ .dormant := by
  unfold rouse; split
  · simp
  · assumption

@[simp] theorem State.relax_rouse (s : State) : s.rouse.relax = s.rouse := relax_of_not_dormant s.rouse_not_dormant

/-- A write of a load window word is refused or taken. -/
theorem State.loadWrite_hears {s : State} (h : s.hears .c) (i : Fin 16) (size : Size) (data : Word) :
    s.arrive .c ⟨true, s.blockWord (0xC0 + i.val), size, data⟩
      = ((s.loadWindow i ⟨true, s.blockWord (0xC0 + i.val), size, data⟩).relax).settle := by
  have hi : 0xC0 + i.val < 16384 := by have := i.isLt; omega
  rw [arrive_hears h, classify_block hi]
  simp only [blockAccess, s.offset_blockWord hi, area_loadWindow, if_true]

end Sys2Proof.Machine
end

