-- ==== Sys2Proof/Laws/Frames.lean ====
section
/-! SUPPORT. What the work of the slot tracker, the context table, the engine and the report writer leaves as it was: one
lemma per shared operation. -/

namespace Sys2Proof.Machine

/-- From `s` to `t` only slots, contexts, keys, engine, agent, arbiter, ports, load unit and the report lists may have
changed. -/
structure State.Track (s t : State) : Prop where
  controller : t.controller = s.controller
  path : t.path = s.path
  control : t.control = s.control
  setup : t.setup = s.setup
  mem : t.mem = s.mem
  fresh : t.fresh = s.fresh
  pending : t.pending = s.pending
  producer : t.reports.producer = s.reports.producer
  consumer : t.reports.consumer = s.reports.consumer
  sequence : t.reports.sequence = s.reports.sequence

/-- As Track, and the key table is as it was. -/
structure State.Work (s t : State) : Prop extends State.Track s t where
  keys : t.keys = s.keys

namespace State

theorem Track.refl (s : State) : s.Track s := ⟨rfl, rfl, rfl, rfl, rfl, rfl, rfl, rfl, rfl, rfl⟩

theorem Track.trans {s t u : State} (h : s.Track t) (g : t.Track u) : s.Track u :=
  ⟨g.1.trans h.1, g.2.trans h.2, g.3.trans h.3, g.4.trans h.4, g.5.trans h.5, g.6.trans h.6, g.7.trans h.7, g.8.trans h.8,
    g.9.trans h.9, g.10.trans h.10⟩

theorem Work.refl (s : State) : s.Work s := ⟨Track.refl s, rfl⟩

theorem Work.trans {s t u : State} (h : s.Work t) (g : t.Work u) : s.Work u :=
  ⟨h.toTrack.trans g.toTrack, g.keys.trans h.keys⟩

/-- Any change of the tracked blocks alone is work. -/
theorem Work.of_update (s : State) (ports : Ports) (arbiter : Option InFlight) (agent : Agent) (slots : Slots)
    (contexts : Contexts) (load : Load) (engine : Engine) (waiting : List ReportHolder) (write : WriteState) :
    s.Work { s with
      ports := ports, arbiter := arbiter, agent := agent, slots := slots, contexts := contexts, load := load, engine := engine
      reports := { s.reports with waiting := waiting, write := write } } :=
  ⟨⟨rfl, rfl, rfl, rfl, rfl, rfl, rfl, rfl, rfl, rfl⟩, rfl⟩

/-! ## Named updates -/

theorem work_setPort (p : Port) (x : PortState) (s : State) : s.Work (s.setPort p x) := by
  cases p <;> exact ⟨⟨rfl, rfl, rfl, rfl, rfl, rfl, rfl, rfl, rfl, rfl⟩, rfl⟩

theorem work_hold (p : Port) (o : Outstanding) (s : State) : s.Work (s.hold p o) := work_setPort ..

theorem work_respond (p : Port) (r : Response) (s : State) : s.Work (s.respond p r) := work_setPort ..

theorem work_supply (p : Port) (size : Size) (w : Word) (s : State) : s.Work (s.supply p size w) := work_setPort ..

theorem work_setLane (n : Fin 8) (x : LaneSlots) (s : State) : s.Work (s.setLane n x) :=
  ⟨⟨rfl, rfl, rfl, rfl, rfl, rfl, rfl, rfl, rfl, rfl⟩, rfl⟩

theorem work_setInSlot (r : SlotRef) (x : InSlot) (s : State) : s.Work (s.setInSlot r x) := work_setLane ..

theorem work_setOutSlot (r : SlotRef) (x : OutSlot) (s : State) : s.Work (s.setOutSlot r x) := work_setLane ..

theorem work_mapSlots (f : InSlot → InSlot) (g : OutSlot → OutSlot) (s : State) : s.Work (s.mapSlots f g) :=
  ⟨⟨rfl, rfl, rfl, rfl, rfl, rfl, rfl, rfl, rfl, rfl⟩, rfl⟩

theorem work_setHeld (x : Option HeldRead) (s : State) : s.Work (s.setHeld x) :=
  ⟨⟨rfl, rfl, rfl, rfl, rfl, rfl, rfl, rfl, rfl, rfl⟩, rfl⟩

theorem work_setLoad (x : Load) (s : State) : s.Work (s.setLoad x) := ⟨⟨rfl, rfl, rfl, rfl, rfl, rfl, rfl, rfl, rfl, rfl⟩, rfl⟩

theorem work_setArbiter (x : Option InFlight) (s : State) : s.Work (s.setArbiter x) :=
  ⟨⟨rfl, rfl, rfl, rfl, rfl, rfl, rfl, rfl, rfl, rfl⟩, rfl⟩

theorem work_setAgent (x : Agent) (s : State) : s.Work (s.setAgent x) := ⟨⟨rfl, rfl, rfl, rfl, rfl, rfl, rfl, rfl, rfl, rfl⟩, rfl⟩

theorem work_setOperation (o : Option Operation) (s : State) : s.Work (s.setOperation o) :=
  ⟨⟨rfl, rfl, rfl, rfl, rfl, rfl, rfl, rfl, rfl, rfl⟩, rfl⟩

theorem work_setWrite (w : WriteState) (s : State) : s.Work (s.setWrite w) := ⟨⟨rfl, rfl, rfl, rfl, rfl, rfl, rfl, rfl, rfl, rfl⟩, rfl⟩

theorem work_setWaiting (l : List ReportHolder) (s : State) : s.Work (s.setWaiting l) :=
  ⟨⟨rfl, rfl, rfl, rfl, rfl, rfl, rfl, rfl, rfl, rfl⟩, rfl⟩

theorem work_dropCodes (n : Fin 8) (s : State) : s.Work (s.dropCodes n) := ⟨⟨rfl, rfl, rfl, rfl, rfl, rfl, rfl, rfl, rfl, rfl⟩, rfl⟩

theorem work_dropLaneReports (n : Fin 8) (s : State) : s.Work (s.dropLaneReports n) :=
  ⟨⟨rfl, rfl, rfl, rfl, rfl, rfl, rfl, rfl, rfl, rfl⟩, rfl⟩

theorem work_releaseLane (n : Fin 8) (s : State) : s.Work (s.releaseLane n) := work_setLane ..

theorem work_setContext (c : Fin 24) (x : Option Context) (s : State) : s.Work (s.setContext c x) :=
  ⟨⟨rfl, rfl, rfl, rfl, rfl, rfl, rfl, rfl, rfl, rfl⟩, rfl⟩

theorem work_modifyContext (c : Fin 24) (f : Context → Context) (s : State) : s.Work (s.modifyContext c f) :=
  work_setContext ..

theorem work_mapContexts (f : Context → Context) (s : State) : s.Work (s.mapContexts f) :=
  ⟨⟨rfl, rfl, rfl, rfl, rfl, rfl, rfl, rfl, rfl, rfl⟩, rfl⟩

theorem work_joinReady (h : Holder) (s : State) : s.Work (s.joinReady h) :=
  ⟨⟨rfl, rfl, rfl, rfl, rfl, rfl, rfl, rfl, rfl, rfl⟩, rfl⟩

theorem work_leaveReady (h : Holder) (s : State) : s.Work (s.leaveReady h) :=
  ⟨⟨rfl, rfl, rfl, rfl, rfl, rfl, rfl, rfl, rfl, rfl⟩, rfl⟩

theorem work_joinReports (h : ReportHolder) (s : State) : s.Work (s.joinReports h) :=
  ⟨⟨rfl, rfl, rfl, rfl, rfl, rfl, rfl, rfl, rfl, rfl⟩, rfl⟩

theorem work_queueJob (j : Job) (s : State) : s.Work (s.queueJob j) :=
  ⟨⟨rfl, rfl, rfl, rfl, rfl, rfl, rfl, rfl, rfl, rfl⟩, rfl⟩

theorem work_cutEngine (s : State) : s.Work s.cutEngine := ⟨⟨rfl, rfl, rfl, rfl, rfl, rfl, rfl, rfl, rfl, rfl⟩, rfl⟩

theorem work_clearReports (s : State) : s.Work s.clearReports := ⟨⟨rfl, rfl, rfl, rfl, rfl, rfl, rfl, rfl, rfl, rfl⟩, rfl⟩

theorem work_abandonCurrent (s : State) : s.Work s.abandonCurrent :=
  ⟨⟨rfl, rfl, rfl, rfl, rfl, rfl, rfl, rfl, rfl, rfl⟩, rfl⟩

theorem work_clearJobs (s : State) : s.Work s.clearJobs := ⟨⟨rfl, rfl, rfl, rfl, rfl, rfl, rfl, rfl, rfl, rfl⟩, rfl⟩

theorem work_abandonContexts (s : State) : s.Work s.abandonContexts :=
  ⟨⟨rfl, rfl, rfl, rfl, rfl, rfl, rfl, rfl, rfl, rfl⟩, rfl⟩

theorem work_dropJobs (p : Job → Bool) (s : State) : s.Work (s.dropJobs p) := by
  unfold dropJobs
  split
  · exact (work_abandonCurrent s).trans ⟨⟨rfl, rfl, rfl, rfl, rfl, rfl, rfl, rfl, rfl, rfl⟩, rfl⟩
  · exact ⟨⟨rfl, rfl, rfl, rfl, rfl, rfl, rfl, rfl, rfl, rfl⟩, rfl⟩

/-! ## Slots -/

theorem work_answerHeld (r : SlotRef) (w : Word) (s : State) : s.Work (s.answerHeld r w) := by
  unfold answerHeld
  split
  · split
    · exact (work_setHeld none s).trans (work_supply ..)
    · exact Work.refl s
  · exact Work.refl s

theorem work_answerAnyHeld (s : State) : s.Work s.answerAnyHeld := by
  unfold answerAnyHeld; split
  · exact work_answerHeld ..
  · exact Work.refl s

theorem work_answerHeldInLane (n : Fin 8) (s : State) : s.Work (s.answerHeldInLane n) := by
  unfold answerHeldInLane; split
  · split
    · exact work_answerHeld ..
    · exact Work.refl s
  · exact Work.refl s

theorem work_clearSlots (s : State) : s.Work s.clearSlots := (work_answerAnyHeld s).trans (work_mapSlots ..)

theorem work_spoilWith (h : Header) (r : SlotRef) (report : Report) (s : State) : s.Work (s.spoilWith h r report) :=
  (((work_answerHeld ..).trans (work_leaveReady ..)).trans (work_setOutSlot ..)).trans (work_joinReports ..)

theorem work_spoil (r : SlotRef) (report : Report) (s : State) : s.Work (s.spoil r report) := by
  unfold spoil; split
  · exact Work.refl s
  · exact work_spoilWith ..

theorem work_reportInbound (h : Header) (r : SlotRef) (report : Report) (s : State) : s.Work (s.reportInbound h r report) :=
  (work_setInSlot ..).trans (work_joinReports ..)

theorem work_latchInbound (r : SlotRef) (h : Header) (s : State) : s.Work (s.latchInbound r h) := by
  unfold latchInbound; split
  · exact work_setInSlot ..
  · exact work_reportInbound ..

theorem work_latchOutbound (r : SlotRef) (h : Header) (s : State) : s.Work (s.latchOutbound r h) := by
  unfold latchOutbound; split
  · exact work_setOutSlot ..
  · exact (work_setOutSlot ..).trans (work_spoilWith ..)

theorem work_countInbound (r : SlotRef) (h : Header) (n : Nat) (s : State) : s.Work (s.countInbound r h n) := by
  unfold countInbound; split
  · exact (work_setInSlot ..).trans (work_queueJob ..)
  · exact work_setInSlot ..

theorem work_countOutbound (r : SlotRef) (h : Header) (n : Nat) (s : State) : s.Work (s.countOutbound r h n) := by
  unfold countOutbound
  split
  · exact (work_setOutSlot ..).trans (work_queueJob ..)
  · exact work_setOutSlot ..

theorem work_writeSlot {s t : State} {w : SlotWord} {data : Word} (h : s.writeSlot w data = some t) : s.Work t := by
  unfold writeSlot at h
  split at h
  · unfold writeInbound at h
    split at h
    · cases h; exact work_latchInbound ..
    · split at h
      · cases h; exact work_countInbound ..
      · cases h
  · unfold writeOutbound at h
    split at h
    · cases h; exact work_latchOutbound ..
    · split at h
      · split at h
        · cases h; exact work_countOutbound ..
        · cases h
      · cases h

theorem work_send (r : SlotRef) (s : State) : s.Work (s.send r) := by
  unfold send; split
  · exact (work_setOutSlot ..).trans (work_modifyContext ..)
  · exact Work.refl s

theorem work_underrun (r : SlotRef) (s : State) : s.Work (s.underrun r) := by
  unfold underrun
  split
  · exact ((work_setLane ..).trans (work_dropJobs ..)).trans (work_spoil ..)
  · exact ((work_setLane ..).trans (work_dropJobs ..)).trans (work_spoil ..)
  · exact ((work_setLane ..).trans (work_modifyContext ..)).trans (work_spoil ..)
  · exact ((work_setLane ..).trans (work_modifyContext ..)).trans (work_spoil ..)
  · exact Work.refl s

/-! ## Contexts -/

theorem work_close (code : PassageCode) (c : Fin 24) (s : State) : s.Work (s.close code c) := by
  unfold close
  split
  · exact Work.refl s
  · next x _ =>
    split
    · have spoiled : s.Work (match x.bound with
          | some r => s.spoil r (s.boundNotice .closedTransaction r c)
          | none => s) := by
        split
        · exact work_spoil ..
        · exact Work.refl s
      have closed := spoiled.trans (work_setContext c (some (x.close code s.controller.time)) _)
      dsimp only
      split
      · exact closed
      · exact ((closed.trans (work_leaveReady ..)).trans (work_leaveReady ..)).trans (work_joinReports ..)
    · exact Work.refl s

theorem work_endClosing (c : Fin 24) (s : State) : s.Work (s.endClosing c) :=
  (work_modifyContext ..).trans (work_joinReports ..)

theorem work_closeHolders (k : Fin 48) (s : State) : s.Work (s.closeHolders k) := by
  apply Table.ascending_keeps (P := fun t => s.Work t)
  · intro c t h
    split
    · split
      · exact h.trans (work_close ..)
      · exact h
    · exact h
  · exact Work.refl s

theorem work_purgeContext (c : Fin 24) (s : State) : s.Work (s.purgeContext c) := by
  unfold purgeContext; split
  · exact Work.refl s
  · split
    · exact work_endClosing ..
    · exact work_close ..

theorem work_ascending {f : Fin 24 → State → State} (step : ∀ c (s : State), s.Work (f c s)) (s : State) :
    s.Work (Table.ascending 24 f s) :=
  Table.ascending_keeps (P := fun t => s.Work t) (fun c t h => h.trans (step c t)) s (Work.refl s)

theorem work_purgeContexts (s : State) : s.Work s.purgeContexts :=
  ((work_mapContexts ..).trans (work_ascending work_purgeContext _)).trans (work_mapContexts ..)

theorem work_restartContext (n : Fin 8) (c : Fin 24) (s : State) : s.Work (s.restartContext n c) := by
  unfold restartContext
  split
  · exact Work.refl s
  · split
    · split
      · refine Work.trans ?_ (work_close ..)
        split
        · exact work_setContext ..
        · exact Work.refl s
      · split
        · exact work_setContext ..
        · exact Work.refl s
    · exact Work.refl s

theorem work_restartLane (n : Fin 8) (s : State) : s.Work (s.restartLane n) := by
  unfold restartLane
  apply Table.ascending_keeps (P := fun t => s.Work t)
  · exact fun c t h => h.trans (work_restartContext ..)
  · exact ((((work_answerHeldInLane n s).trans (work_releaseLane ..)).trans (work_dropCodes ..)).trans (work_dropJobs ..)).trans
      (work_dropLaneReports ..)

theorem work_bindChallenge (c : Fin 24) (x : Context) (h : Header) (r : SlotRef) (f : Challenge) (s : State) :
    s.Work (s.bindChallenge c x h r f) := by
  unfold bindChallenge
  dsimp only
  split
  · exact (work_setContext ..).trans (work_setOutSlot ..)
  · exact ((work_setContext ..).trans (work_setOutSlot ..)).trans (work_joinReady ..)

theorem work_takeChallenge (h : Header) (r : SlotRef) (f : Challenge) (s : State) : s.Work (s.takeChallenge h r f) := by
  unfold takeChallenge
  split
  · exact work_spoil ..
  · split
    · exact Work.refl s
    · split
      · exact work_spoil ..
      · exact work_bindChallenge ..

theorem work_matchedConfirm (c : Fin 24) (x : Context) (r : SlotRef) (f : Confirm) (i : Nat) (s : State) :
    s.Work (s.matchedConfirm c x r f i) := by
  unfold matchedConfirm
  refine Work.trans (Work.trans (Work.trans ?_ (work_setContext ..)) (work_setInSlot ..)) (work_joinReady ..)
  split
  · exact work_spoil ..
  · exact Work.refl s

theorem work_takeConfirm (h : Header) (r : SlotRef) (f : Confirm) (s : State) : s.Work (s.takeConfirm h r f) := by
  unfold takeConfirm
  split
  · exact work_reportInbound ..
  · split
    · exact work_reportInbound ..
    · exact work_matchedConfirm ..

theorem track_addReference (k : Fin 48) (s : State) : s.Track (s.addReference k) :=
  ⟨rfl, rfl, rfl, rfl, rfl, rfl, rfl, rfl, rfl, rfl⟩

theorem track_releaseReference (k : Fin 48) (s : State) : s.Track (s.releaseReference k) :=
  ⟨rfl, rfl, rfl, rfl, rfl, rfl, rfl, rfl, rfl, rfl⟩

theorem track_dropReferences (s : State) : s.Track s.dropReferences := ⟨rfl, rfl, rfl, rfl, rfl, rfl, rfl, rfl, rfl, rfl⟩

theorem track_openContext (c : Fin 24) (r : SlotRef) (a : Announce) (k : Fin 48) (s : State) :
    s.Track (s.openContext c r a k) :=
  (((work_setInSlot ..).trans (work_setContext ..)).toTrack.trans (track_addReference ..)).trans (work_joinReady ..).toTrack

theorem track_takeAnnounce (h : Header) (r : SlotRef) (a : Announce) (s : State) : s.Track (s.takeAnnounce h r a) := by
  unfold takeAnnounce
  split
  · exact ((work_setInSlot ..).trans (work_modifyContext ..)).toTrack
  · split
    · exact (work_reportInbound ..).toTrack
    · split
      · exact (work_reportInbound ..).toTrack
      · exact track_openContext ..

theorem track_takeFrame (ring : Ring) (r : SlotRef) (buffer : List Word) (s : State) : s.Track (s.takeFrame ring r buffer) := by
  unfold takeFrame
  split
  · exact Track.refl s
  · split
    · unfold takeInbound
      split
      · exact (work_reportInbound ..).toTrack
      · split
        · exact track_takeAnnounce ..
        · exact (work_takeConfirm ..).toTrack
    · unfold takeOutbound
      split
      · exact (work_spoil ..).toTrack
      · exact (work_takeChallenge ..).toTrack

theorem track_rememberPaid (x : Context) (s : State) : s.Track (s.rememberPaid x) := by
  unfold rememberPaid; split
  · exact ⟨rfl, rfl, rfl, rfl, rfl, rfl, rfl, rfl, rfl, rfl⟩
  · exact Track.refl s

theorem track_freeContext (c : Fin 24) (s : State) : s.Track (s.freeContext c) := by
  unfold freeContext
  split
  · exact Track.refl s
  · next x _ =>
    split
    · have released : s.Track (match x.keyLink with
          | some k => s.releaseReference k
          | none => s) := by
        split
        · exact track_releaseReference ..
        · exact Track.refl s
      exact (released.trans (track_rememberPaid x _)).trans (work_setContext ..).toTrack
    · exact Track.refl s

theorem track_releaseHolder (h : ReportHolder) (s : State) : s.Track (s.releaseHolder h) := by
  unfold releaseHolder
  split
  · exact track_freeContext ..
  · split
    · exact (work_setInSlot ..).toTrack
    · exact Track.refl s
  · split
    · exact (work_setOutSlot ..).toTrack
    · exact Track.refl s

/-! ## Engine and report writer -/

theorem work_setMark (h : Holder) (m : Bool) (s : State) : s.Work (s.setMark h m) := by
  unfold setMark
  split
  · exact work_setOutSlot ..
  · exact work_modifyContext ..
  · exact work_modifyContext ..
  · exact work_setLoad ..

theorem work_startOperation (h : Holder) (o : Operation) (s : State) : s.Work (s.startOperation h o) :=
  ((work_leaveReady ..).trans (work_setMark ..)).trans (work_setOperation ..)

theorem work_weighEngine (s : State) : s.Work s.weighEngine := by
  unfold weighEngine
  split
  · split
    · exact Work.refl s
    · split
      · exact Work.refl s
      · exact work_startOperation ..
  · exact Work.refl s

theorem work_weighReports (s : State) : s.Work s.weighReports := by
  unfold weighReports
  split
  · exact Work.refl s
  · split
    · exact Work.refl s
    · split
      · exact Work.refl s
      · exact (work_setWrite ..).trans (work_queueJob ..)

/-- Weighing the engine and the report writer is work of theirs. -/
theorem work_settle (s : State) : s.Work s.settle := (work_weighEngine s).trans (work_weighReports ..)

theorem work_endOperation (h : Holder) (s : State) : s.Work (s.endOperation h) :=
  (work_setOperation ..).trans (work_setMark ..)

theorem work_arm (r : SlotRef) (h : Header) (c : Fin 24) (code : Wide) (s : State) : s.Work (s.arm r h c code) := by
  unfold arm
  dsimp only
  split
  · split
    · split
      · exact ((work_setOutSlot ..).trans (work_answerHeld ..)).trans (work_send ..)
      · exact (work_setOutSlot ..).trans (work_answerHeld ..)
    · exact work_setOutSlot ..
  · exact work_setOutSlot ..

theorem work_finishCode (r : SlotRef) (code : Wide) (s : State) : s.Work (s.finishCode r code) := by
  unfold finishCode
  split
  · exact (work_setMark ..).trans (work_arm ..)
  · exact work_setOutSlot ..

theorem work_startCoding (r : SlotRef) (s : State) : s.Work (s.startCoding r) := by
  unfold startCoding; split
  · exact (work_setOutSlot ..).trans (work_joinReady ..)
  · exact Work.refl s

theorem work_finishDerive (c : Fin 24) (key : Key) (s : State) : s.Work (s.finishDerive c key) := by
  unfold finishDerive
  split
  · exact Work.refl s
  · split
    · dsimp only
      split
      · exact (work_setContext ..).trans (work_startCoding ..)
      · exact work_setContext ..
    · split
      · exact work_endClosing ..
      · exact Work.refl s

theorem work_finishVerify (c : Fin 24) (m : Bool) (s : State) : s.Work (s.finishVerify c m) := by
  unfold finishVerify
  split
  · exact Work.refl s
  · split
    · exact (work_setContext ..).trans (work_joinReports ..)
    · split
      · exact work_endClosing ..
      · exact Work.refl s

theorem work_takeLoadWord (i : Fin 16) (v : Word) (s : State) : s.Work (s.takeLoadWord i v) := by
  unfold takeLoadWord
  split
  · split
    · exact work_setLoad ..
    · exact Work.refl s
  · split
    · exact work_setLoad ..
    · split
      · exact (work_setLoad ..).trans (work_joinReady ..)
      · exact work_setLoad ..
  · exact Work.refl s

theorem work_readCode (r : SlotRef) (high : Bool) (a : Access) (s : State) : s.Work (s.readCode r high a) := by
  have held : s.Work (s.holdRead r high a) := by
    unfold holdRead
    dsimp only
    split
    · exact (work_supply ..).trans (work_underrun ..)
    · exact (work_setHeld ..).trans (work_hold ..)
  unfold readCode
  split <;> try exact held
  all_goals try exact work_supply ..
  dsimp only
  split
  · exact (work_supply ..).trans (work_send ..)
  · exact work_supply ..

theorem work_beginFetch (j : Job) (s : State) : s.Work (s.beginFetch j) := by
  unfold beginFetch
  split
  · split
    · exact work_setInSlot ..
    · exact Work.refl s
  · split
    · exact work_setOutSlot ..
    · exact Work.refl s
  · exact Work.refl s
  · exact Work.refl s

theorem work_holdLimitExpiry (s : State) : s.Work s.holdLimitExpiry := by
  unfold holdLimitExpiry; split
  · exact Work.refl s
  · exact ((work_answerHeld ..).trans (work_underrun ..)).trans (work_settle ..)

theorem work_deadlineExpiry (c : Fin 24) (s : State) : s.Work (s.deadlineExpiry c) := by
  unfold deadlineExpiry; split
  · exact Work.refl s
  · split
    · exact (work_close ..).trans (work_settle ..)
    · exact Work.refl s

end State

end Sys2Proof.Machine
end

