-- ==== Sys2Proof/Laws/Effects.lean ====
section
/-! SUPPORT. What spoiling a slot, closing a context, an ascending pass over the contexts and a power warning do. -/

namespace Sys2Proof.Machine

/-- A pass over all indices, of which step `i` changes only entry `i`, changes every entry once. `P` is what the steps keep. -/
theorem Table.ascending_each {n : Nat} {σ β : Type} {P : σ → Prop} {f : Fin n → σ → σ} {read : σ → Fin n → β}
    {g : Fin n → β → β} (keep : ∀ i s, P s → P (f i s))
    (step : ∀ i s, P s → ∀ j, read (f i s) j = if j = i then g i (read s i) else read s j) (s : σ) (h : P s) (j : Fin n) :
    read (Table.ascending n f s) j = g j (read s j) := by
  have pass : ∀ (l : List (Fin n)) (s : σ), l.Nodup → P s →
      read (l.foldl (fun s i => f i s) s) j = if j ∈ l then g j (read s j) else read s j := by
    intro l
    induction l with
    | nil => intro s _ _; simp
    | cons i l ih =>
      intro s nodup hs
      rw [List.foldl_cons, ih _ (List.nodup_cons.mp nodup).2 (keep i s hs), step i s hs j]
      have out := (List.nodup_cons.mp nodup).1
      by_cases e : j = i
      · subst e; simp [out]
      · simp [e]
  unfold Table.ascending
  rw [pass _ s (List.nodup_finRange n) h]
  simp

namespace State

/-- From `s` to `t` only outbound slots in `p` may have changed, with the ready and pending lists, a held read and the
contexts; no slot has lost or gained its mark, and no holder has joined the ready list. -/
structure Spoils (p : SlotRef → Prop) (s t : State) : Prop extends State.Work s t where
  load : t.load = s.load
  operation : t.engine.operation = s.engine.operation
  agent : t.agent = s.agent
  arbiter : t.arbiter = s.arbiter
  portC : t.ports.c = s.ports.c
  ready : ∀ h ∈ t.engine.ready, h ∈ s.engine.ready
  inSlot : ∀ q, t.inSlot q = s.inSlot q
  outSlot : ∀ q, ¬ p q → t.outSlot q = s.outSlot q
  mark : ∀ q, (t.outSlot q).mark = (s.outSlot q).mark
  underruns : ∀ n, (t.slots.lanes.get n).underruns = (s.slots.lanes.get n).underruns

theorem Spoils.refl (p : SlotRef → Prop) (s : State) : Spoils p s s :=
  ⟨Work.refl s, rfl, rfl, rfl, rfl, rfl, fun _ h => h, fun _ => rfl, fun _ _ => rfl, fun _ => rfl, fun _ => rfl⟩

theorem Spoils.trans {p : SlotRef → Prop} {s t u : State} (h : Spoils p s t) (g : Spoils p t u) : Spoils p s u :=
  ⟨h.toWork.trans g.toWork, g.load.trans h.load, g.operation.trans h.operation, g.agent.trans h.agent,
    g.arbiter.trans h.arbiter, g.portC.trans h.portC, fun x hx => h.ready x (g.ready x hx),
    fun q => (g.inSlot q).trans (h.inSlot q), fun q hq => (g.outSlot q hq).trans (h.outSlot q hq),
    fun q => (g.mark q).trans (h.mark q), fun n => (g.underruns n).trans (h.underruns n)⟩

theorem Spoils.mono {p q : SlotRef → Prop} {s t : State} (h : Spoils p s t) (e : ∀ r, p r → q r) : Spoils q s t :=
  { h with outSlot := fun r hr => h.outSlot r fun hp => hr (e r hp) }

/-- A change of contexts, waiting reports and of the ready list by removal is such a change. -/
theorem Spoils.of_lists (p : SlotRef → Prop) (s : State) (contexts : Contexts) (f : Holder → Bool) (waiting : List ReportHolder) :
    Spoils p s { s with
      contexts := contexts, engine := { s.engine with ready := s.engine.ready.filter f }
      reports := { s.reports with waiting := waiting } } :=
  ⟨⟨⟨rfl, rfl, rfl, rfl, rfl, rfl, rfl, rfl, rfl, rfl⟩, rfl⟩, rfl, rfl, rfl, rfl, rfl, fun _ h => (List.mem_filter.mp h).1,
    fun _ => rfl, fun _ _ => rfl, fun _ => rfl, fun _ => rfl⟩

theorem spoils_leaveReady (p : SlotRef → Prop) (h : Holder) (s : State) : Spoils p s (s.leaveReady h) :=
  Spoils.of_lists p s s.contexts (· != h) s.reports.waiting

theorem spoils_joinReports (p : SlotRef → Prop) (h : ReportHolder) (s : State) : Spoils p s (s.joinReports h) :=
  ⟨work_joinReports h s, rfl, rfl, rfl, rfl, rfl, fun _ h => h, fun _ => rfl, fun _ _ => rfl, fun _ => rfl, fun _ => rfl⟩

theorem spoils_setContext (p : SlotRef → Prop) (c : Fin 24) (x : Option Context) (s : State) : Spoils p s (s.setContext c x) :=
  ⟨work_setContext c x s, rfl, rfl, rfl, rfl, rfl, fun _ h => h, fun _ => rfl, fun _ _ => rfl, fun _ => rfl, fun _ => rfl⟩

theorem spoils_mapContexts (p : SlotRef → Prop) (f : Context → Context) (s : State) : Spoils p s (s.mapContexts f) :=
  ⟨work_mapContexts f s, rfl, rfl, rfl, rfl, rfl, fun _ h => h, fun _ => rfl, fun _ _ => rfl, fun _ => rfl, fun _ => rfl⟩

theorem spoils_answerHeld (p : SlotRef → Prop) (r : SlotRef) (w : Word) (s : State) : Spoils p s (s.answerHeld r w) := by
  refine ⟨work_answerHeld r w s, ?_, ?_, ?_, ?_, ?_, ?_, ?_, ?_, ?_, ?_⟩ <;>
    (unfold answerHeld; split <;> (try split) <;>
      first | rfl | exact fun _ => rfl | exact fun _ _ => rfl | exact fun _ h => h)

/-! ## Spoiling -/

@[simp] theorem contexts_answerHeld (r : SlotRef) (w : Word) (s : State) : (s.answerHeld r w).contexts = s.contexts := by
  unfold answerHeld; split <;> (try split) <;> rfl

@[simp] theorem contexts_spoil (r : SlotRef) (report : Report) (s : State) : (s.spoil r report).contexts = s.contexts := by
  unfold spoil; split
  · rfl
  · exact contexts_answerHeld ..

/-- A slot without a header is not spoiled. -/
theorem spoil_of_no_header {r : SlotRef} {s : State} (h : (s.outSlot r).state.header = none) (report : Report) :
    s.spoil r report = s := by
  unfold spoil; rw [h]

theorem spoils_spoil (r : SlotRef) (report : Report) (s : State) : Spoils (· = r) s (s.spoil r report) := by
  unfold spoil
  split
  · exact Spoils.refl _ s
  · next h hs =>
    unfold spoilWith
    refine ((spoils_answerHeld (· = r) r fillPattern s).trans (spoils_leaveReady _ (.code r) _)).trans
      (Spoils.trans ?_ (spoils_joinReports _ _ _))
    generalize (s.answerHeld r fillPattern).leaveReady (.code r) = t
    refine ⟨work_setOutSlot .., rfl, rfl, rfl, rfl, rfl, fun _ h => h, fun q => inSlot_setOutSlot .., ?_, ?_, ?_⟩
    · intro q hq; rw [outSlot_setOutSlot, if_neg hq]
    · intro q; rw [outSlot_setOutSlot]; split
      · next e => rw [e]
      · rfl
    · intro n; unfold setOutSlot; rw [lane_setLane]; split
      · next e => rw [e]
      · rfl

@[simp] theorem reports_answerHeld (r : SlotRef) (w : Word) (s : State) : (s.answerHeld r w).reports = s.reports := by
  unfold answerHeld; split <;> (try split) <;> rfl

@[simp] theorem engine_answerHeld (r : SlotRef) (w : Word) (s : State) : (s.answerHeld r w).engine = s.engine := by
  unfold answerHeld; split <;> (try split) <;> rfl

@[simp] theorem outSlot_answerHeld (r : SlotRef) (w : Word) (q : SlotRef) (s : State) :
    (s.answerHeld r w).outSlot q = s.outSlot q := by
  unfold answerHeld; split <;> (try split) <;> rfl

/-- R53: a spoiled slot is SPOILED and holds the notice. -/
theorem outSlot_spoil {r : SlotRef} {h : Header} {s : State} (frame : (s.outSlot r).state.header = some h) (report : Report)
    (q : SlotRef) :
    (s.spoil r report).outSlot q =
      if q = r then { s.outSlot r with state := .spoiled h (some report) } else s.outSlot q := by
  have e : s.spoil r report = s.spoilWith h r report := by simp only [spoil, frame]
  rw [e]
  refine (outSlot_setOutSlot ..).trans ?_
  show (if q = r then { (s.answerHeld r fillPattern).outSlot r with state := .spoiled h (some report) }
    else (s.answerHeld r fillPattern).outSlot q) = _
  rw [outSlot_answerHeld, outSlot_answerHeld]

/-- R53: a spoil keeps every latched header. -/
theorem header_spoil (r : SlotRef) (report : Report) (q : SlotRef) (s : State) :
    ((s.spoil r report).outSlot q).state.header = (s.outSlot q).state.header := by
  rcases frame : (s.outSlot r).state.header with _ | h
  · rw [spoil_of_no_header frame]
  · rw [outSlot_spoil frame]
    split
    · next e => rw [e, frame]; rfl
    · rfl

/-- R53: a spoiled slot joins the tail of the pending list. -/
theorem reports_spoil (r : SlotRef) (report : Report) (s : State) :
    (s.spoil r report).reports =
      { s.reports with
        waiting := s.reports.waiting ++ if (s.outSlot r).state.header = none then [] else [.outbound r] } := by
  rcases frame : (s.outSlot r).state.header with _ | h
  · rw [spoil_of_no_header frame]; simp
  · simp [spoil, frame, spoilWith, joinReports]

/-- R53, R133: a CODE that names a spoiled slot leaves the ready list. -/
theorem engine_spoil (r : SlotRef) (report : Report) (s : State) :
    (s.spoil r report).engine =
      { s.engine with
        ready := s.engine.ready.filter fun h => decide ((s.outSlot r).state.header = none) || h != .code r } := by
  rcases frame : (s.outSlot r).state.header with _ | h
  · rw [spoil_of_no_header frame]; simp
  · simp [spoil, frame, spoilWith, joinReports, leaveReady]

/-- R53: a spoil answers a read held on the slot with the fill pattern. -/
theorem answered_spoil {r : SlotRef} {s : State} {q : HeldRead} {o : Outstanding} (frame : (s.outSlot r).state.header ≠ none)
    (held : s.slots.held = some q) (here : q.slot = r) (access : s.ports.r.access = some o) (report : Report) :
    (s.spoil r report).slots.held = none
      ∧ (s.spoil r report).ports.r = ⟨none, some (.done (some (o.access.size.extract fillPattern)))⟩ := by
  rcases hh : (s.outSlot r).state.header with _ | h
  · exact absurd hh frame
  · have e : s.spoil r report = s.spoilWith h r report := by simp only [spoil, hh]
    rw [e]
    have : s.answerHeld r fillPattern = (s.setHeld none).supply .r o.access.size fillPattern := by
      simp only [answerHeld, held, access, here, if_true]
    exact ⟨congrArg (fun t : State => t.slots.held) this, congrArg (fun t : State => t.ports.r) this⟩

/-- R53: a spoil leaves a read held on another slot. -/
theorem unanswered_spoil {r : SlotRef} {s : State} (elsewhere : ∀ q, s.slots.held = some q → q.slot ≠ r) (report : Report) :
    (s.spoil r report).slots.held = s.slots.held ∧ (s.spoil r report).ports.r = s.ports.r := by
  rcases hh : (s.outSlot r).state.header with _ | h
  · rw [spoil_of_no_header hh]; exact ⟨rfl, rfl⟩
  · have e : s.spoil r report = s.spoilWith h r report := by simp only [spoil, hh]
    rw [e]
    have : s.answerHeld r fillPattern = s := by
      unfold answerHeld
      split
      · next q o hq ho => rw [if_neg (elsewhere q hq)]
      · rfl
    unfold spoilWith
    rw [this]
    exact ⟨rfl, rfl⟩

/-! ## Closing -/

/-- R78: what a close makes of an open context. -/
theorem contexts_close (code : PassageCode) (c : Fin 24) (s : State) :
    (s.close code c).contexts
      = (s.modifyContext c fun x => if x.state.closable then x.close code s.controller.time else x).contexts := by
  have same : ∀ x, s.context c = some x → s.setContext c (some x) = s := by
    intro x hx
    have : s.contexts.table.set c (some x) = s.contexts.table := by
      rw [← show s.contexts.table.get c = some x from hx, Table.set_get]
    simp only [setContext, this]
  unfold close modifyContext
  split
  · next hn =>
    have : s.contexts.table.set c none = s.contexts.table := by
      rw [← show s.contexts.table.get c = none from hn, Table.set_get]
    simp only [hn, Option.map_none, setContext, this]
  · next x hx =>
    rw [hx]
    dsimp only [Option.map_some]
    split
    · rcases x.bound with _ | r <;> dsimp only <;> split <;>
        simp only [contexts_joinReports, contexts_leaveReady, setContext, contexts_spoil]
    · rw [same x hx]

/-- R78: a close spoils the bound slot at most. -/
theorem spoils_close (code : PassageCode) (c : Fin 24) (s : State) :
    Spoils (fun r => ∃ x, s.context c = some x ∧ x.bound = some r) s (s.close code c) := by
  unfold close
  split
  · exact Spoils.refl _ s
  · next x hx =>
    split
    · have spoiled : Spoils (fun r => ∃ x, s.context c = some x ∧ x.bound = some r) s (match x.bound with
          | some r => s.spoil r (s.boundNotice .closedTransaction r c)
          | none => s) := by
        split
        · next r hr => exact (spoils_spoil r _ s).mono fun q e => ⟨x, hx, e ▸ hr⟩
        · exact Spoils.refl _ s
      have closed := spoiled.trans (spoils_setContext _ c (some (x.close code s.controller.time)) _)
      dsimp only
      split
      · exact closed
      · exact ((closed.trans (spoils_leaveReady _ _ _)).trans (spoils_leaveReady _ _ _)).trans (spoils_joinReports _ _ _)
    · exact Spoils.refl _ s

/-- R78: an open context's close: its bound slot is spoiled, its outcome stands, and but with the engine mark it leaves the
ready list and joins the pending list. -/
theorem close_eq {c : Fin 24} {x : Context} {s : State} (code : PassageCode) (hx : s.context c = some x)
    (closable : x.state.closable = true) :
    s.close code c =
      let spoiled := match x.bound with
        | some r => s.spoil r (s.notice .closedTransaction r (some c) (some x.identity) none)
        | none => s
      let closed := spoiled.setContext c (some (x.close code s.controller.time))
      if x.mark then closed else ((closed.leaveReady (.derive c)).leaveReady (.verify c)).joinReports (.context c) := by
  unfold close boundNotice
  rw [hx]
  dsimp only [Option.map_some]
  rcases x.bound with _ | r <;> exact if_pos closable

/-- R78, R53: what a close puts on the pending list. -/
theorem reports_close {c : Fin 24} {x : Context} {s : State} (code : PassageCode) (hx : s.context c = some x)
    (closable : x.state.closable = true) :
    (s.close code c).reports =
      { s.reports with waiting := s.reports.waiting ++ (s.boundHolder x ++ if x.mark then [] else [.context c]) } := by
  rw [close_eq code hx closable]
  rcases hb : x.bound with _ | r <;> cases hm : x.mark <;>
    simp [boundHolder, hb, joinReports, reports_spoil]

/-- R78, R53, R133: whom a close takes off the ready list. -/
theorem engine_close {c : Fin 24} {x : Context} {s : State} (code : PassageCode) (hx : s.context c = some x)
    (closable : x.state.closable = true) :
    ∃ keep : Holder → Bool, (s.close code c).engine = { s.engine with ready := s.engine.ready.filter keep }
      ∧ ∀ h, keep h = true ↔ ¬ s.cancelled (fun d y => d = c ∧ y = x) h := by
  rw [close_eq code hx closable]
  have cancels : ∀ h, s.cancelled (fun d y => d = c ∧ y = x) h ↔
      ((x.mark = false ∧ (h = .derive c ∨ h = .verify c))
        ∨ ∃ r, x.bound = some r ∧ (s.outSlot r).state.header ≠ none ∧ h = .code r) := by
    intro h
    constructor
    · rintro ⟨d, y, ⟨rfl, rfl⟩, e⟩; exact e
    · intro e; exact ⟨c, x, ⟨rfl, rfl⟩, e⟩
  simp only [cancels]
  rcases hb : x.bound with _ | r <;> cases hm : x.mark
  · refine ⟨fun h => h != .verify c && h != .derive c, ?_, ?_⟩
    · simp [leaveReady, List.filter_filter]
    · intro h; simp; tauto
  · refine ⟨fun _ => true, ?_, ?_⟩
    · simp
    · intro h; simp
  · refine ⟨fun h => (h != .verify c && h != .derive c) && (decide ((s.outSlot r).state.header = none) || h != .code r), ?_, ?_⟩
    · simp [leaveReady, List.filter_filter, engine_spoil, Bool.and_assoc]
    · intro h; simp; tauto
  · refine ⟨fun h => decide ((s.outSlot r).state.header = none) || h != .code r, ?_, ?_⟩
    · simp [engine_spoil]
    · intro h; simp; tauto

/-- R78, R53: a close keeps every latched header. -/
theorem header_close (code : PassageCode) (c : Fin 24) (q : SlotRef) (s : State) :
    ((s.close code c).outSlot q).state.header = (s.outSlot q).state.header := by
  rcases hx : s.context c with _ | x
  · simp only [close, hx]
  · by_cases hc : x.state.closable = true
    · rw [close_eq code hx hc]
      dsimp only
      have marked : ∀ t : State, ((if x.mark then t.setContext c (some (x.close code s.controller.time)) else
          (((t.setContext c (some (x.close code s.controller.time))).leaveReady (.derive c)).leaveReady (.verify c)).joinReports
            (.context c)).outSlot q) = t.outSlot q := by
        intro t; cases x.mark <;> rfl
      rw [marked]
      rcases x.bound with _ | r
      · rfl
      · exact header_spoil ..
    · simp only [close, hx]; rw [if_neg hc]

/-! ## A pass over the contexts -/

/-- A pass over the contexts in ascending order whose step `c` changes the context `c` only, keeps every latched header, puts
`joins c x` on the pending list and takes from the ready list the holders that `drops c x` picks. -/
theorem lists_ascending {f : Fin 24 → State → State} {joins : Fin 24 → Context → List ReportHolder}
    {drops : Fin 24 → Context → Holder → Prop} (s : State)
    (step : ∀ c (t : State), t.context c = s.context c →
      (∀ q, (t.outSlot q).state.header = (s.outSlot q).state.header) →
      (∀ d, d ≠ c → (f c t).context d = t.context d)
        ∧ (∀ q, ((f c t).outSlot q).state.header = (t.outSlot q).state.header)
        ∧ (f c t).reports = { t.reports with waiting := t.reports.waiting ++ s.joinedBy joins c }
        ∧ ∃ keep : Holder → Bool, (f c t).engine = { t.engine with ready := t.engine.ready.filter keep }
          ∧ ∀ h, keep h = true ↔ ∀ x, s.context c = some x → ¬ drops c x h) :
    (Table.ascending 24 f s).reports = { s.reports with waiting := s.reports.waiting ++ s.eachContext joins }
      ∧ ∃ keep : Holder → Bool, (Table.ascending 24 f s).engine = { s.engine with ready := s.engine.ready.filter keep }
        ∧ ∀ h, keep h = true ↔ ∀ c x, s.context c = some x → ¬ drops c x h := by
  have pass : ∀ (l : List (Fin 24)) (t : State), l.Nodup → (∀ c ∈ l, t.context c = s.context c) →
      (∀ q, (t.outSlot q).state.header = (s.outSlot q).state.header) →
      (l.foldl (fun t c => f c t) t).reports = { t.reports with waiting := t.reports.waiting ++ l.flatMap (s.joinedBy joins) }
        ∧ ∃ keep : Holder → Bool, (l.foldl (fun t c => f c t) t).engine = { t.engine with ready := t.engine.ready.filter keep }
          ∧ ∀ h, keep h = true ↔ ∀ c ∈ l, ∀ x, s.context c = some x → ¬ drops c x h := by
    intro l
    induction l with
    | nil => intro t _ _ _; exact ⟨by simp, fun _ => true, by simp, by simp⟩
    | cons c l ih =>
      intro t nodup same headers
      obtain ⟨others, kept, reports, keep, engine, keeps⟩ := step c t (same c List.mem_cons_self) headers
      have out := (List.nodup_cons.mp nodup).1
      obtain ⟨reports', keep', engine', keeps'⟩ := ih (f c t) (List.nodup_cons.mp nodup).2
        (fun d hd => (others d fun e => out (e ▸ hd)).trans (same d (List.mem_cons_of_mem _ hd)))
        (fun q => (kept q).trans (headers q))
      refine ⟨?_, fun h => keep' h && keep h, ?_, ?_⟩
      · rw [List.foldl_cons, reports', reports]; simp
      · rw [List.foldl_cons, engine', engine, List.filter_filter]
      · intro h; rw [Bool.and_eq_true, keeps, keeps']; simp [and_comm]
  obtain ⟨reports, keep, engine, keeps⟩ := pass (List.finRange 24) s (List.nodup_finRange 24) (fun _ _ => rfl) fun _ => rfl
  exact ⟨reports, keep, engine, fun h => by rw [keeps]; simp⟩

/-! ## The power warning -/

/-- R51: a held read is answered with the fill pattern, whichever slot it is on. -/
theorem answerAnyHeld_held {s : State} {q : HeldRead} {o : Outstanding} (held : s.slots.held = some q)
    (access : s.ports.r.access = some o) :
    s.answerAnyHeld = (s.setHeld none).supply .r o.access.size fillPattern := by
  simp only [answerAnyHeld, held, answerHeld, access, if_true]

/-- R51: with no read held nothing is answered. -/
theorem answerAnyHeld_none {s : State} (h : s.slots.held = none ∨ s.ports.r.access = none) : s.answerAnyHeld = s := by
  unfold answerAnyHeld answerHeld
  split
  · next q hq =>
    split
    · next q' o _ ho =>
      rcases h with h | h
      · rw [h] at hq; cases hq
      · rw [h] at ho; cases ho
    · rfl
  · rfl

/-- R51: answering a held read changes what is held and the R-port only. -/
theorem answerAnyHeld_eq (s : State) :
    ∃ held port, s.answerAnyHeld = { s with slots := { s.slots with held := held }, ports := { s.ports with r := port } }
      ∧ (∀ q o, s.slots.held = some q → s.ports.r.access = some o →
        held = none ∧ port = ⟨none, some (.done (some (o.access.size.extract fillPattern)))⟩)
      ∧ (s.slots.held = none ∨ s.ports.r.access = none → held = s.slots.held ∧ port = s.ports.r) := by
  rcases hq : s.slots.held with _ | q
  · exact ⟨none, s.ports.r, by rw [answerAnyHeld_none (.inl hq)]; simp [← hq], by simp, by simp⟩
  · rcases ho : s.ports.r.access with _ | o
    · exact ⟨some q, s.ports.r, by rw [answerAnyHeld_none (.inr ho)]; simp [← hq], by simp, by simp⟩
    · refine ⟨none, ⟨none, some (.done (some (o.access.size.extract fillPattern)))⟩, ?_, ?_, by simp⟩
      · rw [answerAnyHeld_held hq ho]; rfl
      · rintro q' o' _ e; cases e; exact ⟨rfl, rfl⟩

/-- R170: a power warning, written out. -/
theorem powerWarning_eq (s : State) :
    ∃ held port,
      s.powerWarning = { s with
        controller := { s.controller with state := .halted, wake := .asleep }
        contexts := ⟨Table.fill 24 none, [], s.contexts.abandoned + BitVec.ofNat 32 (24 - s.contextsIn none)⟩
        keys := { s.keys with entries := s.keys.entries.map fun e => ({ e with references := 0 } : KeyEntry).settle }
        engine := Engine.reset, agent := Agent.reset, arbiter := s.arbiter.map InFlight.abandon
        reports := { s.reports with waiting := [], write := .idle }
        slots := { s.slots with
          held := held
          lanes := s.slots.lanes.map fun l =>
            { l with inbound := l.inbound.map fun _ => .free, outbound := l.outbound.map fun _ => OutSlot.reset } }
        ports := { s.ports with r := port }
        load := s.load.drop
        control := if s.control.setupRunning then ⟨⟨1, .state, 0⟩, false, s.control.raised ||| 2⟩ else s.control }
      ∧ (∀ q o, s.slots.held = some q → s.ports.r.access = some o →
        held = none ∧ port = ⟨none, some (.done (some (o.access.size.extract fillPattern)))⟩)
      ∧ (s.slots.held = none ∨ s.ports.r.access = none → held = s.slots.held ∧ port = s.ports.r) := by
  have halted : ∀ t : State, (t.dropLoad.stopSetup).enter .halted = { t with
      controller := { t.controller with state := .halted, wake := .asleep }
      load := t.load.drop
      control := if t.control.setupRunning then ⟨⟨1, .state, 0⟩, false, t.control.raised ||| 2⟩ else t.control } := by
    intro t
    have : t.dropLoad.control = t.control := rfl
    unfold stopSetup; rw [this]; cases t.control.setupRunning <;> rfl
  have start : s.powerWarning = (((({ s with
      contexts := ⟨Table.fill 24 none, [], s.contexts.abandoned + BitVec.ofNat 32 (24 - s.contextsIn none)⟩
      keys := { s.keys with entries := s.keys.entries.map fun e => ({ e with references := 0 } : KeyEntry).settle }
      engine := Engine.reset, agent := Agent.reset, arbiter := s.arbiter.map InFlight.abandon
      reports := { s.reports with waiting := [], write := .idle } } : State).clearSlots).dropLoad).stopSetup).enter .halted := rfl
  rw [start, halted]
  unfold clearSlots
  obtain ⟨held, port, answered, filled, kept⟩ := ({ s with
      contexts := ⟨Table.fill 24 none, [], s.contexts.abandoned + BitVec.ofNat 32 (24 - s.contextsIn none)⟩
      keys := { s.keys with entries := s.keys.entries.map fun e => ({ e with references := 0 } : KeyEntry).settle }
      engine := Engine.reset, agent := Agent.reset, arbiter := s.arbiter.map InFlight.abandon
      reports := { s.reports with waiting := [], write := .idle } } : State).answerAnyHeld_eq
  rw [answered]
  exact ⟨held, port, rfl, filled, kept⟩

/-- R170: what a power warning leaves. -/
theorem haltedFrom_powerWarning (s : State) : s.haltedFrom s.powerWarning := by
  obtain ⟨held, port, eq, filled, kept⟩ := s.powerWarning_eq
  rw [eq]
  refine ⟨rfl, fun c => Table.get_fill .., rfl, rfl, rfl, rfl, rfl, ⟨rfl, rfl, rfl⟩, rfl, fun r => ⟨?_, ?_⟩, fun n => ?_, rfl, ?_,
    ?_, fun q x hq hx => filled q x hq hx, fun h => kept h, rfl, rfl, rfl, rfl⟩
  · simp [inSlot]
  · simp [outSlot, OutSlot.reset]
  · simp
  · intro h; exact if_neg (by rw [h]; decide)
  · intro h; exact if_pos h

/-! ## The setup -/

/-- R57: the slot side of a setup leaves the part controller. -/
theorem controller_releaseSlotsForSetup (s : State) : s.releaseSlotsForSetup.controller = s.controller := by
  unfold releaseSlotsForSetup dropJobs answerAnyHeld answerHeld
  repeat' split
  all_goals rfl

/-- R155, R167: set-time. -/
theorem controller_setClockFrom (image : List Word) (s : State) : (s.setClockFrom image).controller =
    { s.controller with
      seconds := if setTime image = true then some (imageWord image 1) else s.controller.seconds
      millis := if setTime image = true then 0 else s.controller.millis } := by
  unfold setClockFrom
  split
  · unfold setClock evaluateKeys; split <;> rfl
  · rfl

/-- R155, R166, R167: the part controller under an applied setup. -/
theorem controller_applySetup (image : List Word) (s : State) : (s.applySetup image).controller =
    { s.controller with
      state := s.controller.state.afterSetup
      setupPresent := true
      seconds := if setTime image = true then some (imageWord image 1) else s.controller.seconds
      millis := if setTime image = true then 0 else s.controller.millis } := by
  show (State.setClockFrom _ _).controller = _
  rw [controller_setClockFrom]
  have e : (((s.releaseSlotsForSetup).enforce (Setup.ofImage image)).trimRecent).controller =
      { s.controller with setupPresent := true, state := s.controller.state.afterSetup } := by
    show ({ s.releaseSlotsForSetup.controller with
      setupPresent := true, state := s.releaseSlotsForSetup.controller.state.afterSetup } : Controller) = _
    rw [controller_releaseSlotsForSetup]
  rw [e]

/-- R57: nor does it touch the key table. -/
theorem keys_releaseSlotsForSetup (s : State) : s.releaseSlotsForSetup.keys = s.keys := by
  unfold releaseSlotsForSetup dropJobs answerAnyHeld answerHeld
  repeat' split
  all_goals rfl

/-- R93: the key table under set-time. -/
theorem keys_setClockFrom (image : List Word) (s : State) (h : setTime image = true) :
    (s.setClockFrom image).keys = { s.keys with
      entries := s.keys.entries.map fun e => (e.evaluate (some (imageWord image 1))).settle } := by
  unfold setClockFrom; rw [if_pos h]
  unfold setClock evaluateKeys; split <;> rfl

/-- R155, R93: an applied setup that sets the clock changes only the entries of the key table. -/
theorem keys_applySetup (image : List Word) (s : State) (h : setTime image = true) :
    (s.applySetup image).keys = { s.keys with
      entries := s.keys.entries.map fun e => (e.evaluate (some (imageWord image 1))).settle } := by
  show (State.setClockFrom _ _).keys = _
  rw [keys_setClockFrom _ _ h]
  have : ((s.releaseSlotsForSetup.enforce (Setup.ofImage image)).trimRecent).keys = s.keys := keys_releaseSlotsForSetup s
  rw [this]

/-! ## The report writer -/

/-- R141: what the report writer does when it weighs its conditions. -/
theorem weighReports_spec (s : State) :
    let t := s.weighReports
    (∃ jobs write, t = { s with agent := { s.agent with jobs := jobs }, reports := { s.reports with write := write } })
      ∧ (∀ h rest record, s.reports.write = .idle → s.reports.waiting = h :: rest → s.ringFull = false →
        s.heldReport h = some record → t.reports.write = .writing
          ∧ t.agent.jobs = s.agent.jobs ++ [.writeReport s.producerWord (record.words s.reports.sequence)])
      ∧ (s.reports.write ≠ .idle ∨ s.ringFull = true ∨ (∀ h rest, s.reports.waiting = h :: rest → s.heldReport h = none) →
        t = s) := by
  intro t
  have e : t = s.weighReports := rfl
  unfold weighReports at e
  rcases hw : s.reports.waiting with _ | ⟨h, rest⟩
  · rw [hw] at e; dsimp only at e; rw [e]
    refine ⟨⟨_, _, rfl⟩, ?_, fun _ => rfl⟩
    intro _ _ _ _ w; cases w
  · rw [hw] at e; dsimp only at e
    split at e
    · next c =>
      rw [e]
      refine ⟨⟨_, _, rfl⟩, fun h' r' rec i _ f _ => ?_, fun _ => rfl⟩
      rcases c with c | c
      · rw [f] at c; cases c
      · exact absurd i c
    · next c =>
      have c' := not_or.mp c
      rcases hr : s.heldReport h with _ | record
      · rw [hr] at e; dsimp only at e; rw [e]
        refine ⟨⟨_, _, rfl⟩, fun h' r' rec i w f k => ?_, fun _ => rfl⟩
        cases w; rw [hr] at k; cases k
      · rw [hr] at e; dsimp only at e; rw [e]
        refine ⟨⟨_, _, rfl⟩, fun h' r' rec i w f k => ?_, fun w => ?_⟩
        · cases w; rw [hr] at k; cases k; exact ⟨rfl, rfl⟩
        · rcases w with w | w | w
          · exact absurd w c'.2
          · exact absurd w c'.1
          · have := w h rest rfl; rw [hr] at this; cases this

/-- R82, R134: the context side of a purge keeps the agent and a report write in progress, and the ready list empty. -/
theorem writer_purgeContexts (v : State) (vr : v.engine.ready = []) :
    v.purgeContexts.reports.write = v.reports.write ∧ v.purgeContexts.agent = v.agent ∧ v.purgeContexts.engine.ready = [] := by
  have sp : Spoils (fun _ => True) v v.purgeContexts ∧ v.purgeContexts.reports.write = v.reports.write := by
    have : ∀ w, (Spoils (fun _ => True) v w ∧ w.reports.write = v.reports.write) →
        (Spoils (fun _ => True) v (Table.ascending 24 purgeContext w)
          ∧ (Table.ascending 24 purgeContext w).reports.write = v.reports.write) := by
      intro w hw
      refine Table.ascending_keeps (P := fun u => Spoils (fun _ => True) v u ∧ u.reports.write = v.reports.write)
        (fun c u hu => ?_) w hw
      unfold purgeContext
      rcases hx : u.context c with _ | x
      · exact hu
      · dsimp only; split
        · refine ⟨hu.1.trans ?_, hu.2⟩
          unfold endClosing modifyContext
          exact (spoils_setContext _ c _ u).trans (spoils_joinReports _ _ _)
        · next hne =>
          refine ⟨hu.1.trans ((spoils_close .purged c u).mono fun _ _ => trivial), ?_⟩
          by_cases cl : x.state.closable = true
          · rw [reports_close .purged hx]; exact hu.2
            cases hs : x.state <;> rw [hs] at cl <;> simp_all [ContextState.closable]
          · have : u.close .purged c = u := by unfold close; rw [hx]; dsimp only; rw [if_neg cl]
            rw [this]; exact hu.2
    have a := this (v.mapContexts fun x => { x with mark := false }) ⟨spoils_mapContexts _ _ _, rfl⟩
    unfold purgeContexts
    dsimp only
    clear this
    generalize Table.ascending 24 purgeContext _ = w at a ⊢
    exact ⟨a.1.trans (spoils_mapContexts _ _ _), a.2⟩
  refine ⟨sp.2, sp.1.agent, ?_⟩
  apply List.eq_nil_iff_forall_not_mem.mpr
  intro h hh
  have := sp.1.ready h hh
  rw [vr] at this; cases this

/-! ## The millisecond -/

/-- Log 4: a hold that began in an earlier millisecond expires. -/
theorem expireOverdue_eq (s : State) :
    s.expireOverdue = match s.slots.held with
      | some h => if h.began = s.controller.time then s else s.holdLimitExpiry
      | none => s := by
  unfold expireOverdue holdOverdue
  generalize s.holdLimitExpiry = t
  rcases s.slots.held with _ | h
  · rfl
  · by_cases e : h.began = s.controller.time <;> simp [e]

end State

end Sys2Proof.Machine
end

