-- ==== Sys2Proof/Laws/Layout.lean ====
section
/-! SUPPORT. The rings of a setup (spec/02 R14, spec/03 R33, spec/09 R154): what the lookup of an address in a lane's rings
finds, and that a setup which passes its checks is laid out. -/

namespace Sys2Proof.Machine

/-! ## The word of a slot -/

/-- R33: the slot and word that an address inside a ring divides into. -/
theorem ring_division {base count word words : Nat} (sizes : words = 16 ∨ words = 32) (few : count ≤ 16)
    (aligned : base % (4 * words) = 0) (low : base / 4 ≤ word) (high : word < base / 4 + count * words) (k : Fin 16) (w : Nat) :
    Fin.ofNat 16 ((word - base / 4) / words) = k ∧ (word - base / 4) % words = w ↔
      k.val < count ∧ w < words ∧ 4 * word = base + k.val * (4 * words) + 4 * w := by
  have := k.isLt
  rw [Fin.ext_iff]
  simp only [Fin.val_ofNat]
  rcases sizes with e | e <;> subst e <;> omega

/-- R33: a word of a slot lies inside its ring. -/
theorem ring_contains {base count word words : Nat} (sizes : words = 16 ∨ words = 32) (aligned : base % (4 * words) = 0)
    {k : Fin 16} {w : Nat} (slot : k.val < count) (inside : w < words) (address : 4 * word = base + k.val * (4 * words) + 4 * w) :
    base / 4 ≤ word ∧ word < base / 4 + count * words := by
  rcases sizes with e | e <;> subst e <;> omega

/-- R14: the words of a ring, as bytes. -/
theorem ring_bytes {base count word words : Nat} (sizes : words = 16 ∨ words = 32) (aligned : base % (4 * words) = 0)
    (low : base / 4 ≤ word) (high : word < base / 4 + count * words) :
    base ≤ 4 * word ∧ 4 * word < base + count * (4 * words) := by
  rcases sizes with e | e <;> subst e <;> omega

/-- R14, R33: the slot word that the lookup finds in the rings of one lane. -/
theorem Lane.find_eq_some_iff {l : Lane} (placed : l.enable = true → l.placed)
    (apart : l.enable = true →
      clear l.inBase (l.inCount * (4 * l.slotWords)) l.outBase (l.outCount * (4 * l.slotWords)))
    (n m : Fin 8) (word : Nat) (ring : Ring) (k : Fin 16) (w : Nat) :
    l.find n word = some ⟨ring, ⟨m, k⟩, w⟩ ↔
      m = n ∧ l.enable = true ∧ k.val < l.ringSlots ring ∧ w < l.slotWords
        ∧ 4 * word = l.ringBase ring + k.val * (4 * l.slotWords) + 4 * w := by
  by_cases on : l.enable = true
  · obtain ⟨sizes, rings⟩ := placed on
    have fewIn : l.inCount ≤ 16 := (rings .inbound).1
    have fewOut : l.outCount ≤ 16 := (rings .outbound).1
    have alignedIn : l.inBase % (4 * l.slotWords) = 0 := (rings .inbound).2.1
    have alignedOut : l.outBase % (4 * l.slotWords) = 0 := (rings .outbound).2.1
    have apart := apart on
    unfold Lane.find
    rw [if_pos on]
    by_cases hi : l.inBase / 4 ≤ word ∧ word < l.inBase / 4 + l.inCount * l.slotWords
    · rw [if_pos hi]
      simp only [Option.some.injEq, SlotWord.mk.injEq, SlotRef.mk.injEq]
      have inBytes := ring_bytes sizes alignedIn hi.1 hi.2
      cases ring with
      | inbound =>
        have split := ring_division sizes fewIn alignedIn hi.1 hi.2 k w
        exact ⟨fun h => ⟨h.2.1.1.symm, on, split.1 ⟨h.2.1.2, h.2.2⟩⟩,
          fun h => ⟨rfl, ⟨h.1.symm, (split.2 h.2.2).1⟩, (split.2 h.2.2).2⟩⟩
      | outbound =>
        refine ⟨fun h => (nomatch h.1), fun h => ?_⟩
        have lies := ring_contains sizes alignedOut (count := l.outCount) h.2.2.1 h.2.2.2.1 h.2.2.2.2
        have outBytes := ring_bytes sizes alignedOut lies.1 lies.2
        exfalso
        rcases apart with e | e <;> omega
    · rw [if_neg hi]
      by_cases ho : l.outBase / 4 ≤ word ∧ word < l.outBase / 4 + l.outCount * l.slotWords
      · rw [if_pos ho]
        simp only [Option.some.injEq, SlotWord.mk.injEq, SlotRef.mk.injEq]
        cases ring with
        | inbound =>
          refine ⟨fun h => (nomatch h.1), fun h => ?_⟩
          exact absurd (ring_contains sizes alignedIn (count := l.inCount) h.2.2.1 h.2.2.2.1 h.2.2.2.2) hi
        | outbound =>
          have split := ring_division sizes fewOut alignedOut ho.1 ho.2 k w
          exact ⟨fun h => ⟨h.2.1.1.symm, on, split.1 ⟨h.2.1.2, h.2.2⟩⟩,
            fun h => ⟨rfl, ⟨h.1.symm, (split.2 h.2.2).1⟩, (split.2 h.2.2).2⟩⟩
      · rw [if_neg ho]
        refine ⟨fun h => (nomatch h), fun h => ?_⟩
        exfalso
        cases ring with
        | inbound => exact hi (ring_contains sizes alignedIn (count := l.inCount) h.2.2.1 h.2.2.2.1 h.2.2.2.2)
        | outbound => exact ho (ring_contains sizes alignedOut (count := l.outCount) h.2.2.1 h.2.2.2.1 h.2.2.2.2)
  · unfold Lane.find
    rw [if_neg on]
    exact ⟨fun h => (nomatch h), fun h => absurd h.2.1 on⟩

/-! ## A setup that passes its checks -/

theorem clear_of_not_overlaps {a b : Range} (h : a.overlaps b = false) : clear a.base a.bytes b.base b.bytes := by
  unfold Range.overlaps at h
  rw [decide_eq_false_iff_not] at h
  unfold clear
  omega

/-- R154: the rings of a lower-numbered enabled lane are among those a ring is checked against. -/
theorem mem_lowerRings (x : Setup) {n m : Fin 8} (lower : m < n) (on : (x.lanes.get m).enable = true) :
    (x.lanes.get m).inRange ∈ lowerRings x n ∧ (x.lanes.get m).outRange ∈ lowerRings x n := by
  have taken : x.lanes.get m ∈ (x.lanes.cells.take n.val).filter (·.enable) := by
    rw [List.mem_filter, List.mem_take_iff_getElem]
    exact ⟨⟨m.val, by have := x.lanes.size; omega, rfl⟩, on⟩
  unfold lowerRings
  exact ⟨List.mem_flatMap.2 ⟨_, taken, List.mem_cons_self⟩, List.mem_flatMap.2 ⟨_, taken, List.mem_cons_of_mem _ List.mem_cons_self⟩⟩

/-- R154: what the checks of a lane's first three words say. -/
theorem lane_passes {image : List Word} {clockSet : Bool} {block : Range} {x : Setup}
    (passes : ∀ k, k < 44 → wordPasses image clockSet block x k = true) (n : Fin 8) :
    let l := x.lanes.get n
    ((l.slotWords = 16 ∨ l.slotWords = 32) ∧ l.inCount ≤ 16 ∧ l.outCount ≤ 16)
      ∧ l.basePasses l.inBase (l.inRange.placed block (lowerRings x n)) = true
      ∧ l.basePasses l.outBase (l.outRange.placed block (lowerRings x n ++ [l.inRange])) = true := by
  have low : ∀ i, ¬ 12 + 4 * n.val + i = 0 ∧ ¬ 12 + 4 * n.val + i = 1 ∧ ¬ 12 + 4 * n.val + i = 2 ∧ ¬ 12 + 4 * n.val + i = 3
      ∧ ¬ 12 + 4 * n.val + i < 12 := by intro i; omega
  have part : ∀ i, i < 4 → (12 + 4 * n.val + i - 12) / 4 = n.val ∧ (12 + 4 * n.val + i - 12) % 4 = i := by intro i hi; omega
  have p0 := passes (12 + 4 * n.val + 0) (by omega)
  have p1 := passes (12 + 4 * n.val + 1) (by omega)
  have p2 := passes (12 + 4 * n.val + 2) (by omega)
  simp only [wordPasses, low, if_false, (part _ (by decide : 0 < 4)).1, (part _ (by decide : 0 < 4)).2,
    (part _ (by decide : 1 < 4)).1, (part _ (by decide : 1 < 4)).2, (part _ (by decide : 2 < 4)).1,
    (part _ (by decide : 2 < 4)).2, Fin.ofNat_val_eq_self] at p0 p1 p2
  simp only [Bool.and_eq_true, Bool.or_eq_true, beq_iff_eq, decide_eq_true_eq] at p0
  exact ⟨⟨p0.1, p0.2.2.1, p0.2.2.2.2⟩, p1, p2⟩

/-- R154: what the check of a ring base says of an enabled lane. -/
theorem base_passes {l : Lane} {base : Nat} {ring block : Range} {others : List Range} (on : l.enable = true)
    (passes : l.basePasses base (ring.placed block others) = true) :
    base % (4 * l.slotWords) = 0 ∧ ring.base + ring.bytes ≤ Memory.bytes ∧ ∀ o ∈ others, ring.overlaps o = false := by
  unfold Lane.basePasses Range.placed at passes
  rw [on] at passes
  simp only [Bool.and_eq_true, beq_iff_eq, decide_eq_true_eq, List.all_eq_true, Bool.not_true, Bool.false_or,
    Bool.not_eq_true'] at passes
  exact ⟨passes.1, passes.2.1.1, passes.2.2⟩

/-- R154, R155: a setup in force that passed its checks is laid out. -/
theorem laidOut_of_passes {image : List Word} {clockSet : Bool} {block : Range} {s : State}
    (passes : ∀ k, k < 44 → wordPasses image clockSet block s.setup k = true) : s.laidOut := by
  have lane := lane_passes passes
  have inPasses := fun n (on : (s.setup.lanes.get n).enable = true) => base_passes on (lane n).2.1
  have outPasses := fun n (on : (s.setup.lanes.get n).enable = true) => base_passes on (lane n).2.2
  have higher : ∀ n m ring ring', (s.setup.lanes.get n).enable = true → (s.setup.lanes.get m).enable = true → m < n →
      clear ((s.setup.lanes.get n).ringBase ring)
        ((s.setup.lanes.get n).ringSlots ring * (4 * (s.setup.lanes.get n).slotWords))
        ((s.setup.lanes.get m).ringBase ring')
        ((s.setup.lanes.get m).ringSlots ring' * (4 * (s.setup.lanes.get m).slotWords)) := by
    intro n m ring ring' on on' lower
    obtain ⟨inMem, outMem⟩ := mem_lowerRings s.setup lower on'
    cases ring <;> cases ring'
    · exact clear_of_not_overlaps ((inPasses n on).2.2 _ inMem)
    · exact clear_of_not_overlaps ((inPasses n on).2.2 _ outMem)
    · exact clear_of_not_overlaps ((outPasses n on).2.2 _ (List.mem_append_left _ inMem))
    · exact clear_of_not_overlaps ((outPasses n on).2.2 _ (List.mem_append_left _ outMem))
  have ringWord := passes 2 (by decide)
  simp only [wordPasses, show ¬ (2 = 0) by decide, show ¬ (2 = 1) by decide, if_false, if_true, decide_eq_true_eq] at ringWord
  refine ⟨fun n on => ⟨(lane n).1.1, fun ring => ?_⟩, fun n m ring ring' on on' other => ?_,
    fun _ => ⟨ringWord.1, ringWord.2.1, ringWord.2.2.2.2⟩⟩
  · cases ring
    · exact ⟨(lane n).1.2.1, (inPasses n on).1, (inPasses n on).2.1⟩
    · exact ⟨(lane n).1.2.2, (outPasses n on).1, (outPasses n on).2.1⟩
  · rcases Nat.lt_trichotomy n.val m.val with h | h | h
    · exact (higher m n ring' ring on' on h).symm
    · obtain rfl : n = m := Fin.ext h
      have own := clear_of_not_overlaps ((outPasses n on).2.2 _ (List.mem_append_right _ (List.mem_singleton_self _)))
      cases ring <;> cases ring'
      · exact absurd rfl other
      · exact own.symm
      · exact own
      · exact absurd rfl other
    · exact higher n m ring ring' on on' h

end Sys2Proof.Machine
end

