-- ==== Sys2Proof/Laws/Memory.lean ====
section
/-! SUPPORT. The laws of frame memory: the canonical form and what a read gives after a write. -/

namespace Sys2Proof.Machine.Memory

/-- A memory whose lowest address is above `a`. -/
abbrev Above (a : Nat) (m : Memory) : Prop := ∀ c ∈ m, a < c.1

theorem wf_nil : Memory.wf [] := by simp [Memory.wf]

theorem wf_tail {c : Host.Cell} {m : Memory} (h : Memory.wf (c :: m)) : Memory.wf m :=
  ⟨(List.pairwise_cons.mp h.1).2, fun d hd => h.2 d (List.mem_cons_of_mem _ hd)⟩

theorem above_of_wf {c : Host.Cell} {m : Memory} (h : Memory.wf (c :: m)) : Above c.1 m :=
  (List.pairwise_cons.mp h.1).1

/-- Below every listed address memory reads as nothing written. -/
theorem read_above {a : Nat} {m : Memory} (h : Above a m) : read m a = unwritten := by
  induction m with
  | nil => rfl
  | cons c m ih =>
    have := h c (List.mem_cons_self ..)
    simp only [read, if_neg (Nat.ne_of_gt this)]
    exact ih fun d hd => h d (List.mem_cons_of_mem _ hd)

theorem wf_cons {a : Nat} {v : Byte} {m : Memory} (h : Memory.wf m) (above : Above a m) (inside : a < bytes) :
    Memory.wf (cons a v m) := by
  unfold cons
  split
  · exact h
  · next hv =>
    refine ⟨List.pairwise_cons.mpr ⟨above, h.1⟩, ?_⟩
    intro c hc
    rcases List.mem_cons.mp hc with rfl | hc
    · exact ⟨inside, hv⟩
    · exact h.2 c hc

theorem read_cons {a b : Nat} {v : Byte} {m : Memory} (above : Above a m) :
    read (cons a v m) b = if b = a then v else read m b := by
  unfold cons
  split
  · next hv =>
    split
    · next h => subst h; rw [read_above above, hv]
    · rfl
  · simp only [read]
    by_cases h : b = a
    · subst h; simp
    · simp [h, Ne.symm h]

theorem above_write {a b : Nat} {v : Byte} {m : Memory} (h : Above b m) (hb : b < a) : Above b (write m a v) := by
  induction m with
  | nil =>
    unfold write cons; split
    · simp [Above]
    · intro c hc; simp at hc; subst hc; exact hb
  | cons c m ih =>
    have hm : Above b m := fun d hd => h d (List.mem_cons_of_mem _ hd)
    have hc := h c (List.mem_cons_self ..)
    unfold write
    split
    · unfold cons; split
      · exact h
      · intro d hd; rcases List.mem_cons.mp hd with rfl | hd
        · exact hb
        · exact h d hd
    · split
      · unfold cons; split
        · exact hm
        · intro d hd; rcases List.mem_cons.mp hd with rfl | hd
          · exact hb
          · exact hm d hd
      · intro d hd; rcases List.mem_cons.mp hd with rfl | hd
        · exact hc
        · exact ih hm d hd

theorem above_of_lt {a : Nat} {c : Host.Cell} {m : Memory} (h : Memory.wf (c :: m)) (hac : a < c.1) : Above a (c :: m) := by
  intro d hd
  rcases List.mem_cons.mp hd with rfl | hd
  · exact hac
  · exact Nat.lt_trans hac (above_of_wf h d hd)

/-- A write keeps the canonical form. -/
theorem wf_write {m : Memory} (h : Memory.wf m) {a : Nat} (inside : a < bytes) (v : Byte) : Memory.wf (write m a v) := by
  induction m with
  | nil => exact wf_cons wf_nil (by simp [Above]) inside
  | cons c m ih =>
    unfold write
    split
    · next hac => exact wf_cons h (above_of_lt h hac) inside
    · split
      · next hac => exact wf_cons (wf_tail h) (hac ▸ above_of_wf h) inside
      · next h₁ h₂ =>
        refine ⟨List.pairwise_cons.mpr ⟨above_write (above_of_wf h) (by omega), (ih (wf_tail h)).1⟩, ?_⟩
        intro d hd
        rcases List.mem_cons.mp hd with rfl | hd
        · exact h.2 d (List.mem_cons_self ..)
        · exact (ih (wf_tail h)).2 d hd

/-- A read after a write. -/
theorem read_write {m : Memory} (h : Memory.wf m) (a : Nat) (v : Byte) (b : Nat) :
    read (write m a v) b = if b = a then v else read m b := by
  induction m with
  | nil => exact read_cons (by simp [Above])
  | cons c m ih =>
    unfold write
    split
    · next hac => exact read_cons (above_of_lt h hac)
    · split
      · next hac =>
        rw [read_cons (hac ▸ above_of_wf h)]
        simp only [read]
        by_cases hb : b = a
        · simp [hb]
        · have hc : c.1 ≠ b := fun e => hb (by rw [hac, e])
          simp [hb, hc]
      · next h₁ h₂ =>
        simp only [read]
        by_cases hc : c.1 = b
        · have hb : b ≠ a := fun e => h₂ (by rw [← e, hc])
          simp [hc, hb]
        · simp [hc, ih (wf_tail h)]

/-- The addresses of a word lie inside the address space. -/
theorem byteAddress_lt (word : BitVec 20) {i : Nat} (h : i < 4) : byteAddress word i < bytes := by
  have := word.isLt; unfold byteAddress bytes; omega

theorem size_bound (size : Size) : size.offset + size.bytes ≤ 4 := by
  cases size with
  | word => decide
  | half u => cases u <;> decide
  | byte i => simp only [Size.offset, Size.bytes]; omega

theorem writeBytes_succ (m : Memory) (word : BitVec 20) (at_ n : Nat) (f : Nat → Byte) :
    m.writeBytes word at_ (n + 1) f = (m.writeBytes word at_ n f).write (byteAddress word (at_ + n)) (f n) := by
  simp [writeBytes, List.range_succ, List.foldl_append]

/-- Writing some bytes of a word keeps the canonical form. -/
theorem wf_writeBytes {m : Memory} (h : Memory.wf m) (word : BitVec 20) {at_ n : Nat} (f : Nat → Byte) (bound : at_ + n ≤ 4) :
    Memory.wf (m.writeBytes word at_ n f) := by
  induction n with
  | zero => exact h
  | succ n ih => rw [writeBytes_succ]; exact wf_write (ih (by omega)) (byteAddress_lt word (by omega)) _

/-- A read after writing some bytes of a word. -/
theorem read_writeBytes {m : Memory} (h : Memory.wf m) (word : BitVec 20) {at_ n : Nat} (f : Nat → Byte) (bound : at_ + n ≤ 4)
    (b : Nat) : read (m.writeBytes word at_ n f) b =
      if byteAddress word at_ ≤ b ∧ b < byteAddress word (at_ + n) then f (b - byteAddress word at_) else read m b := by
  induction n with
  | zero =>
    rw [if_neg]
    · rfl
    · unfold byteAddress; omega
  | succ n ih =>
    rw [writeBytes_succ, read_write (wf_writeBytes h word f (by omega)), ih (by omega)]
    unfold byteAddress
    by_cases hb : b = 4 * word.toNat + (at_ + n)
    · subst hb
      rw [if_pos rfl, if_pos (by omega)]
      congr 1; omega
    · rw [if_neg hb]
      by_cases hr : 4 * word.toNat + at_ ≤ b ∧ b < 4 * word.toNat + (at_ + n)
      · rw [if_pos hr, if_pos (by omega)]
      · rw [if_neg hr, if_neg (by omega)]

/-- The write of an access keeps the canonical form. -/
theorem wf_store {m : Memory} (h : Memory.wf m) (word : BitVec 20) (size : Size) (data : Word) :
    Memory.wf (m.store word size data) := wf_writeBytes h word _ (size_bound size)

/-- A read after the write of an access. -/
theorem read_store {m : Memory} (h : Memory.wf m) (word : BitVec 20) (size : Size) (data : Word) (b : Nat) :
    read (m.store word size data) b =
      if byteAddress word size.offset ≤ b ∧ b < byteAddress word (size.offset + size.bytes) then
        data.byte (b - byteAddress word size.offset)
      else read m b := read_writeBytes h word _ (size_bound size) b

/-- Any list of cells gives a canonical memory. -/
theorem wf_ofCells (cells : List Host.Cell) : Memory.wf (ofCells cells) := by
  unfold ofCells
  suffices ∀ m, Memory.wf m → Memory.wf (cells.foldl (fun m c => m.write (c.1 % bytes) c.2) m) from this [] wf_nil
  induction cells with
  | nil => exact fun m h => h
  | cons c l ih => exact fun m h => ih _ (wf_write h (Nat.mod_lt _ (by decide)) _)

/-- The bytes of a failed write keep the canonical form. -/
theorem wf_spoilMemory {s : State} (h : Memory.wf s.mem) (word : BitVec 20) (size : Size) :
    Memory.wf (s.spoilMemory word size).mem := wf_writeBytes h word _ (size_bound size)

/-- Equal reads at every address make canonical memories equal. -/
theorem ext_read {m m' : Memory} (h : Memory.wf m) (h' : Memory.wf m') (e : ∀ a, read m a = read m' a) : m = m' := by
  induction m generalizing m' with
  | nil =>
    cases m' with
    | nil => rfl
    | cons c m' =>
      have := e c.1
      simp only [read, if_true] at this
      exact absurd this.symm (h'.2 c (List.mem_cons_self ..)).2
  | cons c m ih =>
    cases m' with
    | nil =>
      have := e c.1
      simp only [read, if_true] at this
      exact absurd this (h.2 c (List.mem_cons_self ..)).2
    | cons d m' =>
      have hc := (h.2 c (List.mem_cons_self ..)).2
      have hd := (h'.2 d (List.mem_cons_self ..)).2
      have same : c.1 = d.1 := by
        rcases Nat.lt_trichotomy c.1 d.1 with hlt | heq | hgt
        · have := e c.1
          rw [read_above (above_of_lt h' hlt)] at this
          simp only [read, if_true] at this
          exact absurd this hc
        · exact heq
        · have := e d.1
          rw [read_above (above_of_lt h hgt)] at this
          simp only [read, if_true] at this
          exact absurd this.symm hd
      have val : c.2 = d.2 := by have := e c.1; simpa [read, same] using this
      have cd : c = d := Prod.ext same val
      subst cd
      congr 1
      apply ih (wf_tail h) (wf_tail h')
      intro a
      by_cases ha : c.1 = a
      · subst ha; rw [read_above (above_of_wf h), read_above (above_of_wf h')]
      · have := e a; simpa [read, ha] using this

end Sys2Proof.Machine.Memory
end

