-- ==== Sys2Proof/Laws/Mrest.lean ====
section
/-! SUPPORT. What the assertion of MREST does at the ports and at the memory port (R30, R31, R165). -/

namespace Sys2Proof.Machine.State

/-- R30: MREST at one port changes the ports, the refusal record, the causes, the memory port and memory. -/
theorem restPort_form (p : Port) (s : State) : ∃ ports path raised arbiter mem fresh, s.restPort p = { s with
        ports := ports, path := path, control := { s.control with raised := raised }, arbiter := arbiter, mem := mem, fresh := fresh } := by
  unfold restPort
  split
  · cases p <;> exact ⟨_, _, _, _, _, _, rfl⟩
  · unfold failInFlight; split <;> cases p <;> exact ⟨_, _, _, _, _, _, rfl⟩
  · exact ⟨s.ports, s.path, s.control.raised, s.arbiter, s.mem, s.fresh, rfl⟩

/-- R30: the same of both ports. -/
theorem restPorts_form (o : Order) (s : State) : ∃ ports path raised arbiter mem fresh, s.restPorts o = { s with
        ports := ports, path := path, control := { s.control with raised := raised }, arbiter := arbiter, mem := mem, fresh := fresh } := by
  unfold restPorts
  cases o
  · obtain ⟨a, b, c, d, e, f, h⟩ := restPort_form .c s
    obtain ⟨a', b', c', d', e', f', h'⟩ := restPort_form .r (s.restPort .c)
    refine ⟨a', b', c', d', e', f', h'.trans ?_⟩
    rw [h]
  · obtain ⟨a, b, c, d, e, f, h⟩ := restPort_form .r s
    obtain ⟨a', b', c', d', e', f', h'⟩ := restPort_form .c (s.restPort .r)
    refine ⟨a', b', c', d', e', f', h'.trans ?_⟩
    rw [h]

/-- R30, R31: a failed word of the agent frees the memory port. -/
theorem failAgentWord_form (s : State) : ∃ mem fresh, s.failAgentWord = { s with arbiter := none, mem := mem, fresh := fresh } := by
  unfold failAgentWord
  split
  · split
    · exact ⟨_, _, rfl⟩
    · exact ⟨s.mem, s.fresh, rfl⟩
  · exact ⟨s.mem, s.fresh, rfl⟩

/-- R165: MREST at one port under RESET: an access in flight waits again. -/
theorem retryPort_spec (p : Port) (s : State) :
    ∃ arbiter mem fresh port,
      s.retryPort p = ({ s with arbiter := arbiter, mem := mem, fresh := fresh } : State).setPort p port
      ∧ (∀ x judged, (s.port p).access = some x → x.phase = .inFlight judged →
        port = ⟨some ⟨x.access, .waiting none, false⟩, (s.port p).response⟩)
      ∧ ((∀ x judged, (s.port p).access = some x → x.phase ≠ .inFlight judged) →
        port = s.port p ∧ mem = s.mem ∧ arbiter = s.arbiter) := by
  unfold retryPort
  rcases e : (s.port p).access with _ | ⟨a, ph, since⟩
  · refine ⟨s.arbiter, s.mem, s.fresh, s.port p, by cases p <;> rfl, ?_, fun _ => ⟨rfl, rfl, rfl⟩⟩
    intro x _ hx; cases hx
  · rcases ph with _ | t | j | _
    · refine ⟨s.arbiter, s.mem, s.fresh, s.port p, by cases p <;> rfl, fun x _ hx hp => ?_, fun _ => ⟨rfl, rfl, rfl⟩⟩
      cases hx; cases hp
    · refine ⟨s.arbiter, s.mem, s.fresh, s.port p, by cases p <;> rfl, fun x _ hx hp => ?_, fun _ => ⟨rfl, rfl, rfl⟩⟩
      cases hx; cases hp
    · have form : ∃ mem fresh, s.failInFlight a = { s with arbiter := none, mem := mem, fresh := fresh } := by
        unfold failInFlight; split
        · exact ⟨_, _, rfl⟩
        · exact ⟨s.mem, s.fresh, rfl⟩
      obtain ⟨m, f, hf⟩ := form
      dsimp only
      rw [hf]
      refine ⟨none, m, f, ⟨some ⟨a, .waiting none, false⟩, (s.port p).response⟩, by cases p <;> rfl,
        fun x _ hx hp => ?_, fun w => absurd rfl (w _ j rfl)⟩
      cases hx; rfl
    · refine ⟨s.arbiter, s.mem, s.fresh, s.port p, by cases p <;> rfl, fun x _ hx hp => ?_, fun _ => ⟨rfl, rfl, rfl⟩⟩
      cases hx; cases hp

end Sys2Proof.Machine.State
end

