-- ==== Sys2Proof/Laws/StartUp.lean ====
section
/-! SUPPORT. What start-up does (R165): the volatile items, the retained store, MREST, PWARN and PURGE as they stand. -/

namespace Sys2Proof.Machine

/-- R165 steps 2 and 3, R104: the key table that start-up takes from the retained store. -/
theorem Keys.startUp_spec (k : Keys) :
    k.startUp.highestSerial = k.highestSerial ∧ k.startUp.eraseMark = false
    ∧ (k.eraseMark = true → ∀ i, k.startUp.entries.get i = KeyEntry.empty)
    ∧ (k.eraseMark = false → ∀ i, k.startUp.entries.get i = (k.entries.get i).startUp)
    ∧ (∀ i, (k.startUp.entries.get i).state = .empty ∨ (k.startUp.entries.get i).state = .waiting)
    ∧ ∀ i, (k.startUp.entries.get i).references = 0 := by
  unfold Keys.startUp
  split
  · next h =>
    refine ⟨rfl, rfl, fun _ i => Table.get_fill .., fun h' => (by rw [h] at h'; cases h'), fun i => .inl ?_, fun i => ?_⟩
    · show ((Table.fill 48 KeyEntry.empty).get i).state = _
      rw [Table.get_fill]; rfl
    · show ((Table.fill 48 KeyEntry.empty).get i).references = _
      rw [Table.get_fill]; rfl
  · next h =>
    have e : ∀ i, (k.entries.map KeyEntry.startUp).get i = (k.entries.get i).startUp := fun i => Table.get_map ..
    refine ⟨rfl, by simpa using h, fun h' => absurd h' h, fun _ i => e i, fun i => ?_, fun i => ?_⟩
    · show ((k.entries.map KeyEntry.startUp).get i).state = _ ∨ ((k.entries.map KeyEntry.startUp).get i).state = _
      rw [e]
      unfold KeyEntry.startUp KeyEntry.retained KeyEntry.ages
      cases hs : (k.entries.get i).state <;> simp [KeyEntry.empty]
    · show ((k.entries.map KeyEntry.startUp).get i).references = _
      rw [e]
      unfold KeyEntry.startUp; split <;> rfl

namespace State

/-- R165 step 4: what is volatile has its reset value. -/
theorem holdsResetValues_loseVolatile (c : Controller) (k : Keys) (s : State) : (s.loseVolatile c k).holdsResetValues := by
  refine ⟨fun c => Table.get_fill .., rfl, rfl, rfl, rfl, rfl, rfl, rfl, rfl, ?_, rfl, ?_, rfl, rfl⟩
  · intro r
    simp [State.inSlot, State.outSlot, State.loseVolatile, Slots.reset, LaneSlots.reset, OutSlot.reset]
  · intro n
    simp [State.loseVolatile, Slots.reset, LaneSlots.reset, Setup.reset, Lane.reset]

/-- R82: with no context open nothing closes. -/
theorem purgeContexts_of_none {s : State} (h : ∀ c, s.context c = none) : s.purgeContexts = s := by
  have m : ∀ (t : State) (f : Context → Context), (∀ c, t.context c = none) → t.mapContexts f = t := by
    intro t f h
    have : t.contexts.table.map (fun x => x.map f) = t.contexts.table := by
      apply Table.ext_get; intro c
      have := h c
      unfold context at this
      rw [Table.get_map, this]; rfl
    unfold mapContexts; rw [this]
  have a : Table.ascending 24 purgeContext s = s := by
    have : ∀ t : State, t = s → Table.ascending 24 purgeContext t = s := by
      intro t ht
      exact Table.ascending_keeps (P := fun u => u = s) (fun c u e => by rw [e]; unfold purgeContext; rw [h c]) t ht
    exact this s rfl
  unfold purgeContexts
  rw [m s _ h]; dsimp only; rw [a, m s _ h]

/-- R172: the entry into PURGING of a part that has just started. -/
theorem enterPurging_started {s : State} (h : s.holdsResetValues) :
    s.enterPurging = { s with
      keys := s.keys.purge
      controller := { s.controller with
        state := .purging, wake := .asleep, purgeAtWake := false, fromHalted := s.controller.state == .halted } } := by
  obtain ⟨none, _, _, engine, _, reports, load, _, _, slots, _, _⟩ := h
  unfold enterPurging
  rw [purgeContexts_of_none (by exact none)]
  have free : (s.slots.lanes.map fun l =>
      { l with inbound := l.inbound.map id, outbound := l.outbound.map OutSlot.dropResult }) = s.slots.lanes := by
    apply Table.ext_get; intro n
    rw [Table.get_map]
    have a : (s.slots.lanes.get n).inbound.map id = (s.slots.lanes.get n).inbound := by
      apply Table.ext_get; intro k; simp
    have b : (s.slots.lanes.get n).outbound.map OutSlot.dropResult = (s.slots.lanes.get n).outbound := by
      apply Table.ext_get; intro k; rw [Table.get_map]
      have := (slots ⟨n, k⟩).2
      unfold outSlot at this
      rw [this]; rfl
    rw [a, b]
  rw [settle_of_idle]
  · have l : s.load.drop = s.load := by rw [load]; rfl
    show ({ s with
      keys := s.keys.purge, load := s.load.drop, engine := Engine.reset
      slots := { s.slots with lanes := s.slots.lanes.map fun l =>
        { l with inbound := l.inbound.map id, outbound := l.outbound.map OutSlot.dropResult } }
      controller := _ } : State) = _
    rw [free, l, show Engine.reset = s.engine from engine.symm]
    rfl
  · rfl
  · show s.reports.waiting = []
    rw [reports]

/-- R170: a power warning at a part that has just started. -/
theorem powerWarning_started {s : State} (h : s.holdsResetValues) :
    s.powerWarning = { s with
      controller := { s.controller with state := .halted, wake := .asleep }
      keys := { s.keys with entries := s.keys.entries.map fun e => ({ e with references := 0 } : KeyEntry).settle }
      arbiter := s.arbiter.map InFlight.abandon } := by
  obtain ⟨none, recent, abandoned, engine, agent, reports, load, _, running, slots, noHeld, _⟩ := h
  obtain ⟨held, port, eq, _, kept⟩ := s.powerWarning_eq
  obtain ⟨kh, kp⟩ := kept (.inl noHeld)
  rw [eq, kh, kp]
  have table : s.contexts.table = Table.fill 24 Option.none := by
    apply Table.ext_get; intro c; rw [Table.get_fill]; exact none c
  have count : s.contextsIn Option.none = 24 := by
    unfold contextsIn; rw [table]; rfl
  have con : (⟨Table.fill 24 Option.none, [],
      s.contexts.abandoned + BitVec.ofNat 32 (24 - s.contextsIn Option.none)⟩ : Contexts) = s.contexts := by
    rw [count, ← table, ← recent];
    show (⟨_, _, s.contexts.abandoned + 0#32⟩ : Contexts) = _
    rw [BitVec.add_zero]
  have lanes : (s.slots.lanes.map fun l =>
            { l with inbound := l.inbound.map fun _ => .free, outbound := l.outbound.map fun _ => OutSlot.reset }) = s.slots.lanes := by
    apply Table.ext_get; intro n
    rw [Table.get_map]
    have a : ((s.slots.lanes.get n).inbound.map fun _ => InSlot.free) = (s.slots.lanes.get n).inbound := by
      apply Table.ext_get; intro k; rw [Table.get_map]; exact (slots ⟨n, k⟩).1.symm
    have b : ((s.slots.lanes.get n).outbound.map fun _ => OutSlot.reset) = (s.slots.lanes.get n).outbound := by
      apply Table.ext_get; intro k; rw [Table.get_map]; exact (slots ⟨n, k⟩).2.symm
    rw [a, b]
  rw [con, lanes, running, show s.load.drop = s.load by rw [load]; rfl, show Engine.reset = s.engine from engine.symm,
    show Agent.reset = s.agent from agent.symm]
  have rep : ({ s.reports with waiting := [], write := .idle } : Reports) = s.reports := by rw [reports]
  rw [rep]; rfl

/-- R165 step 7, R172: PWARN and PURGE as they stand at start-up. -/
theorem sampleLines_started {v : State} (h : v.holdsResetValues) (st : v.controller.state = .unset) (wk : v.controller.wake = .asleep)
    (pw : v.controller.purgeAtWake = false) (fh : v.controller.fromHalted = false) (first : Bool) :
    ∃ keys arbiter, v.sampleLines first = { v with
      controller := { v.controller with
        state := if v.controller.lines.purge then .purging else if v.controller.lines.pwarn then .halted else .unset
        fromHalted := v.controller.lines.purge && v.controller.lines.pwarn && !first }
      keys := keys, arbiter := arbiter }
    ∧ (¬ (v.controller.lines.pwarn = true ∧ (v.controller.lines.purge = false ∨ first = false)) → arbiter = v.arbiter)
    ∧ ((v.controller.lines.pwarn = true ∧ (v.controller.lines.purge = false ∨ first = false)) →
      arbiter = v.arbiter.map InFlight.abandon)
    ∧ keys.highestSerial = v.keys.highestSerial
    ∧ (v.controller.lines.purge = true → keys.eraseMark = true ∧ ∀ k, keys.entries.get k = KeyEntry.empty)
    ∧ (v.controller.lines.purge = false → keys.eraseMark = v.keys.eraseMark ∧
      (keys.entries = v.keys.entries
        ∨ keys.entries = v.keys.entries.map fun e => ({ e with references := 0 } : KeyEntry).settle)) := by
  have hw : v.powerWarning.holdsResetValues := by rw [powerWarning_started h]; exact h
  have warn := powerWarning_started h
  have purge := enterPurging_started h
  have both := enterPurging_started hw
  rw [warn] at both
  unfold sampleLines
  rw [warn, both, purge]
  clear warn purge both hw h
  obtain ⟨⟨state, present, power, wake, waits, halted, straps, time, seconds, millis, ⟨w, m, p⟩⟩, path, ports, arbiter, agent, slots,
    contexts, keys, load, engine, reports, control, setup, mem, fresh, pending⟩ := v
  dsimp only at st wk pw fh
  subst st wk pw fh
  have arb : ∀ k : Fin 48, (keys.purge).entries.get k = KeyEntry.empty := fun k => Table.get_fill ..
  have dropped : ∀ k : Fin 48, ({ keys with entries := keys.entries.map fun e =>
      ({ e with references := 0 } : KeyEntry).settle } : Keys).purge.entries.get k = KeyEntry.empty := fun k => Table.get_fill ..
  cases w <;> cases p
  · exact ⟨keys, arbiter, rfl, fun _ => rfl, (fun x => nomatch x.1), rfl, (nomatch ·), fun _ => ⟨rfl, .inl rfl⟩⟩
  · exact ⟨keys.purge, arbiter, rfl, fun _ => rfl, (fun x => nomatch x.1), rfl, fun _ => ⟨rfl, arb⟩, (nomatch ·)⟩
  · exact ⟨_, _, rfl, fun x => absurd ⟨rfl, .inl rfl⟩ x, fun _ => rfl, rfl, (nomatch ·), fun _ => ⟨rfl, .inr rfl⟩⟩
  · cases first
    · exact ⟨_, _, rfl, fun x => absurd ⟨rfl, .inr rfl⟩ x, fun _ => rfl, rfl, fun _ => ⟨rfl, dropped⟩, (nomatch ·)⟩
    · exact ⟨keys.purge, arbiter, rfl, fun _ => rfl, (fun x => by rcases x.2 with h | h <;> cases h), rfl,
        fun _ => ⟨rfl, arb⟩, (nomatch ·)⟩

/-- R17, R30: a write that fails in flight changes no byte but those it names. -/
theorem read_failInFlight {s : State} (h : Memory.wf s.mem) (x : Outstanding) :
    Memory.wf (s.failInFlight x.access).mem ∧ ∀ b, ¬ (x.access.write = true ∧ 4 * x.access.word.toNat + x.access.size.offset ≤ b
      ∧ b < 4 * x.access.word.toNat + x.access.size.offset + x.access.size.bytes) → (s.failInFlight x.access).mem.read b = s.mem.read b := by
  unfold failInFlight
  split
  · next hw =>
    refine ⟨Memory.wf_spoilMemory (s := s.freePort) h _ _, fun b hb => ?_⟩
    refine (Memory.read_writeBytes h _ _ (Memory.size_bound _) b).trans (if_neg ?_)
    rintro ⟨a, c⟩
    unfold byteAddress at a c
    exact hb ⟨hw, a, by omega⟩
  · exact ⟨h, fun _ _ => rfl⟩

/-- R35: in UNSET no ring is watched, so no slot refuses. -/
theorem judgeTracked_unset {s : State} (h : s.controller.state = .unset) (a : Access) (track : Option SlotWord) :
    s.judgeTracked a track = none := by
  have : s.slotAt a.word = none := by
    unfold slotAt; rw [if_neg]; rw [h]; simp [PartState.watches]
  unfold judgeTracked; rw [this]
  rcases track with _ | t
  · rfl
  · rfl

/-- R30: MREST at one port of a part in UNSET. -/
theorem restPort_unset {s : State} (h : s.controller.state = .unset) (p : Port) :
    (∃ ports path raised arbiter mem fresh, s.restPort p = { s with
        ports := ports, path := path, control := { s.control with raised := raised }, arbiter := arbiter, mem := mem, fresh := fresh })
    ∧ (∀ q, q ≠ p → (s.restPort p).port q = s.port q)
    ∧ ((∀ x, (s.port p).access = some x → x.phase = .wake ∨ x.phase = .codeHeld) → s.restPort p = s)
    ∧ (∀ x, (s.port p).access = some x → ((∃ track, x.phase = .waiting track) ∨ ∃ judged, x.phase = .inFlight judged) →
        (s.restPort p).port p = ⟨none, some .error⟩
        ∧ (s.restPort p).path = ⟨s.path.count + 1, some p, some .memoryResting, x.access.address⟩
        ∧ (s.restPort p).control.raised = s.control.raised ||| 8)
    ∧ ((∀ x judged, (s.port p).access = some x → x.phase ≠ .inFlight judged) →
        (s.restPort p).mem = s.mem ∧ (s.restPort p).arbiter = s.arbiter)
    ∧ (∀ x judged, (s.port p).access = some x → x.phase = .inFlight judged → (s.restPort p).arbiter = none
        ∧ (Memory.wf s.mem → Memory.wf (s.restPort p).mem
          ∧ ∀ b, ¬ (x.access.write = true ∧ 4 * x.access.word.toNat + x.access.size.offset ≤ b
      ∧ b < 4 * x.access.word.toNat + x.access.size.offset + x.access.size.bytes) → (s.restPort p).mem.read b = s.mem.read b)) := by
  have same : s = { s with ports := s.ports, path := s.path, control := { s.control with raised := s.control.raised } } := rfl
  unfold restPort
  rcases e : (s.port p).access with _ | ⟨a, ph, since⟩
  · refine ⟨⟨_, _, _, _, _, _, same⟩, fun _ _ => rfl, fun _ => rfl, ?_, fun _ => ⟨rfl, rfl⟩, ?_⟩
    · rintro x hx; cases hx
    · rintro x _ hx; cases hx
  · rcases ph with _ | track | judged | _
    · refine ⟨⟨_, _, _, _, _, _, same⟩, fun _ _ => rfl, fun _ => rfl, ?_, fun _ => ⟨rfl, rfl⟩, ?_⟩
      · rintro x hx (⟨_, hp⟩ | ⟨_, hp⟩) <;> (cases hx; cases hp)
      · rintro x _ hx hp; cases hx; cases hp
    · dsimp only
      rw [judgeTracked_unset h]
      refine ⟨?_, fun q hq => port_refuse_ne hq .., ?_, ?_, fun _ => ?_, ?_⟩
      · cases p <;> exact ⟨_, _, _, _, _, _, rfl⟩
      · intro w; rcases w _ rfl with h | h <;> cases h
      · rintro x hx _; cases hx
        refine ⟨port_refuse_self .., ?_, ?_⟩ <;> cases p <;> rfl
      · cases p <;> exact ⟨rfl, rfl⟩
      · rintro x _ hx hp; cases hx; cases hp
    · dsimp only
      have port : ∀ q, (s.failInFlight a).port q = s.port q := by
        intro q; unfold failInFlight; split <;> cases q <;> rfl
      have form : ∃ mem fresh, s.failInFlight a = { s with arbiter := none, mem := mem, fresh := fresh } := by
        unfold failInFlight; split
        · exact ⟨_, _, rfl⟩
        · exact ⟨s.mem, s.fresh, rfl⟩
      have r := fun w => read_failInFlight (s := s) w ⟨a, .inFlight judged, since⟩
      obtain ⟨mem, fresh, f⟩ := form
      dsimp only at r
      rw [f] at port r ⊢
      refine ⟨?_, fun q hq => (port_refuse_ne hq ..).trans (port q), ?_, ?_, ?_, ?_⟩
      · cases p <;> exact ⟨_, _, _, _, _, _, rfl⟩
      · intro w; rcases w _ rfl with h | h <;> cases h
      · rintro x hx _; cases hx
        refine ⟨port_refuse_self .., ?_, ?_⟩ <;> cases p <;> rfl
      · intro w; exact absurd rfl (w _ _ rfl)
      · rintro x _ hx hp; cases hx; cases hp
        cases p <;> exact ⟨rfl, r⟩
    · refine ⟨⟨_, _, _, _, _, _, same⟩, fun _ _ => rfl, fun _ => rfl, ?_, fun _ => ⟨rfl, rfl⟩, ?_⟩
      · rintro x hx (⟨_, hp⟩ | ⟨_, hp⟩) <;> (cases hx; cases hp)
      · rintro x _ hx hp; cases hx; cases hp

end State

end Sys2Proof.Machine
end

