-- ==== Sys2Proof/Laws/Words.lean ====
section
/-! SUPPORT. A word built by placing fields is the fields side by side: how the words of the Formats chapter (Machine/Flags.lean)
are read. -/

namespace Sys2Proof.Machine

theorem getLsbD_place (start value i : Nat) :
    (place start value).getLsbD i = (decide (i < 32) && (decide (start ≤ i) && value.testBit (i - start))) := by
  simp [place, BitVec.getLsbD_ofNat, Nat.testBit_mul_two_pow]

/-- A number that fits a field is the field's value. -/
theorem place_ofNat (start : Nat) {value : Nat} (width : Nat) (fits : value < 2 ^ width) :
    place start value = place start (BitVec.ofNat width value).toNat := by
  rw [BitVec.toNat_ofNat, Nat.mod_eq_of_lt fits]

/-- The lowest field. -/
theorem place_zero {m : Nat} (x : BitVec m) : place 0 x.toNat = x.setWidth 32 := by
  apply BitVec.eq_of_getLsbD_eq
  intro i hi
  simp only [getLsbD_place, BitVec.getLsbD_setWidth, BitVec.testBit_toNat, hi, decide_true, Bool.true_and, Nat.zero_le, Nat.sub_zero]

/-- A field placed directly above the fields already there. -/
theorem or_place {m n : Nat} (x : BitVec m) (y : BitVec n) :
    y.setWidth 32 ||| place n x.toNat = (x ++ y).setWidth 32 := by
  apply BitVec.eq_of_getLsbD_eq
  intro i hi
  simp only [BitVec.getLsbD_or, getLsbD_place, BitVec.getLsbD_append, BitVec.getLsbD_setWidth, BitVec.testBit_toNat, hi,
    decide_true, Bool.true_and]
  by_cases hn : i < n
  · simp [hn, Nat.not_le.mpr hn]
  · simp [hn, Nat.not_lt.mp hn]

/-- Bits that carry no field read 0. -/
theorem setWidth_zero_append (k : Nat) {n : Nat} (y : BitVec n) : (0#k ++ y).setWidth 32 = y.setWidth 32 := by
  apply BitVec.eq_of_getLsbD_eq
  intro i hi
  simp only [BitVec.getLsbD_setWidth, BitVec.getLsbD_append, hi, decide_true, Bool.true_and, BitVec.getLsbD_zero]
  by_cases hn : i < n
  · simp [hn]
  · simp only [hn, if_false]; rw [BitVec.getLsbD_of_ge _ _ (Nat.not_lt.mp hn)]

/-- A field placed above bits that carry no field. -/
theorem or_place_gap (k : Nat) {m n : Nat} (x : BitVec m) (y : BitVec n) :
    y.setWidth 32 ||| place (k + n) x.toNat = (x ++ (0#k ++ y)).setWidth 32 := by
  rw [← or_place, setWidth_zero_append]

/-- A word whose highest bits carry no field. -/
theorem setWidth_top {k n : Nat} (h : k + n = 32) (y : BitVec n) : (y.setWidth 32 : Word) = (0#k ++ y).cast h := by
  rw [← setWidth_zero_append k]
  apply BitVec.eq_of_toNat_eq
  rw [BitVec.toNat_setWidth, BitVec.toNat_cast, Nat.mod_eq_of_lt]
  exact h ▸ BitVec.isLt _

/-- Fields side by side, in either grouping. -/
theorem toNat_append_assoc {a b c : Nat} (x : BitVec a) (y : BitVec b) (z : BitVec c) :
    (x ++ (y ++ z)).toNat = ((x ++ y) ++ z).toNat := by
  simp only [BitVec.toNat_append, Nat.shiftLeft_or_distrib, ← Nat.shiftLeft_add, Nat.or_assoc]

/-- Four counts side by side. -/
theorem fourBytes_eq {a b c d : Nat} (ha : a < 256) (hb : b < 256) (hc : c < 256) (hd : d < 256) :
    fourBytes a b c d = BitVec.ofNat 8 d ++ BitVec.ofNat 8 c ++ BitVec.ofNat 8 b ++ BitVec.ofNat 8 a := by
  unfold fourBytes
  rw [place_ofNat 0 8 ha, place_ofNat 8 8 hb, place_ofNat 16 8 hc, place_ofNat 24 8 hd, place_zero, or_place, or_place, or_place,
    BitVec.setWidth_eq]
  apply BitVec.eq_of_toNat_eq
  simp only [toNat_append_assoc]

/-- A line is a field of one bit. -/
theorem bit_toNat (b : Bool) : bit b = (BitVec.ofBool b).toNat := by cases b <;> rfl

end Sys2Proof.Machine
end

