-- ==== Sys2Proof/WellFormed.lean ====
section
/-! DEFINITION. Which commands are well formed: the row's own form, before any state is looked at. -/

namespace Sys2Proof

/-- The data of a write fits the access's size. -/
def Size.fits (size : Size) (data : Word) : Bool :=
  match size with
  | .word => true
  | .half _ => data.toNat < 65536
  | .byte _ => data.toNat < 256

/-- A read carries no data; a write's data fits its size. -/
def Access.wf (a : Access) : Bool :=
  if a.write then a.size.fits a.data else a.data == 0

/-- The write has no row of its own (R149): it is no full-word write of the command word (word 40h of the block)
and no full-word write of the load window (words C0h-CFh). -/
def offsetHasNoRow (offset : BitVec 14) (size : Size) : Bool :=
  !(size == .word && (offset.toNat == 0x40 || (0xC0 ≤ offset.toNat && offset.toNat < 0xD0)))

/-- The well-formedness check. -/
def WellFormed (i : Instr) : Bool :=
  match i with
  | .memoryAccess _ a => a.wf
  | .controlBlockWrite offset size data => offsetHasNoRow offset size && size.fits data
  | .loadWindowWrite _ size data => size.fits data
  | .unknownCommand code _ => !(1 ≤ code.toNat && code.toNat ≤ 5)
  | .arbiterGrant => true
  | .wordAccessComplete => true
  | .codeWordRead _ _ => true
  | .holdLimitExpiry => true
  | .agentJobStart => true
  | .agentWordComplete => true
  | .engineStart => true
  | .codeComplete => true
  | .deriveComplete => true
  | .verifyComplete => true
  | .unwrapComplete => true
  | .setup _ => true
  | .rest _ => true
  | .laneRestart _ => true
  | .releaseReports _ => true
  | .clearAttention _ => true
  | .deadlineExpiry _ => true
  | .recentEntryExpiry => true
  | .secondsClockRise => true
  | .wakeEnd _ => true
  | .mrestAssert _ => true
  | .mrestRelease => true
  | .pwarnAssert _ => true
  | .pwarnRelease => true
  | .purgeAssert => true
  | .purgeRelease => true
  | .eraseCompletion => true
  | .resetAssert _ => true
  | .startUp _ _ _ => true
  | .powerLoss _ => true

end Sys2Proof
end

