-- ==== Sys2Proof/Tests/Slice0.lean ====
section
/-! SUPPORT. The model's own tests: the well-formedness smoke, single steps with the values of the spec's worked examples
(spec/02 "Examples of classification", spec/06, spec/08, spec/09 and the first passage of spec/11), and for every statement
with hypotheses a state that meets them. -/

namespace Sys2Proof.Tests

open Sys2Proof.Machine

set_option Elab.async false

/-! ## Well-formedness -/

theorem test_wf_read_with_data : WellFormed (.memoryAccess .c ⟨false, 0, .word, 1⟩) = false := by decide
theorem test_wf_half_data_too_wide : WellFormed (.memoryAccess .c ⟨true, 0, .half true, 0x10000⟩) = false := by decide
theorem test_wf_byte_data_too_wide : WellFormed (.memoryAccess .c ⟨true, 0, .byte 3, 0x100⟩) = false := by decide
theorem test_wf_block_write_of_command_word : WellFormed (.controlBlockWrite 0x40 .word 0) = false := by decide
theorem test_wf_block_write_of_load_window :
    WellFormed (.controlBlockWrite 0xC0 .word 0) = false ∧ WellFormed (.controlBlockWrite 0xCF .word 0) = false
      ∧ WellFormed (.controlBlockWrite 0xBF .word 0) = true ∧ WellFormed (.controlBlockWrite 0xD0 .word 0) = true := by decide
theorem test_wf_block_write_data_too_wide : WellFormed (.controlBlockWrite 0 (.byte 0) 0x100) = false := by decide
theorem test_wf_load_write_data_too_wide : WellFormed (.loadWindowWrite 0 (.half false) 0x10000) = false := by decide
theorem test_wf_known_command_code :
    WellFormed (.unknownCommand 1 0) = false ∧ WellFormed (.unknownCommand 5 0) = false
      ∧ WellFormed (.unknownCommand 0 0) = true ∧ WellFormed (.unknownCommand 6 0) = true := by decide

/-! ## States -/

/-- The state a command leads to. -/
def after (i : Instr) (s : State) : State :=
  match exec i s with
  | .next t => t
  | _ => s

/-- spec/11: lane 4 of the first passage. -/
def lane4 : Lane := ⟨true, 16, 0x200000, 8, 0x200200, 8, 60, 150⟩

/-- A lane with a hold limit of 0. -/
def lane5 : Lane := ⟨true, 16, 0x200400, 8, 0x200600, 8, 0, 200⟩

/-- spec/11: key entry 13 of the first passage. -/
def key13 : KeyEntry := ⟨.live, 0x0231, 7, 100, 0xFFFFFFFF, some 5, 9, 0⟩

/-- spec/11: the part at the start of the first passage. -/
def gantry : State :=
  { State.reset with
    controller := { State.reset.controller with state := .running, setupPresent := true, seconds := some 6000000, time := 10000 }
    setup := { Setup.reset with
      lanes := ((Table.fill 8 Lane.reset).set 4 lane4).set 5 lane5
      filters := (Table.fill 8 Filter.reset).set 0 ⟨true, 0x0230, 4⟩
      service := true, holdOff := 2, ringOffset := 0x1000, capacity := 32 }
    reports := ⟨5, 5, 40, [], .idle⟩
    keys := { Keys.blank with entries := (Table.fill 48 KeyEntry.empty).set 13 key13 } }

def slot1 : SlotRef := ⟨4, 1⟩
def slot2 : SlotRef := ⟨4, 2⟩

/-- Word 0 of an ANNOUNCE, a CHALLENGE and a CONFIRM, all short. -/
def announce : Header := ⟨1, 6, 0⟩
def challenge : Header := ⟨3, 10, 0⟩
def confirm : Header := ⟨2, 7, 0⟩

def record : PassageRecord := ⟨1, 2, 3, 4⟩

/-- spec/11: the context of the first passage when it is AWAITING. -/
def awaiting : Context where
  state := .awaiting
  homeLane := 4
  lanes := laneBit 4
  identity := 0x517A20
  issuer := 0x0231
  generation := 7
  keyLink := some 13
  tagKey := some 77
  tagNonce := 0x1234
  announceCounter := 0x312
  hearings := 1
  bound := none
  attempts := [⟨0xA, record, some 10002⟩]
  accepted := 1
  confirm := none
  deadline := 148
  running := true
  mark := false
  outcome := none

/-- The context when its CHALLENGE is being coded. -/
def challenging : Context :=
  { awaiting with state := .challenging, bound := some slot2, attempts := [⟨0xA, record, none⟩] }

/-- The context when its CHALLENGE waits for the tag key. -/
def unkeyed : Context := { challenging with state := .derivingKey, tagKey := none }

/-- The context with its confirm data, and reported. -/
def verifying : Context :=
  { awaiting with state := .verifying, running := false, deadline := 141, confirm := some ⟨0xA, 0x313, 99, 0⟩ }
def reporting : Context := { verifying with state := .reporting, outcome := some (.paid, 10009) }

/-- Context 0 open, with slot 4/2 in a state. -/
def opened (x : Context) (o : OutState) : State :=
  ((gantry.setContext 0 (some x)).setEntry 13 { key13 with references := 1 }).setOutSlot slot2 ⟨o, some 8, false⟩

def coding : State := opened challenging (.coding challenge 0)
def armed : State := opened challenging (.armed challenge 0 0x1111222233334444)

/-- `s` with an operation in the engine. -/
def running (o : Operation) (s : State) : State := s.setOperation (some o)

/-- `s` with the first access of a port outstanding. -/
def outstanding (p : Port) (a : Access) (ph : Phase) (s : State) : State := s.hold p ⟨a, ph, false⟩

/-- A read of the low code word of slot 4/2 (byte 0020_02A0h), held. -/
def lowRead : Access := ⟨false, 0x800A8, .word, 0⟩
def reading (high : Bool) (s : State) : State :=
  (outstanding .r lowRead .codeHeld s).setHeld (some ⟨slot2, high, 10000, 60⟩)

def asleep : State := gantry.enter .dormant
def awake : State := asleep.setWake .awake
def unset : State := State.reset
def halted : State := gantry.enter .halted
def purging : State := gantry.enter .purging
def inReset : State := after (.resetAssert false) gantry
def off : State := after (.powerLoss false) gantry
def resting : State := gantry.setMrest true

/-! ## Accesses -/

theorem test_overlay_read_gives_vendor_and_part :
    (after (.memoryAccess .c ⟨false, 0x80, .word, 0⟩) gantry).port .c = ⟨none, some (.done (some 0x0C080A61))⟩ := by decide +kernel

theorem test_overlay_half_read :
    (after (.memoryAccess .c ⟨false, 0x80, .half true, 0⟩) gantry).port .c = ⟨none, some (.done (some 0x0C08))⟩ := by decide +kernel

/-- spec/03 R33: word 9 of outbound slot 2 of a lane with 32-word slots stands at 0020_0324h. -/
theorem test_slot_word_of_an_address :
    (⟨true, 32, 0x200000, 4, 0x200200, 8, 60, 150⟩ : Lane).find 0 (0x200324 / 4) = some ⟨.outbound, ⟨0, 2⟩, 9⟩ := by decide

/-- spec/12: overlay word 10 with P 5, C 14 and capacity 32. -/
theorem test_overlay_word_10 : ({ gantry with reports := ⟨5, 14, 0, [], .idle⟩ } : State).overlayWord 10 = 0x00200E05 := by
  decide +kernel

theorem test_inbound_header_write_waits :
    (after (.memoryAccess .r ⟨true, 0x80010, .word, 0x00000601⟩) gantry).port .r
      = ⟨some ⟨⟨true, 0x80010, .word, 0x601⟩, .waiting (some ⟨.inbound, slot1, 0⟩), false⟩, none⟩ := by decide +kernel

theorem test_report_ring_write_is_read_only :
    (after (.controlBlockWrite 0x400 .word 0) gantry).path = ⟨1, some .c, some .readOnly, 0x1000⟩ := by decide +kernel

theorem test_partial_command_write :
    (after (.controlBlockWrite 0x40 (.byte 0) 5) gantry).path = ⟨1, some .c, some .partialWrite, 0x100⟩ := by decide +kernel

theorem test_armed_low_word_is_the_code :
    (after (.codeWordRead 0x800A8 .word) armed).port .r = ⟨none, some (.done (some 0x33334444))⟩ := by decide +kernel

theorem test_armed_high_word_is_the_send :
    (after (.codeWordRead 0x800A9 (.byte 3)) armed).port .r = ⟨none, some (.done (some 0x11))⟩
      ∧ (after (.codeWordRead 0x800A9 (.byte 3)) armed).outSlot slot2 = ⟨.free, some 8, false⟩
      ∧ ((after (.codeWordRead 0x800A9 (.byte 3)) armed).context 0).map (·.attempts) = some [⟨0xA, record, some 10000⟩] := by
  decide +kernel

theorem test_hold_limit_expiry :
    (after .holdLimitExpiry (reading false coding)).port .r = ⟨none, some (.done (some 0xFFFFFFFF))⟩
      ∧ (after .holdLimitExpiry (reading false coding)).context 0
        = some { challenging with state := .keyed, bound := none, accepted := 0 } := by decide +kernel

/-! ## The memory port -/

/-- The header write of slot 4/1, waiting and in flight. -/
def headerWrite : Access := ⟨true, 0x80010, .word, 0x601⟩
def waitingWrite : State := outstanding .r headerWrite (.waiting (some ⟨.inbound, slot1, 0⟩)) gantry
def flyingWrite : State :=
  (outstanding .r headerWrite (.inFlight (some ⟨⟨.inbound, slot1, 0⟩, .free⟩)) gantry).setArbiter (some (.port .r))

theorem test_grant_puts_the_write_in_flight :
    (after .arbiterGrant waitingWrite).port .r
      = ⟨some ⟨headerWrite, .inFlight (some ⟨⟨.inbound, slot1, 0⟩, .free⟩), false⟩, none⟩ := by decide +kernel

theorem test_grant_refuses_a_locked_slot :
    (after .arbiterGrant (waitingWrite.setInSlot slot1 (.closed announce))).path
      = ⟨1, some .r, some .overrun, 0x200040⟩ := by decide +kernel

theorem test_header_write_latches :
    (after .wordAccessComplete flyingWrite).inSlot slot1 = .filling announce 0
      ∧ (after .wordAccessComplete flyingWrite).mem = [(0x200040, 1), (0x200041, 6)] := by decide +kernel

/-- The ANNOUNCE of spec/11 closed in slot 4/1, its fetch queued, then at its last word. -/
def closedFrame : State := (gantry.setInSlot slot1 (.closed announce)).queueJob (.fetchFrame .inbound slot1)
def lastWord : State :=
  (((gantry.setInSlot slot1 (.fetching announce)).setAgent
    ⟨[.fetchFrame .inbound slot1], some 5, [0x517A20, 0x00070231, 0x1234, 0]⟩).store 0x80015 .word 0x312).setArbiter
      (some (.agent ⟨0x80015, none, true⟩))

theorem test_job_start_fetches :
    (after .agentJobStart closedFrame).inSlot slot1 = .fetching announce
      ∧ (after .agentJobStart closedFrame).agent = ⟨[.fetchFrame .inbound slot1], some 1, []⟩ := by decide +kernel

/-- spec/11: the take of the ANNOUNCE opens context 0, and its DERIVE starts at once. -/
theorem test_announce_opens_context_0 :
    (after .agentWordComplete lastWord).context 0
        = some { unkeyed with bound := none, attempts := [], accepted := 0, deadline := 150, mark := true }
      ∧ (after .agentWordComplete lastWord).engine = ⟨some (.derive 0 5 0x517A20 7), []⟩
      ∧ ((after .agentWordComplete lastWord).keys.entries.get 13).references = 1 := by decide +kernel

theorem test_mrest_refuses_a_waiting_write :
    (after (.mrestAssert .cFirst) waitingWrite).path = ⟨1, some .r, some .memoryResting, 0x200040⟩
      ∧ (after (.mrestAssert .cFirst) lastWord).agent = ⟨[.fetchFrame .inbound slot1], some 1, []⟩ := by decide +kernel

theorem test_mrest_release : (after .mrestRelease resting).controller.lines.mrest = false := by decide +kernel

/-! ## The engine -/

theorem test_engine_starts_the_code_first :
    (after .engineStart ((coding.joinReady (.derive 0)).joinReady (.code slot2))).engine
      = ⟨some (.code slot2 77 0x517A20 0x1234 0xA record), [.derive 0]⟩ := by decide +kernel

theorem test_code_completion_arms :
    ((after .codeComplete (running (.code slot2 77 0x517A20 0x1234 0xA record) coding)).outSlot slot2).state.isArmed = true := by
  decide +kernel

theorem test_derive_completion_starts_the_code :
    (after .deriveComplete (running (.derive 0 5 0x517A20 7) (opened unkeyed (.waitingKey challenge 0)))).outSlot slot2
      = ⟨.coding challenge 0, some 8, true⟩ := by decide +kernel

theorem test_verify_completion_bad_counter :
    ((after .verifyComplete (running (.verify 0 77 0x517A20 0xA record 0x314 99)
      (opened { verifying with confirm := some ⟨0xA, 0x314, 99, 0⟩ } .free))).context 0).bind (·.outcome)
        = some (.badCounter, 10000) := by decide +kernel

/-- spec/06 "Example: a record written with a slip": record 91 against the highest load serial 90, then 91. -/
def record91 : LoadRecord := ⟨1, 1, 91, 0x0412, 3, 6000000, 7000000⟩
def serial (n : Word) : State := { gantry with keys := { gantry.keys with highestSerial := n } }

theorem test_load_example :
    (serial 90).loadOutcome record91 false = (.badCheck, none) ∧ (serial 90).loadOutcome record91 true = (.ok, some 0)
      ∧ (serial 91).loadOutcome record91 true = (.stale, none)
      ∧ (((serial 90).install 0 record91 8).endLoad record91 (.ok, some 0)).load.result = ⟨91, .ok, some 0⟩
      ∧ ((serial 90).install 0 record91 8).keys.entries.get 0 = ⟨.live, 0x0412, 3, 6000000, 7000000, some 8, 91, 0⟩ := by
  decide +kernel

/-! ## The load window -/

/-- spec/06: a record of which fifteen words are counted. -/
def fifteen : State := gantry.setLoad { Load.reset with state := .filling, fill := 15 }

theorem test_sixteenth_write_closes_the_record :
    (after (.loadWindowWrite 15 .word 7) fifteen).load.state = .unwrapping
      ∧ (after (.loadWindowWrite 15 .word 7) fifteen).load.mark = true := by decide +kernel

theorem test_load_window_byte_write :
    (after (.loadWindowWrite 9 (.byte 1) 7) fifteen).path = ⟨1, some .c, some .partialWrite, 0x325⟩ := by decide +kernel

/-! ## Commands -/

theorem test_setup_is_pending :
    (after (.setup 0) unset).control.result = ⟨1, .pending, 0⟩ ∧ (after (.setup 0) unset).agent.jobs = [.fetchSetup] := by
  decide +kernel

/-- spec/09 "Example: a setup refused and then applied": the image, with lane 1's inbound base and lane 5's deadline open. -/
def image (base1 deadline5 : Word) : List Word :=
  ([0x101, 4000000, 0x00201000, 0, 0, 0, 0, 0, 0, 0, 0, 0] : List Word)
    ++ [0x10101001, 0x100000, 0x100400, 0x00C80000]
    ++ [0x08081001, base1, 0x101000, 0x00C80000]
    ++ [0x01011000, 0, 0, 0x00C80000] ++ [0x01011000, 0, 0, 0x00C80000] ++ [0x01011000, 0, 0, 0x00C80000]
    ++ [0x01011000, 0, 0, deadline5 <<< (16 : Nat)] ++ [0x01011000, 0, 0, 0x00C80000] ++ [0x01011000, 0, 0, 0x00C80000]
    ++ List.replicate 20 0

def strapped : State := { unset with controller := { unset.controller with straps := 3 } }

theorem test_setup_example :
    strapped.firstFailing (image 0x100600 5) = some 17 ∧ strapped.firstFailing (image 0x100800 5) = some 35
      ∧ strapped.firstFailing (image 0x100800 10) = none
      ∧ (strapped.takeSetup (image 0x100800 10)).controller.state = .running
      ∧ (strapped.takeSetup (image 0x100800 10)).controller.seconds = some 4000000 := by decide +kernel

theorem test_rest : (after (.rest 0) gantry).controller.state = .dormant := by decide +kernel

theorem test_lane_restart :
    ((after (.laneRestart 4) coding).context 0).bind (·.outcome) = some (.abandoned, 10000)
      ∧ (after (.laneRestart 4) coding).outSlot slot2 = ⟨.free, some 8, false⟩ := by decide +kernel

/-- spec/11: RELEASE_REPORTS 6 makes C equal P, and REPORTS stops being pending. -/
theorem test_release_reports :
    (after (.releaseReports 6) { gantry with reports := ⟨6, 5, 41, [], .idle⟩ }).reports.consumer = 6
      ∧ (after (.releaseReports 6) { gantry with reports := ⟨6, 5, 41, [], .idle⟩ }).isPending .reports = false := by
  decide +kernel

theorem test_clear_attention : (after (.clearAttention 2) gantry).control = ⟨⟨5, .done, 0⟩, false, 0⟩ := by decide +kernel

theorem test_unknown_command : (after (.unknownCommand 9 0) gantry).control = ⟨⟨9, .badOperand, 0⟩, false, 2⟩ := by decide +kernel

/-- spec/11: the record at position 5. -/
theorem test_report_record :
    (reporting.report 0).map (·.words 40)
      = some [0xFF040101, 0x10013D00, 0x00517A20, 0, 0x0D070231, 10009, 0x313, 40] := by decide +kernel

/-! ## Time, lines, reset -/

theorem test_deadline_expiry :
    ((after (.deadlineExpiry 0) (opened { awaiting with deadline := 0 } .free)).context 0).bind (·.outcome)
      = some (.late, 10000) := by decide +kernel

def remembered (t : Word) : State := { gantry with contexts := { Contexts.reset with recent := [⟨0x517A20, t⟩] } }

theorem test_recent_entry_expiry :
    (after .recentEntryExpiry (remembered 8000)).contexts.recent = []
      ∧ (after .recentEntryExpiry (remembered 8001)).contexts.recent = [⟨0x517A20, 8001⟩] := by decide +kernel

/-- spec/05: the clock reaches an entry's valid-from. -/
def crossing : State :=
  { gantry.setEntry 3 ⟨.waiting, 0x0412, 2, 700000, 700600, some 1, 88, 0⟩ with
    controller := { gantry.controller with seconds := some 699999, millis := 1000 } }

theorem test_seconds_clock_rise :
    (after .secondsClockRise crossing).controller.seconds = some 700000
      ∧ ((after .secondsClockRise crossing).keys.entries.get 3).state = .live
      ∧ (after .secondsClockRise crossing).isPending .keytime = true := by decide +kernel

/-- The command word read that woke the part. -/
def waking : State := after (.memoryAccess .c ⟨false, 0x40, .word, 0⟩) asleep

theorem test_wake_end :
    waking.controller.wake = .waking
      ∧ (after (.wakeEnd .cFirst) waking).port .c = ⟨none, some (.done (some 0))⟩
      ∧ (after (.wakeEnd .cFirst) waking).controller.wake = .asleep := by decide +kernel

/-- A header write of slot 4/1 in flight since before the sleep, completed while the command word read is held for its wake. -/
def rousedInWake : State :=
  after .wordAccessComplete (((outstanding .r headerWrite (.inFlight (some ⟨⟨.inbound, slot1, 0⟩, .free⟩)) waking).setArbiter
    (some (.port .r))))

theorem test_wake_goes_on_when_roused :
    rousedInWake.controller.state = .running ∧ rousedInWake.controller.wake = .waking
      ∧ rousedInWake.inSlot slot1 = .filling announce 0
      ∧ (after (.wakeEnd .cFirst) rousedInWake).port .c = ⟨none, some (.done (some 0))⟩
      ∧ (after (.wakeEnd .cFirst) rousedInWake).controller.wake = .asleep := by decide +kernel

/-- R122: the cabinet door opened in DORMANT, just before a reset, and shut again. -/
theorem test_purge_in_dormant_survives_a_reset :
    (after (.startUp 3 false .cFirst) (after .purgeRelease (after (.resetAssert false) (after .purgeAssert asleep)))).entriesIn .empty
        = 48
      ∧ (after (.startUp 3 false .cFirst) (after (.resetAssert false) asleep)).entriesIn .empty = 47 := by decide +kernel

theorem test_power_warning :
    (after (.pwarnAssert .cFirst) coding).controller.state = .halted ∧ (after (.pwarnAssert .cFirst) coding).contexts.abandoned = 1
      ∧ ((after (.pwarnAssert .cFirst) coding).keys.entries.get 13).references = 0 := by decide +kernel

def warned : State := after (.pwarnAssert .cFirst) gantry

theorem test_return_from_halted :
    (after .pwarnRelease warned).controller.state = .running ∧ (after .pwarnRelease warned).isPending .power = true := by
  decide +kernel

theorem test_purge :
    (after .purgeAssert coding).controller.state = .purging
      ∧ ((after .purgeAssert coding).context 0).bind (·.outcome) = some (.purged, 10000)
      ∧ (after .purgeAssert coding).entriesIn .empty = 48 := by decide +kernel

theorem test_purge_release : (after .purgeRelease (after .purgeAssert gantry)).controller.state = .purging := by decide +kernel

theorem test_erase_completion :
    (after .eraseCompletion (after .purgeAssert gantry)).controller.state = .running
      ∧ (after .eraseCompletion (after .purgeAssert gantry)).isPending .purge = true := by decide +kernel

theorem test_reset_keeps_the_key :
    inReset.controller.power = .inReset ∧ inReset.keys.entries.get 13 = { key13 with state := .waiting } := by decide +kernel

theorem test_start_up :
    (after (.startUp 3 false .cFirst) inReset).controller = Controller.reset 3 Lines.released
      ∧ (after (.startUp 3 false .cFirst) inReset).keys.entries.get 13 = { key13 with state := .waiting } := by decide +kernel

theorem test_power_loss : off.controller.power = .off ∧ off.keys.entries.get 13 = { key13 with state := .waiting } := by decide +kernel

theorem test_tick : (gantry.tick).controller.time = 10001 ∧ (gantry.tick).controller.millis = 1 := by decide +kernel

/-! ## States that meet the hypotheses of the statements, clause by clause, at the ends of their ranges -/

theorem witness_StepRunsFrontCommand :
    ({ gantry with pending := [.arbiterGrant] } : State).pending = .arbiterGrant :: [] := rfl

theorem witness_EmptyQueueStepIsOneMillisecond :
    gantry.pending = [] ∧ off.controller.power ≠ .on ∧ gantry.controller.power = .on
      ∧ (opened { awaiting with deadline := 1 } .free).context 0 = some { awaiting with deadline := 1 }
      ∧ (opened verifying .free).context 0 = some verifying ∧ awaiting.running = true ∧ verifying.running = false
      ∧ unset.controller.seconds = none ∧ gantry.controller.seconds = some 6000000 ∧ gantry.controller.millis < 1000
      ∧ ({ gantry with controller := { gantry.controller with millis := 1000 } } : State).controller.millis = 1000
      ∧ (({ gantry with controller := { gantry.controller with millis := 1000 } } : State).tick).controller.millis = 1 := by
  decide +kernel

/-- A read held since the last millisecond on the slot of a context whose deadline has reached zero. -/
def overdue : State :=
  { reading false (opened { challenging with deadline := 0 } (.coding challenge 0)) with
    controller := { gantry.controller with time := 10001, millis := 1000 } }

theorem witness_EmptyQueueStepIsOneMillisecond_due :
    overdue.pending = [] ∧ overdue.controller.power = .on ∧ overdue.slots.held = some ⟨slot2, false, 10000, 60⟩
      ∧ overdue.controller.time ≠ 10000 ∧ gantry.slots.held = none ∧ (reading false coding).controller.time = 10000
      ∧ (overdue.tick.outSlot slot2).state
        = .spoiled challenge (some (overdue.notice .underrun slot2 (some 0) (some challenging.identity) none))
      ∧ overdue.tick.reports.waiting = [.outbound slot2, .context 0] ∧ overdue.tick.controller.seconds = some 6000001
      ∧ (overdue.tick.context 0).bind (·.outcome) = some (.late, 10001)
      ∧ (remembered 8000).tick.contexts.recent = [] := by decide +kernel

theorem witness_CommandsLeaveMemoryAndSetup :
    (∃ t, exec .arbiterGrant gantry = .next t) ∧ (∃ t, exec .wordAccessComplete gantry = .next t)
      ∧ (∃ t, exec (.mrestAssert .cFirst) gantry = .next t) ∧ (∃ t, exec (.resetAssert true) gantry = .next t)
      ∧ Instr.arbiterGrant ≠ .wordAccessComplete ∧ Instr.resetAssert true ≠ .agentWordComplete :=
  ⟨⟨_, rfl⟩, ⟨_, rfl⟩, ⟨_, rfl⟩, ⟨_, rfl⟩, by decide, by decide⟩

theorem witness_AccessOutsideTheRings :
    gantry.hears .r ∧ gantry.hears .c ∧ gantry.inBlock 0 = true ∧ gantry.inBlock 0x3FFF = true
      ∧ gantry.watched 0x4000 = false ∧ gantry.watched 0x7FFFF = false ∧ gantry.controller.lines.mrest = false
      ∧ resting.hears .c ∧ resting.watched 0xFFFFF = false ∧ resting.controller.lines.mrest = true := by decide +kernel

theorem witness_AccessToPartThatDoesNotListen :
    (asleep.port .r).access = none ∧ asleep.controller.power = .on ∧ asleep.controller.state = .dormant
      ∧ asleep.controller.wake = .asleep ∧ asleep.watched 0x80000 = true ∧ (waking.port .r).access = none
      ∧ waking.controller.power = .on ∧ waking.controller.wake = .waking ∧ waking.watched 0 = true
      ∧ (rousedInWake.port .r).access = none ∧ rousedInWake.controller.state = .running ∧ rousedInWake.controller.wake = .waking
      ∧ (inReset.port .c).access = none ∧ inReset.controller.power = .inReset ∧ (waitingWrite.port .r).access ≠ none := by
  decide +kernel

/-- The setup of the first passage is laid out. -/
theorem gantry_laidOut : gantry.laidOut := by
  refine ⟨fun n on => ⟨?_, fun ring => ?_⟩, fun n m ring ring' => ?_, fun _ => by decide⟩
  · revert n; decide +kernel
  · revert n; cases ring <;> decide +kernel
  · unfold clear
    revert n m
    cases ring <;> cases ring' <;> decide +kernel

theorem witness_RingWriteIsJudged_map :
    gantry.laidOut ∧ gantry.controller.power = .on ∧ gantry.controller.state = .running
      ∧ gantry.slotAt 0x80000 = some ⟨.inbound, ⟨4, 0⟩, 0⟩ ∧ gantry.slotAt 0x8007F = some ⟨.inbound, ⟨4, 7⟩, 15⟩
      ∧ gantry.slotAt 0x80080 = some ⟨.outbound, ⟨4, 0⟩, 0⟩ ∧ gantry.slotAt 0x800FF = some ⟨.outbound, ⟨4, 7⟩, 15⟩
      ∧ gantry.slotAt 0x801FF = some ⟨.outbound, ⟨5, 7⟩, 15⟩ ∧ gantry.slotAt 0x80200 = none ∧ gantry.slotAt 0x7FFFF = none
      ∧ halted.controller.state = .halted ∧ halted.slotAt 0x80000 = none ∧ off.controller.power ≠ .on :=
  ⟨gantry_laidOut, by decide +kernel⟩

theorem witness_RingWriteIsJudged :
    gantry.hears .c ∧ gantry.hears .r ∧ awake.hears .r ∧ gantry.inBlock 0x80000 = false ∧ gantry.controller.lines.mrest = false
      ∧ gantry.slotAt 0x80000 = some ⟨.inbound, ⟨4, 0⟩, 0⟩ ∧ gantry.slotAt 0x8007F = some ⟨.inbound, ⟨4, 7⟩, 15⟩
      ∧ gantry.slotAt 0x80080 = some ⟨.outbound, ⟨4, 0⟩, 0⟩ ∧ gantry.slotAt 0x800FF = some ⟨.outbound, ⟨4, 7⟩, 15⟩
      ∧ resting.slotAt 0x80000 = some ⟨.inbound, ⟨4, 0⟩, 0⟩ ∧ resting.hears .r ∧ resting.controller.lines.mrest = true
      ∧ Size.byte 3 ≠ .word
      ∧ (gantry.outSlot slot2).codePosition = none ∧ gantry.slotAt 0x800A8 = some ⟨.outbound, slot2, 8⟩
      ∧ coding.hears .r ∧ (coding.outSlot slot2).codePosition = some 8 ∧ coding.slotAt 0x800A7 = some ⟨.outbound, slot2, 7⟩
      ∧ coding.slotAt 0x800AA = some ⟨.outbound, slot2, 10⟩ := by
  decide +kernel

theorem witness_BlockWriteFollowsItsArea_areas :
    gantry.laidOut ∧ gantry.controller.setupPresent = true ∧ gantry.setup.ringOffset = 0x1000 ∧ gantry.setup.capacity = 32
      ∧ gantry.area 0x3F = .plain ∧ gantry.area 0x41 = .plain ∧ gantry.area 0x80 = .overlay 0 ∧ gantry.area 0xBF = .overlay 63
      ∧ gantry.area 0xC0 = .loadWindow 0 ∧ gantry.area 0xCF = .loadWindow 15 ∧ gantry.area 0xD0 = .plain
      ∧ gantry.area 0x100 = .keyStatus 0 0 ∧ gantry.area 0x1BF = .keyStatus 47 3 ∧ gantry.area 0x1C0 = .plain
      ∧ gantry.area 0x3FF = .plain ∧ gantry.area 0x400 = .reportRing ∧ gantry.area 0x4FF = .reportRing
      ∧ gantry.area 0x500 = .plain ∧ gantry.area 0x3FFF = .plain ∧ unset.area 0x400 = .plain :=
  ⟨gantry_laidOut, by decide +kernel⟩

theorem witness_BlockWriteFollowsItsArea :
    gantry.hears .c ∧ gantry.area 0x80 = .overlay 0 ∧ gantry.area 0xBF = .overlay 63 ∧ gantry.area 0x100 = .keyStatus 0 0
      ∧ gantry.area 0x1BF = .keyStatus 47 3 ∧ gantry.area 0x400 = .reportRing ∧ gantry.area 0x4FF = .reportRing
      ∧ gantry.area 0x40 = .command ∧ Size.half true ≠ .word ∧ gantry.area 0 = .plain ∧ gantry.area 0x3F = .plain
      ∧ gantry.area 0x41 = .plain ∧ gantry.area 0x500 = .plain ∧ gantry.area 0x3FFF = .plain
      ∧ gantry.controller.lines.mrest = false ∧ resting.hears .c ∧ resting.area 0xD0 = .plain
      ∧ resting.controller.lines.mrest = true := by decide +kernel

theorem witness_BlockReadIsSupplied :
    gantry.hears .c ∧ gantry.suppliedWord (gantry.area 0x40) = some 0 ∧ gantry.suppliedWord (gantry.area 0xC0) = some 0xFF000000
      ∧ gantry.suppliedWord (gantry.area 0x134) = some 0x02310702 ∧ gantry.suppliedWord (gantry.area 0x1BF) = some 0
      ∧ gantry.area 0x80 = .overlay 0 ∧ gantry.area 0x3FFF = .plain ∧ gantry.area 0x400 = .reportRing
      ∧ gantry.controller.lines.mrest = false ∧ resting.hears .c ∧ resting.area 0x4FF = .reportRing
      ∧ resting.controller.lines.mrest = true ∧ ({ key13 with references := 255 } : KeyEntry).references < 256
      ∧ ({ gantry with reports := ⟨31, 14, 0, [], .idle⟩ } : State).reports.producer < 256
      ∧ gantry.reports.consumer < 256 ∧ gantry.setup.capacity < 256 ∧ gantry.engine.ready.length < 256
      ∧ gantry.agent.jobs.length < 65536 := by
  decide +kernel

/-- A lane that is not enabled, with slots. -/
def disabledLane : State :=
  { gantry with setup := { gantry.setup with lanes := gantry.setup.lanes.set 6 { lane4 with enable := false, inCount := 16 } } }

theorem unset_idleSlots : unset.idleSlots := by
  refine ⟨fun _ => by decide +kernel, fun _ r => ?_⟩
  constructor
  · show ((unset.slots.lanes.get r.lane).inbound.get r.index) = _
    simp [unset, State.reset, Slots.reset, LaneSlots.reset]
  · show ((unset.slots.lanes.get r.lane).outbound.get r.index).state = _
    simp [unset, State.reset, Slots.reset, LaneSlots.reset, OutSlot.reset]

theorem witness_BlockReadIsSupplied_counts :
    unset.idleSlots ∧ unset.controller.setupPresent = false ∧ unset.contextsIn none = 24 ∧ unset.entriesIn .empty = 48
      ∧ armed.contextsIn none = 23 ∧ armed.contextsIn (some .challenging) = 1 ∧ armed.entriesIn .live = 1
      ∧ armed.armedOutbound 4 = 1 ∧ armed.armedOutbound 5 = 0 ∧ disabledLane.freeInbound 6 = 16 ∧ armed.freeInbound 4 = 8
      ∧ armed.freeInbound 0 = 0 :=
  ⟨unset_idleSlots, by decide +kernel⟩

/-- The agent's request for a setup word, and a plain access of the C-port. -/
def fetchingSetup (k : Nat) : State := gantry.setAgent ⟨[.fetchSetup], some k, []⟩
def plainWrite : Access := ⟨true, 0x90000, .half true, 0xBEEF⟩

theorem witness_GrantFollowsFixedPriority :
    waitingWrite.controller.lines.mrest = false ∧ waitingWrite.arbiter = none
      ∧ waitingWrite.ports.r.request = some (headerWrite, some ⟨.inbound, slot1, 0⟩)
      ∧ (fetchingSetup 0).arbiter = none ∧ (fetchingSetup 0).ports.r.request = none
      ∧ (fetchingSetup 0).agentRequest = some ⟨0, none, true⟩
      ∧ (outstanding .c plainWrite (.waiting none) gantry).ports.c.request = some (plainWrite, none)
      ∧ (outstanding .c plainWrite (.waiting none) gantry).agentRequest = none
      ∧ waitingWrite.slotAt 0x80010 = some ⟨.inbound, slot1, 0⟩ ∧ waitingWrite.judge ⟨.inbound, slot1, 0⟩ = none
      ∧ (waitingWrite.setInSlot slot1 (.closed announce)).judge ⟨.inbound, slot1, 0⟩ = some .overrun := by decide +kernel

theorem witness_GrantFollowsFixedPriority_nothing :
    resting.controller.lines.mrest = true ∧ flyingWrite.arbiter ≠ none ∧ gantry.ports.r.request = none
      ∧ gantry.agentRequest = none ∧ gantry.ports.c.request = none ∧ gantry.agent.position = none ∧ gantry.agent.jobs = []
      ∧ (waitingWrite.port .r).access = some ⟨headerWrite, .waiting (some ⟨.inbound, slot1, 0⟩), false⟩
      ∧ (waitingWrite.enter .halted).slotAt headerWrite.word ≠ some ⟨.inbound, slot1, 0⟩
      ∧ lastWord.agent.position = some 5 ∧ lastWord.agent.jobs = [.fetchFrame .inbound slot1]
      ∧ lastWord.agentRequest = some ⟨0x80015, none, true⟩
      ∧ (fetchingSetup 0).agent.position = some 0 ∧ (fetchingSetup 0).agent.jobs = [.fetchSetup] := by decide +kernel

/-- The agent at word 3 of a record of 8 words. -/
def writingRecord : State :=
  gantry.setAgent ⟨[.writeReport 0x400 [0, 1, 2, 3, 4, 5, 6, 7], .fetchFrame .outbound slot2], some 3, []⟩

theorem witness_GrantFollowsFixedPriority_record :
    writingRecord.agent.position = some 3
      ∧ writingRecord.agent.jobs = [.writeReport 0x400 [0, 1, 2, 3, 4, 5, 6, 7], .fetchFrame .outbound slot2]
      ∧ ([0, 1, 2, 3, 4, 5, 6, 7] : List Word)[3]? = some 3 ∧ writingRecord.agentRequest = some ⟨0x403, some 3, true⟩
      ∧ (gantry.setAgent ⟨[.fetchFrame .outbound slot2], some 1, []⟩).agentRequest = some ⟨0x800A1, none, true⟩ := by
  decide +kernel

/-- A plain access in flight. -/
def flyingPlain (write : Bool) : State :=
  (outstanding .c { plainWrite with write := write } (.inFlight none) gantry).setArbiter (some (.port .c))

theorem witness_WordAccessCompletesAtMemory :
    (flyingPlain true).arbiter = some (.port .c)
      ∧ ((flyingPlain true).port .c).access = some ⟨plainWrite, .inFlight none, false⟩ ∧ Memory.wf (flyingPlain true).mem
      ∧ ((flyingPlain false).port .c).access = some ⟨{ plainWrite with write := false }, .inFlight none, false⟩ := by
  decide +kernel

/-- A write of word 1 of the FREE slot 4/1, in flight. -/
def bodyWrite : Access := ⟨true, 0x80011, .word, 0⟩
def flyingBody : State :=
  (outstanding .r bodyWrite (.inFlight (some ⟨⟨.inbound, slot1, 1⟩, .free⟩)) gantry).setArbiter (some (.port .r))

theorem witness_TrackedWriteTakesEffect :
    flyingWrite.arbiter = some (.port .r)
      ∧ (flyingWrite.port .r).access = some ⟨headerWrite, .inFlight (some ⟨⟨.inbound, slot1, 0⟩, .free⟩), false⟩
      ∧ flyingWrite.slotAt 0x80010 = some ⟨.inbound, slot1, 0⟩ ∧ flyingWrite.slotState ⟨.inbound, slot1, 0⟩ = .free
      ∧ (((flyingWrite.setArbiter none).store 0x80010 .word 0x601).respond .r (.done none)).writeSlot ⟨.inbound, slot1, 0⟩ 0x601 ≠ none
      ∧ (((flyingBody.setArbiter none).store 0x80011 .word 0).respond .r (.done none)).writeSlot ⟨.inbound, slot1, 1⟩ 0 = none
      ∧ flyingBody.slotState ⟨.inbound, slot1, 1⟩ = .free
      ∧ (flyingWrite.enter .halted).slotAt 0x80010 ≠ some ⟨.inbound, slot1, 0⟩
      ∧ (flyingWrite.setInSlot slot1 (.closed announce)).slotState ⟨.inbound, slot1, 0⟩ ≠ .free := by decide +kernel

theorem witness_SlotsCountTheirWrites :
    (Header.ofWord 0x601).wellFormed .inbound 16 = true ∧ (Header.ofWord 0x701).wellFormed .inbound 16 = false
      ∧ (Header.ofWord 0xA03).wellFormed .outbound 16 = true ∧ (Header.ofWord 0x10A03).wellFormed .outbound 16 = false
      ∧ (gantry.setup.lanes.get slot1.lane).slotWords = 16 ∧ gantry.inSlot slot1 = .free
      ∧ (gantry.setInSlot slot1 (.filling announce 3)).inSlot slot1 = .filling announce 3 ∧ 3 + 1 ≠ announce.length.toNat - 1
      ∧ (gantry.setInSlot slot1 (.filling announce 4)).inSlot slot1 = .filling announce 4 ∧ 4 + 1 = announce.length.toNat - 1
      ∧ (gantry.outSlot slot2).state = .free
      ∧ ((opened awaiting (.spoiled challenge none)).outSlot slot2).state = .spoiled challenge none
      ∧ ((opened awaiting (.composing challenge 5)).outSlot slot2).state = .composing challenge 5
      ∧ 7 + 2 < challenge.length.toNat ∧ challenge.length.toNat ≤ 8 + 2 ∧ 5 + 1 ≠ challenge.length.toNat - 3
      ∧ ((opened awaiting (.composing challenge 6)).outSlot slot2).state = .composing challenge 6
      ∧ 6 + 1 = challenge.length.toNat - 3 := by decide +kernel

theorem witness_SlotsCountTheirWrites_no_held_read : ∀ q, gantry.slots.held = some q → q.slot ≠ slot2 := by
  intro q h; exact absurd h (by simp [gantry, State.reset, Slots.reset])

/-- The part with a job at the head of its list. -/
def queued (j : Job) (s : State) : State := s.setAgent ⟨[j], none, []⟩

theorem witness_AgentStartsHeadJob :
    closedFrame.agent.position = none ∧ closedFrame.agent.jobs = [.fetchFrame .inbound slot1]
      ∧ closedFrame.controller.power = .on ∧ closedFrame.controller.lines.mrest = false ∧ closedFrame.controller.state = .running
      ∧ closedFrame.inSlot slot1 = .closed announce
      ∧ (queued (.fetchFrame .outbound slot2) (opened awaiting (.closed challenge))).agent = ⟨[.fetchFrame .outbound slot2], none, []⟩
      ∧ ((opened awaiting (.closed challenge)).outSlot slot2).state = .closed challenge
      ∧ (queued .fetchSetup unset).agent = ⟨[.fetchSetup], none, []⟩ ∧ unset.controller.state = .unset
      ∧ (queued (.writeReport 0 []) purging).agent = ⟨[.writeReport 0 []], none, []⟩ ∧ purging.controller.state = .purging := by
  decide +kernel

theorem witness_AgentStartsHeadJob_stays :
    lastWord.agent.position ≠ none ∧ gantry.agent.jobs = [] ∧ resting.controller.lines.mrest = true ∧ off.controller.power ≠ .on
      ∧ asleep.controller.state = .dormant ∧ halted.controller.state = .halted := by decide +kernel

/-- A word of the agent in flight at a position of a job. -/
def agentWord (j : Job) (k : Nat) (write : Option Word) (s : State) : State :=
  (s.setAgent ⟨[j], some k, []⟩).setArbiter (some (.agent ⟨0x80011, write, true⟩))

theorem witness_AgentWordContinuesOrEndsTheJob :
    lastWord.arbiter = some (.agent ⟨0x80015, none, true⟩) ∧ lastWord.agent.position = some 5
      ∧ lastWord.agent.jobs = [.fetchFrame .inbound slot1] ∧ lastWord.jobEnd (.fetchFrame .inbound slot1) ≤ 5 + 1
      ∧ 4 + 1 < lastWord.jobEnd (.fetchFrame .inbound slot1)
      ∧ (agentWord .fetchSetup 63 none unset).agent.jobs = [.fetchSetup] ∧ unset.jobEnd .fetchSetup ≤ 63 + 1
      ∧ 62 + 1 < unset.jobEnd .fetchSetup ∧ Memory.wf (agentWord (.writeReport 0x80011 [1, 2]) 0 (some 1) gantry).mem
      ∧ (agentWord (.writeReport 0x80011 [1, 2]) 0 (some 1) gantry).agent.jobs = [.writeReport 0x80011 [1, 2]]
      ∧ 0 + 1 < [1, 2].length ∧ [1, 2].length ≤ 1 + 1
      ∧ (gantry.setArbiter (some (.agent ⟨0x80011, none, false⟩))).arbiter = some (.agent ⟨0x80011, none, false⟩)
      ∧ (gantry.setArbiter (some (.agent ⟨0xFFFFF, some 7, false⟩))).arbiter = some (.agent ⟨0xFFFFF, some 7, false⟩)
      ∧ Memory.wf gantry.mem := by decide +kernel

/-- A slot whose frame is fetched, at the take of each kind and form. -/
theorem witness_AgentWordContinuesOrEndsTheJob_takes :
    (lastWord.inSlot slot1).header = some announce ∧ announce.kind = 1 ∧ announce.form = 0
      ∧ ((lastWord.setInSlot slot1 (.fetching ⟨1, 7, 1⟩)).inSlot slot1).header = some ⟨1, 7, 1⟩
      ∧ ((lastWord.setInSlot slot1 (.fetching confirm)).inSlot slot1).header = some confirm ∧ confirm.kind = 2 ∧ confirm.form = 0
      ∧ ((lastWord.setInSlot slot1 (.fetching ⟨2, 8, 1⟩)).inSlot slot1).header = some ⟨2, 8, 1⟩
      ∧ ((opened awaiting (.fetching challenge)).outSlot slot2).state.header = some challenge ∧ challenge.form = 0
      ∧ ((opened awaiting (.fetching ⟨3, 11, 1⟩)).outSlot slot2).state.header = some ⟨3, 11, 1⟩ ∧ (1 : Word) ≠ 0 := by
  decide +kernel

theorem witness_MrestRefusesAndRewinds :
    waitingWrite.controller.lines.mrest = false ∧ waitingWrite.controller.power = .on
      ∧ (waking.port .c).access = some ⟨⟨false, 0x40, .word, 0⟩, .wake, true⟩
      ∧ ((reading false coding).port .r).access = some ⟨lowRead, .codeHeld, false⟩
      ∧ (waitingWrite.port .r).access = some ⟨headerWrite, .waiting (some ⟨.inbound, slot1, 0⟩), false⟩
      ∧ (waitingWrite.port .c).access = none
      ∧ (flyingWrite.port .r).access = some ⟨headerWrite, .inFlight (some ⟨⟨.inbound, slot1, 0⟩, .free⟩), false⟩
      ∧ lastWord.agent.position = some 5 ∧ lastWord.agent.jobs = [.fetchFrame .inbound slot1]
      ∧ gantry.arbiter = none ∧ gantry.ports.c.access = none ∧ gantry.ports.r.access = none
      ∧ Memory.wf flyingWrite.mem ∧ headerWrite.write = true ∧ 4 * headerWrite.word.toNat + headerWrite.size.offset = 0x200040
      ∧ inReset.controller.power = .inReset
      ∧ ((outstanding .c plainWrite (.inFlight none) inReset).port .c).access = some ⟨plainWrite, .inFlight none, false⟩
      ∧ ((outstanding .r plainWrite (.waiting none) inReset).port .r).access = some ⟨plainWrite, .waiting none, false⟩ := by
  decide +kernel

/-- Both ports with a waiting access, and the write in flight with the other port waiting. -/
def bothWaiting : State := outstanding .c plainWrite (.waiting none) waitingWrite
def oneFlying : State := outstanding .c plainWrite (.waiting none) flyingWrite

theorem witness_MrestRefusesAndRewinds_both_ports :
    bothWaiting.controller.lines.mrest = false ∧ bothWaiting.controller.power = .on
      ∧ (bothWaiting.port .c).access = some ⟨plainWrite, .waiting none, false⟩
      ∧ (bothWaiting.port .r).access = some ⟨headerWrite, .waiting (some ⟨.inbound, slot1, 0⟩), false⟩
      ∧ (after (.mrestAssert .cFirst) bothWaiting).path = ⟨2, some .r, some .memoryResting, headerWrite.address⟩
      ∧ (after (.mrestAssert .rFirst) bothWaiting).path = ⟨2, some .c, some .memoryResting, plainWrite.address⟩
      ∧ oneFlying.controller.lines.mrest = false ∧ oneFlying.controller.power = .on
      ∧ (after (.mrestAssert .cFirst) oneFlying).path = ⟨2, some .r, some .memoryResting, headerWrite.address⟩
      ∧ flyingWrite.controller.lines.mrest = false ∧ flyingWrite.arbiter = some (.port .r)
      ∧ (after (.mrestAssert .cFirst) flyingWrite).path = ⟨1, some .r, some .memoryResting, headerWrite.address⟩
      ∧ (after (.mrestAssert .cFirst) flyingWrite).arbiter = none
      ∧ (after (.mrestAssert .cFirst) (reading false coding)).path = coding.path := by decide +kernel

theorem witness_MrestRefusesAndRewinds_in_reset :
    off.controller.lines.mrest = false ∧ off.controller.power = .off ∧ inReset.controller.lines.mrest = false
      ∧ (outstanding .r headerWrite (.inFlight none) inReset).controller.power = .inReset
      ∧ (after (.mrestAssert .cFirst) (outstanding .r headerWrite (.inFlight none) inReset)).port .r
        = ⟨some ⟨headerWrite, .waiting none, false⟩, none⟩
      ∧ (outstanding .r headerWrite (.waiting none) inReset).arbiter = none := by decide +kernel

theorem witness_CodeReadIsAnsweredByTheSlot :
    armed.hears .r ∧ armed.inBlock 0x800A8 = false ∧ armed.slotAt 0x800A8 = some ⟨.outbound, slot2, 8⟩
      ∧ armed.slotAt 0x800A9 = some ⟨.outbound, slot2, 9⟩ ∧ (armed.outSlot slot2).codePosition = some 8
      ∧ (armed.outSlot slot2).state = .armed challenge 0 0x1111222233334444 ∧ armed.context 0 = some challenging
      ∧ ((opened awaiting .free).outSlot slot2).state.tag = .free
      ∧ ((opened awaiting (.composing challenge 0)).outSlot slot2).state.tag = .composing
      ∧ ((opened awaiting (.spoiled challenge none)).outSlot slot2).state.tag = .spoiled
      ∧ ((opened awaiting (.draining challenge)).outSlot slot2).state.tag = .draining := by decide +kernel

/-- Slot 5/2 of the lane with a hold limit of 0. -/
def eager : State := gantry.setOutSlot ⟨5, 2⟩ ⟨.closed challenge, some 8, false⟩

theorem witness_EarlyCodeReadIsHeld :
    coding.hears .r ∧ coding.inBlock 0x800A8 = false ∧ coding.slotAt 0x800A8 = some ⟨.outbound, slot2, 8⟩
      ∧ coding.slotAt 0x800A9 = some ⟨.outbound, slot2, 9⟩ ∧ (coding.outSlot slot2).codePosition = some 8
      ∧ (coding.outSlot slot2).state.tag = .coding ∧ 0 < (coding.setup.lanes.get slot2.lane).holdLimit
      ∧ eager.hears .r ∧ eager.slotAt 0x801A8 = some ⟨.outbound, ⟨5, 2⟩, 8⟩ ∧ (eager.outSlot ⟨5, 2⟩).codePosition = some 8
      ∧ (eager.outSlot ⟨5, 2⟩).state.tag = .closed ∧ (eager.setup.lanes.get 5).holdLimit = 0 := by decide +kernel

theorem witness_HoldLimitExpiryUnderruns :
    (reading false coding).slots.held = some ⟨slot2, false, 10000, 60⟩
      ∧ (reading false coding).ports.r.access = some ⟨lowRead, .codeHeld, false⟩
      ∧ ((reading false coding).outSlot slot2).state = .coding challenge 0 ∧ (reading false coding).context 0 = some challenging
      ∧ ((reading true (opened unkeyed (.waitingKey challenge 0))).outSlot slot2).state = .waitingKey challenge 0
      ∧ ((reading true (opened awaiting (.closed challenge))).outSlot slot2).state = .closed challenge
      ∧ ((reading true (opened awaiting (.fetching challenge))).outSlot slot2).state = .fetching challenge := by decide +kernel

/-- The read held on slot 4/2 while its frame is fetched, a word of the fetch in flight. -/
def readingFetch : State :=
  (((reading true (opened awaiting (.fetching challenge))).setAgent ⟨[.fetchFrame .outbound slot2, .fetchSetup], some 3, [7]⟩).setArbiter
    (some (.agent ⟨0x800A3, none, true⟩)))

theorem witness_HoldLimitExpiryUnderruns_job :
    readingFetch.slots.held = some ⟨slot2, true, 10000, 60⟩ ∧ (readingFetch.outSlot slot2).state = .fetching challenge
      ∧ readingFetch.agent.position = some 3 ∧ readingFetch.agent.jobs = .fetchFrame .outbound slot2 :: [.fetchSetup]
      ∧ (after .holdLimitExpiry readingFetch).agent.position = none
      ∧ (after .holdLimitExpiry readingFetch).arbiter = some (.agent ⟨0x800A3, none, false⟩) := by decide +kernel

theorem witness_AnnounceIsAbsorbed :
    (opened awaiting .free).findContext 0x517A20 = some 0 ∧ (opened awaiting .free).context 0 = some awaiting
      ∧ (opened verifying .free).findContext 0x517A20 = some 0 ∧ (opened verifying .free).context 0 = some verifying := by
  decide +kernel

/-- Entry 13 in a state. -/
def keyed (x : KeyState) : State := gantry.setEntry 13 { key13 with state := x }
def full : State := { gantry with contexts := { Contexts.reset with table := Table.fill 24 (some awaiting) } }

theorem witness_AnnounceIsDeclinedOrOpens :
    gantry.findContext 0x517A20 = none ∧ (remembered 10000).findContext 0x517A20 = none
      ∧ (remembered 10000).recentlyPaid 0x517A20 = true ∧ gantry.recentlyPaid 0x517A20 = false
      ∧ gantry.setup.serves 0xFFFF = false ∧ gantry.setup.serves 0x0240 = false ∧ gantry.setup.serves 0x0231 = true
      ∧ gantry.lookup 0x0231 8 = none ∧ gantry.lookup 0x0231 7 = some 13
      ∧ (keyed .waiting).lookup 0x0231 7 = some 13 ∧ ((keyed .waiting).keys.entries.get 13).state = .waiting
      ∧ (keyed .expired).lookup 0x0231 7 = some 13 ∧ ((keyed .expired).keys.entries.get 13).state = .expired
      ∧ (keyed .revoked).lookup 0x0231 7 = some 13 ∧ ((keyed .revoked).keys.entries.get 13).state = .revoked
      ∧ (gantry.keys.entries.get 13).state = .live ∧ gantry.context 0 = none
      ∧ full.findContext 0x99 = none ∧ full.lookup 0x0231 7 = some 13 ∧ (∀ c, full.context c ≠ none)
      ∧ (full.setContext 23 none).context 23 = none ∧ (∀ d, d < 23 → (full.setContext 23 none).context d ≠ none) := by
  decide +kernel

/-- An attempt list of three in which the second is the oldest unsent. -/
def three : List Attempt := [⟨1, record, some 1⟩, ⟨2, record, none⟩, ⟨3, record, some 3⟩]

theorem witness_ChallengeIsRefusedOrBound :
    laneIn 3 awaiting.lanes = false ∧ laneIn 4 awaiting.lanes = true ∧ verifying.state = .verifying
      ∧ challenging.state = .challenging ∧ unkeyed.bound ≠ none ∧ ({ awaiting with accepted := 3 } : Context).challengeNotice 4 = some .tooMany
      ∧ awaiting.challengeNotice 4 = none ∧ gantry.findContext 0x517A20 = none
      ∧ (opened awaiting .free).findContext 0x517A20 = some 0 ∧ (opened awaiting .free).context 0 = some awaiting
      ∧ awaiting.challengeNotice 3 = some .wrongLane ∧ awaiting.attempts.length < 3
      ∧ ({ unkeyed with bound := none } : Context).challengeNotice 4 = none
      ∧ (opened { unkeyed with bound := none } .free).context 0 = some { unkeyed with bound := none }
      ∧ three = [⟨1, record, some 1⟩] ++ ⟨2, record, none⟩ :: [⟨3, record, some 3⟩]
      ∧ ({ awaiting with attempts := three } : Context).challengeNotice 4 = none
      ∧ ((opened awaiting (.fetching challenge)).outSlot slot2).state.header = some challenge := by decide +kernel

/-- A DERIVING context whose three bindings have been dropped by underruns; and a slot with a held read. -/
theorem witness_ChallengeIsRefusedOrBound_full :
    ({ unkeyed with bound := none, accepted := 0, attempts := [⟨1, record, none⟩, ⟨2, record, none⟩, ⟨3, record, none⟩] } :
        Context).challengeNotice 4 = none
      ∧ ([⟨1, record, none⟩, ⟨2, record, none⟩, ⟨3, record, none⟩] : List Attempt)
        = [] ++ ⟨1, record, none⟩ :: [⟨2, record, none⟩, ⟨3, record, none⟩]
      ∧ unkeyed.state = .derivingKey ∧ gantry.slots.held = none
      ∧ readingFetch.slots.held = some ⟨slot2, true, 10000, 60⟩ ∧ (readingFetch.outSlot slot2).state.header = some challenge
      ∧ readingFetch.ports.r.access = some ⟨lowRead, .codeHeld, false⟩ := by decide +kernel

theorem witness_ConfirmIsMatchedOrStray :
    gantry.findContext 0x517A20 = none ∧ (opened awaiting .free).findContext 0x517A20 = some 0
      ∧ (opened verifying .free).context 0 = some verifying ∧ verifying.state ≠ .awaiting ∧ verifying.state ≠ .challenging
      ∧ (∀ a ∈ awaiting.attempts, a.sentAt = none ∨ a.nonce ≠ 0xB)
      ∧ awaiting.attempts = [] ++ ⟨0xA, record, some 10002⟩ :: [] ∧ awaiting.bound = none ∧ awaiting.state = .awaiting
      ∧ (opened { challenging with attempts := three } (.armed challenge 0 0)).context 0 = some { challenging with attempts := three }
      ∧ three = [⟨1, record, some 1⟩, ⟨2, record, none⟩] ++ ⟨3, record, some 3⟩ :: [] ∧ challenging.bound = some slot2 := by
  decide +kernel

theorem witness_IssuersAreServedByFilters :
    gantry.setup.serves 0xFFFF = false ∧ gantry.setup.serves 0 = true ∧ gantry.setup.serves 1 = false
      ∧ gantry.setup.serves 0x0230 = true ∧ gantry.setup.serves 0x023F = true := by decide +kernel

theorem witness_LoadTestsAreMadeInOrder :
    (serial 90).keys.highestSerial < record91.serial ∧ ¬ (serial 91).keys.highestSerial < record91.serial
      ∧ ({ record91 with kind := 3 } : LoadRecord).kind ≠ 1 ∧ ({ record91 with issuer := 0xFFFF } : LoadRecord).issuer = 0xFFFF
      ∧ ¬ ({ record91 with validUntil := 6000000 } : LoadRecord).validFrom < ({ record91 with validUntil := 6000000 } : LoadRecord).validUntil
      ∧ record91.validFrom < record91.validUntil ∧ gantry.findKey 0x0231 7 = some 13 ∧ gantry.findKey 0x0412 3 = none
      ∧ (gantry.keys.entries.get 0).state = .empty
      ∧ (∀ k, ((Table.fill 48 key13).get k).state ≠ .empty)
      ∧ ({ gantry with keys := { gantry.keys with entries := (Table.fill 48 key13).set 47 KeyEntry.empty } } : State).loadOutcome record91 true
        = (.ok, some 47) := by decide +kernel

/-- A REVOKE of entry 13's pair and an INSTALL, in the load buffer. -/
def revokeWords : Table 16 Word := (((Table.fill 16 0).set 0 0x102).set 1 9).set 2 0x00070231
def installWords : Table 16 Word := ((((Table.fill 16 0).set 0 0x101).set 1 9).set 2 0x00030412).set 4 7
def unwrapping (words : Table 16 Word) : State :=
  running (.unwrap 0 [] (Config.unwrapCheck 0 [])) (gantry.setLoad { Load.reset with state := .unwrapping, buffer := words, fill := 16 })

theorem witness_UnwrapCompletionEndsTheLoad_outcomes :
    (∀ pass, (gantry.loadOutcome (LoadRecord.ofBuffer (Table.fill 16 0)) pass).1 ≠ .ok)
      ∧ gantry.loadOutcome (LoadRecord.ofBuffer installWords) true = (.ok, some 0) ∧ (LoadRecord.ofBuffer installWords).kind = 1
      ∧ gantry.loadOutcome (LoadRecord.ofBuffer revokeWords) true = (.ok, some 13) ∧ (LoadRecord.ofBuffer revokeWords).kind = 2 := by
  decide +kernel

theorem witness_UnwrapCompletionEndsTheLoad_holders :
    coding.context 0 = some challenging ∧ challenging.keyLink = some 13 ∧ challenging.state ∉ [ContextState.closing, .reporting]
      ∧ challenging.mark = false ∧ challenging.bound = some slot2 ∧ (coding.outSlot slot2).state.header = some challenge
      ∧ (∀ d, d ≠ 0 → coding.context d = none)
      ∧ (opened reporting .free).context 0 = some reporting ∧ reporting.state ∈ [ContextState.closing, .reporting]
      ∧ (reading true coding).slots.held = some ⟨slot2, true, 10000, 60⟩ ∧ (reading true coding).context 0 = some challenging
      ∧ (reading true coding).ports.r.access = some ⟨lowRead, .codeHeld, false⟩
      ∧ ((reading true coding).closeHolders 13).reports.waiting = [.outbound slot2, .context 0] := by
  decide +kernel

theorem witness_UnwrapCompletionEndsTheLoad (words : Table 16 Word) :
    (unwrapping words).engine.operation = some (.unwrap 0 [] (Config.unwrapCheck 0 []))
      ∧ (unwrapping words).loadOutcome (LoadRecord.ofBuffer (unwrapping words).load.buffer)
          (decide (Config.unwrapCheck 0 [] = Config.unwrapCheck 0 []))
        = gantry.loadOutcome (LoadRecord.ofBuffer words) true :=
  ⟨rfl, by rw [decide_eq_true rfl]; rfl⟩

theorem witness_HighestSerialNeverFalls :
    (∃ t, exec (.resetAssert true) gantry = .next t) ∧ gantry.keys.lastWrite = none ∧ ∃ t, exec .unwrapComplete gantry = .next t :=
  ⟨⟨_, rfl⟩, rfl, ⟨_, rfl⟩⟩

theorem witness_LoadWindowWriteIsRefusedOrTaken :
    unset.hears .c ∧ unset.controller.state = .unset ∧ halted.hears .c ∧ purging.hears .c ∧ gantry.hears .c ∧ awake.hears .c
      ∧ gantry.controller.state = .running ∧ Size.byte 0 ≠ .word ∧ gantry.load.state = .idle
      ∧ (gantry.setLoad { Load.reset with state := .unwrapping }).load.state = .unwrapping
      ∧ fifteen.hears .c ∧ fifteen.load.state = .filling ∧ fifteen.load.fill + 1 = 16
      ∧ (gantry.setLoad { Load.reset with state := .filling, fill := 14 }).load.fill + 1 ≠ 16 := by decide +kernel

theorem witness_EngineStartTakesLowestClassOldest :
    (coding.joinReady (.code slot2)).controller.power = .on ∧ (coding.joinReady (.code slot2)).controller.state = .running
      ∧ (coding.joinReady (.code slot2)).engine.operation = none
      ∧ nextHolder (coding.joinReady (.code slot2)).engine.ready = some (.code slot2)
      ∧ (coding.joinReady (.code slot2)).operationOf (.code slot2) = some (.code slot2 77 0x517A20 0x1234 0xA record)
      ∧ asleep.controller.state = .dormant ∧ halted.controller.state = .halted ∧ gantry.engine.ready = []
      ∧ (running (.derive 0 0 0 0) gantry).engine.operation ≠ none := by decide +kernel

theorem witness_OperationCopiesItsInputs :
    coding.context 0 = some challenging ∧ (coding.outSlot slot2).state = .coding challenge 0 ∧ challenging.tagKey = some 77
      ∧ challenging.attempts.getLast? = some ⟨0xA, record, none⟩
      ∧ verifying.confirm = some ⟨0xA, 0x313, 99, 0⟩ ∧ verifying.attempts[0]? = some ⟨0xA, record, some 10002⟩
      ∧ unkeyed.keyLink = some 13 ∧ (coding.keys.entries.get 13).key = some 5
      ∧ fifteen.load.buffer.cells = List.replicate 14 0 ++ [0, 0] := by decide +kernel

theorem witness_CodeCompletionFollowsTheSlot :
    (running (.code slot2 77 1 2 3 record) coding).engine.operation = some (.code slot2 77 1 2 3 record)
      ∧ (coding.outSlot slot2).state = .coding challenge 0 ∧ coding.slots.held = none
      ∧ (reading false coding).slots.held = some ⟨slot2, false, 10000, 60⟩
      ∧ (reading true coding).slots.held = some ⟨slot2, true, 10000, 60⟩
      ∧ (reading true coding).ports.r.access = some ⟨lowRead, .codeHeld, false⟩ ∧ (reading true coding).context 0 = some challenging
      ∧ ((opened awaiting (.spoiled challenge none)).outSlot slot2).state = .spoiled challenge none
      ∧ ((opened awaiting (.draining challenge)).outSlot slot2).state = .draining challenge := by decide +kernel

theorem witness_DeriveCompletionFollowsTheContext :
    (running (.derive 0 5 1 7) (opened unkeyed (.waitingKey challenge 0))).engine.operation = some (.derive 0 5 1 7)
      ∧ (opened unkeyed (.waitingKey challenge 0)).context 0 = some unkeyed ∧ unkeyed.state = .derivingKey
      ∧ unkeyed.bound = some slot2 ∧ ((opened unkeyed (.waitingKey challenge 0)).outSlot slot2).state = .waitingKey challenge 0
      ∧ (opened { unkeyed with bound := none } .free).context 0 = some { unkeyed with bound := none }
      ∧ (opened { unkeyed with state := .closing } .free).context 0 = some { unkeyed with state := .closing } := by decide +kernel

theorem witness_VerifyCompletionDecidesTheOutcome (tagCode : Wide) :
    (running (.verify 0 77 1 2 record 3 tagCode) (opened verifying .free)).engine.operation = some (.verify 0 77 1 2 record 3 tagCode)
      ∧ (running (.verify 0 77 1 2 record 3 tagCode) (opened verifying .free)).context 0 = some verifying :=
  ⟨rfl, rfl⟩

theorem witness_VerifyCompletionDecidesTheOutcome_values :
    verifying.confirm = some ⟨0xA, 0x313, 99, 0⟩ ∧ verifying.announceCounter + 1 = 0x313 ∧ verifying.issuer ≠ 0
      ∧ (0x314 : Word) ≠ verifying.announceCounter + 1
      ∧ Config.expectedTagCode 77 1 2 record 3 = Config.expectedTagCode 77 1 2 record 3
      ∧ Config.expectedTagCode 77 1 2 record 3 ≠ Config.expectedTagCode 77 1 2 record 3 + 1 :=
  ⟨rfl, by decide, by decide, by decide, rfl, by simp⟩

/-- Context 0 in REPORTING, on the pending list. -/
def reported : State := (opened reporting .free).joinReports (.context 0)

theorem witness_ReportWriterQueuesTheHead :
    gantry.reports.waiting = [] ∧ ({ gantry with reports := ⟨31, 0, 0, [], .idle⟩ } : State).ringFull = true
      ∧ (gantry.setWrite .writing).reports.write ≠ .idle ∧ reported.reports.waiting = [.context 0] ∧ reported.ringFull = false
      ∧ reported.reports.write = .idle ∧ reported.heldReport (.context 0) ≠ none
      ∧ (gantry.setInSlot slot1 (.reportWait announce (gantry.notice .malformed slot1 none none none))).inSlot slot1
        = .reportWait announce (gantry.notice .malformed slot1 none none none)
      ∧ ((opened awaiting (.spoiled challenge (some (gantry.notice .underrun slot2 none none none)))).outSlot slot2).state
        = .spoiled challenge (some (gantry.notice .underrun slot2 none none none))
      ∧ reported.context 0 = some reporting ∧ reporting.outcome = some (.paid, 10009)
      ∧ ((reported.heldReport (.context 0)).bind (·.passage)) = some ⟨1, 1, laneBit 4⟩
      ∧ (gantry.notice .malformed slot1 none none none).passage = none := by decide +kernel

theorem witness_WrittenEventReleasesTheHolder :
    (gantry.setWrite .orphan).reports.waiting = [] ∧ (reported.setWrite .orphan).reports.write ≠ .writing ∧ (reported.setWrite .writing).reports.write = .writing
      ∧ (reported.setWrite .writing).reports.waiting = [.context 0] ∧ reported.context 0 = some reporting
      ∧ reporting.state = .reporting ∧ reporting.keyLink = some 13 ∧ reporting.outcome = some (.paid, 10009)
      ∧ reported.setup.holdOff ≠ 0 ∧ ({ reporting with keyLink := none } : Context).keyLink = none
      ∧ (gantry.setInSlot slot1 (.reportWait announce (gantry.notice .malformed slot1 none none none))).inSlot slot1
        = .reportWait announce (gantry.notice .malformed slot1 none none none)
      ∧ ((opened awaiting (.spoiled challenge (some (gantry.notice .underrun slot2 none none none)))).outSlot slot2).state
        = .spoiled challenge (some (gantry.notice .underrun slot2 none none none)) := by decide +kernel

theorem witness_ReportsCauseFollowsTheRing :
    gantry.control.raised &&& Cause.reports.bit = 0 ∧ gantry.controller.power = .on ∧ gantry.control.raised = 0 := by decide +kernel

theorem witness_CommandTestsAreMadeInOrder :
    (after (.setup 0) unset).control.setupRunning = true ∧ gantry.control.setupRunning = false
      ∧ halted.control.setupRunning = false ∧ halted.controller.state = .halted ∧ purging.controller.state = .purging
      ∧ unset.controller.state = .unset ∧ unset.control.setupRunning = false
      ∧ (∀ c, gantry.context c = none) ∧ gantry.reports.waiting = [] ∧ gantry.reports.write = .idle ∧ gantry.load.state = .idle
      ∧ reported.reports.waiting ≠ [] ∧ reported.control.setupRunning = false
      ∧ gantry.agent.jobs = [] ∧ gantry.engine.ready = [] ∧ gantry.engine.operation = none
      ∧ (31 : BitVec 24).toNat < gantry.setup.capacity ∧ ¬ (32 : BitVec 24).toNat < gantry.setup.capacity
      ∧ (5 + 32 - gantry.reports.consumer) % 32 ≤ (gantry.reports.producer + 32 - gantry.reports.consumer) % 32
      ∧ ¬ (6 + 32 - gantry.reports.consumer) % 32 ≤ (gantry.reports.producer + 32 - gantry.reports.consumer) % 32 := by
  decide +kernel

theorem witness_DeclinedCommandOnlyReports :
    gantry.hears .c ∧ awake.hears .c ∧ gantry.declines 0 0 = some .badOperand ∧ halted.hears .c ∧ halted.declines 1 0 = some .state
      ∧ reported.hears .c ∧ reported.declines 2 0 = some .busy ∧ awake.declines 3 8 = some .badOperand
      ∧ gantry.declines 4 6 = some .badOperand ∧ gantry.declines 5 128 = some .badOperand := by decide +kernel

theorem witness_AcceptedCommandIsCarriedOut :
    gantry.hears .c ∧ gantry.declines 1 0 = none ∧ gantry.declines 2 0 = none ∧ gantry.declines 4 5 = none
      ∧ gantry.declines 5 127 = none ∧ awake.hears .c ∧ awake.declines 2 0 = none := by decide +kernel

theorem witness_LaneRestartFreesTheLane :
    coding.hears .c ∧ coding.declines 3 7 = none ∧ coding.declines 3 4 = none ∧ (coding.outSlot slot2).mark = false
      ∧ ((coding.setMark (.code slot2) true).outSlot slot2).mark = true
      ∧ ((coding.setMark (.code slot2) true).outSlot slot2).state.header = some challenge
      ∧ coding.context 0 = some challenging ∧ challenging.state ∉ [ContextState.closing, .reporting] ∧ challenging.homeLane = 4
      ∧ challenging.bound = some slot2 ∧ slot2.lane = 4 ∧ laneIn 5 challenging.lanes = false
      ∧ laneIn 4 ({ challenging with homeLane := 5 } : Context).lanes = true ∧ reporting.state ∈ [ContextState.closing, .reporting]
      ∧ (opened { challenging with homeLane := 5 } (.coding challenge 0)).context 0 = some { challenging with homeLane := 5 }
      ∧ laneIn 5 ({ challenging with lanes := laneBit 4 ||| laneBit 5 } : Context).lanes = true := by decide +kernel

/-- The malformed inbound slot 4/1 at the head of the pending list, its record being written. -/
def reportingSlot : State :=
  (((coding.setInSlot slot1 (.reportWait announce (gantry.notice .malformed slot1 none none none))).joinReports
    (.inbound slot1)).setWrite .writing)

theorem witness_LaneRestartFreesTheLane_reports :
    reportingSlot.hears .c ∧ reportingSlot.declines 3 4 = none ∧ reportingSlot.reports.waiting = [.inbound slot1]
      ∧ (ReportHolder.inbound slot1).inLane 4 = true ∧ (ReportHolder.inbound slot1).inLane 5 = false
      ∧ reportingSlot.reports.write = .writing ∧ coding.reports.write ≠ .writing
      ∧ (reading false coding).hears .c ∧ (reading false coding).declines 3 4 = none
      ∧ (reading false coding).slots.held = some ⟨slot2, false, 10000, 60⟩ ∧ slot2.lane = 4
      ∧ (reading false coding).ports.r.access = some ⟨lowRead, .codeHeld, false⟩
      ∧ gantry.slots.held = none ∧ challenging.mark = false
      ∧ (after (.laneRestart 4) reportingSlot).reports.write = .orphan
      ∧ (after (.laneRestart 4) reportingSlot).reports.waiting = [.context 0] := by decide +kernel

/-- Context 0 of home lane 5, bound to slot 4/2 on which a read is held, while a frame of lane 5 is fetched. -/
def bridging : State :=
  ((reading true (opened { challenging with homeLane := 5 } (.coding challenge 0))).setAgent
    ⟨[.fetchFrame .inbound ⟨5, 0⟩], some 2, [7]⟩).setArbiter (some (.agent ⟨0x80102, none, true⟩))

theorem witness_LaneRestartFreesTheLane_other_lane :
    bridging.hears .c ∧ bridging.declines 3 5 = none ∧ bridging.context 0 = some { challenging with homeLane := 5 }
      ∧ (∀ d, d ≠ 0 → bridging.context d = none) ∧ slot2.lane ≠ 5 ∧ (bridging.outSlot slot2).state.header = some challenge
      ∧ bridging.slots.held = some ⟨slot2, true, 10000, 60⟩ ∧ bridging.ports.r.access = some ⟨lowRead, .codeHeld, false⟩
      ∧ bridging.agent.position = some 2 ∧ bridging.agent.jobs = [.fetchFrame .inbound ⟨5, 0⟩]
      ∧ Job.fetchesLane 5 (.fetchFrame .inbound ⟨5, 0⟩) = true ∧ Job.fetchesLane 4 (.fetchFrame .inbound ⟨5, 0⟩) = false
      ∧ gantry.agent.position = none
      ∧ (after (.laneRestart 5) bridging).reports.waiting = [.outbound slot2, .context 0]
      ∧ (after (.laneRestart 5) bridging).arbiter = some (.agent ⟨0x80102, none, false⟩) := by decide +kernel

theorem witness_LaneRestartFreesTheLane_record :
    (after (.laneRestart 4) coding).context 0
        = some { challenging with outcome := some (.abandoned, 10000), running := false, bound := none, state := .reporting }
      ∧ (opened { challenging with mark := true } (.coding challenge 0)).declines 3 4 = none
      ∧ (after (.laneRestart 4) (opened { challenging with mark := true } (.coding challenge 0))).context 0
        = some { challenging with
            mark := true, outcome := some (.abandoned, 10000), running := false, bound := none, state := .closing } := by
  decide +kernel

/-- The part before its first setup, with a retained entry that the set clock makes LIVE, and a frame's fetch current. -/
def retained : State :=
  (strapped.setEntry 13 { key13 with state := .waiting }).setAgent ⟨[.fetchFrame .inbound slot1], some 2, [7]⟩

theorem witness_SetupIsAppliedWholeOrNotAtAll_applied :
    retained.quiet = true
      ∧ (∀ k, k < 44 →
        wordPasses (image 0x100800 10) retained.controller.seconds.isSome retained.blockRange (Setup.ofImage (image 0x100800 10)) k = true)
      ∧ setTime (image 0x100800 10) = true
      ∧ ((retained.keys.entries.get 13).evaluate (some (imageWord (image 0x100800 10) 1))).state ≠ (retained.keys.entries.get 13).state
      ∧ (∀ k, ((strapped.keys.entries.get k).evaluate (some (imageWord (image 0x100800 10) 1))).state
        = (strapped.keys.entries.get k).state)
      ∧ retained.agent.position = some 2 ∧ retained.agent.jobs = [.fetchFrame .inbound slot1]
      ∧ Job.fetchesFrame (.fetchFrame .inbound slot1) = true ∧ strapped.agent.position = none
      ∧ (retained.takeSetup (image 0x100800 10)).control.raised = 18 := by decide +kernel

/-- A quiet RUNNING part with a read held on slot 4/2, whose fetch has not begun. -/
def quietHeld : State :=
  reading false (({ gantry with controller := { gantry.controller with straps := 3 } } : State).setOutSlot slot2
    ⟨.closed challenge, some 8, false⟩)

theorem witness_SetupIsAppliedWholeOrNotAtAll_held_read :
    quietHeld.quiet = true ∧ quietHeld.firstFailing (image 0x100800 10) = none
      ∧ (∀ k, k < 44 →
        wordPasses (image 0x100800 10) quietHeld.controller.seconds.isSome quietHeld.blockRange (Setup.ofImage (image 0x100800 10)) k
          = true)
      ∧ quietHeld.slots.held = some ⟨slot2, false, 10000, 60⟩
      ∧ quietHeld.ports.r.access = some ⟨lowRead, .codeHeld, false⟩
      ∧ (quietHeld.takeSetup (image 0x100800 10)).slots.held = none
      ∧ (quietHeld.takeSetup (image 0x100800 10)).port .r = ⟨none, some (.done (some 0xFFFFFFFF))⟩
      ∧ strapped.slots.held = none := by decide +kernel

theorem witness_SetupIsAppliedWholeOrNotAtAll :
    reported.quiet = false ∧ strapped.quiet = true
      ∧ wordPasses (image 0x100600 5) strapped.controller.seconds.isSome strapped.blockRange (Setup.ofImage (image 0x100600 5)) 17 = false
      ∧ (∀ k, k < 17 →
        wordPasses (image 0x100600 5) strapped.controller.seconds.isSome strapped.blockRange (Setup.ofImage (image 0x100600 5)) k = true)
      ∧ (∀ k, k < 44 →
        wordPasses (image 0x100800 10) strapped.controller.seconds.isSome strapped.blockRange (Setup.ofImage (image 0x100800 10)) k = true)
      ∧ setTime (image 0x100800 10) = true ∧ setTime (List.replicate 64 0) = false := by decide +kernel

theorem witness_DueEventsAreTakenWhenDue :
    (opened { challenging with deadline := 0 } (.coding challenge 0)).context 0 = some { challenging with deadline := 0 }
      ∧ challenging.running = true ∧ challenging.mark = false ∧ ¬ (challenging.running = true ∧ challenging.deadline = 0)
      ∧ (opened { unkeyed with deadline := 0, mark := true } .free).context 0 = some { unkeyed with deadline := 0, mark := true }
      ∧ (remembered 8000).contexts.recent = [⟨0x517A20, 8000⟩]
      ∧ (remembered 8000).setup.holdOff * 1000 ≤ ((remembered 8000).controller.time - 8000).toNat
      ∧ ((remembered 8001).controller.time - 8001).toNat < (remembered 8001).setup.holdOff * 1000
      ∧ crossing.controller.seconds = some 699999 ∧ crossing.controller.millis = 1000
      ∧ ((crossing.keys.entries.get 3).evaluate (some 700000)).state ≠ (crossing.keys.entries.get 3).state
      ∧ gantry.controller.seconds = some 6000000 ∧ gantry.controller.millis < 1000
      ∧ (∀ k, ((gantry.keys.entries.get k).evaluate (some 6000001)).state = (gantry.keys.entries.get k).state) := by decide +kernel

theorem witness_WakeEndClassifiesHeldAccesses :
    waking.controller.purgeAtWake = false ∧ waking.controller.state = .dormant ∧ waking.controller.wake = .waking
      ∧ (after .purgeAssert asleep).controller.purgeAtWake = true
      ∧ (after .purgeAssert rousedInWake).controller.purgeAtWake = true
      ∧ rousedInWake.controller.purgeAtWake = false ∧ rousedInWake.controller.wake = .waking
      ∧ rousedInWake.controller.state ≠ .dormant
      ∧ (waking.port .c).access = some ⟨⟨false, 0x40, .word, 0⟩, .wake, true⟩
      ∧ gantry.ports.c.access = none ∧ gantry.ports.r.access = none
      ∧ awake.controller.state = .dormant ∧ awake.controller.wake = .awake ∧ awake.ports.c.access = none ∧ awake.ports.r.access = none
      ∧ gantry.controller.state ≠ .dormant ∧ asleep.controller.wake ≠ .awake := by decide +kernel

theorem witness_PowerWarningHaltsThePart :
    coding.controller.lines.pwarn = false ∧ coding.controller.power = .on ∧ coding.controller.state = .running
      ∧ halted.controller.state = .halted ∧ purging.controller.state = .purging ∧ off.controller.power ≠ .on
      ∧ coding.control.setupRunning = false ∧ (after (.setup 0) unset).control.setupRunning = true
      ∧ (reading false coding).slots.held = some ⟨slot2, false, 10000, 60⟩
      ∧ (reading false coding).ports.r.access = some ⟨lowRead, .codeHeld, false⟩ ∧ coding.slots.held = none
      ∧ (after (.pwarnAssert .cFirst) (reading false coding)).slots.held = none
      ∧ (after (.pwarnAssert .cFirst) (reading false coding)).port .r = ⟨none, some (.done (some 0xFFFFFFFF))⟩ := by decide +kernel

theorem witness_LineReleasesDoNoMore :
    warned.controller.lines.pwarn = true ∧ warned.controller.power = .on ∧ warned.controller.state = .halted
      ∧ (warned.enter .purging).controller.lines.pwarn = true ∧ (warned.enter .purging).controller.state ≠ .halted := by decide +kernel

theorem witness_PurgeEmptiesTheKeyTable :
    gantry.controller.lines.purge = false ∧ off.controller.power = .off ∧ purging.controller.state = .purging
      ∧ purging.controller.power = .on ∧ inReset.controller.power = .inReset ∧ asleep.controller.state = .dormant
      ∧ asleep.controller.wake = .asleep ∧ waking.controller.wake = .waking ∧ waking.controller.state ≠ .purging
      ∧ awake.controller.wake = .awake ∧ coding.controller.state ≠ .purging ∧ coding.controller.wake ≠ .waking
      ∧ coding.context 0 = some challenging ∧ (∀ d, d ≠ 0 → coding.context d = none) ∧ challenging.bound = some slot2
      ∧ challenging.state ∉ [ContextState.closing, .reporting] ∧ (coding.outSlot slot2).state.header = some challenge
      ∧ (reading true coding).controller.lines.purge = false ∧ (reading true coding).controller.state ≠ .purging
      ∧ (reading true coding).slots.held = some ⟨slot2, true, 10000, 60⟩
      ∧ (reading true coding).ports.r.access = some ⟨lowRead, .codeHeld, false⟩
      ∧ (after .purgeAssert (reading true coding)).reports.waiting = [.outbound slot2, .context 0]
      ∧ ((opened awaiting (.draining challenge)).outSlot slot2).state = .draining challenge ∧ awaiting.bound = none := by decide +kernel

theorem witness_PurgeEmptiesTheKeyTable_record :
    (after .purgeAssert coding).context 0
        = some { challenging with
            outcome := some (.purged, 10000), running := false, bound := none, keyLink := none, tagKey := none
            mark := false, state := .reporting }
      ∧ (opened { unkeyed with state := .closing, mark := true } .free).context 0
        = some { unkeyed with state := .closing, mark := true }
      ∧ (after .purgeAssert (opened { unkeyed with state := .closing, mark := true } .free)).context 0
        = some { unkeyed with keyLink := none, tagKey := none, mark := false, state := .reporting }
      ∧ (after .purgeAssert reported).context 0 = some { reporting with keyLink := none, tagKey := none, mark := false }
      ∧ (after .purgeAssert (opened awaiting (.draining challenge))).outSlot slot2 = ⟨.free, some 8, false⟩ := by decide +kernel

/-- A setup is running, or a report is being written, or the ring is full, when PURGE is asserted. -/
def fetchingAtPurge : State := (opened awaiting .free).setAgent ⟨[.fetchSetup], some 2, [7, 8]⟩
def writingAtPurge : State := { opened awaiting .free with reports := ⟨5, 5, 40, [.inbound slot1], .writing⟩ }
def fullAtPurge : State := { opened awaiting .free with reports := ⟨5, 6, 40, [], .idle⟩ }

theorem witness_PurgeEmptiesTheKeyTable_writer :
    fetchingAtPurge.reports.write = .idle ∧ (after .purgeAssert fetchingAtPurge).reports.waiting = [.context 0]
      ∧ (after .purgeAssert fetchingAtPurge).ringFull = false
      ∧ (after .purgeAssert fetchingAtPurge).heldReport (.context 0) ≠ none
      ∧ (after .purgeAssert fetchingAtPurge).reports.write = .writing
      ∧ (after .purgeAssert fetchingAtPurge).agent.jobs.head? = some .fetchSetup
      ∧ (after .purgeAssert fetchingAtPurge).agent.jobs.length = 2
      ∧ (after .purgeAssert writingAtPurge).reports.write = .writing ∧ (after .purgeAssert writingAtPurge).agent.jobs = []
      ∧ (after .purgeAssert fullAtPurge).ringFull = true ∧ (after .purgeAssert fullAtPurge).reports.write = .idle
      ∧ (after .purgeAssert gantry).reports.waiting = [] := by decide +kernel

theorem witness_EraseCompletionLeavesPurging :
    purging.controller.power = .on ∧ purging.controller.state = .purging ∧ purging.controller.lines.pwarn = false
      ∧ purging.controller.fromHalted = false ∧ (after .purgeAssert halted).controller.state = .purging
      ∧ (after .purgeAssert halted).controller.fromHalted = true ∧ (purging.setPwarn true).controller.lines.pwarn = true := by
  decide +kernel

theorem witness_EraseCompletionLeavesPurging_warned :
    (purging.setPwarn true).controller.power = .on ∧ (purging.setPwarn true).controller.state = .purging
      ∧ (after .eraseCompletion (purging.setPwarn true)).controller.state = .halted
      ∧ (after .eraseCompletion (purging.setPwarn true)).control.raised = 64 := by decide +kernel

theorem witness_ResetAndPowerLossKeepRetainedStore :
    gantry.controller.power = .on ∧ inReset.controller.power ≠ .off ∧ gantry.keys.lastWrite = none
      ∧ ((serial 90).install 0 record91 8).keys.lastWrite = some ⟨0, KeyEntry.empty, 90⟩
      ∧ (flyingWrite.port .r).access = some ⟨headerWrite, .inFlight (some ⟨⟨.inbound, slot1, 0⟩, .free⟩), false⟩ := by decide +kernel

/-- A word of a job's record in flight when RESET is asserted. -/
def resetWriting : State := after (.resetAssert false) (agentWord (.writeReport 0x80011 [1, 2]) 0 (some 1) gantry)

theorem witness_ResetAndPowerLossKeepRetainedStore_in_flight :
    off.controller.power = .off ∧ inReset.controller.power ≠ .on
      ∧ resetWriting.arbiter = some (.agent ⟨0x80011, some 1, false⟩)
      ∧ (after .agentWordComplete resetWriting).mem.readWord 0x80011 = 1
      ∧ (after (.resetAssert false) flyingWrite).arbiter = some (.port .r)
      ∧ ((after (.resetAssert false) flyingWrite).port .r).access = some ⟨headerWrite, .inFlight none, false⟩
      ∧ headerWrite.write = true ∧ ((after (.resetAssert false) (flyingPlain false)).port .c).access.map (·.access.write) = some false
      ∧ (after (.resetAssert false) (flyingPlain false)).arbiter = some (.port .c) := by decide +kernel

/-- Under RESET with MREST asserted, both ports waiting, one waiting, and one in flight. -/
def resetResting : State := inReset.setMrest true
def bothHeldBack : State := outstanding .c plainWrite (.waiting none) (outstanding .r headerWrite (.waiting none) resetResting)
def oneHeldBack : State := outstanding .r headerWrite (.waiting none) resetResting
def flyingHeldBack : State := (outstanding .r headerWrite (.inFlight none) resetResting).setArbiter (some (.port .r))

theorem witness_StartUpReadsTheRetainedStore_mrest :
    bothHeldBack.controller.power ≠ .on ∧ bothHeldBack.controller.lines.mrest = true
      ∧ (bothHeldBack.port .c).access = some ⟨plainWrite, .waiting none, false⟩
      ∧ (bothHeldBack.port .r).access = some ⟨headerWrite, .waiting none, false⟩
      ∧ (after (.startUp 3 false .cFirst) bothHeldBack).path = ⟨2, some .r, some .memoryResting, headerWrite.address⟩
      ∧ (after (.startUp 3 false .rFirst) bothHeldBack).path = ⟨2, some .c, some .memoryResting, plainWrite.address⟩
      ∧ (oneHeldBack.port .c).access = none
      ∧ (after (.startUp 3 false .cFirst) oneHeldBack).path = ⟨1, some .r, some .memoryResting, headerWrite.address⟩
      ∧ (after (.startUp 3 false .cFirst) oneHeldBack).port .r = ⟨none, some .error⟩
      ∧ (flyingHeldBack.port .r).access = some ⟨headerWrite, .inFlight none, false⟩ ∧ Memory.wf flyingHeldBack.mem
      ∧ (after (.startUp 3 false .cFirst) flyingHeldBack).arbiter = none
      ∧ ((outstanding .r lowRead .codeHeld resetResting).port .r).access = some ⟨lowRead, .codeHeld, false⟩ := by decide +kernel

/-- Under RESET with PWARN and PURGE asserted. -/
def bothAsserted : State := (resetWriting.setPwarn true).setPurge true

theorem witness_StartUpReadsTheRetainedStore_lines :
    bothAsserted.controller.lines = ⟨true, false, true⟩ ∧ gantry.controller.power = .on
      ∧ (after (.startUp 3 false .cFirst) bothAsserted).controller.fromHalted = true
      ∧ (after (.startUp 3 true .cFirst) bothAsserted).controller.fromHalted = false
      ∧ (after (.startUp 3 true .cFirst) bothAsserted).controller.state = .purging
      ∧ (after (.startUp 3 true .cFirst) (resetWriting.setPwarn true)).controller.state = .halted
      ∧ ((after (.startUp 3 true .cFirst) (resetWriting.setPwarn true)).keys.entries.get 13).state = .waiting
      ∧ (resetWriting.setPwarn true).arbiter = some (.agent ⟨0x80011, some 1, false⟩)
      ∧ ((after (.resetAssert false) (keyed .revoked)).keys.entries.get 13).state = .revoked := by decide +kernel

theorem witness_StartUpReadsTheRetainedStore :
    inReset.controller.power ≠ .on ∧ off.controller.power ≠ .on ∧ inReset.controller.lines = ⟨false, false, false⟩
      ∧ inReset.keys.eraseMark = false ∧ (after .purgeAssert inReset).keys.eraseMark = true
      ∧ (inReset.keys.entries.get 0).state = .empty ∧ (inReset.keys.entries.get 13).state = .waiting := by decide +kernel

theorem witness_EveryStepKeepsMemoryCanonical : lastWord.memoryCanonical ∧ ∃ t, step lastWord = .next t :=
  ⟨by decide +kernel, _, rfl⟩

theorem witness_EveryStepKeepsRingIndices : coding.ringIndices ∧ ∃ t, step coding = .next t := ⟨by decide +kernel, _, rfl⟩

theorem witness_EveryStepKeepsIdleSlotsFree :
    unset.controller.state = .unset ∧ coding.laidOut ∧ coding.idleSlots ∧ ∃ t, step coding = .next t := by
  refine ⟨by decide +kernel, gantry_laidOut, ⟨fun h => absurd h (by decide +kernel), fun h => absurd h (by decide +kernel)⟩, _, rfl⟩

theorem witness_EveryStepKeepsTheKeyTable : coding.keyTable ∧ ∃ t, step coding = .next t := by
  refine ⟨⟨?_, ?_, ⟨?_, ?_⟩, ?_⟩, _, rfl⟩
  · unfold State.referenceCounts State.linksTo; decide +kernel
  · unfold State.spentEntries; decide +kernel
  · unfold uniqueLabels; decide +kernel
  · intro w h; rw [show coding.keys.lastWrite = none from rfl] at h; cases h
  · unfold State.clockStates; decide +kernel

theorem witness_EveryStepKeepsIdentitiesUnique : coding.identities ∧ ∃ t, step coding = .next t := by
  have only : ∀ c, c ≠ 0 → coding.context c = none := by decide +kernel
  have zero : ∀ c x, coding.context c = some x → c = 0 := by
    intro c x h; by_contra n; rw [only c n] at h; cases h
  refine ⟨⟨?_, by decide +kernel, ?_⟩, _, rfl⟩
  · intro c c' x x' h h' _; rw [zero c x h, zero c' x' h']
  · intro c x _; rfl

end Sys2Proof.Tests
end

section
/-! PROOF of SlotsCountTheirWrites: a header word and the conditions at its latch, then one equation for each effect a
permitted write has on an inbound and on an outbound slot. -/

namespace Sys2Proof.Machine

/-! ## Header words -/

namespace Header

/-- R1: a header word is the sequencer byte, the form, the length and the kind, side by side. -/
theorem ofWord_append (sequencer form length kind : BitVec 8) :
    ofWord (sequencer ++ form ++ length ++ kind) = ⟨kind, length, form⟩ := by
  have kindField : (sequencer ++ form ++ length ++ kind).extractLsb' 0 8 = kind :=
    BitVec.extractLsb'_append_eq_right
  have lengthField : (sequencer ++ form ++ length ++ kind).extractLsb' 8 8 = length := by
    rw [BitVec.extractLsb'_append_eq_of_le (by omega), BitVec.extractLsb'_append_eq_right]
  have formField : (sequencer ++ form ++ length ++ kind).extractLsb' 16 8 = form := by
    rw [BitVec.extractLsb'_append_eq_of_le (by omega), BitVec.extractLsb'_append_eq_of_le (by omega),
      BitVec.extractLsb'_append_eq_right]
  exact congr (congr (congrArg Header.mk kindField) lengthField) formField

/-- R8: which kinds belong to which ring. -/
theorem fitsRing_iff (h : Header) (ring : Ring) :
    h.fitsRing ring = true ↔ (ring = .inbound ∧ (h.kind = 1 ∨ h.kind = 2)) ∨ (ring = .outbound ∧ h.kind = 3) := by
  cases ring <;> simp [fitsRing, isAnnounce, isConfirm, isChallenge]

/-- R2: a kind of frame has one length in each form, a word more in the extended one. -/
theorem fixedLength_eq_some_iff {h : Header} (kinds : h.kind = 1 ∨ h.kind = 2 ∨ h.kind = 3) (n : Nat) :
    h.fixedLength = some n ↔
      (h.form = 0 ∨ h.form = 1) ∧ n = (if h.kind = 1 then 6 else if h.kind = 2 then 7 else 10) + h.form.toNat := by
  unfold fixedLength isAnnounce isConfirm isChallenge
  by_cases forms : h.form = 0 ∨ h.form = 1
  · rw [if_pos forms, and_iff_right forms]
    rcases kinds with kind | kind | kind <;> simp [kind, eq_comm]
  · rw [if_neg forms]; simp only [reduceCtorEq, forms, false_and]

/-- R8: the conditions met at the latch. -/
theorem wellFormed_iff (h : Header) (ring : Ring) (words : Nat) :
    h.wellFormed ring words = true ↔
      ((ring = .inbound ∧ (h.kind = 1 ∨ h.kind = 2)) ∨ (ring = .outbound ∧ h.kind = 3)) ∧ (h.form = 0 ∨ h.form = 1)
        ∧ h.length.toNat = (if h.kind = 1 then 6 else if h.kind = 2 then 7 else 10) + h.form.toNat
        ∧ h.length.toNat ≤ words := by
  simp only [wellFormed, Bool.and_eq_true, beq_iff_eq, decide_eq_true_eq, fitsRing_iff, and_assoc]
  refine and_congr_right fun fits => ?_
  have kinds : h.kind = 1 ∨ h.kind = 2 ∨ h.kind = 3 := by tauto
  rw [fixedLength_eq_some_iff kinds, and_assoc]

end Header

namespace State

/-! ## Inbound slots -/

/-- R36: a write of word 0 latches. -/
theorem writeSlot_inbound_zero (s : State) (r : SlotRef) (data : Word) :
    s.writeSlot ⟨.inbound, r, 0⟩ data = some (s.latchInbound r (Header.ofWord data)) := rfl

/-- R37: a body write of a FREE inbound slot has no effect. -/
theorem writeSlot_inbound_free {s : State} {r : SlotRef} {w : Nat} (body : w ≠ 0) (free : s.inSlot r = .free) (data : Word) :
    s.writeSlot ⟨.inbound, r, w⟩ data = none := by
  simp only [writeSlot, writeInbound, if_neg body, free]

/-- R38: a body write of a FILLING slot is counted. -/
theorem writeSlot_inbound_filling {s : State} {r : SlotRef} {g : Header} {n w : Nat} (body : w ≠ 0)
    (filling : s.inSlot r = .filling g n) (data : Word) :
    s.writeSlot ⟨.inbound, r, w⟩ data = some (s.countInbound r g n) := by
  simp only [writeSlot, writeInbound, if_neg body, filling]

theorem latchInbound_of_wellFormed {s : State} {r : SlotRef} {h : Header}
    (ok : h.wellFormed .inbound (s.setup.lanes.get r.lane).slotWords = true) :
    s.latchInbound r h = s.setInSlot r (.filling h 0) := by
  rw [latchInbound, if_pos ok]

theorem latchInbound_of_malformed {s : State} {r : SlotRef} {h : Header}
    (bad : h.wellFormed .inbound (s.setup.lanes.get r.lane).slotWords = false) :
    s.latchInbound r h
      = (s.setInSlot r (.reportWait h (s.notice .malformed r none none none))).joinReports (.inbound r) := by
  rw [latchInbound, if_neg (Bool.eq_false_iff.mp bad), reportInbound]

theorem countInbound_of_open {g : Header} {n : Nat} (more : n + 1 ≠ g.length.toNat - 1) (r : SlotRef) (s : State) :
    s.countInbound r g n = s.setInSlot r (.filling g (n + 1)) := by
  rw [countInbound, if_neg more]

theorem countInbound_of_last {g : Header} {n : Nat} (last : n + 1 = g.length.toNat - 1) (r : SlotRef) (s : State) :
    s.countInbound r g n = (s.setInSlot r (.closed g)).queueJob (.fetchFrame .inbound r) := by
  rw [countInbound, if_pos last]

/-! ## Outbound slots -/

/-- R36: a write of word 0 latches. -/
theorem writeSlot_outbound_zero (s : State) (r : SlotRef) (data : Word) :
    s.writeSlot ⟨.outbound, r, 0⟩ data = some (s.latchOutbound r (Header.ofWord data)) := rfl

/-- R42, R45: a body write of a slot that is FREE, or SPOILED with no report left, has no effect. -/
theorem writeSlot_outbound_idle {s : State} {r : SlotRef} {w : Nat} (body : w ≠ 0)
    (idle : (s.outSlot r).state = .free ∨ ∃ g, (s.outSlot r).state = .spoiled g none) (data : Word) :
    s.writeSlot ⟨.outbound, r, w⟩ data = none := by
  rcases idle with free | ⟨g, spoiled⟩
  · simp only [writeSlot, writeOutbound, if_neg body, free]
  · simp only [writeSlot, writeOutbound, if_neg body, spoiled]

/-- R43: a body write of a COMPOSING slot is counted below the code words. -/
theorem writeSlot_outbound_counted {s : State} {r : SlotRef} {g : Header} {n w : Nat} (body : w ≠ 0)
    (composing : (s.outSlot r).state = .composing g n) (below : w + 2 < g.length.toNat) (data : Word) :
    s.writeSlot ⟨.outbound, r, w⟩ data = some (s.countOutbound r g n) := by
  simp only [writeSlot, writeOutbound, if_neg body, composing, if_pos below]

/-- R43: a write at the code words of a COMPOSING slot or beyond them is not counted. -/
theorem writeSlot_outbound_uncounted {s : State} {r : SlotRef} {g : Header} {n w : Nat} (body : w ≠ 0)
    (composing : (s.outSlot r).state = .composing g n) (above : g.length.toNat ≤ w + 2) (data : Word) :
    s.writeSlot ⟨.outbound, r, w⟩ data = none := by
  simp only [writeSlot, writeOutbound, if_neg body, composing, if_neg (Nat.not_lt.mpr above)]

theorem latchOutbound_of_wellFormed {s : State} {r : SlotRef} {h : Header}
    (ok : h.wellFormed .outbound (s.setup.lanes.get r.lane).slotWords = true) :
    s.latchOutbound r h = s.setOutSlot r ⟨.composing h 0, some (h.length.toNat - 2), false⟩ := by
  rw [latchOutbound, if_pos ok]

theorem countOutbound_of_open {g : Header} {n : Nat} (more : n + 1 ≠ g.length.toNat - 3) (r : SlotRef) (s : State) :
    s.countOutbound r g n = s.setOutSlot r { s.outSlot r with state := .composing g (n + 1) } := by
  simp only [countOutbound, if_neg more]

theorem countOutbound_of_last {g : Header} {n : Nat} (last : n + 1 = g.length.toNat - 3) (r : SlotRef) (s : State) :
    s.countOutbound r g n
      = (s.setOutSlot r { s.outSlot r with state := .closed g }).queueJob (.fetchFrame .outbound r) := by
  simp only [countOutbound, if_pos last]

/-- R51: only a read held on the slot itself is answered. -/
theorem answerHeld_of_elsewhere {s : State} {r : SlotRef} (elsewhere : ∀ q, s.slots.held = some q → q.slot ≠ r) (w : Word) :
    s.answerHeld r w = s := by
  unfold answerHeld
  split
  · next q _ held _ => rw [if_neg (elsewhere q held)]
  · rfl

/-- The second of two replacements of an outbound slot record stands. -/
theorem setOutSlot_setOutSlot (r : SlotRef) (x y : OutSlot) (s : State) :
    (s.setOutSlot r x).setOutSlot r y = s.setOutSlot r y := by
  rw [setOutSlot, setOutSlot, lane_setLane_self]
  simp only [setOutSlot, setLane, Table.set_set]

theorem leaveReady_setOutSlot (h : Holder) (r : SlotRef) (x : OutSlot) (s : State) :
    (s.setOutSlot r x).leaveReady h = (s.leaveReady h).setOutSlot r x := rfl

/-- R36, R53: a malformed header leaves an outbound slot SPOILED and without a code position. -/
theorem latchOutbound_of_malformed {s : State} {r : SlotRef} {h : Header}
    (bad : h.wellFormed .outbound (s.setup.lanes.get r.lane).slotWords = false)
    (elsewhere : ∀ q, s.slots.held = some q → q.slot ≠ r) :
    s.latchOutbound r h =
      ((s.leaveReady (.code r)).setOutSlot r
        { s.outSlot r with codePosition := none, state := .spoiled h (some (s.notice .malformed r none none none)) }).joinReports
          (.outbound r) := by
  have unanswered : ∀ x, (s.setOutSlot r x).answerHeld r fillPattern = s.setOutSlot r x :=
    fun x => answerHeld_of_elsewhere (s := s.setOutSlot r x) elsewhere fillPattern
  rw [latchOutbound, if_neg (Bool.eq_false_iff.mp bad), spoilWith]
  simp only [unanswered, leaveReady_setOutSlot, outSlot_setOutSlot, if_true, setOutSlot_setOutSlot]

end State

/-- Settles O17: word 0 by the latch equations, a body word by the state of the slot and by whether its count closes. -/
theorem slotsCountTheirWrites : Obligations.SlotsCountTheirWrites := by
  unfold Obligations.SlotsCountTheirWrites
  refine ⟨Header.ofWord_append, Header.wellFormed_iff, fun s r w data =>
    ⟨?inLatch, ?inMalformed, ?inFree, ?inCounts, ?inCloses, ?outLatch, ?outMalformed, ?outIdle, ?outCodeWord, ?outCounts,
      ?outCloses⟩⟩
  case inLatch => exact fun ok => congrArg some (State.latchInbound_of_wellFormed ok)
  case inMalformed => exact fun bad => congrArg some (State.latchInbound_of_malformed bad)
  case inFree => exact fun body free => State.writeSlot_inbound_free body free data
  case inCounts =>
    intro g n body filling more
    exact (State.writeSlot_inbound_filling body filling data).trans (congrArg some (State.countInbound_of_open more r s))
  case inCloses =>
    intro g n body filling last
    exact (State.writeSlot_inbound_filling body filling data).trans (congrArg some (State.countInbound_of_last last r s))
  case outLatch => exact fun ok => congrArg some (State.latchOutbound_of_wellFormed ok)
  case outMalformed => exact fun bad elsewhere => congrArg some (State.latchOutbound_of_malformed bad elsewhere)
  case outIdle => exact fun body idle => State.writeSlot_outbound_idle body idle data
  case outCodeWord => exact fun g n body composing above => State.writeSlot_outbound_uncounted body composing above data
  case outCounts =>
    intro g n body composing below more
    exact (State.writeSlot_outbound_counted body composing below data).trans
      (congrArg some (State.countOutbound_of_open more r s))
  case outCloses =>
    intro g n body composing below last
    exact (State.writeSlot_outbound_counted body composing below data).trans
      (congrArg some (State.countOutbound_of_last last r s))

end Sys2Proof.Machine
end

section
/-! PROOF of CommandsLeaveMemoryAndSetup: the operations that leave frame memory and the setup in force as they were, one lemma
per operation. -/

namespace Sys2Proof.Machine

/-- From `s` to `t` frame memory and the setup in force stay as they were. -/
structure State.Frame (s t : State) : Prop where
  mem : t.mem = s.mem
  setup : t.setup = s.setup

namespace State

theorem Frame.refl (s : State) : s.Frame s := ⟨rfl, rfl⟩

theorem Frame.trans {s t u : State} (h : s.Frame t) (g : t.Frame u) : s.Frame u :=
  ⟨g.mem.trans h.mem, g.setup.trans h.setup⟩

theorem Track.frame {s t : State} (h : s.Track t) : s.Frame t := ⟨h.mem, h.setup⟩

theorem Work.frame {s t : State} (h : s.Work t) : s.Frame t := h.toTrack.frame

theorem Frame.memoryCanonical {s t : State} (h : s.Frame t) (canonical : s.memoryCanonical) : t.memoryCanonical := by
  rw [State.memoryCanonical, h.mem]; exact canonical

/-! ## Accesses -/

theorem frame_relax (s : State) : s.Frame s.relax := by
  unfold relax; split
  · exact ⟨rfl, rfl⟩
  · exact Frame.refl s

theorem frame_rouse (s : State) : s.Frame s.rouse := by
  unfold rouse; split
  · exact ⟨rfl, rfl⟩
  · exact Frame.refl s

/-- After an access the part may return to sleep, and the engine and the report writer weigh their conditions. -/
theorem frame_relax_settle (s : State) : s.Frame s.relax.settle := (frame_relax s).trans (work_settle _).frame

theorem frame_refuse (p : Port) (kind : RefusalKind) (address : BitVec 22) (s : State) : s.Frame (s.refuse p kind address) :=
  ⟨mem_refuse .., setup_refuse ..⟩

theorem frame_passThrough (p : Port) (a : Access) (track : Option SlotWord) (s : State) :
    s.Frame (s.passThrough p a track) := by
  unfold passThrough
  split
  · split <;> exact frame_refuse ..
  · exact (work_hold ..).frame

theorem frame_result (code : BitVec 8) (o : CommandOutcome) (detail : BitVec 8) (s : State) :
    s.Frame (s.result code o detail) := ⟨rfl, rfl⟩

theorem frame_carryOut (c : Command) (code : BitVec 8) (operand : BitVec 24) (s : State) :
    s.Frame (s.carryOut c code operand) := by
  cases c with
  | laneRestart => exact (work_restartLane ..).frame.trans (frame_result ..)
  | setup | rest | releaseReports | clearAttention => exact ⟨rfl, rfl⟩

theorem frame_command (code : BitVec 8) (operand : BitVec 24) (s : State) : s.Frame (s.command code operand) := by
  unfold command
  split
  · exact frame_carryOut ..
  · exact (frame_carryOut ..).trans (frame_rouse _)
  · exact (frame_result ..).trans (frame_rouse _)
  · exact Frame.refl s

theorem frame_loadWindow (i : Fin 16) (a : Access) (s : State) : s.Frame (s.loadWindow i a) := by
  unfold loadWindow
  split
  · exact frame_refuse ..
  · exact ((work_takeLoadWord ..).trans (work_respond ..)).frame.trans (frame_rouse _)

theorem frame_commandWrite (a : Access) (s : State) : s.Frame (s.commandWrite a) := by
  unfold commandWrite
  split
  · exact (work_respond ..).frame.trans (frame_command ..)
  · exact frame_refuse ..

theorem frame_blockAccess (a : Access) (s : State) : s.Frame (s.blockAccess a) := by
  unfold blockAccess
  dsimp only
  split
  · split
    · exact frame_passThrough ..
    · exact frame_commandWrite ..
    · exact frame_refuse ..
    · exact frame_loadWindow ..
    · exact frame_refuse ..
    · exact frame_refuse ..
  · split
    · exact (work_supply ..).frame
    · exact frame_passThrough ..

theorem frame_ringAccess (p : Port) (a : Access) (t : SlotWord) (s : State) : s.Frame (s.ringAccess p a t) := by
  have judged : s.Frame (if a.size = .word then s.passThrough p a (some t) else s.refuse p .partialWrite a.address) := by
    split
    · exact frame_passThrough ..
    · exact frame_refuse ..
  unfold ringAccess
  split
  · exact frame_refuse ..
  · exact judged
  · exact frame_passThrough ..
  · exact frame_refuse ..
  · exact judged
  · exact frame_passThrough ..
  · split
    · exact (work_readCode ..).frame
    · exact frame_passThrough ..

theorem frame_classify (p : Port) (a : Access) (s : State) : s.Frame (s.classify p a) := by
  unfold classify
  split
  · split
    · exact frame_blockAccess ..
    · exact frame_refuse ..
  · split
    · exact frame_ringAccess ..
    · exact frame_passThrough ..

theorem frame_startWake (s : State) : s.Frame s.startWake := by
  unfold startWake; split
  · exact Frame.refl s
  · exact ⟨rfl, rfl⟩

theorem frame_arrive (p : Port) (a : Access) (s : State) : s.Frame (s.arrive p a) := by
  unfold arrive
  split
  · exact Frame.refl s
  · split
    · exact Frame.refl s
    · exact (work_hold ..).frame
    · split
      · exact (frame_startWake s).trans (work_hold ..).frame
      · exact (frame_classify ..).trans (frame_relax_settle _)

theorem frame_classifyHeld (p : Port) (s : State) : s.Frame (s.classifyHeld p) := by
  unfold classifyHeld; split
  · exact (work_setPort ..).frame.trans (frame_classify ..)
  · exact Frame.refl s

theorem frame_classifyAllHeld (order : Order) (s : State) : s.Frame (s.classifyAllHeld order) := by
  cases order <;> exact (frame_classifyHeld ..).trans (frame_classifyHeld ..)

/-! ## The memory port -/

theorem frame_grantPort (p : Port) (a : Access) (track : Option SlotWord) (s : State) :
    s.Frame (s.grantPort p a track) := by
  unfold grantPort
  split
  · exact frame_refuse ..
  · exact ((work_setArbiter ..).trans (work_hold ..)).frame

theorem frame_grant (s : State) : s.Frame s.grant := by
  unfold grant
  split
  · exact Frame.refl s
  · split
    · exact frame_grantPort ..
    · exact (work_setArbiter ..).frame
    · exact frame_grantPort ..
    · exact Frame.refl s

theorem frame_applyTracked (a : Access) (judged : Option Judged) (s : State) : s.Frame (s.applyTracked a judged) := by
  unfold applyTracked
  split
  · exact Frame.refl s
  · split
    · split
      · next effect => exact (work_writeSlot effect).frame.trans (frame_rouse _)
      · exact Frame.refl s
    · exact Frame.refl s

theorem frame_agentJobStart (s : State) : s.Frame s.agentJobStart := by
  unfold agentJobStart
  split
  · split
    · exact ((work_setAgent ..).trans (work_beginFetch ..)).frame
    · exact Frame.refl s
  · exact Frame.refl s

/-! ## The engine and the load unit -/

theorem frame_codeComplete (s : State) : s.Frame s.codeComplete := by
  unfold codeComplete; split
  · exact (((work_setOperation ..).trans (work_finishCode ..)).trans (work_settle _)).frame
  · exact Frame.refl s

theorem frame_deriveComplete (s : State) : s.Frame s.deriveComplete := by
  unfold deriveComplete; split
  · exact (((work_endOperation ..).trans (work_finishDerive ..)).trans (work_settle _)).frame
  · exact Frame.refl s

theorem frame_verifyComplete (s : State) : s.Frame s.verifyComplete := by
  unfold verifyComplete; split
  · exact (((work_endOperation ..).trans (work_finishVerify ..)).trans (work_settle _)).frame
  · exact Frame.refl s

theorem frame_applyRecord (d : LoadRecord) (key : Key) (o : LoadOutcome × Option (Fin 48)) (s : State) :
    s.Frame (s.applyRecord d key o) := by
  unfold applyRecord
  split
  · next k =>
    split
    · exact ⟨rfl, rfl⟩
    · have revoked : s.Frame ((s.raiseSerial k d.serial).setEntry k (s.keys.entries.get k).revoke.settle) := ⟨rfl, rfl⟩
      exact revoked.trans (work_closeHolders ..).frame
  · exact Frame.refl s

theorem frame_unwrapComplete (s : State) : s.Frame s.unwrapComplete := by
  unfold unwrapComplete; split
  · have ended : ∀ d o (t : State), t.Frame (t.endLoad d o) := fun _ _ _ => ⟨rfl, rfl⟩
    exact (((work_endOperation ..).frame.trans (frame_applyRecord ..)).trans (ended ..)).trans (work_settle _).frame
  · exact Frame.refl s

/-! ## Time -/

theorem frame_evaluateKeys (s : State) : s.Frame s.evaluateKeys := by
  unfold evaluateKeys; split <;> exact ⟨rfl, rfl⟩

theorem frame_setClock (t : Word) (s : State) : s.Frame (s.setClock t) := by
  have set : s.Frame (s.setSeconds t) := ⟨rfl, rfl⟩
  exact set.trans (frame_evaluateKeys _)

theorem frame_secondsClockRise (s : State) : s.Frame s.secondsClockRise := by
  unfold secondsClockRise
  split
  · exact Frame.refl s
  · split
    · exact frame_setClock ..
    · exact Frame.refl s

theorem frame_recentEntryExpiry (s : State) : s.Frame s.recentEntryExpiry := by
  unfold recentEntryExpiry
  split
  · exact Frame.refl s
  · split
    · exact ⟨rfl, rfl⟩
    · exact Frame.refl s

theorem frame_expireOverdue (s : State) : s.Frame s.expireOverdue := by
  unfold expireOverdue; split
  · exact (work_holdLimitExpiry s).frame
  · exact Frame.refl s

theorem frame_takeDue (s : State) : s.Frame s.takeDue := by
  have trimmed : ∀ t : State, t.Frame t.dropDueRecent := fun _ => ⟨rfl, rfl⟩
  exact (((frame_expireOverdue s).trans (work_ascending work_deadlineExpiry _).frame).trans (trimmed _)).trans
    (frame_secondsClockRise _)

theorem frame_tick (s : State) : s.Frame s.tick := by
  have advanced : ∀ t : State, t.Frame t.advance := fun _ => ⟨rfl, rfl⟩
  unfold tick; split
  · exact (frame_takeDue s).trans (advanced _)
  · exact Frame.refl s

/-! ## Lines -/

theorem frame_powerWarning (s : State) : s.Frame s.powerWarning := by
  obtain ⟨held, port, eq, -⟩ := s.powerWarning_eq
  rw [eq]; exact ⟨rfl, rfl⟩

theorem frame_enterPurging (s : State) : s.Frame s.enterPurging := by
  have start : s.Frame (((s.markOrigin).purgeKeys).dropLoad).cutEngine := ⟨rfl, rfl⟩
  have entered : ∀ t : State, t.Frame (t.enter .purging) := fun _ => ⟨rfl, rfl⟩
  exact ((start.trans ((work_purgeContexts _).trans (work_mapSlots ..)).frame).trans (entered _)).trans (work_settle _).frame

theorem frame_wakeEnd (order : Order) (s : State) : s.Frame (s.wakeEnd order) := by
  have awake : s.Frame s.awaken := ⟨rfl, rfl⟩
  unfold wakeEnd
  split
  · exact ((frame_enterPurging s).trans (frame_classifyAllHeld ..)).trans (frame_relax_settle _)
  · split
    · exact (awake.trans (frame_classifyAllHeld ..)).trans (frame_relax_settle _)
    · exact Frame.refl s

theorem frame_pwarnAssert (order : Order) (s : State) : s.Frame (s.pwarnAssert order) := by
  have line : s.Frame (s.setPwarn true) := ⟨rfl, rfl⟩
  unfold pwarnAssert
  split
  · exact Frame.refl s
  · dsimp only
    split
    · exact (line.trans (frame_powerWarning _)).trans (frame_classifyAllHeld ..)
    · exact line

theorem frame_pwarnRelease (s : State) : s.Frame s.pwarnRelease := by
  unfold pwarnRelease
  split
  · dsimp only
    split <;> exact ⟨rfl, rfl⟩
  · exact Frame.refl s

theorem frame_purgeNow (s : State) : s.Frame s.purgeNow := by
  have marked : ∀ t : State, t.Frame { t with
      controller := { t.controller with purgeAtWake := true }, keys := { t.keys with eraseMark := true } } :=
    fun _ => ⟨rfl, rfl⟩
  unfold purgeNow; split
  · exact (frame_startWake s).trans (marked _)
  · exact frame_enterPurging s

theorem frame_purgeAssert (s : State) : s.Frame s.purgeAssert := by
  have line : s.Frame (s.setPurge true) := ⟨rfl, rfl⟩
  unfold purgeAssert
  split
  · exact Frame.refl s
  · dsimp only
    split
    · exact line
    · exact ⟨rfl, rfl⟩
    · split
      · exact line
      all_goals exact line.trans (frame_purgeNow _)

theorem frame_completeErase (s : State) : s.Frame s.completeErase := by
  have erased : s.Frame s.endErase := ⟨rfl, rfl⟩
  unfold completeErase
  split
  · exact erased.trans (frame_powerWarning _)
  · split <;> exact ⟨rfl, rfl⟩

theorem frame_eraseCompletion (s : State) : s.Frame s.eraseCompletion := by
  unfold eraseCompletion; split
  · exact frame_completeErase s
  · exact Frame.refl s

theorem frame_sampleLines (purgeFirst : Bool) (s : State) : s.Frame (s.sampleLines purgeFirst) := by
  unfold sampleLines
  dsimp only
  split
  · split
    · exact frame_enterPurging s
    · exact (frame_powerWarning s).trans (frame_enterPurging _)
  · split
    · exact frame_powerWarning s
    · split
      · exact frame_enterPurging s
      · exact Frame.refl s

/-! ## Operations that change memory or the setup -/

theorem setup_failInFlight (a : Access) (s : State) : (s.failInFlight a).setup = s.setup := by
  unfold failInFlight; split <;> rfl

theorem setup_restPorts (order : Order) (s : State) : (s.restPorts order).setup = s.setup := by
  obtain ⟨ports, path, raised, arbiter, mem, fresh, eq⟩ := restPorts_form order s
  rw [eq]

theorem setup_retryPort (p : Port) (s : State) : (s.retryPort p).setup = s.setup := by
  unfold retryPort; split
  · exact (setup_hold ..).trans (setup_failInFlight ..)
  · rfl

theorem setup_failAgentWord (s : State) : s.failAgentWord.setup = s.setup := by
  obtain ⟨mem, fresh, eq⟩ := failAgentWord_form s
  rw [eq]

theorem frame_rewindJob (s : State) : s.Frame s.rewindJob := by
  unfold rewindJob; split
  · exact (work_setAgent ..).frame
  · exact Frame.refl s

theorem setup_mrestAssert (order : Order) (s : State) : (s.mrestAssert order).setup = s.setup := by
  unfold mrestAssert
  split
  · rfl
  · dsimp only
    split
    · rfl
    · rw [setup_failAgentWord, setup_retryPort, setup_retryPort]; rfl
    · rw [(frame_relax _).setup, (frame_rewindJob _).setup, setup_failAgentWord, setup_restPorts]; rfl

theorem setup_completeAccess (p : Port) (a : Access) (judged : Option Judged) (s : State) :
    (s.completeAccess p a judged).setup = s.setup := by
  unfold completeAccess
  split
  · rw [(frame_applyTracked ..).setup, setup_respond]; rfl
  · rw [setup_supply]; rfl

theorem setup_wordAccessComplete (s : State) : s.wordAccessComplete.setup = s.setup := by
  unfold wordAccessComplete
  split
  · split
    · rw [(frame_relax_settle _).setup, setup_completeAccess]
    · rfl
  · rfl

theorem mem_resetAssert (cut : Bool) (s : State) : (s.resetAssert cut).mem = s.mem := by
  unfold resetAssert; split <;> rfl

end State

/-- The commands that leave frame memory and the setup in force: all but the completions of a word access, MREST, and what ends
or begins the part's operation. -/
theorem exec_frame {i : Instr} {s t : State} (next : exec i s = .next t) (noWord : i ≠ .wordAccessComplete)
    (noAgentWord : i ≠ .agentWordComplete) (noMrest : ∀ o, i ≠ .mrestAssert o) (noReset : ∀ cut, i ≠ .resetAssert cut)
    (noStart : ∀ a b o, i ≠ .startUp a b o) (noLoss : ∀ cut, i ≠ .powerLoss cut) : s.Frame t := by
  cases i with
  | memoryAccess | controlBlockWrite | codeWordRead | loadWindowWrite | setup | rest | laneRestart | releaseReports
  | clearAttention | unknownCommand => cases next; exact State.frame_arrive ..
  | arbiterGrant => cases next; exact (State.frame_grant s).trans (State.frame_relax _)
  | wordAccessComplete => exact absurd rfl noWord
  | holdLimitExpiry => cases next; exact (State.work_holdLimitExpiry s).frame
  | agentJobStart => cases next; exact State.frame_agentJobStart s
  | agentWordComplete => exact absurd rfl noAgentWord
  | engineStart => cases next; exact (State.work_weighEngine s).frame
  | codeComplete => cases next; exact State.frame_codeComplete s
  | deriveComplete => cases next; exact State.frame_deriveComplete s
  | verifyComplete => cases next; exact State.frame_verifyComplete s
  | unwrapComplete => cases next; exact State.frame_unwrapComplete s
  | deadlineExpiry => cases next; exact (State.work_deadlineExpiry ..).frame
  | recentEntryExpiry => cases next; exact State.frame_recentEntryExpiry s
  | secondsClockRise => cases next; exact State.frame_secondsClockRise s
  | wakeEnd => cases next; exact State.frame_wakeEnd ..
  | mrestAssert o => exact absurd rfl (noMrest o)
  | mrestRelease => cases next; exact ⟨rfl, rfl⟩
  | pwarnAssert => cases next; exact State.frame_pwarnAssert ..
  | pwarnRelease => cases next; exact State.frame_pwarnRelease s
  | purgeAssert => cases next; exact State.frame_purgeAssert s
  | purgeRelease => cases next; exact ⟨rfl, rfl⟩
  | eraseCompletion => cases next; exact State.frame_eraseCompletion s
  | resetAssert cut => exact absurd rfl (noReset cut)
  | startUp a b o => exact absurd rfl (noStart a b o)
  | powerLoss cut => exact absurd rfl (noLoss cut)

/-- Settles O4: but for the four commands that have a frame of their own, memory and setup both stay. -/
theorem commandsLeaveMemoryAndSetup : Obligations.CommandsLeaveMemoryAndSetup := by
  unfold Obligations.CommandsLeaveMemoryAndSetup
  intro i s t next noAgentWord noStart noLoss
  by_cases word : i = .wordAccessComplete
  · subst word; cases next
    exact ⟨fun absent => absurd rfl absent, fun _ => s.setup_wordAccessComplete⟩
  by_cases mrest : ∃ o, i = .mrestAssert o
  · obtain ⟨o, rfl⟩ := mrest; cases next
    exact ⟨fun _ absent => absurd rfl (absent o), fun _ => s.setup_mrestAssert o⟩
  by_cases reset : ∃ cut, i = .resetAssert cut
  · obtain ⟨cut, rfl⟩ := reset; cases next
    exact ⟨fun _ _ a => congrArg (Memory.read · a) (s.mem_resetAssert cut), fun absent => absurd rfl (absent cut)⟩
  have frame : s.Frame t :=
    exec_frame next word noAgentWord (not_exists.mp mrest) (not_exists.mp reset) noStart noLoss
  exact ⟨fun _ _ a => congrArg (Memory.read · a) frame.mem, fun _ => frame.setup⟩

end Sys2Proof.Machine
end

section
/-! PROOF of EveryStepKeepsMemoryCanonical: what the operations that change frame memory do to its canonical form. -/

namespace Sys2Proof.Machine

namespace State

/-! ## Word accesses -/

theorem canonical_completeAccess {s : State} (canonical : s.memoryCanonical) (p : Port) (a : Access) (judged : Option Judged) :
    (s.completeAccess p a judged).memoryCanonical := by
  unfold completeAccess
  split
  · have stored : (s.freePort.store a.word a.size a.data).memoryCanonical := Memory.wf_store canonical ..
    exact ((work_respond ..).frame.trans (frame_applyTracked ..)).memoryCanonical stored
  · have freed : s.freePort.memoryCanonical := canonical
    exact (work_supply ..).frame.memoryCanonical freed

theorem canonical_wordAccessComplete {s : State} (canonical : s.memoryCanonical) : s.wordAccessComplete.memoryCanonical := by
  unfold wordAccessComplete
  split
  · split
    · exact (frame_relax_settle _).memoryCanonical (canonical_completeAccess canonical ..)
    · exact canonical
  · exact canonical

/-! ## Words of the agent -/

theorem mem_setClockFrom (image : List Word) (s : State) : (s.setClockFrom image).mem = s.mem := by
  unfold setClockFrom; split
  · exact (frame_setClock ..).mem
  · rfl

theorem work_releaseSlotsForSetup (s : State) : s.Work s.releaseSlotsForSetup :=
  ((work_answerAnyHeld s).trans (work_mapSlots ..)).trans (work_dropJobs ..)

/-- R153, R155: the take of a setup image changes the setup in force and not memory. -/
theorem mem_takeSetup (image : List Word) (s : State) : (s.takeSetup image).mem = s.mem := by
  have ended : ∀ o detail (t : State), (t.endSetup o detail).mem = t.mem := fun _ _ _ => rfl
  have enforced : ∀ x (t : State), ((t.enforce x).trimRecent).mem = t.mem := fun _ _ => rfl
  unfold takeSetup
  split
  · split
    · exact ended ..
    · unfold applySetup
      rw [ended, mem_setClockFrom, enforced, (work_releaseSlotsForSetup s).mem]
  · exact ended ..

theorem frame_written (s : State) : s.Frame s.written := by
  have advanced : s.Frame s.advanceRing := ⟨rfl, rfl⟩
  unfold written; split
  · exact (advanced.trans (work_setWaiting ..).frame).trans (track_releaseHolder ..).frame
  · exact advanced

theorem mem_endJob (j : Job) (buffer : List Word) (s : State) : (s.endJob j buffer).mem = s.mem := by
  cases j with
  | fetchFrame ring r => exact (track_takeFrame ..).mem
  | fetchSetup => exact mem_takeSetup ..
  | writeReport place record => exact (frame_written s).mem

theorem mem_advanceJob (data : Option Word) (s : State) : (s.advanceJob data).mem = s.mem := by
  unfold advanceJob
  split
  · dsimp only
    split
    · rw [(work_settle _).mem, mem_endJob]; rfl
    · rfl
  · rfl

theorem canonical_advanceJob {s : State} (canonical : s.memoryCanonical) (data : Option Word) :
    (s.advanceJob data).memoryCanonical := by
  rw [memoryCanonical, mem_advanceJob]; exact canonical

theorem canonical_agentWordComplete {s : State} (canonical : s.memoryCanonical) : s.agentWordComplete.memoryCanonical := by
  have freed : s.freePort.memoryCanonical := canonical
  unfold agentWordComplete
  split
  · next w _ =>
    split
    · next data _ =>
      have stored : (s.freePort.store w.word .word data).memoryCanonical := Memory.wf_store canonical ..
      split
      · exact canonical_advanceJob stored none
      · exact stored
    · split
      · exact canonical_advanceJob freed _
      · exact freed
  · exact canonical

/-! ## MREST and power -/

theorem canonical_failInFlight {s : State} (canonical : s.memoryCanonical) (a : Access) :
    (s.failInFlight a).memoryCanonical := (read_failInFlight canonical ⟨a, .wake, false⟩).1

theorem canonical_restPort {s : State} (canonical : s.memoryCanonical) (p : Port) : (s.restPort p).memoryCanonical := by
  unfold restPort
  split
  · exact (frame_refuse ..).memoryCanonical canonical
  · exact (frame_refuse ..).memoryCanonical (canonical_failInFlight canonical _)
  · exact canonical

theorem canonical_restPorts {s : State} (canonical : s.memoryCanonical) (order : Order) :
    (s.restPorts order).memoryCanonical := by
  cases order <;> exact canonical_restPort (canonical_restPort canonical _) _

theorem canonical_retryPort {s : State} (canonical : s.memoryCanonical) (p : Port) : (s.retryPort p).memoryCanonical := by
  unfold retryPort; split
  · exact (work_hold ..).frame.memoryCanonical (canonical_failInFlight canonical _)
  · exact canonical

theorem canonical_failAgentWord {s : State} (canonical : s.memoryCanonical) : s.failAgentWord.memoryCanonical := by
  unfold failAgentWord
  split
  · split
    · exact Memory.wf_spoilMemory (s := s.freePort) canonical ..
    · exact canonical
  · exact canonical

theorem canonical_mrestAssert {s : State} (canonical : s.memoryCanonical) (order : Order) :
    (s.mrestAssert order).memoryCanonical := by
  have line : (s.setMrest true).memoryCanonical := canonical
  unfold mrestAssert
  split
  · exact canonical
  · dsimp only
    split
    · exact line
    · exact canonical_failAgentWord (canonical_retryPort (canonical_retryPort line _) _)
    · exact ((frame_rewindJob _).trans (frame_relax _)).memoryCanonical
        (canonical_failAgentWord (canonical_restPorts line order))

theorem canonical_startUp {s : State} (canonical : s.memoryCanonical) (straps : BitVec 6) (purgeFirst : Bool) (order : Order) :
    (s.startUp straps purgeFirst order).memoryCanonical := by
  have lost : ∀ c k, (s.loseVolatile c k).memoryCanonical := fun _ _ => canonical
  unfold startUp
  split
  · exact canonical
  · refine (frame_sampleLines ..).memoryCanonical ?_
    split
    · exact canonical_restPorts (lost ..) order
    · exact lost ..

/-- R136: what memory holds after a loss of power is a canonical memory of unspecified cells. -/
theorem canonical_powerLoss {s : State} (canonical : s.memoryCanonical) (cut : Bool) : (s.powerLoss cut).memoryCanonical := by
  unfold powerLoss; split
  · exact canonical
  · exact Memory.wf_ofCells _

end State

theorem exec_keeps_memoryCanonical {i : Instr} {s t : State} (canonical : s.memoryCanonical) (next : exec i s = .next t) :
    t.memoryCanonical := by
  by_cases own : i = .wordAccessComplete ∨ i = .agentWordComplete ∨ (∃ o, i = .mrestAssert o) ∨ (∃ cut, i = .resetAssert cut)
      ∨ (∃ a b o, i = .startUp a b o) ∨ ∃ cut, i = .powerLoss cut
  · rcases own with rfl | rfl | ⟨o, rfl⟩ | ⟨cut, rfl⟩ | ⟨a, b, o, rfl⟩ | ⟨cut, rfl⟩ <;> cases next
    · exact State.canonical_wordAccessComplete canonical
    · exact State.canonical_agentWordComplete canonical
    · exact State.canonical_mrestAssert canonical o
    · rw [State.memoryCanonical, State.mem_resetAssert]; exact canonical
    · exact State.canonical_startUp canonical a b o
    · exact State.canonical_powerLoss canonical cut
  · simp only [not_or, not_exists] at own
    obtain ⟨word, agentWord, mrest, reset, start, loss⟩ := own
    exact (exec_frame next word agentWord mrest reset start loss).memoryCanonical canonical

/-- Settles O55: a millisecond leaves memory, and every command keeps its form. -/
theorem everyStepKeepsMemoryCanonical : Obligations.EveryStepKeepsMemoryCanonical := by
  unfold Obligations.EveryStepKeepsMemoryCanonical
  intro s t canonical next
  unfold step at next
  split at next
  · cases next; exact (State.frame_tick s).memoryCanonical canonical
  · next c rest _ =>
    have taken : ({ s with pending := rest } : State).memoryCanonical := canonical
    exact exec_keeps_memoryCanonical taken next

end Sys2Proof.Machine
end

section
/-! PROOF of SuppliedWordsCarryNoKey: removing the keys and codes leaves every count of the status overlay and every field of
the key status page as it was. -/

namespace Sys2Proof.Machine

namespace State

theorem contextsIn_withoutKeys (x : Option ContextState) (s : State) : s.withoutKeys.contextsIn x = s.contextsIn x := by
  have same : (fun c : Option Context => (c.map fun y => { y with tagKey := none }).map (·.state) == x)
      = fun c => c.map (·.state) == x := by
    funext c; cases c <;> rfl
  exact (Table.count_map ..).trans (congrArg (Table.count · s.contexts.table) same)

theorem entriesIn_withoutKeys (x : KeyState) (s : State) : s.withoutKeys.entriesIn x = s.entriesIn x :=
  Table.count_map ..

theorem inSlot_withoutKeys (r : SlotRef) (s : State) : s.withoutKeys.inSlot r = s.inSlot r := by
  simp only [withoutKeys, inSlot, Table.get_map]

/-- A code is removed from an ARMED slot, which stays ARMED. -/
theorem isArmed_withoutKeys (r : SlotRef) (s : State) :
    (s.withoutKeys.outSlot r).state.isArmed = (s.outSlot r).state.isArmed := by
  simp only [withoutKeys, outSlot, Table.get_map]
  split
  · next armed => rw [armed]; rfl
  · rfl

theorem freeInbound_withoutKeys (n : Fin 8) (s : State) : s.withoutKeys.freeInbound n = s.freeInbound n := by
  simp only [freeInbound_eq, inSlot_withoutKeys]; rfl

theorem armedOutbound_withoutKeys (n : Fin 8) (s : State) : s.withoutKeys.armedOutbound n = s.armedOutbound n := by
  have count : ∀ t : State, t.armedOutbound n = (List.finRange 16).countP fun k =>
      decide (k.val < (t.setup.lanes.get n).outCount) && (t.outSlot ⟨n, k⟩).state.isArmed := fun t => Table.countP_take ..
  rw [count, count]
  simp only [isArmed_withoutKeys]; rfl

theorem laneWord_withoutKeys (n : Fin 8) (s : State) : s.withoutKeys.laneWord n = s.laneWord n := by
  have underruns : (s.withoutKeys.slots.lanes.get n).underruns = (s.slots.lanes.get n).underruns := by
    simp only [withoutKeys, Table.get_map]
  rw [laneWord, laneWord, freeInbound_withoutKeys, armedOutbound_withoutKeys, underruns]

/-- R20, R161: the counts carry no key, and no other word of the overlay is read from what `withoutKeys` changes. -/
theorem overlayWord_withoutKeys (k : Nat) (s : State) : s.withoutKeys.overlayWord k = s.overlayWord k := by
  unfold overlayWord
  simp only [contextsIn_withoutKeys, entriesIn_withoutKeys, laneWord_withoutKeys]
  rfl

/-- R20, R107: a key status entry has no word for the key. -/
theorem statusWord_withoutKeys (e : Fin 48) (n : Nat) (s : State) :
    (s.withoutKeys.keys.entries.get e).statusWord n = (s.keys.entries.get e).statusWord n := by
  simp only [withoutKeys, Table.get_map]
  rfl

end State

/-- Settles O12, by the area that the word is supplied for. -/
theorem suppliedWordsCarryNoKey : Obligations.SuppliedWordsCarryNoKey := by
  unfold Obligations.SuppliedWordsCarryNoKey
  intro s area
  cases area with
  | overlay n => exact congrArg some (s.overlayWord_withoutKeys n)
  | keyStatus e n => exact congrArg some (s.statusWord_withoutKeys e n)
  | plain | command | loadWindow | reportRing => rfl

end Sys2Proof.Machine
end

section
/-! PROOF of RefusalRecordsPortKindAddress, AccessOutsideTheRings, AgentStartsHeadJob and LineReleasesDoNoMore: addresses and
refusals, the arrival of an access outside every watched range, the start of a job, the releases of the lines. -/

namespace Sys2Proof.Machine

/-! ## Addresses and refusals -/

/-- R23: the byte address of an access does not wrap. -/
theorem address_toNat (a : Access) : a.address.toNat = 4 * a.word.toNat + a.size.offset := by
  have inWord : a.size.offset < 4 := by
    have := Memory.size_bound a.size
    have : 1 ≤ a.size.bytes := by cases a.size <;> simp [Size.bytes]
    omega
  have := a.word.isLt
  rw [Access.address, BitVec.toNat_ofNat, Nat.mod_eq_of_lt (by omega)]

/-- R23: two refusals counted one by one. -/
theorem count_add_two (count : Word) : count + 1 + 1 = count + 2 := by bv_omega

namespace State

/-- R23: what a refusal is. -/
theorem refuse_eq (p : Port) (kind : RefusalKind) (address : BitVec 22) (s : State) :
    s.refuse p kind address =
      ({ s with
        path := ⟨s.path.count + 1, some p, some kind, address⟩
        control := { s.control with raised := s.control.raised ||| 8 } } : State).setPort p ⟨none, some .error⟩ := rfl

theorem path_refuse (p : Port) (kind : RefusalKind) (address : BitVec 22) (s : State) :
    (s.refuse p kind address).path = ⟨s.path.count + 1, some p, some kind, address⟩ := by
  rw [refuse_eq, path_setPort]

theorem control_refuse (p : Port) (kind : RefusalKind) (address : BitVec 22) (s : State) :
    (s.refuse p kind address).control = { s.control with raised := s.control.raised ||| 8 } := by
  rw [refuse_eq, control_setPort]

/-! ## Arrival -/

/-- R14: the control block range. -/
theorem inBlock_iff (s : State) (word : BitVec 20) :
    s.inBlock word = true ↔ s.controller.straps.toNat * 0x10000 ≤ 4 * word.toNat
      ∧ 4 * word.toNat < s.controller.straps.toNat * 0x10000 + 0x10000 := by
  rw [inBlock, beq_iff_eq]; omega

theorem watched_iff (s : State) (word : BitVec 20) :
    s.watched word = true ↔ s.inBlock word = true ∨ ∃ t, s.slotAt word = some t := by
  rw [watched, Bool.or_eq_true, Option.isSome_iff_exists]

theorem sinceWake_iff (s : State) (word : BitVec 20) :
    s.sinceWake word = true ↔ s.controller.state = .dormant ∧ s.watched word = true := by
  rw [sinceWake, Bool.and_eq_true, beq_iff_eq]

/-- R15: the control block is not the R-port's. -/
theorem classify_r_inBlock {s : State} {a : Access} (block : s.inBlock a.word = true) :
    s.classify .r a = s.refuse .r .wrongPort a.address := by
  rw [classify, if_pos block]

/-- R15, R17: an access in no watched range passes through. -/
theorem classify_unwatched {s : State} {a : Access} (outside : s.watched a.word = false) (p : Port) :
    s.classify p a = s.passThrough p a none := by
  rw [watched, Bool.or_eq_false_iff, Option.isSome_eq_false_iff, Option.isNone_iff_eq_none] at outside
  obtain ⟨noBlock, noSlot⟩ := outside
  simp only [classify, noBlock, noSlot, Bool.false_eq_true, if_false]

/-- R169: an access in no watched range is not held for a wake. -/
theorem arrive_unwatched {s : State} {p : Port} {a : Access} (free : (s.port p).access = none)
    (on : s.controller.power = .on) (outside : s.watched a.word = false) :
    s.arrive p a = ((s.passThrough p a none).relax).settle := by
  have listens : ¬ (s.controller.holdsAccesses = true ∧ s.watched a.word = true) := by simp [outside]
  rw [arrive, free, on, ← classify_unwatched outside p]
  exact if_neg listens

theorem passThrough_waits {s : State} (line : s.controller.lines.mrest = false) (p : Port) (a : Access)
    (track : Option SlotWord) : s.passThrough p a track = s.hold p ⟨a, .waiting track, s.sinceWake a.word⟩ := by
  rw [passThrough, line]; rfl

/-- R30: during MREST an access that is not tracked is refused. -/
theorem passThrough_rests {s : State} (line : s.controller.lines.mrest = true) (p : Port) (a : Access) :
    s.passThrough p a none = s.refuse p .memoryResting a.address := by
  rw [passThrough, line]; rfl

/-! ## The start of a job -/

/-- R26: what keeps the agent from starting a job. -/
theorem agentJobStart_stopped {s : State}
    (stopped : s.agent.position ≠ none ∨ s.agent.jobs = [] ∨ s.controller.lines.mrest = true ∨ s.controller.agentStarts = false) :
    s.agentJobStart = s := by
  unfold agentJobStart
  split
  · next idle jobs =>
    have blocked : ¬ (s.controller.agentStarts = true ∧ s.controller.lines.mrest = false) := by
      rintro ⟨starts, released⟩
      rcases stopped with current | empty | line | halted
      · exact current idle
      · rw [empty] at jobs; cases jobs
      · rw [released] at line; cases line
      · rw [starts] at halted; cases halted
    exact if_neg blocked
  · rfl

/-- R26: the head job becomes current. -/
theorem agentJobStart_starts {s : State} {j : Job} {rest : List Job} (idle : s.agent.position = none)
    (jobs : s.agent.jobs = j :: rest) (starts : s.controller.agentStarts = true)
    (released : s.controller.lines.mrest = false) :
    s.agentJobStart = (s.setAgent ⟨s.agent.jobs, some j.firstWord, []⟩).beginFetch j := by
  simp only [agentJobStart, idle, jobs, starts, released, and_self, if_true]

theorem agentStarts_iff (c : Controller) :
    c.agentStarts = true ↔ c.power = .on ∧ (c.state = .unset ∨ c.state = .running ∨ c.state = .purging) := by
  simp [Controller.agentStarts, or_assoc]

end State

/-- Settles O6: a refusal is a change of the record, the causes and the port; the second of two is made in the first's state. -/
theorem refusalRecordsPortKindAddress : Obligations.RefusalRecordsPortKindAddress := by
  unfold Obligations.RefusalRecordsPortKindAddress
  refine ⟨address_toNat, fun s p kind address => ⟨State.refuse_eq .., fun q kind' address' => ?_⟩⟩
  rw [State.path_refuse, State.path_refuse, count_add_two]

/-- Settles O7, by the ranges and by how an access that is watched nowhere passes through. -/
theorem accessOutsideTheRings : Obligations.AccessOutsideTheRings := by
  unfold Obligations.AccessOutsideTheRings
  refine ⟨fun s word => ⟨s.inBlock_iff word, s.watched_iff word, s.sinceWake_iff word⟩,
    fun s p a free on => ⟨?wrongPort, ?waits, ?rests⟩⟩
  case wrongPort =>
    rintro rfl block hears
    show Host.Outcome.next (s.arrive .r a) = _
    rw [State.arrive_hears hears, State.classify_r_inBlock block]
  case waits =>
    intro outside released
    have uncounted : s.sinceWake a.word = false := by rw [State.sinceWake, outside, Bool.and_false]
    show Host.Outcome.next (s.arrive p a) = _
    rw [State.arrive_unwatched free on outside, State.passThrough_waits released, uncounted]
  case rests =>
    intro outside asserted
    show Host.Outcome.next (s.arrive p a) = _
    rw [State.arrive_unwatched free on outside, State.passThrough_rests asserted]

/-- Settles O18, by what stops the agent and, once a job starts, by the job. -/
theorem agentStartsHeadJob : Obligations.AgentStartsHeadJob := by
  unfold Obligations.AgentStartsHeadJob
  refine ⟨fun s => ⟨fun stopped => congrArg Host.Outcome.next (State.agentJobStart_stopped ?_), fun _ => rfl⟩,
    fun _ _ => rfl, rfl, fun _ _ => rfl, ?starts⟩
  · rcases stopped with current | empty | line | off | dormant | halted
    · exact .inl current
    · exact .inr (.inl empty)
    · exact .inr (.inr (.inl line))
    all_goals
      refine .inr (.inr (.inr (Bool.eq_false_iff.mpr fun starts => ?_)))
      obtain ⟨on, state⟩ := (State.agentStarts_iff _).mp starts
    · exact off on
    · simp [dormant] at state
    · simp [halted] at state
  case starts =>
    intro s j rest idle jobs on released state t
    have started : exec .agentJobStart s = .next (t.beginFetch j) := congrArg Host.Outcome.next
      (State.agentJobStart_starts idle jobs ((State.agentStarts_iff _).mpr ⟨on, state⟩) released)
    rw [started]
    refine ⟨?_, ?_, ?_, ?_⟩
    · rintro r h rfl closed
      have here : t.inSlot r = .closed h := closed
      simp only [State.beginFetch, here]
    · rintro r h rfl closed
      have here : (t.outSlot r).state = .closed h := closed
      simp only [State.beginFetch, here]; rfl
    · rintro rfl; rfl
    · rintro place record rfl; rfl

/-- Settles O50: only PWARN's release looks at the part state. -/
theorem lineReleasesDoNoMore : Obligations.LineReleasesDoNoMore := by
  unfold Obligations.LineReleasesDoNoMore
  refine fun s => ⟨rfl, rfl, fun asserted elsewhere => ?_, fun asserted on halted => ?_⟩
  all_goals
    show Host.Outcome.next s.pwarnRelease = _
    rw [State.pwarnRelease, if_pos asserted]
  · exact congrArg Host.Outcome.next (if_neg elsewhere)
  · exact congrArg Host.Outcome.next (if_pos ⟨on, halted⟩)

end Sys2Proof.Machine
end

section
/-! PROOF of GrantFollowsFixedPriority, WordAccessCompletesAtMemory and TrackedWriteTakesEffect: the word the agent asks for, what
becomes of a granted access, and its completion at memory. -/

namespace Sys2Proof.Machine

/-- R33: the words of a slot stand one after another from its ring's base. -/
theorem ringByte_div_four (base index words k : Nat) :
    (base + index * (4 * words) + 4 * k) / 4 = base / 4 + index * words + k := by
  have bytes : index * (4 * words) = 4 * (index * words) := Nat.mul_left_comm ..
  omega

namespace State

/-! ## The word the agent asks for -/

theorem slotAddress_inbound (s : State) (r : SlotRef) (k : Nat) :
    s.slotAddress .inbound r k = BitVec.ofNat 20 (((s.setup.lanes.get r.lane).inBase
      + r.index.val * (4 * (s.setup.lanes.get r.lane).slotWords) + 4 * k) / 4) := by
  rw [ringByte_div_four]; rfl

theorem slotAddress_outbound (s : State) (r : SlotRef) (k : Nat) :
    s.slotAddress .outbound r k = BitVec.ofNat 20 (((s.setup.lanes.get r.lane).outBase
      + r.index.val * (4 * (s.setup.lanes.get r.lane).slotWords) + 4 * k) / 4) := by
  rw [ringByte_div_four]; rfl

theorem blockWord_eq (s : State) (k : Nat) :
    s.blockWord k = BitVec.ofNat 20 ((s.controller.straps.toNat * 0x10000 + 4 * k) / 4) := by
  have words : (s.controller.straps.toNat * 0x10000 + 4 * k) / 4 = s.controller.straps.toNat * 16384 + k := by omega
  rw [words]; rfl

theorem agentRequest_none {s : State} (idle : s.agent.position = none ∨ s.agent.jobs = []) : s.agentRequest = none := by
  rcases idle with free | empty
  · simp only [agentRequest, free]
  · cases current : s.agent.position <;> simp only [agentRequest, current, empty]

theorem agentRequest_fetchFrame {s : State} {k : Nat} {ring : Ring} {r : SlotRef} {rest : List Job}
    (current : s.agent.position = some k) (head : s.agent.jobs = .fetchFrame ring r :: rest) :
    s.agentRequest = some ⟨s.slotAddress ring r k, none, true⟩ := by
  simp only [agentRequest, current, head]

theorem agentRequest_fetchSetup {s : State} {k : Nat} {rest : List Job} (current : s.agent.position = some k)
    (head : s.agent.jobs = .fetchSetup :: rest) : s.agentRequest = some ⟨s.blockWord k, none, true⟩ := by
  simp only [agentRequest, current, head]

theorem agentRequest_writeReport {s : State} {k : Nat} {place : BitVec 20} {record : List Word} {word : Word} {rest : List Job}
    (current : s.agent.position = some k) (head : s.agent.jobs = .writeReport place record :: rest)
    (at_ : record[k]? = some word) : s.agentRequest = some ⟨place + BitVec.ofNat 20 k, some word, true⟩ := by
  simp only [agentRequest, current, head, List.getD_eq_getElem?_getD, at_, Option.getD_some]

/-! ## The grant -/

theorem request_eq_some_iff (x : PortState) (a : Access) (track : Option SlotWord) :
    x.request = some (a, track) ↔ ∃ since, x.access = some ⟨a, .waiting track, since⟩ := by
  unfold PortState.request
  split
  · next access => simp [access]
  · next other =>
    refine ⟨nofun, ?_⟩
    rintro ⟨since, access⟩
    exact (other _ _ _ access).elim

/-- R24: with the port busy, MREST asserted or nothing waiting nothing is granted. -/
theorem grant_none {s : State} (h : s.controller.lines.mrest = true ∨ s.arbiter ≠ none
    ∨ (s.ports.r.request = none ∧ s.agentRequest = none ∧ s.ports.c.request = none)) : s.grant = s := by
  unfold grant
  split
  · rfl
  · next free =>
    obtain ⟨released, idle⟩ := not_or.mp free
    rcases h with line | busy | ⟨r, agent, c⟩
    · exact absurd line released
    · exact absurd (Option.isSome_iff_ne_none.mpr busy) idle
    · simp only [r, agent, c]

/-- R24: the order of the grant. -/
theorem grant_free {s : State} (released : s.controller.lines.mrest = false) (free : s.arbiter = none) :
    (∀ a track, s.ports.r.request = some (a, track) → s.grant = s.grantPort .r a track)
      ∧ (∀ w, s.ports.r.request = none → s.agentRequest = some w → s.grant = s.setArbiter (some (.agent w)))
      ∧ ∀ a track, s.ports.r.request = none → s.agentRequest = none → s.ports.c.request = some (a, track) →
        s.grant = s.grantPort .c a track := by
  have granted : ¬ (s.controller.lines.mrest = true ∨ s.arbiter.isSome = true) := by simp [released, free]
  refine ⟨fun a track r => ?_, fun w r agent => ?_, fun a track r agent c => ?_⟩ <;> rw [grant, if_neg granted]
  · simp only [r]
  · simp only [r, agent]
  · simp only [r, agent, c]

theorem judgeTracked_here {s : State} {a : Access} {t : SlotWord} (here : s.slotAt a.word = some t) :
    s.judgeTracked a (some t) = s.judge t := if_pos here

theorem judgeTracked_moved {s : State} {a : Access} {t : SlotWord} (moved : s.slotAt a.word ≠ some t) :
    s.judgeTracked a (some t) = none := if_neg moved

theorem grantPort_refused {s : State} {a : Access} {track : Option SlotWord} {kind : RefusalKind}
    (refuses : s.judgeTracked a track = some kind) (p : Port) :
    s.grantPort p a track = s.refuse p kind a.address := by
  simp only [grantPort, refuses]

/-- R18: a granted access is in flight; it carries the state it was judged in if it is still where it was found. -/
theorem grantPort_flies {s : State} {p : Port} {a : Access} {track : Option SlotWord} {o : Outstanding}
    (access : (s.port p).access = some o) (permits : s.judgeTracked a track = none) :
    s.grantPort p a track = (s.setArbiter (some (.port p))).hold p
      ⟨a, .inFlight (track.bind fun t => if s.slotAt a.word = some t then some ⟨t, s.slotState t⟩ else none), o.sinceWake⟩ := by
  simp only [grantPort, permits, access]
  cases track <;> rfl

/-! ## The completion -/

/-- R17: the access in flight completes. -/
theorem wordAccessComplete_port {s : State} {p : Port} {a : Access} {judged : Option Judged} {since : Bool}
    (busy : s.arbiter = some (.port p)) (access : (s.port p).access = some ⟨a, .inFlight judged, since⟩) :
    s.wordAccessComplete = ((s.completeAccess p a judged).relax).settle := by
  simp only [wordAccessComplete, busy, access]

/-- R17: a write is stored and answered done; then it takes effect on its slot. -/
theorem completeAccess_write {a : Access} (write : a.write = true) (p : Port) (judged : Option Judged) (s : State) :
    s.completeAccess p a judged =
      (({ s with arbiter := none, mem := s.mem.store a.word a.size a.data } : State).setPort p
        ⟨none, some (.done none)⟩).applyTracked a judged := by
  rw [completeAccess, if_pos write]; rfl

/-- R17: a read is answered with memory's data. -/
theorem completeAccess_read {a : Access} (read : a.write = false) (p : Port) (judged : Option Judged) (s : State) :
    s.completeAccess p a judged =
      ({ s with arbiter := none } : State).setPort p
        ⟨none, some (.done (some (a.size.extract (s.mem.readWord a.word))))⟩ := by
  rw [completeAccess, if_neg (Bool.eq_false_iff.mp read)]; rfl

theorem slotAt_setPort (p : Port) (x : PortState) (word : BitVec 20) (s : State) :
    (s.setPort p x).slotAt word = s.slotAt word := by
  simp only [slotAt, controller_setPort, setup_setPort]

theorem slotState_setPort (p : Port) (x : PortState) (t : SlotWord) (s : State) :
    (s.setPort p x).slotState t = s.slotState t := by
  simp only [slotState, inSlot, outSlot, slots_setPort]

/-- R18, log 12: a write whose slot is not as it was judged takes no effect. -/
theorem applyTracked_changed {s : State} {a : Access} {j : Judged}
    (changed : s.slotAt a.word ≠ some j.target ∨ s.slotState j.target ≠ j.state) : s.applyTracked a (some j) = s := by
  have unlike : ¬ (s.slotAt a.word = some j.target ∧ s.slotState j.target = j.state) :=
    not_and_or.mpr changed
  exact if_neg unlike

theorem applyTracked_ineffective {s : State} {a : Access} {j : Judged} (none : s.writeSlot j.target a.data = none) :
    s.applyTracked a (some j) = s := by
  simp only [applyTracked, none, ite_self]

theorem applyTracked_effective {s u : State} {a : Access} {j : Judged} (here : s.slotAt a.word = some j.target)
    (same : s.slotState j.target = j.state) (effect : s.writeSlot j.target a.data = some u) :
    s.applyTracked a (some j) = u.rouse := by
  simp only [applyTracked, here, same, effect, and_self, if_true]

/-- R169: what rousing changes. -/
theorem rouse_eq (s : State) : s.rouse = { s with controller := s.controller.roused } := by
  unfold rouse Controller.roused
  split
  · cases s.controller.wake <;> rfl
  · rfl

end State

/-- Settles O13, by what is waiting and by what the slot tracker says of it. -/
theorem grantFollowsFixedPriority : Obligations.GrantFollowsFixedPriority := by
  unfold Obligations.GrantFollowsFixedPriority
  refine ⟨fun s => ⟨fun h => ?nothing, fun released free => ?order, fun p a since => ?granted⟩, fun s k rest => ?asks⟩
  case nothing =>
    show Host.Outcome.next s.grant.relax = _
    rw [State.grant_none h]
  case order =>
    obtain ⟨r, agent, c⟩ := State.grant_free released free
    exact ⟨fun a track h => congrArg (Host.Outcome.next ∘ State.relax) (r a track h),
      fun w h h' => congrArg (Host.Outcome.next ∘ State.relax) (agent w h h'),
      fun a track h h' h'' => congrArg (Host.Outcome.next ∘ State.relax) (c a track h h' h'')⟩
  case granted =>
    refine ⟨fun track => State.request_eq_some_iff .., fun t kind _ here refuses => ?_, fun t access here permits => ?_,
      fun t access moved => ?_, fun access => ?_⟩
    · exact State.grantPort_refused ((State.judgeTracked_here here).trans refuses) p
    · rw [State.grantPort_flies access ((State.judgeTracked_here here).trans permits), Option.bind_some, if_pos here]; rfl
    · rw [State.grantPort_flies access (State.judgeTracked_moved moved), Option.bind_some, if_neg moved]; rfl
    · rw [State.grantPort_flies access rfl]; rfl
  case asks =>
    refine ⟨State.agentRequest_none, fun current => ⟨fun r head => ?_, fun r head => ?_, fun head => ?_, ?_⟩⟩
    · rw [State.agentRequest_fetchFrame current head, State.slotAddress_inbound]
    · rw [State.agentRequest_fetchFrame current head, State.slotAddress_outbound]
    · rw [State.agentRequest_fetchSetup current head, State.blockWord_eq]
    · exact fun place record word head at_ => State.agentRequest_writeReport current head at_

/-- Settles O15: what memory reads after the store, and the state around it. -/
theorem wordAccessCompletesAtMemory : Obligations.WordAccessCompletesAtMemory := by
  unfold Obligations.WordAccessCompletesAtMemory
  refine ⟨⟨rfl, fun _ => rfl, fun _ => rfl, rfl, fun _ => rfl, fun _ => rfl, fun _ _ => rfl, fun _ _ => rfl⟩,
    fun s p a since busy access => ⟨fun canonical write => ?writes, fun read => ?reads⟩⟩
  case writes =>
    have done : s.wordAccessComplete =
        (((({ s with arbiter := none, mem := s.mem.store a.word a.size a.data } : State).setPort p
          ⟨none, some (.done none)⟩).relax).settle) := by
      rw [State.wordAccessComplete_port busy access, State.completeAccess_write write]; rfl
    have mem : s.wordAccessComplete.mem = s.mem.store a.word a.size a.data := by
      rw [done, (State.frame_relax_settle _).mem, State.mem_setPort]
    refine ⟨s.wordAccessComplete, rfl, fun i named => ?_, fun b other => ?_, by rw [mem]; exact done⟩
    · rw [mem, Memory.read_store canonical, if_pos (by unfold byteAddress; omega)]
      congr 1; unfold byteAddress; omega
    · rw [mem, Memory.read_store canonical, if_neg (by unfold byteAddress; omega)]
  case reads =>
    show Host.Outcome.next s.wordAccessComplete = _
    rw [State.wordAccessComplete_port busy access, State.completeAccess_read read]

/-- Settles O16, by whether the slot is as it was judged and the write has an effect on it. -/
theorem trackedWriteTakesEffect : Obligations.TrackedWriteTakesEffect := by
  unfold Obligations.TrackedWriteTakesEffect
  intro s p a j since busy access write t
  have done : exec .wordAccessComplete s = .next (((t.applyTracked a (some j)).relax).settle) := by
    show Host.Outcome.next s.wordAccessComplete = _
    rw [State.wordAccessComplete_port busy access, State.completeAccess_write write]
  have slotAt : t.slotAt a.word = s.slotAt a.word := State.slotAt_setPort ..
  have slotState : t.slotState j.target = s.slotState j.target := State.slotState_setPort ..
  rw [done]
  refine ⟨fun changed => ?_, fun _ _ none => ?_, fun u here same effect => ?_⟩
  · rw [State.applyTracked_changed (by rwa [slotAt, slotState])]
  · rw [State.applyTracked_ineffective none]
  · rw [State.applyTracked_effective (slotAt.trans here) (slotState.trans same) effect, State.relax_rouse, State.rouse_eq]

end Sys2Proof.Machine
end

section
/-! PROOF of AgentWordContinuesOrEndsTheJob: a word of the current or of an abandoned job, then the take of a frame, field by
field in the short and in the extended form. -/

namespace Sys2Proof.Machine

/-- R175: what memory reads after a word of the agent is stored. -/
theorem Memory.read_store_word {m : Memory} (h : Memory.wf m) (word : BitVec 20) (data : Word) :
    (∀ i, i < 4 → (m.store word .word data).read (4 * word.toNat + i) = data.byte i)
      ∧ ∀ b, b < 4 * word.toNat ∨ 4 * word.toNat + 4 ≤ b → (m.store word .word data).read b = m.read b := by
  have stored : ∀ b, (m.store word .word data).read b =
      if 4 * word.toNat ≤ b ∧ b < 4 * word.toNat + 4 then data.byte (b - 4 * word.toNat) else m.read b :=
    fun b => Memory.read_store h word .word data b
  refine ⟨fun i named => ?_, fun b other => ?_⟩
  · rw [stored, if_pos (by omega), Nat.add_sub_cancel_left]
  · rw [stored, if_neg (by omega)]

namespace State

/-! ## The length of a job -/

theorem jobEnd_inbound {s : State} {r : SlotRef} {h : Header} (header : (s.inSlot r).header = some h) :
    s.jobEnd (.fetchFrame .inbound r) = h.length.toNat := by
  simp only [jobEnd, slotHeader, header, Option.map_some, Option.getD_some]

theorem jobEnd_outbound {s : State} {r : SlotRef} {h : Header} (header : (s.outSlot r).state.header = some h) :
    s.jobEnd (.fetchFrame .outbound r) = h.length.toNat := by
  simp only [jobEnd, slotHeader, header, Option.map_some, Option.getD_some]

/-! ## A word completes -/

/-- R28: a read for an abandoned job is discarded. -/
theorem agentWordComplete_discards {s : State} {w : AgentAccess} (busy : s.arbiter = some (.agent w)) (dead : w.live = false)
    (read : w.write = none) : s.agentWordComplete = { s with arbiter := none } := by
  simp only [agentWordComplete, busy, dead, read, Bool.false_eq_true, if_false]; rfl

/-- R28: a write for an abandoned job lands in memory. -/
theorem agentWordComplete_lands {s : State} {w : AgentAccess} {data : Word} (busy : s.arbiter = some (.agent w))
    (dead : w.live = false) (write : w.write = some data) :
    s.agentWordComplete = { s with arbiter := none, mem := s.mem.store w.word .word data } := by
  simp only [agentWordComplete, busy, dead, write, Bool.false_eq_true, if_false]; rfl

theorem agentWordComplete_reads {s : State} {w : AgentAccess} (busy : s.arbiter = some (.agent w)) (live : w.live = true)
    (read : w.write = none) :
    s.agentWordComplete = ({ s with arbiter := none } : State).advanceJob (some (s.mem.readWord w.word)) := by
  simp only [agentWordComplete, busy, live, read, if_true]; rfl

theorem agentWordComplete_writes {s : State} {w : AgentAccess} {data : Word} (busy : s.arbiter = some (.agent w))
    (live : w.live = true) (write : w.write = some data) :
    s.agentWordComplete =
      ({ s with arbiter := none, mem := s.mem.store w.word .word data } : State).advanceJob none := by
  simp only [agentWordComplete, busy, live, write, if_true]; rfl

/-- R26: a word before the last one moves the job on. -/
theorem advanceJob_continues {s : State} {k : Nat} {j : Job} {rest : List Job} (current : s.agent.position = some k)
    (head : s.agent.jobs = j :: rest) (more : k + 1 < s.jobEnd j) (data : Option Word) :
    s.advanceJob data = s.setAgent ⟨s.agent.jobs, some (k + 1), s.agent.buffer ++ data.toList⟩ := by
  simp only [advanceJob, current, head, if_neg (Nat.not_le.mpr more)]

/-- R27: the last word ends the job. -/
theorem advanceJob_ends {s : State} {k : Nat} {j : Job} {rest : List Job} (current : s.agent.position = some k)
    (head : s.agent.jobs = j :: rest) (last : s.jobEnd j ≤ k + 1) (data : Option Word) :
    s.advanceJob data = ((s.setAgent ⟨rest, none, []⟩).endJob j (s.agent.buffer ++ data.toList)).settle := by
  simp only [advanceJob, current, head, if_pos last]

theorem endJob_fetchFrame (ring : Ring) (r : SlotRef) (buffer : List Word) (s : State) :
    s.endJob (.fetchFrame ring r) buffer = s.takeFrame ring r buffer := rfl

theorem endJob_fetchSetup (buffer : List Word) (s : State) : s.endJob .fetchSetup buffer = s.takeSetup buffer := rfl

theorem endJob_writeReport (place : BitVec 20) (record buffer : List Word) (s : State) :
    s.endJob (.writeReport place record) buffer = s.written := rfl

/-- R26: a word read before the last one joins the buffer. -/
theorem agentWordComplete_reads_on {s : State} {w : AgentAccess} {k : Nat} {j : Job} {rest : List Job}
    (busy : s.arbiter = some (.agent w)) (live : w.live = true) (read : w.write = none) (current : s.agent.position = some k)
    (head : s.agent.jobs = j :: rest) (more : k + 1 < s.jobEnd j) :
    s.agentWordComplete = { s with
      arbiter := none
      agent := ⟨s.agent.jobs, some (k + 1), s.agent.buffer ++ [s.mem.readWord w.word]⟩ } :=
  (agentWordComplete_reads busy live read).trans
    (advanceJob_continues (s := { s with arbiter := none }) current head more _)

/-- R27: the last word read ends the job. -/
theorem agentWordComplete_reads_last {s : State} {w : AgentAccess} {k : Nat} {j : Job} {rest : List Job}
    (busy : s.arbiter = some (.agent w)) (live : w.live = true) (read : w.write = none) (current : s.agent.position = some k)
    (head : s.agent.jobs = j :: rest) (last : s.jobEnd j ≤ k + 1) :
    s.agentWordComplete = (({ s with arbiter := none, agent := ⟨rest, none, []⟩ } : State).endJob j
      (s.agent.buffer ++ [s.mem.readWord w.word])).settle :=
  (agentWordComplete_reads busy live read).trans (advanceJob_ends (s := { s with arbiter := none }) current head last _)

/-- R26: a word of a record before the last one is stored. -/
theorem agentWordComplete_writes_on {s : State} {w : AgentAccess} {data : Word} {k : Nat} {j : Job} {rest : List Job}
    (busy : s.arbiter = some (.agent w)) (live : w.live = true) (write : w.write = some data)
    (current : s.agent.position = some k) (head : s.agent.jobs = j :: rest) (more : k + 1 < s.jobEnd j) :
    s.agentWordComplete = { s with
      arbiter := none, mem := s.mem.store w.word .word data
      agent := ⟨s.agent.jobs, some (k + 1), s.agent.buffer ++ []⟩ } :=
  (agentWordComplete_writes busy live write).trans
    (advanceJob_continues (s := { s with arbiter := none, mem := s.mem.store w.word .word data }) current head more none)

/-- R27: the last word of a record is stored and ends the job. -/
theorem agentWordComplete_writes_last {s : State} {w : AgentAccess} {data : Word} {k : Nat} {j : Job} {rest : List Job}
    (busy : s.arbiter = some (.agent w)) (live : w.live = true) (write : w.write = some data)
    (current : s.agent.position = some k) (head : s.agent.jobs = j :: rest) (last : s.jobEnd j ≤ k + 1) :
    s.agentWordComplete = (({ s with
      arbiter := none, mem := s.mem.store w.word .word data, agent := ⟨rest, none, []⟩ } : State).endJob j
        (s.agent.buffer ++ [])).settle :=
  (agentWordComplete_writes busy live write).trans
    (advanceJob_ends (s := { s with arbiter := none, mem := s.mem.store w.word .word data }) current head last none)

end State

/-! ## The fields of a frame -/

/-- R4, Formats: the issuer and the generation stand side by side in the label word, the issuer low. -/
theorem label_fields (flags generation : BitVec 8) (issuer : BitVec 16) :
    (flags ++ generation ++ issuer : Word).extractLsb' 0 16 = issuer
      ∧ (flags ++ generation ++ issuer : Word).extractLsb' 16 8 = generation := by
  refine ⟨BitVec.extractLsb'_append_eq_right, ?_⟩
  rw [BitVec.extractLsb'_append_eq_of_le (by omega)]
  exact BitVec.extractLsb'_append_eq_right

namespace Header

theorem extended_of_short {h : Header} (short : h.form = 0) : h.extended = false := by rw [extended, short]; rfl

theorem extended_of_form {h : Header} (form : h.form = 1) : h.extended = true := by rw [extended, form]; rfl

/-- R8: the fourth condition fails only in the extended form. -/
theorem malformedAtTake_short {h : Header} (short : h.form = 0) (buffer : List Word) : h.malformedAtTake buffer = false := by
  rw [malformedAtTake, extended_of_short short, Bool.false_and]

theorem malformedAtTake_extended {h : Header} (form : h.form = 1) (i₀ i₁ : Word) (rest : List Word) :
    h.malformedAtTake (i₀ :: i₁ :: rest) = (i₁ == 0) := by
  rw [malformedAtTake, extended_of_form form, Bool.true_and]; rfl

end Header

theorem Announce.ofFrame_short {h : Header} (short : h.form = 0) (flags generation : BitVec 8) (issuer : BitVec 16)
    (i₀ n₀ n₁ counter : Word) :
    Announce.ofFrame h [i₀, flags ++ generation ++ issuer, n₀, n₁, counter]
      = ⟨0#32 ++ i₀, issuer, generation, n₁ ++ n₀, counter⟩ := by
  obtain ⟨low, high⟩ := label_fields flags generation issuer
  simp only [Announce.ofFrame, Header.identity, Header.body, Header.extended_of_short short, Bool.false_eq_true, if_false]
  exact congr (congr (congr (congr (congrArg Announce.mk rfl) low) high) rfl) rfl

theorem Announce.ofFrame_extended {h : Header} (form : h.form = 1) (flags generation : BitVec 8) (issuer : BitVec 16)
    (i₀ i₁ n₀ n₁ counter : Word) :
    Announce.ofFrame h [i₀, i₁, flags ++ generation ++ issuer, n₀, n₁, counter]
      = ⟨i₁ ++ i₀, issuer, generation, n₁ ++ n₀, counter⟩ := by
  obtain ⟨low, high⟩ := label_fields flags generation issuer
  simp only [Announce.ofFrame, Header.identity, Header.body, Header.extended_of_form form, if_true]
  exact congr (congr (congr (congr (congrArg Announce.mk rfl) low) high) rfl) rfl

theorem Confirm.ofFrame_short {h : Header} (short : h.form = 0) (i₀ n₀ n₁ counter x₀ x₁ : Word) :
    Confirm.ofFrame h [i₀, n₀, n₁, counter, x₀, x₁] = ⟨0#32 ++ i₀, n₁ ++ n₀, counter, x₁ ++ x₀⟩ := by
  simp only [Confirm.ofFrame, Header.identity, Header.body, Header.extended_of_short short, Bool.false_eq_true, if_false]
  rfl

theorem Confirm.ofFrame_extended {h : Header} (form : h.form = 1) (i₀ i₁ n₀ n₁ counter x₀ x₁ : Word) :
    Confirm.ofFrame h [i₀, i₁, n₀, n₁, counter, x₀, x₁] = ⟨i₁ ++ i₀, n₁ ++ n₀, counter, x₁ ++ x₀⟩ := by
  simp only [Confirm.ofFrame, Header.identity, Header.body, Header.extended_of_form form, if_true]
  rfl

theorem Challenge.ofFrame_short {h : Header} (short : h.form = 0) (i₀ n₀ n₁ p₀ p₁ p₂ p₃ x₀ x₁ : Word) :
    Challenge.ofFrame h [i₀, n₀, n₁, p₀, p₁, p₂, p₃, x₀, x₁] = ⟨0#32 ++ i₀, n₁ ++ n₀, ⟨p₀, p₁, p₂, p₃⟩⟩ := by
  simp only [Challenge.ofFrame, Header.identity, Header.body, Header.extended_of_short short, Bool.false_eq_true, if_false]
  rfl

theorem Challenge.ofFrame_extended {h : Header} (form : h.form = 1) (i₀ i₁ n₀ n₁ p₀ p₁ p₂ p₃ x₀ x₁ : Word) :
    Challenge.ofFrame h [i₀, i₁, n₀, n₁, p₀, p₁, p₂, p₃, x₀, x₁] = ⟨i₁ ++ i₀, n₁ ++ n₀, ⟨p₀, p₁, p₂, p₃⟩⟩ := by
  simp only [Challenge.ofFrame, Header.identity, Header.body, Header.extended_of_form form, if_true]
  rfl

/-! ## The take of a frame -/

namespace State

theorem takeFrame_inbound {s : State} {r : SlotRef} {h : Header} (header : (s.inSlot r).header = some h) (buffer : List Word) :
    s.takeFrame .inbound r buffer = s.takeInbound h r buffer := by
  simp only [takeFrame, slotHeader, header]

theorem takeFrame_outbound {s : State} {r : SlotRef} {h : Header} (header : (s.outSlot r).state.header = some h)
    (buffer : List Word) : s.takeFrame .outbound r buffer = s.takeOutbound h r buffer := by
  simp only [takeFrame, slotHeader, header]

/-- R8, R40: a MALFORMED inbound frame is reported. -/
theorem takeInbound_malformed {h : Header} {buffer : List Word} (bad : h.malformedAtTake buffer = true) (r : SlotRef)
    (s : State) : s.takeInbound h r buffer = s.reportInbound h r (s.notice .malformed r none none none) := by
  rw [takeInbound, if_pos bad]

theorem takeInbound_announce {h : Header} {buffer : List Word} (good : h.malformedAtTake buffer = false) (kind : h.kind = 1)
    (r : SlotRef) (s : State) : s.takeInbound h r buffer = s.takeAnnounce h r (Announce.ofFrame h buffer) := by
  have announce : h.isAnnounce = true := by rw [Header.isAnnounce, kind]; rfl
  rw [takeInbound, if_neg (Bool.eq_false_iff.mp good), if_pos announce]

theorem takeInbound_confirm {h : Header} {buffer : List Word} (good : h.malformedAtTake buffer = false) (kind : h.kind = 2)
    (r : SlotRef) (s : State) : s.takeInbound h r buffer = s.takeConfirm h r (Confirm.ofFrame h buffer) := by
  have other : h.isAnnounce = false := by rw [Header.isAnnounce, kind]; rfl
  rw [takeInbound, if_neg (Bool.eq_false_iff.mp good), if_neg (Bool.eq_false_iff.mp other)]

/-- R8, R46: a MALFORMED outbound frame is spoiled. -/
theorem takeOutbound_malformed {h : Header} {buffer : List Word} (bad : h.malformedAtTake buffer = true) (r : SlotRef)
    (s : State) : s.takeOutbound h r buffer = s.spoil r (s.notice .malformed r none none none) := by
  rw [takeOutbound, if_pos bad]

theorem takeOutbound_challenge {h : Header} {buffer : List Word} (good : h.malformedAtTake buffer = false) (r : SlotRef)
    (s : State) : s.takeOutbound h r buffer = s.takeChallenge h r (Challenge.ofFrame h buffer) := by
  rw [takeOutbound, if_neg (Bool.eq_false_iff.mp good)]

end State

/-- Settles O19: a word by the job it belongs to and by whether it is the last, a frame by its kind and form. -/
theorem agentWordContinuesOrEndsTheJob : Obligations.AgentWordContinuesOrEndsTheJob := by
  unfold Obligations.AgentWordContinuesOrEndsTheJob
  refine ⟨fun s r h => ⟨State.jobEnd_inbound, State.jobEnd_outbound, rfl⟩, fun s w busy => ?word,
    fun s r h rest i₀ i₁ n₀ n₁ counter p₀ p₁ p₂ p₃ x₀ x₁ flags generation issuer => ?take⟩
  case word =>
    refine ⟨fun dead read => congrArg Host.Outcome.next (State.agentWordComplete_discards busy dead read),
      fun data dead write canonical => ?lands, fun k j rest live current head => ⟨fun read more => ?continues,
        fun ring r read last job => ?frame, fun read last job => ?image, fun data place record canonical write job => ?record⟩⟩
    case lands =>
      have landed := State.agentWordComplete_lands busy dead write
      refine ⟨s.agentWordComplete, rfl, ?_, ?_⟩
      · rw [landed]; exact Memory.read_store_word canonical ..
      · rw [landed]
    case continues =>
      exact congrArg Host.Outcome.next (State.agentWordComplete_reads_on busy live read current head more)
    case frame =>
      subst job
      show Host.Outcome.next s.agentWordComplete = _
      rw [State.agentWordComplete_reads_last busy live read current head last, State.endJob_fetchFrame]
    case image =>
      subst job
      show Host.Outcome.next s.agentWordComplete = _
      rw [State.agentWordComplete_reads_last busy live read current head last, State.endJob_fetchSetup]
    case record =>
      subst job
      have mem : s.agentWordComplete.mem = s.mem.store w.word .word data := by
        rw [State.agentWordComplete_writes busy live write, State.mem_advanceJob]
      refine ⟨s.agentWordComplete, rfl, ?_, fun more => ?_, fun last => ?_⟩
      · show (∀ i, i < 4 → s.agentWordComplete.mem.read _ = _) ∧ ∀ b, _ → s.agentWordComplete.mem.read b = _
        rw [mem]; exact Memory.read_store_word canonical ..
      · rw [mem, State.agentWordComplete_writes_on busy live write current head more, List.append_nil]
      · rw [mem, State.agentWordComplete_writes_last busy live write current head last, State.endJob_writeReport]
  case take =>
    have zeroIsBad : ((0 : Word) == 0) = true := rfl
    have otherIsGood : i₁ ≠ 0 → (i₁ == 0) = false := beq_eq_false_iff_ne.mpr
    refine ⟨fun header => ⟨fun form => ?_, fun kind short => ?_, fun kind form good => ?_, fun kind short => ?_,
      fun kind form good => ?_⟩, fun header => ⟨fun form => ?_, fun short => ?_, fun form good => ?_⟩⟩
    · rw [State.takeFrame_inbound header,
        State.takeInbound_malformed ((Header.malformedAtTake_extended form ..).trans zeroIsBad), State.reportInbound]
    · rw [State.takeFrame_inbound header, State.takeInbound_announce (Header.malformedAtTake_short short _) kind,
        Announce.ofFrame_short short]
    · rw [State.takeFrame_inbound header,
        State.takeInbound_announce ((Header.malformedAtTake_extended form ..).trans (otherIsGood good)) kind,
        Announce.ofFrame_extended form]
    · rw [State.takeFrame_inbound header, State.takeInbound_confirm (Header.malformedAtTake_short short _) kind,
        Confirm.ofFrame_short short]
    · rw [State.takeFrame_inbound header,
        State.takeInbound_confirm ((Header.malformedAtTake_extended form ..).trans (otherIsGood good)) kind,
        Confirm.ofFrame_extended form]
    · rw [State.takeFrame_outbound header,
        State.takeOutbound_malformed ((Header.malformedAtTake_extended form ..).trans zeroIsBad)]
    · rw [State.takeFrame_outbound header, State.takeOutbound_challenge (Header.malformedAtTake_short short _),
        Challenge.ofFrame_short short]
    · rw [State.takeFrame_outbound header,
        State.takeOutbound_challenge ((Header.malformedAtTake_extended form ..).trans (otherIsGood good)),
        Challenge.ofFrame_extended form]

end Sys2Proof.Machine
end

section
/-! PROOF of MrestRefusesAndRewinds: the refusal that MREST gives on a port, what it leaves of the ports, the refusal record and
the causes in either order, and the bytes of memory that a failed word may change. -/

namespace Sys2Proof.Machine

/-! ## What a refusal leaves -/

/-- A refusal kind and the byte address of the refused access. -/
abbrev Refused := RefusalKind × BitVec 22

/-- R30: the refusal that MREST gives on a port of an operating part, none for a port whose access stays. -/
def State.restRefusal (s : State) (p : Port) : Option Refused :=
  match (s.port p).access with
  | none => none
  | some x =>
    match x.phase with
    | .wake => none
    | .waiting track => some ((s.judgeTracked x.access track).getD .memoryResting, x.access.address)
    | .inFlight _ => some (.memoryResting, x.access.address)
    | .codeHeld => none

/-- R23: the refusal record after a refusal, if there is one. -/
def Path.refused (p : Port) (r : Option Refused) (x : Path) : Path :=
  match r with
  | none => x
  | some (kind, address) => ⟨x.count + 1, some p, some kind, address⟩

/-- R23: the causes after a refusal, if there is one. -/
def Control.refused (r : Option Refused) (x : Control) : Control :=
  match r with
  | none => x
  | some _ => { x with raised := x.raised ||| 8 }

/-- R21: the port after a refusal, if there is one. -/
def PortState.refused (r : Option Refused) (x : PortState) : PortState :=
  match r with
  | none => x
  | some _ => ⟨none, some .error⟩

/-- Two refusals raise what one does. -/
theorem Control.refused_refused (r r' : Refused) (x : Control) :
    (x.refused (some r)).refused (some r') = { x with raised := x.raised ||| 8 } := by
  simp only [Control.refused, BitVec.or_assoc, BitVec.or_self]

/-- R23: of two refusals the record holds the second and has counted both. -/
theorem Path.refused_refused (p q : Port) (r : Refused) (kind : RefusalKind) (address : BitVec 22) (x : Path) :
    (x.refused p (some r)).refused q (some (kind, address)) = ⟨x.count + 2, some q, some kind, address⟩ := by
  simp only [Path.refused, count_add_two]

/-- Log 11: the port an order serves first, and the one it serves second. -/
def Order.first (o : Order) : Port :=
  match o with
  | .cFirst => .c
  | .rFirst => .r

def Order.second (o : Order) : Port :=
  match o with
  | .cFirst => .r
  | .rFirst => .c

theorem Order.second_ne_first (o : Order) : Order.second o ≠ Order.first o := by cases o <;> decide

theorem Order.eq_first_or_second (o : Order) (p : Port) : p = Order.first o ∨ p = Order.second o := by
  cases o <;> cases p <;> decide

namespace State

/-! ## The refusal on a port -/

theorem restRefusal_stays {s : State} {p : Port}
    (stays : ∀ x, (s.port p).access = some x → x.phase = .wake ∨ x.phase = .codeHeld) : s.restRefusal p = none := by
  unfold restRefusal
  split
  · rfl
  · next x access =>
    rcases stays x access with phase | phase <;> rw [phase]

theorem restRefusal_waiting {s : State} {p : Port} {x : Outstanding} {track : Option SlotWord}
    (access : (s.port p).access = some x) (phase : x.phase = .waiting track) :
    s.restRefusal p = some ((s.judgeTracked x.access track).getD .memoryResting, x.access.address) := by
  simp only [restRefusal, access, phase]

theorem restRefusal_inFlight {s : State} {p : Port} {x : Outstanding} {judged : Option Judged}
    (access : (s.port p).access = some x) (phase : x.phase = .inFlight judged) :
    s.restRefusal p = some (.memoryResting, x.access.address) := by
  simp only [restRefusal, access, phase]

theorem failInFlight_form (a : Access) (s : State) :
    ∃ mem fresh, s.failInFlight a = { s with arbiter := none, mem := mem, fresh := fresh } := by
  unfold failInFlight; split
  · exact ⟨_, _, rfl⟩
  · exact ⟨s.mem, s.fresh, rfl⟩

theorem restPort_of_none {s : State} {p : Port} (stays : s.restRefusal p = none) : s.restPort p = s := by
  unfold restRefusal at stays
  unfold restPort
  split
  · next access => rw [access] at stays; cases stays
  · next access => rw [access] at stays; cases stays
  · rfl

/-- R30: a refused access is refused in the state that its failed word, if it had one in flight, leaves. -/
theorem restPort_of_some {s : State} {p : Port} {kind : RefusalKind} {address : BitVec 22}
    (refused : s.restRefusal p = some (kind, address)) :
    ∃ arbiter mem fresh,
      s.restPort p = ({ s with arbiter := arbiter, mem := mem, fresh := fresh } : State).refuse p kind address := by
  unfold restRefusal at refused
  unfold restPort
  split
  · next access =>
    rw [access] at refused; cases refused
    exact ⟨s.arbiter, s.mem, s.fresh, rfl⟩
  · next a judged since access =>
    rw [access] at refused; cases refused
    obtain ⟨mem, fresh, failed⟩ := failInFlight_form a s
    exact ⟨none, mem, fresh, by rw [failed]⟩
  · next notWaiting notInFlight =>
    rcases access : (s.port p).access with _ | ⟨a, phase, since⟩
    · rw [access] at refused; cases refused
    · rw [access] at refused
      cases phase with
      | wake | codeHeld => cases refused
      | waiting track => exact (notWaiting _ _ _ access).elim
      | inFlight judged => exact (notInFlight _ _ _ access).elim

/-! ## MREST at one port -/

theorem path_restPort (p : Port) (s : State) : (s.restPort p).path = s.path.refused p (s.restRefusal p) := by
  rcases refused : s.restRefusal p with _ | ⟨kind, address⟩
  · rw [restPort_of_none refused]; rfl
  · obtain ⟨arbiter, mem, fresh, form⟩ := restPort_of_some refused
    rw [form, path_refuse]; rfl

theorem control_restPort (p : Port) (s : State) : (s.restPort p).control = s.control.refused (s.restRefusal p) := by
  rcases refused : s.restRefusal p with _ | ⟨kind, address⟩
  · rw [restPort_of_none refused]; rfl
  · obtain ⟨arbiter, mem, fresh, form⟩ := restPort_of_some refused
    rw [form, control_refuse]; rfl

theorem port_restPort_self (p : Port) (s : State) : (s.restPort p).port p = (s.port p).refused (s.restRefusal p) := by
  rcases refused : s.restRefusal p with _ | ⟨kind, address⟩
  · rw [restPort_of_none refused]; rfl
  · obtain ⟨arbiter, mem, fresh, form⟩ := restPort_of_some refused
    rw [form, port_refuse_self]; rfl

theorem port_restPort_ne {p q : Port} (h : q ≠ p) (s : State) : (s.restPort p).port q = s.port q := by
  rcases refused : s.restRefusal p with _ | ⟨kind, address⟩
  · rw [restPort_of_none refused]
  · obtain ⟨arbiter, mem, fresh, form⟩ := restPort_of_some refused
    rw [form, port_refuse_ne h]; rfl

/-- R18: MREST at one port leaves what the slot tracker judges the other port's access by. -/
theorem restRefusal_restPort_ne {p q : Port} (h : q ≠ p) (s : State) : (s.restPort p).restRefusal q = s.restRefusal q := by
  have judge : ∀ a track, (s.restPort p).judgeTracked a track = s.judgeTracked a track := by
    obtain ⟨ports, path, raised, arbiter, mem, fresh, form⟩ := restPort_form p s
    rw [form]; exact fun _ _ => rfl
  simp only [restRefusal, port_restPort_ne h, judge]

/-! ## MREST at both ports -/

theorem restPorts_eq (o : Order) (s : State) : s.restPorts o = (s.restPort (Order.first o)).restPort (Order.second o) := by
  cases o <;> rfl

theorem path_restPorts (o : Order) (s : State) :
    (s.restPorts o).path = (s.path.refused (Order.first o) (s.restRefusal (Order.first o))).refused (Order.second o)
      (s.restRefusal (Order.second o)) := by
  rw [restPorts_eq, path_restPort, path_restPort, restRefusal_restPort_ne (Order.second_ne_first o)]

theorem control_restPorts (o : Order) (s : State) :
    (s.restPorts o).control =
      (s.control.refused (s.restRefusal (Order.first o))).refused (s.restRefusal (Order.second o)) := by
  rw [restPorts_eq, control_restPort, control_restPort, restRefusal_restPort_ne (Order.second_ne_first o)]

theorem port_restPorts (o : Order) (p : Port) (s : State) :
    (s.restPorts o).port p = (s.port p).refused (s.restRefusal p) := by
  have other := Order.second_ne_first o
  rw [restPorts_eq]
  rcases Order.eq_first_or_second o p with rfl | rfl
  · rw [port_restPort_ne other.symm, port_restPort_self]
  · rw [port_restPort_self, port_restPort_ne other, restRefusal_restPort_ne other]

/-- R23: with one access refused the record is its refusal's, whatever the order. -/
theorem restPorts_one {s : State} {p q : Port} {kind : RefusalKind} {address : BitVec 22} (other : q ≠ p)
    (stays : s.restRefusal q = none) (refused : s.restRefusal p = some (kind, address)) (o : Order) :
    (s.restPorts o).path = ⟨s.path.count + 1, some p, some kind, address⟩
      ∧ (s.restPorts o).control = { s.control with raised := s.control.raised ||| 8 } := by
  rw [path_restPorts, control_restPorts]
  rcases Order.eq_first_or_second o p with rfl | rfl
  · have second : q = Order.second o := (Order.eq_first_or_second o q).resolve_left other
    rw [← second, stays, refused]; exact ⟨rfl, rfl⟩
  · have first : q = Order.first o := (Order.eq_first_or_second o q).resolve_right other
    rw [← first, stays, refused]; exact ⟨rfl, rfl⟩

end State

/-! ## Memory -/

/-- R17, R30: byte `b` is named by a write in flight on the port. -/
def PortState.writes (x : PortState) (b : Nat) : Prop :=
  ∃ o judged, x.access = some o ∧ o.phase = .inFlight judged ∧ o.access.write = true
    ∧ 4 * o.access.word.toNat + o.access.size.offset ≤ b
    ∧ b < 4 * o.access.word.toNat + o.access.size.offset + o.access.size.bytes

/-- Log 24: byte `b` is named by a word of the agent in flight that writes. -/
def agentWrites (x : Option InFlight) (b : Nat) : Prop :=
  ∃ w data, x = some (.agent w) ∧ w.write = some data ∧ 4 * w.word.toNat ≤ b ∧ b < 4 * w.word.toNat + 4

/-- From `s` to `t` canonical memory stays canonical, and of its bytes only those in `named` may change. -/
def State.SpoilsBytes (named : Nat → Prop) (s t : State) : Prop :=
  Memory.wf s.mem → Memory.wf t.mem ∧ ∀ b, ¬ named b → t.mem.read b = s.mem.read b

namespace State

theorem SpoilsBytes.of_mem {named : Nat → Prop} {s t : State} (same : t.mem = s.mem) : SpoilsBytes named s t :=
  fun canonical => ⟨same ▸ canonical, fun b _ => by rw [same]⟩

theorem SpoilsBytes.trans {named : Nat → Prop} {s t u : State} (h : SpoilsBytes named s t) (g : SpoilsBytes named t u) :
    SpoilsBytes named s u := fun canonical =>
  have ⟨canonical', read⟩ := h canonical
  have ⟨canonical'', read'⟩ := g canonical'
  ⟨canonical'', fun b hb => (read' b hb).trans (read b hb)⟩

theorem SpoilsBytes.mono {named named' : Nat → Prop} {s t : State} (h : SpoilsBytes named s t)
    (more : ∀ b, named b → named' b) : SpoilsBytes named' s t := fun canonical =>
  have ⟨canonical', read⟩ := h canonical
  ⟨canonical', fun b hb => read b fun hn => hb (more b hn)⟩

/-- R17: a word access that fails in flight on a port. -/
theorem spoilsBytes_failInFlight {s : State} {p : Port} {a : Access} {judged : Option Judged} {since : Bool}
    (access : (s.port p).access = some ⟨a, .inFlight judged, since⟩) :
    SpoilsBytes (s.port p).writes s (s.failInFlight a) := fun canonical =>
  have ⟨canonical', read⟩ := read_failInFlight canonical ⟨a, .inFlight judged, since⟩
  ⟨canonical', fun b hb => read b fun ⟨write, low, high⟩ => hb ⟨_, judged, access, rfl, write, low, high⟩⟩

theorem spoilsBytes_restPort (p : Port) (s : State) : SpoilsBytes (s.port p).writes s (s.restPort p) := by
  unfold restPort
  split
  · exact .of_mem (mem_refuse ..)
  · next access => exact (spoilsBytes_failInFlight access).trans (.of_mem (mem_refuse ..))
  · exact .of_mem rfl

theorem spoilsBytes_retryPort (p : Port) (s : State) : SpoilsBytes (s.port p).writes s (s.retryPort p) := by
  unfold retryPort
  split
  · next access => exact (spoilsBytes_failInFlight access).trans (.of_mem (mem_hold ..))
  · exact .of_mem rfl

/-- Log 24: a word of the agent that fails in flight. -/
theorem spoilsBytes_failAgentWord (s : State) : SpoilsBytes (agentWrites s.arbiter) s s.failAgentWord := by
  unfold failAgentWord
  split
  · next w busy =>
    split
    · next write =>
      obtain ⟨data, write⟩ := Option.isSome_iff_exists.mp write
      intro canonical
      refine ⟨Memory.wf_spoilMemory (s := s.freePort) canonical .., fun b hb => ?_⟩
      have read := Memory.read_writeBytes canonical w.word (fun i => Config.freeByte (s.fresh + i)) (Memory.size_bound .word) b
      exact read.trans (if_neg fun ⟨low, high⟩ => hb ⟨w, data, busy, write, low, high⟩)
    · exact .of_mem rfl
  · exact .of_mem rfl

/-- The bytes that MREST may change, of the accesses and of the agent's word in flight. -/
def writing (s : State) (b : Nat) : Prop := (∃ p, (s.port p).writes b) ∨ agentWrites s.arbiter b

theorem restPort_unflown {s : State} {p : Port} (idle : ∀ x judged, (s.port p).access = some x → x.phase ≠ .inFlight judged) :
    (s.restPort p).mem = s.mem ∧ (s.restPort p).arbiter = s.arbiter := by
  unfold restPort
  split
  · exact ⟨mem_refuse .., arbiter_refuse ..⟩
  · next access => exact absurd rfl (idle _ _ access)
  · exact ⟨rfl, rfl⟩

/-- R30: an access that fails in flight frees the memory port; nothing else is done to it. -/
theorem arbiter_restPort (p : Port) (s : State) : (s.restPort p).arbiter = none ∨ (s.restPort p).arbiter = s.arbiter := by
  unfold restPort
  split
  · exact .inr (arbiter_refuse ..)
  · next a _ _ _ =>
    obtain ⟨mem, fresh, failed⟩ := failInFlight_form a s
    rw [failed]; exact .inl (arbiter_refuse ..)
  · exact .inr rfl

theorem arbiter_retryPort (p : Port) (s : State) : (s.retryPort p).arbiter = none ∨ (s.retryPort p).arbiter = s.arbiter := by
  unfold retryPort
  split
  · next a _ _ _ =>
    obtain ⟨mem, fresh, failed⟩ := failInFlight_form a s
    rw [failed]; exact .inl (arbiter_hold ..)
  · exact .inr rfl

theorem agentWrites_of_freed {x y : Option InFlight} (freed : y = none ∨ y = x) {b : Nat} (h : agentWrites y b) :
    agentWrites x b := by
  rcases freed with rfl | rfl
  · obtain ⟨w, _, none, _⟩ := h; cases none
  · exact h

/-- Two ports served one after the other, then the agent's word, spoil no byte but those in flight before. -/
theorem spoilsBytes_served {p q : Port} {s t u : State} (first : SpoilsBytes (s.port p).writes s t)
    (second : SpoilsBytes (t.port q).writes t u) (port : t.port q = s.port q)
    (freed : t.arbiter = none ∨ t.arbiter = s.arbiter) (freed' : u.arbiter = none ∨ u.arbiter = t.arbiter) :
    SpoilsBytes s.writing s u.failAgentWord := by
  have agent : ∀ b, agentWrites u.arbiter b → s.writing b :=
    fun b h => .inr (agentWrites_of_freed freed (agentWrites_of_freed freed' h))
  rw [port] at second
  exact ((first.mono fun b h => .inl ⟨p, h⟩).trans (second.mono fun b h => .inl ⟨q, h⟩)).trans
    ((spoilsBytes_failAgentWord u).mono agent)

theorem failAgentWord_idle {s : State} (free : s.arbiter = none) : s.failAgentWord.mem = s.mem := by
  simp only [failAgentWord, free]; rfl

/-! ## The assertion at an operating part -/

theorem rewindJob_current {s : State} {k : Nat} {j : Job} {rest : List Job} (current : s.agent.position = some k)
    (head : s.agent.jobs = j :: rest) : s.rewindJob.agent = ⟨s.agent.jobs, some j.firstWord, []⟩ := by
  simp only [rewindJob, current, head]; rfl

theorem rewindJob_idle {s : State} (idle : s.agent.position = none) : s.rewindJob = s := by
  simp only [rewindJob, idle]

theorem rewindJob_form (s : State) : ∃ agent, s.rewindJob = { s with agent := agent } := by
  unfold rewindJob; split
  · exact ⟨_, rfl⟩
  · exact ⟨s.agent, rfl⟩

/-- R30, R31: what MREST makes of an operating part, before the part may sleep again. -/
def rested (o : Order) (s : State) : State := (((s.setMrest true).restPorts o).failAgentWord).rewindJob

theorem mrestAssert_on {s : State} (released : s.controller.lines.mrest = false) (on : s.controller.power = .on) (o : Order) :
    s.mrestAssert o = (s.rested o).relax := by
  have power : (s.setMrest true).controller.power = .on := on
  simp only [mrestAssert, released, Bool.false_eq_true, if_false, power]; rfl

/-- R30, R31: the agent's word and job change nothing that the ports' refusals change but memory. -/
theorem rested_of_restPorts (o : Order) (s : State) : ∃ mem fresh agent,
    s.rested o = { (s.setMrest true).restPorts o with arbiter := none, mem := mem, fresh := fresh, agent := agent } := by
  obtain ⟨mem, fresh, failed⟩ := ((s.setMrest true).restPorts o).failAgentWord_form
  obtain ⟨agent, rewound⟩ := (((s.setMrest true).restPorts o).failAgentWord).rewindJob_form
  exact ⟨mem, fresh, agent, rewound.trans (by rw [failed])⟩

theorem rested_form (o : Order) (s : State) : ∃ ports path raised mem fresh agent, s.rested o = { s with
    controller := { s.controller with lines := { s.controller.lines with mrest := true } }
    ports := ports, path := path, control := { s.control with raised := raised }, arbiter := none
    mem := mem, fresh := fresh, agent := agent } := by
  obtain ⟨mem, fresh, agent, form⟩ := rested_of_restPorts o s
  obtain ⟨ports, path, raised, _, _, _, served⟩ := restPorts_form o (s.setMrest true)
  exact ⟨ports, path, raised, mem, fresh, agent, form.trans (by rw [served]; rfl)⟩

theorem path_rested (o : Order) (s : State) : (s.rested o).path = ((s.setMrest true).restPorts o).path := by
  obtain ⟨mem, fresh, agent, form⟩ := rested_of_restPorts o s
  rw [form]

theorem control_rested (o : Order) (s : State) : (s.rested o).control = ((s.setMrest true).restPorts o).control := by
  obtain ⟨mem, fresh, agent, form⟩ := rested_of_restPorts o s
  rw [form]

theorem port_rested (o : Order) (p : Port) (s : State) : (s.rested o).port p = (s.port p).refused (s.restRefusal p) := by
  obtain ⟨mem, fresh, agent, form⟩ := rested_of_restPorts o s
  have served : (s.rested o).port p = ((s.setMrest true).restPorts o).port p := by rw [form]; rfl
  exact served.trans (port_restPorts o p (s.setMrest true))

theorem agent_rested (o : Order) (s : State) :
    (∀ k j rest, s.agent.position = some k → s.agent.jobs = j :: rest →
        (s.rested o).agent = ⟨s.agent.jobs, some j.firstWord, []⟩)
      ∧ (s.agent.position = none → (s.rested o).agent = s.agent) := by
  have agent : (((s.setMrest true).restPorts o).failAgentWord).agent = s.agent := by
    obtain ⟨mem, fresh, failed⟩ := ((s.setMrest true).restPorts o).failAgentWord_form
    obtain ⟨ports, path, raised, _, _, _, served⟩ := restPorts_form o (s.setMrest true)
    rw [failed, served]; rfl
  refine ⟨fun k j rest current head => ?_, fun idle => ?_⟩
  · rw [rested, rewindJob_current (agent ▸ current) (agent ▸ head), agent]
  · rw [rested, rewindJob_idle (agent ▸ idle), agent]

/-- R17, log 24: the bytes that MREST may change. -/
theorem spoilsBytes_rested (o : Order) (s : State) : SpoilsBytes s.writing s (s.rested o) := by
  have other := Order.second_ne_first o
  have served := spoilsBytes_served (spoilsBytes_restPort (Order.first o) (s.setMrest true))
    (spoilsBytes_restPort (Order.second o) _) (port_restPort_ne other _) (arbiter_restPort ..) (arbiter_restPort ..)
  rw [← restPorts_eq] at served
  exact SpoilsBytes.trans (t := ((s.setMrest true).restPorts o).failAgentWord) served (.of_mem (frame_rewindJob _).mem)

theorem mem_rested_unflown {s : State} (free : s.arbiter = none)
    (idle : ∀ p x judged, (s.port p).access = some x → x.phase ≠ .inFlight judged) (o : Order) :
    (s.rested o).mem = s.mem := by
  obtain ⟨mem, arbiter⟩ := restPort_unflown (s := s.setMrest true) (idle (Order.first o))
  have port := port_restPort_ne (Order.second_ne_first o) (s.setMrest true)
  obtain ⟨mem', arbiter'⟩ := restPort_unflown (s := (s.setMrest true).restPort (Order.first o)) (p := Order.second o)
    (by rw [port]; exact idle (Order.second o))
  rw [rested, (frame_rewindJob _).mem, restPorts_eq, failAgentWord_idle ((arbiter'.trans arbiter).trans free), mem', mem]
  rfl

/-! ## The assertion under RESET -/

end State

/-- R165, log 19: a port whose access was in flight, its access waiting again. -/
def PortState.retried (x : PortState) : PortState :=
  match x.access with
  | none => x
  | some o =>
    match o.phase with
    | .wake => x
    | .waiting _ => x
    | .inFlight _ => ⟨some ⟨o.access, .waiting none, false⟩, x.response⟩
    | .codeHeld => x

theorem PortState.retried_inFlight {x : PortState} {o : Outstanding} {judged : Option Judged} (access : x.access = some o)
    (phase : o.phase = .inFlight judged) : x.retried = ⟨some ⟨o.access, .waiting none, false⟩, x.response⟩ := by
  simp only [retried, access, phase]

theorem PortState.retried_other {x : PortState} (idle : ∀ o judged, x.access = some o → o.phase ≠ .inFlight judged) :
    x.retried = x := by
  unfold retried
  split
  · rfl
  · next o access =>
    split
    · rfl
    · rfl
    · next judged phase => exact absurd phase (idle o judged access)
    · rfl

namespace State

theorem port_retryPort_self (p : Port) (s : State) : (s.retryPort p).port p = (s.port p).retried := by
  obtain ⟨arbiter, mem, fresh, port, form, again, idle⟩ := retryPort_spec p s
  rw [form, port_setPort_self]
  by_cases flying : ∃ x judged, (s.port p).access = some x ∧ x.phase = .inFlight judged
  · obtain ⟨x, judged, access, phase⟩ := flying
    rw [again x judged access phase, PortState.retried_inFlight access phase]
  · have other : ∀ x judged, (s.port p).access = some x → x.phase ≠ .inFlight judged :=
      fun x judged access phase => flying ⟨x, judged, access, phase⟩
    rw [(idle other).1, PortState.retried_other other]

theorem port_retryPort_ne {p q : Port} (h : q ≠ p) (s : State) : (s.retryPort p).port q = s.port q := by
  obtain ⟨arbiter, mem, fresh, port, form, -⟩ := retryPort_spec p s
  rw [form, port_setPort_ne h]; rfl

theorem retryPort_form (p : Port) (s : State) : ∃ ports arbiter mem fresh,
    s.retryPort p = { s with ports := ports, arbiter := arbiter, mem := mem, fresh := fresh } := by
  obtain ⟨arbiter, mem, fresh, port, form, -⟩ := retryPort_spec p s
  rw [form]
  cases p <;> exact ⟨_, _, _, _, rfl⟩

theorem retryPort_unflown {s : State} {p : Port} (idle : ∀ x judged, (s.port p).access = some x → x.phase ≠ .inFlight judged) :
    (s.retryPort p).mem = s.mem ∧ (s.retryPort p).arbiter = s.arbiter := by
  obtain ⟨arbiter, mem, fresh, port, form, -, kept⟩ := retryPort_spec p s
  obtain ⟨-, sameMem, sameArbiter⟩ := kept idle
  rw [form, mem_setPort, arbiter_setPort]
  exact ⟨sameMem, sameArbiter⟩

/-- R165: what MREST makes of a part while RESET is asserted. -/
def retried (s : State) : State := (((s.setMrest true).retryPort .c).retryPort .r).failAgentWord

theorem mrestAssert_inReset {s : State} (released : s.controller.lines.mrest = false)
    (reset : s.controller.power = .inReset) (o : Order) : s.mrestAssert o = s.retried := by
  have power : (s.setMrest true).controller.power = .inReset := reset
  simp only [mrestAssert, released, Bool.false_eq_true, if_false, power]; rfl

theorem retried_form (s : State) : ∃ ports mem fresh, s.retried = { s with
    controller := { s.controller with lines := { s.controller.lines with mrest := true } }
    ports := ports, arbiter := none, mem := mem, fresh := fresh } := by
  obtain ⟨_, _, _, _, first⟩ := retryPort_form .c (s.setMrest true)
  obtain ⟨ports, _, _, _, second⟩ := retryPort_form .r ((s.setMrest true).retryPort .c)
  obtain ⟨mem, fresh, failed⟩ := (((s.setMrest true).retryPort .c).retryPort .r).failAgentWord_form
  exact ⟨ports, mem, fresh, failed.trans (by rw [second, first]; rfl)⟩

theorem port_retried (p : Port) (s : State) : s.retried.port p = (s.port p).retried := by
  obtain ⟨mem, fresh, failed⟩ := (((s.setMrest true).retryPort .c).retryPort .r).failAgentWord_form
  have served : s.retried.port p = (((s.setMrest true).retryPort .c).retryPort .r).port p := by
    rw [retried, failed]; rfl
  rw [served]
  cases p with
  | c => rw [port_retryPort_ne (by decide), port_retryPort_self]; rfl
  | r => rw [port_retryPort_self, port_retryPort_ne (by decide)]; rfl

theorem spoilsBytes_retried (s : State) : SpoilsBytes s.writing s s.retried :=
  spoilsBytes_served (s := s.setMrest true) (spoilsBytes_retryPort .c _) (spoilsBytes_retryPort .r _)
    (port_retryPort_ne (by decide) _) (arbiter_retryPort ..) (arbiter_retryPort ..)

theorem mem_retried_unflown {s : State} (free : s.arbiter = none)
    (idle : ∀ p x judged, (s.port p).access = some x → x.phase ≠ .inFlight judged) : s.retried.mem = s.mem := by
  obtain ⟨mem, arbiter⟩ := retryPort_unflown (s := s.setMrest true) (p := .c) (idle .c)
  have port : ((s.setMrest true).retryPort .c).port .r = s.port .r := port_retryPort_ne (by decide) _
  obtain ⟨mem', arbiter'⟩ := retryPort_unflown (s := (s.setMrest true).retryPort .c) (p := .r) (by rw [port]; exact idle .r)
  rw [retried, failAgentWord_idle ((arbiter'.trans arbiter).trans free), mem', mem]
  rfl

theorem mrestAssert_off {s : State} (released : s.controller.lines.mrest = false) (off : s.controller.power = .off)
    (o : Order) : s.mrestAssert o = s.setMrest true := by
  have power : (s.setMrest true).controller.power = .off := off
  simp only [mrestAssert, released, Bool.false_eq_true, if_false, power]

end State

/-- Settles O20, by the power: the refusals port by port and in their order, the bytes in flight, the rewound job; the retried
accesses; the line alone. -/
theorem mrestRefusesAndRewinds : Obligations.MrestRefusesAndRewinds := by
  unfold Obligations.MrestRefusesAndRewinds
  intro s o released written refused stays
  have kept : ∀ p, stays p → s.restRefusal p = none := fun p => State.restRefusal_stays
  have refusal : ∀ p kind address, refused p kind address → s.restRefusal p = some (kind, address) := by
    rintro p kind _ ⟨x, access, rfl, ⟨track, phase, rfl⟩ | ⟨judged, phase, rfl⟩⟩
    · exact State.restRefusal_waiting access phase
    · exact State.restRefusal_inFlight access phase
  have named : ∀ b, s.writing b → written b := by
    rintro b (⟨p, x, judged, write⟩ | agent)
    · exact .inl ⟨p, x, judged, write⟩
    · exact .inr agent
  refine ⟨fun on => ?operating, fun reset => ?inReset, fun off => ?off⟩
  case operating =>
    obtain ⟨ports, path, raised, mem, fresh, agent, form⟩ := s.rested_form o
    have port := fun p => s.port_rested o p
    obtain ⟨rewound, resting⟩ := s.agent_rested o
    refine ⟨s.rested o, congrArg Host.Outcome.next (State.mrestAssert_on released on o), by rw [form],
      fun canonical b unnamed => (s.spoilsBytes_rested o canonical).2 b fun h => unnamed (named b h),
      fun p x access phase => ?_, fun p x track access phase => ?_, fun p x judged access phase => ?_, fun c r => ?_,
      fun p q kind address other staysQ refusedP => ?_, fun kind address kind' address' c r => ?_, fun p free => ?_, by rw [form],
      rewound, by rw [form], by rw [form], by rw [form], by rw [form], by rw [form], resting, by rw [form], by rw [form],
      by rw [form], fun free idle => State.mem_rested_unflown free idle o⟩
    · rw [port, kept p fun y hy => by rw [access] at hy; cases hy; exact phase]; rfl
    · rw [port, State.restRefusal_waiting access phase]; rfl
    · rw [port, State.restRefusal_inFlight access phase]; rfl
    · have none : ∀ p, s.restRefusal p = Option.none := fun p => by cases p; exacts [kept .c c, kept .r r]
      have first : (s.setMrest true).restRefusal (Order.first o) = Option.none := none _
      have second : (s.setMrest true).restRefusal (Order.second o) = Option.none := none _
      rw [State.path_rested, State.control_rested, State.path_restPorts, State.control_restPorts, first, second]
      exact ⟨rfl, rfl⟩
    · rw [State.path_rested, State.control_rested]
      exact State.restPorts_one (s := s.setMrest true) other (kept q staysQ) (refusal p kind address refusedP) o
    · have first : (s.setMrest true).restRefusal .c = some (kind, address) := refusal .c kind address c
      have second : (s.setMrest true).restRefusal .r = some (kind', address') := refusal .r kind' address' r
      rw [State.path_rested, State.control_rested, State.path_restPorts, State.control_restPorts]
      cases o with
      | cFirst =>
        rw [Order.first, Order.second, first, second, Path.refused_refused, Control.refused_refused]; exact ⟨rfl, rfl⟩
      | rFirst =>
        rw [Order.first, Order.second, first, second, Path.refused_refused, Control.refused_refused]; exact ⟨rfl, rfl⟩
    · rw [port, kept p fun y hy => by rw [free] at hy; cases hy]; rfl
  case inReset =>
    obtain ⟨ports, mem, fresh, form⟩ := s.retried_form
    refine ⟨s.retried, congrArg Host.Outcome.next (State.mrestAssert_inReset released reset o), by rw [form], by rw [form],
      by rw [form], fun canonical b unnamed => (s.spoilsBytes_retried canonical).2 b fun h => unnamed (named b h),
      State.mem_retried_unflown, fun p x judged access phase => ?_, fun p idle => ?_, by rw [form], by rw [form], by rw [form],
      by rw [form], by rw [form], by rw [form], by rw [form], by rw [form], by rw [form]⟩
    · rw [State.port_retried, PortState.retried_inFlight access phase]
    · rw [State.port_retried, PortState.retried_other idle]
  case off => exact congrArg Host.Outcome.next (State.mrestAssert_off released off o)

end Sys2Proof.Machine
end

section
/-! PROOF of EveryStepKeepsIdleSlotsFree: which operations leave FREE slots FREE, then what the part controller and the setup in
force become, one lemma per operation. -/

namespace Sys2Proof.Machine

/-- R35, R164: the part is UNSET or HALTED, or has no setup, so that it tracks no lane. -/
def Controller.idle (c : Controller) : Prop := c.state = .unset ∨ c.state = .halted ∨ c.setupPresent = false

/-- In a part state in which lanes are tracked, the part tracks none only for want of a setup. -/
theorem Controller.idle_of_tracking {c : Controller} (state : c.state ≠ .unset ∧ c.state ≠ .halted) (idle : c.idle) :
    c.setupPresent = false := by
  rcases idle with unset | halted | absent
  · exact absurd unset state.1
  · exact absurd halted state.2
  · exact absent

namespace State

/-- R34: every slot is FREE. -/
def slotsFree (s : State) : Prop := ∀ r, s.inSlot r = .free ∧ (s.outSlot r).state = .free

/-- R35: without a setup no lane and no report ring is there. -/
def noLanes (s : State) : Prop :=
  s.setup.capacity = 0
    ∧ ∀ n, (s.setup.lanes.get n).enable = false ∧ (s.setup.lanes.get n).inCount = 0 ∧ (s.setup.lanes.get n).outCount = 0

theorem idleSlots_iff (s : State) :
    s.idleSlots ↔ (s.controller.setupPresent = false → s.noLanes) ∧ (s.controller.idle → s.slotsFree) := Iff.rfl

/-! ## Slots that stay FREE -/

/-- From `s` to `t` FREE slots stay FREE. -/
structure KeepsFree (s t : State) : Prop where
  keeps : s.slotsFree → t.slotsFree

theorem KeepsFree.refl (s : State) : s.KeepsFree s := ⟨id⟩

theorem KeepsFree.trans {s t u : State} (h : s.KeepsFree t) (g : t.KeepsFree u) : s.KeepsFree u := ⟨g.keeps ∘ h.keeps⟩

theorem KeepsFree.of_lanes {s t : State} (same : t.slots.lanes = s.slots.lanes) : s.KeepsFree t := by
  refine ⟨fun free r => ?_⟩
  unfold inSlot outSlot
  rw [same]
  exact free r

/-- An operation that does nothing while the slots are FREE. -/
theorem KeepsFree.of_eq {s t : State} (same : s.slotsFree → t = s) : s.KeepsFree t :=
  ⟨fun free => by rw [same free]; exact free⟩

theorem free_setPort (p : Port) (x : PortState) (s : State) : s.KeepsFree (s.setPort p x) := .of_lanes (by rw [slots_setPort])

theorem free_setOutSlot {r : SlotRef} {x : OutSlot} {s : State} (state : s.slotsFree → x.state = .free) :
    s.KeepsFree (s.setOutSlot r x) := by
  refine ⟨fun free q => ?_⟩
  rw [inSlot_setOutSlot, outSlot_setOutSlot]
  refine ⟨(free q).1, ?_⟩
  split
  · exact state free
  · exact (free q).2

theorem free_mapSlots {f : InSlot → InSlot} {g : OutSlot → OutSlot} (inbound : f .free = .free)
    (outbound : ∀ x : OutSlot, x.state = .free → (g x).state = .free) (s : State) : s.KeepsFree (s.mapSlots f g) := by
  refine ⟨fun free q => ?_⟩
  rw [inSlot_mapSlots, outSlot_mapSlots, (free q).1]
  exact ⟨inbound, outbound _ (free q).2⟩

theorem free_ascending {f : Fin 24 → State → State} (step : ∀ c (s : State), s.KeepsFree (f c s)) (s : State) :
    s.KeepsFree (Table.ascending 24 f s) :=
  Table.ascending_keeps (P := fun t => s.KeepsFree t) (fun c t h => h.trans (step c t)) s (KeepsFree.refl s)

theorem free_answerHeld (r : SlotRef) (w : Word) (s : State) : s.KeepsFree (s.answerHeld r w) :=
  ⟨fun free q => by
    rw [(spoils_answerHeld (fun _ => False) r w s).inSlot, outSlot_answerHeld]; exact free q⟩

theorem free_answerHeldInLane (n : Fin 8) (s : State) : s.KeepsFree (s.answerHeldInLane n) := by
  unfold answerHeldInLane; split
  · split
    · exact free_answerHeld ..
    · exact KeepsFree.refl s
  · exact KeepsFree.refl s

/-- A FREE slot has no frame to spoil. -/
theorem free_spoil (r : SlotRef) (report : Report) (s : State) : s.KeepsFree (s.spoil r report) :=
  .of_eq fun free => spoil_of_no_header (by rw [(free r).2]; rfl) report

theorem free_underrun (r : SlotRef) (s : State) : s.KeepsFree (s.underrun r) :=
  .of_eq fun free => by simp only [underrun, (free r).2]

theorem lanes_dropJobs (p : Job → Bool) (s : State) : (s.dropJobs p).slots.lanes = s.slots.lanes := by
  unfold dropJobs; dsimp only; split <;> rfl

theorem free_releaseLane (n : Fin 8) (s : State) : s.KeepsFree (s.releaseLane n) := by
  refine ⟨fun free r => ?_⟩
  have inbound : ((s.slots.lanes.get n).restart.inbound.get r.index) = .free := Table.get_map ..
  have outbound : ((s.slots.lanes.get n).restart.outbound.get r.index)
      = ((s.slots.lanes.get n).outbound.get r.index).release := Table.get_map ..
  unfold releaseLane inSlot outSlot
  rw [lane_setLane]
  split
  · have was : ((s.slots.lanes.get n).outbound.get r.index).state = .free := (free ⟨n, r.index⟩).2
    rw [inbound, outbound]
    unfold OutSlot.release
    refine ⟨rfl, ?_⟩
    split
    · simp only [was, OutState.header]
    · rfl
  · exact free r

/-! ## Contexts -/

theorem free_close (code : PassageCode) (c : Fin 24) (s : State) : s.KeepsFree (s.close code c) := by
  unfold close
  split
  · exact KeepsFree.refl s
  · next x _ =>
    split
    · have spoiled : s.KeepsFree (match x.bound with
          | some r => s.spoil r (s.boundNotice .closedTransaction r c)
          | none => s) := by
        split
        · exact free_spoil ..
        · exact KeepsFree.refl s
      dsimp only
      split <;> exact spoiled.trans (.of_lanes rfl)
    · exact KeepsFree.refl s

theorem free_endClosing (c : Fin 24) (s : State) : s.KeepsFree (s.endClosing c) := .of_lanes rfl

theorem free_closeHolders (k : Fin 48) (s : State) : s.KeepsFree (s.closeHolders k) := by
  refine free_ascending (fun c t => ?_) s
  split
  · split
    · exact free_close ..
    · exact KeepsFree.refl t
  · exact KeepsFree.refl t

theorem free_purgeContext (c : Fin 24) (s : State) : s.KeepsFree (s.purgeContext c) := by
  unfold purgeContext; split
  · exact KeepsFree.refl s
  · split
    · exact free_endClosing ..
    · exact free_close ..

theorem free_mapContexts (f : Context → Context) (s : State) : s.KeepsFree (s.mapContexts f) := .of_lanes rfl

theorem free_purgeContexts (s : State) : s.KeepsFree s.purgeContexts :=
  ((free_mapContexts ..).trans (free_ascending free_purgeContext _)).trans (free_mapContexts ..)

theorem free_setContext (c : Fin 24) (x : Option Context) (s : State) : s.KeepsFree (s.setContext c x) := .of_lanes rfl

theorem free_restartContext (n : Fin 8) (c : Fin 24) (s : State) : s.KeepsFree (s.restartContext n c) := by
  unfold restartContext
  split
  · exact KeepsFree.refl s
  · split
    · split
      · refine KeepsFree.trans ?_ (free_close ..)
        split
        · exact free_setContext ..
        · exact KeepsFree.refl s
      · split
        · exact free_setContext ..
        · exact KeepsFree.refl s
    · exact KeepsFree.refl s

theorem free_restartLane (n : Fin 8) (s : State) : s.KeepsFree (s.restartLane n) := by
  have lists : ∀ t : State, t.KeepsFree (((t.dropCodes n).dropJobs (Job.fetchesLane n)).dropLaneReports n) :=
    fun t => .of_lanes (lanes_dropJobs ..)
  exact (((free_answerHeldInLane n s).trans (free_releaseLane n _)).trans (lists _)).trans
    (free_ascending (free_restartContext n) _)

/-- A FREE slot has no frame to take. -/
theorem free_takeFrame (ring : Ring) (r : SlotRef) (buffer : List Word) (s : State) :
    s.KeepsFree (s.takeFrame ring r buffer) :=
  .of_eq fun free => by
    have headerless : s.slotHeader ring r = none := by
      cases ring with
      | inbound => exact congrArg InSlot.header (free r).1
      | outbound => exact congrArg OutState.header (free r).2
    simp only [takeFrame, headerless]

theorem slots_freeContext (c : Fin 24) (s : State) : (s.freeContext c).slots = s.slots := by
  have remembered : ∀ x (t : State), (t.rememberPaid x).slots = t.slots := fun x t => by
    unfold rememberPaid; split <;> rfl
  unfold freeContext
  split
  · rfl
  · dsimp only
    split
    · rw [slots_setContext, remembered]; split <;> rfl
    · rfl

theorem free_releaseHolder (h : ReportHolder) (s : State) : s.KeepsFree (s.releaseHolder h) := by
  cases h with
  | context c => exact .of_lanes (by rw [releaseHolder, slots_freeContext])
  | inbound r => exact .of_eq fun free => by simp only [releaseHolder, (free r).1]
  | outbound r => exact .of_eq fun free => by simp only [releaseHolder, (free r).2]

/-! ## Engine, report writer and load unit -/

theorem free_setMark (h : Holder) (m : Bool) (s : State) : s.KeepsFree (s.setMark h m) := by
  cases h with
  | code r => exact free_setOutSlot fun free => (free r).2
  | verify | derive | unwrap => exact .of_lanes rfl

theorem free_weighEngine (s : State) : s.KeepsFree s.weighEngine := by
  unfold weighEngine
  split
  · split
    · exact KeepsFree.refl s
    · next h _ =>
      split
      · exact KeepsFree.refl s
      · have left : s.KeepsFree (s.leaveReady h) := .of_lanes rfl
        have copied : ∀ o (t : State), t.KeepsFree (t.setOperation o) := fun _ _ => .of_lanes rfl
        exact (left.trans (free_setMark ..)).trans (copied ..)
  · exact KeepsFree.refl s

theorem free_settle (s : State) : s.KeepsFree s.settle := by
  obtain ⟨⟨jobs, write, eq⟩, -⟩ := s.weighEngine.weighReports_spec
  refine (free_weighEngine s).trans (.of_lanes ?_)
  show s.weighEngine.weighReports.slots.lanes = _
  rw [eq]

theorem free_endOperation (h : Holder) (s : State) : s.KeepsFree (s.endOperation h) :=
  KeepsFree.trans (t := s.setOperation none) (.of_lanes rfl) (free_setMark ..)

theorem free_finishCode (r : SlotRef) (code : Wide) (s : State) : s.KeepsFree (s.finishCode r code) := by
  refine ⟨fun free => ?_⟩
  have dropped : s.finishCode r code = s.setOutSlot r (s.outSlot r).dropResult := by simp only [finishCode, (free r).2]
  rw [dropped]
  exact (free_setOutSlot fun _ => by simp only [OutSlot.dropResult, (free r).2]).keeps free

theorem free_startCoding (r : SlotRef) (s : State) : s.KeepsFree (s.startCoding r) :=
  .of_eq fun free => by simp only [startCoding, (free r).2]

theorem free_finishDerive (c : Fin 24) (key : Key) (s : State) : s.KeepsFree (s.finishDerive c key) := by
  unfold finishDerive
  split
  · exact KeepsFree.refl s
  · split
    · dsimp only
      split
      · exact (free_setContext ..).trans (free_startCoding ..)
      · exact free_setContext ..
    · split
      · exact free_endClosing ..
      · exact KeepsFree.refl s

theorem free_finishVerify (c : Fin 24) (m : Bool) (s : State) : s.KeepsFree (s.finishVerify c m) := by
  unfold finishVerify
  split
  · exact KeepsFree.refl s
  · split
    · exact .of_lanes rfl
    · split
      · exact free_endClosing ..
      · exact KeepsFree.refl s

theorem free_applyRecord (d : LoadRecord) (key : Key) (o : LoadOutcome × Option (Fin 48)) (s : State) :
    s.KeepsFree (s.applyRecord d key o) := by
  unfold applyRecord
  split
  · next k =>
    split
    · exact .of_lanes rfl
    · have marked : s.KeepsFree ((s.raiseSerial k d.serial).setEntry k (s.keys.entries.get k).revoke.settle) := .of_lanes rfl
      exact marked.trans (free_closeHolders ..)
  · exact KeepsFree.refl s

theorem slots_takeLoadWord (i : Fin 16) (v : Word) (s : State) : (s.takeLoadWord i v).slots = s.slots := by
  unfold takeLoadWord
  split
  · split <;> rfl
  · split
    · rfl
    · split <;> rfl
  · rfl

/-! ## Reads, writes and fetches of slots -/

theorem free_readCode (r : SlotRef) (high : Bool) (a : Access) (s : State) : s.KeepsFree (s.readCode r high a) := by
  refine ⟨fun free => ?_⟩
  have filled : s.readCode r high a = s.supply .r a.size fillPattern := by simp only [readCode, (free r).2]
  rw [filled]
  exact (free_setPort ..).keeps free

theorem free_beginFetch (j : Job) (s : State) : s.KeepsFree (s.beginFetch j) := by
  cases j with
  | fetchFrame ring r =>
    refine .of_eq fun free => ?_
    cases ring with
    | inbound => simp only [beginFetch, (free r).1]
    | outbound => simp only [beginFetch, (free r).2]
  | fetchSetup | writeReport => exact KeepsFree.refl s

theorem free_holdLimitExpiry (s : State) : s.KeepsFree s.holdLimitExpiry := by
  unfold holdLimitExpiry; split
  · exact KeepsFree.refl s
  · exact ((free_answerHeld ..).trans (free_underrun ..)).trans (free_settle _)

theorem free_deadlineExpiry (c : Fin 24) (s : State) : s.KeepsFree (s.deadlineExpiry c) := by
  unfold deadlineExpiry; split
  · exact KeepsFree.refl s
  · split
    · exact (free_close ..).trans (free_settle _)
    · exact KeepsFree.refl s

/-! ## The part controller -/

/-- From `s` to `t` the setup-present flag stays, and slots that had to be FREE as the part tracked no lane still are where
they have to be. -/
structure Idles (s t : State) : Prop where
  present : t.controller.setupPresent = s.controller.setupPresent
  idle : (s.controller.idle → s.slotsFree) → t.controller.idle → t.slotsFree

theorem Idles.refl (s : State) : s.Idles s := ⟨rfl, id⟩

theorem Idles.trans {s t u : State} (h : s.Idles t) (g : t.Idles u) : s.Idles u :=
  ⟨g.present.trans h.present, g.idle ∘ h.idle⟩

/-- An operation on the slots alone. -/
theorem Idles.of_free {s t : State} (controller : t.controller = s.controller) (free : s.KeepsFree t) : s.Idles t :=
  ⟨by rw [controller], fun idle now => free.keeps (idle (controller ▸ now))⟩

theorem Idles.of_work {s t : State} (work : s.Work t) (free : s.KeepsFree t) : s.Idles t := .of_free work.controller free

theorem Idles.of_slots {s t : State} (controller : t.controller = s.controller) (slots : t.slots = s.slots) : s.Idles t :=
  .of_free controller (.of_lanes (by rw [slots]))

/-- A change of the part state that tracks no lane only where the part tracked none. -/
theorem Idles.of_state {s t : State} (present : t.controller.setupPresent = s.controller.setupPresent)
    (idle : t.controller.idle → s.controller.idle) (slots : t.slots = s.slots) : s.Idles t :=
  ⟨present, fun free now => (KeepsFree.of_lanes (by rw [slots])).keeps (free (idle now))⟩

/-- The part goes to a state in which lanes are tracked. -/
theorem Idles.of_tracking {s t : State} (present : t.controller.setupPresent = s.controller.setupPresent)
    (state : t.controller.state ≠ .unset ∧ t.controller.state ≠ .halted) (slots : t.slots = s.slots) : s.Idles t :=
  .of_state present (fun idle => .inr (.inr (present ▸ Controller.idle_of_tracking state idle))) slots

theorem idles_settle (s : State) : s.Idles s.settle := .of_work (work_settle s) (free_settle s)

theorem idles_relax (s : State) : s.Idles s.relax := by
  unfold relax; split
  · exact .of_state rfl id rfl
  · exact Idles.refl s

theorem idles_rouse (s : State) : s.Idles s.rouse := by
  unfold rouse; split
  · exact .of_tracking rfl ⟨nofun, nofun⟩ rfl
  · exact Idles.refl s

theorem idles_relax_settle (s : State) : s.Idles s.relax.settle := (idles_relax s).trans (idles_settle _)

/-! ## Accesses -/

theorem idles_refuse (p : Port) (kind : RefusalKind) (address : BitVec 22) (s : State) : s.Idles (s.refuse p kind address) :=
  .of_slots (controller_refuse ..) (slots_refuse ..)

theorem idles_setPort (p : Port) (x : PortState) (s : State) : s.Idles (s.setPort p x) :=
  .of_slots (controller_setPort ..) (slots_setPort ..)

theorem idles_passThrough (p : Port) (a : Access) (track : Option SlotWord) (s : State) :
    s.Idles (s.passThrough p a track) := by
  unfold passThrough
  split
  · split <;> exact idles_refuse ..
  · exact idles_setPort ..

theorem idles_result (code : BitVec 8) (o : CommandOutcome) (detail : BitVec 8) (s : State) :
    s.Idles (s.result code o detail) := .of_slots rfl rfl

theorem idles_carryOut (c : Command) (code : BitVec 8) (operand : BitVec 24) (s : State) :
    s.Idles (s.carryOut c code operand) := by
  cases c with
  | laneRestart => exact (Idles.of_work (work_restartLane ..) (free_restartLane ..)).trans (idles_result ..)
  | rest => exact .of_tracking rfl ⟨nofun, nofun⟩ rfl
  | setup | releaseReports | clearAttention => exact .of_slots rfl rfl

theorem idles_command (code : BitVec 8) (operand : BitVec 24) (s : State) : s.Idles (s.command code operand) := by
  unfold command
  split
  · exact idles_carryOut ..
  · exact (idles_carryOut ..).trans (idles_rouse _)
  · exact (idles_result ..).trans (idles_rouse _)
  · exact Idles.refl s

theorem idles_loadWindow (i : Fin 16) (a : Access) (s : State) : s.Idles (s.loadWindow i a) := by
  unfold loadWindow
  split
  · exact idles_refuse ..
  · have taken : s.Idles (s.takeLoadWord i a.data) := .of_slots (work_takeLoadWord ..).controller (slots_takeLoadWord ..)
    exact (taken.trans (idles_setPort ..)).trans (idles_rouse _)

theorem idles_blockAccess (a : Access) (s : State) : s.Idles (s.blockAccess a) := by
  have commanded : s.Idles (s.commandWrite a) := by
    unfold commandWrite; split
    · exact (idles_setPort ..).trans (idles_command ..)
    · exact idles_refuse ..
  unfold blockAccess
  dsimp only
  split
  · split
    · exact idles_passThrough ..
    · exact commanded
    · exact idles_refuse ..
    · exact idles_loadWindow ..
    · exact idles_refuse ..
    · exact idles_refuse ..
  · split
    · exact .of_slots (controller_supply ..) (slots_supply ..)
    · exact idles_passThrough ..

theorem idles_ringAccess (p : Port) (a : Access) (t : SlotWord) (s : State) : s.Idles (s.ringAccess p a t) := by
  have judged : s.Idles (if a.size = .word then s.passThrough p a (some t) else s.refuse p .partialWrite a.address) := by
    split
    · exact idles_passThrough ..
    · exact idles_refuse ..
  unfold ringAccess
  split
  · exact idles_refuse ..
  · exact judged
  · exact idles_passThrough ..
  · exact idles_refuse ..
  · exact judged
  · exact idles_passThrough ..
  · split
    · exact .of_work (work_readCode ..) (free_readCode ..)
    · exact idles_passThrough ..

theorem idles_classify (p : Port) (a : Access) (s : State) : s.Idles (s.classify p a) := by
  unfold classify
  split
  · split
    · exact idles_blockAccess ..
    · exact idles_refuse ..
  · split
    · exact idles_ringAccess ..
    · exact idles_passThrough ..

theorem idles_startWake (s : State) : s.Idles s.startWake := by
  unfold startWake; split
  · exact Idles.refl s
  · exact .of_state rfl id rfl

theorem idles_arrive (p : Port) (a : Access) (s : State) : s.Idles (s.arrive p a) := by
  unfold arrive
  split
  · exact Idles.refl s
  · split
    · exact Idles.refl s
    · exact idles_setPort ..
    · split
      · exact (idles_startWake s).trans (idles_setPort ..)
      · exact (idles_classify ..).trans (idles_relax_settle _)

theorem idles_classifyAllHeld (order : Order) (s : State) : s.Idles (s.classifyAllHeld order) := by
  have one : ∀ p (t : State), t.Idles (t.classifyHeld p) := fun p t => by
    unfold classifyHeld; split
    · exact (idles_setPort ..).trans (idles_classify ..)
    · exact Idles.refl t
  cases order <;> exact (one ..).trans (one ..)

/-! ## The memory port -/

theorem idles_grant (s : State) : s.Idles s.grant := by
  have port : ∀ p a track, s.Idles (s.grantPort p a track) := fun p a track => by
    unfold grantPort; split
    · exact idles_refuse ..
    · exact Idles.trans (t := s.setArbiter (some (.port p))) (.of_slots rfl rfl) (idles_setPort ..)
  unfold grant
  split
  · exact Idles.refl s
  · split
    · exact port ..
    · exact .of_slots rfl rfl
    · exact port ..
    · exact Idles.refl s

theorem idles_agentJobStart (s : State) : s.Idles s.agentJobStart := by
  have current : ∀ x, s.Idles (s.setAgent x) := fun _ => .of_slots rfl rfl
  unfold agentJobStart
  split
  · split
    · exact (current _).trans (.of_work (work_beginFetch ..) (free_beginFetch ..))
    · exact Idles.refl s
  · exact Idles.refl s

/-! ## The engine and the load unit -/

theorem idles_codeComplete (s : State) : s.Idles s.codeComplete := by
  unfold codeComplete; split
  · refine Idles.trans (t := s.setOperation none) (.of_slots rfl rfl) (Idles.trans ?_ (idles_settle _))
    exact .of_work (work_finishCode ..) (free_finishCode ..)
  · exact Idles.refl s

theorem idles_endOperation (h : Holder) (s : State) : s.Idles (s.endOperation h) :=
  .of_work (work_endOperation ..) (free_endOperation ..)

theorem idles_deriveComplete (s : State) : s.Idles s.deriveComplete := by
  unfold deriveComplete; split
  · exact ((idles_endOperation ..).trans (.of_work (work_finishDerive ..) (free_finishDerive ..))).trans (idles_settle _)
  · exact Idles.refl s

theorem idles_verifyComplete (s : State) : s.Idles s.verifyComplete := by
  unfold verifyComplete; split
  · exact ((idles_endOperation ..).trans (.of_work (work_finishVerify ..) (free_finishVerify ..))).trans (idles_settle _)
  · exact Idles.refl s

theorem controller_applyRecord (d : LoadRecord) (key : Key) (o : LoadOutcome × Option (Fin 48)) (s : State) :
    (s.applyRecord d key o).controller = s.controller := by
  unfold applyRecord
  split
  · split
    · rfl
    · exact (work_closeHolders ..).controller
  · rfl

theorem idles_unwrapComplete (s : State) : s.Idles s.unwrapComplete := by
  have ended : ∀ d o (t : State), t.Idles (t.endLoad d o) := fun _ _ _ => .of_slots rfl rfl
  unfold unwrapComplete; split
  · exact (((idles_endOperation ..).trans (.of_free (controller_applyRecord ..) (free_applyRecord ..))).trans (ended ..)).trans
      (idles_settle _)
  · exact Idles.refl s

/-! ## Time -/

theorem idles_setClock (w : Word) (s : State) : s.Idles (s.setClock w) := by
  have evaluated : ∀ t : State, t.Idles t.evaluateKeys := fun t => by
    unfold evaluateKeys; split <;> exact .of_slots rfl rfl
  exact Idles.trans (t := s.setSeconds w) (.of_state rfl id rfl) (evaluated _)

theorem idles_secondsClockRise (s : State) : s.Idles s.secondsClockRise := by
  unfold secondsClockRise
  split
  · exact Idles.refl s
  · split
    · exact idles_setClock ..
    · exact Idles.refl s

theorem idles_recentEntryExpiry (s : State) : s.Idles s.recentEntryExpiry := by
  unfold recentEntryExpiry
  split
  · exact Idles.refl s
  · split
    · exact .of_slots rfl rfl
    · exact Idles.refl s

theorem idles_holdLimitExpiry (s : State) : s.Idles s.holdLimitExpiry :=
  .of_work (work_holdLimitExpiry s) (free_holdLimitExpiry s)

theorem idles_tick (s : State) : s.Idles s.tick := by
  have overdue : s.Idles s.expireOverdue := by
    unfold expireOverdue; split
    · exact idles_holdLimitExpiry s
    · exact Idles.refl s
  have deadlines : ∀ t : State, t.Idles (Table.ascending 24 deadlineExpiry t) := fun t =>
    .of_work (work_ascending work_deadlineExpiry t) (free_ascending free_deadlineExpiry t)
  have trimmed : ∀ t : State, t.Idles t.dropDueRecent := fun _ => .of_slots rfl rfl
  have advanced : ∀ t : State, t.Idles t.advance := fun _ => .of_state rfl id rfl
  unfold tick; split
  · exact (((overdue.trans (deadlines _)).trans (trimmed _)).trans (idles_secondsClockRise _)).trans (advanced _)
  · exact Idles.refl s

/-! ## Lines -/

/-- R58: a power warning returns every slot to FREE. -/
theorem idles_powerWarning (s : State) : s.Idles s.powerWarning := by
  obtain ⟨controller, -, -, -, -, -, -, -, -, slots, -⟩ := s.haltedFrom_powerWarning
  exact ⟨by rw [controller], fun _ _ r => ⟨(slots r).1, by rw [(slots r).2]⟩⟩

/-- R172: PURGING tracks lanes, and what a purge does to slots leaves FREE ones FREE. -/
theorem idles_enterPurging (s : State) : s.Idles s.enterPurging := by
  have start : s.Idles (((s.markOrigin).purgeKeys).dropLoad).cutEngine := .of_state rfl id rfl
  have dropped : ∀ t : State, t.Idles (t.mapSlots id OutSlot.dropResult) := fun t =>
    .of_work (work_mapSlots ..) (free_mapSlots rfl (fun x free => by simp only [OutSlot.dropResult, free]) t)
  have entered : ∀ t : State, t.Idles (t.enter .purging) := fun _ => .of_tracking rfl ⟨nofun, nofun⟩ rfl
  exact (((start.trans (.of_work (work_purgeContexts _) (free_purgeContexts _))).trans (dropped _)).trans (entered _)).trans
    (idles_settle _)

theorem idles_wakeEnd (order : Order) (s : State) : s.Idles (s.wakeEnd order) := by
  have awake : s.Idles s.awaken := .of_state rfl id rfl
  unfold wakeEnd
  split
  · exact ((idles_enterPurging s).trans (idles_classifyAllHeld ..)).trans (idles_relax_settle _)
  · split
    · exact (awake.trans (idles_classifyAllHeld ..)).trans (idles_relax_settle _)
    · exact Idles.refl s

/-- R170, R171: the part goes to RUNNING with a setup, to UNSET without one. -/
theorem idles_enter_restored (s : State) : s.Idles (s.enter s.controller.restored) := by
  refine .of_state rfl (fun idle => ?_) rfl
  cases present : s.controller.setupPresent with
  | false => exact .inr (.inr present)
  | true =>
    have running : (s.enter s.controller.restored).controller.state = .running := by
      show s.controller.restored = _
      rw [Controller.restored, if_pos present]
    have absent := Controller.idle_of_tracking ⟨by rw [running]; nofun, by rw [running]; nofun⟩ idle
    exact absurd (present.symm.trans absent) nofun

theorem idles_returnFromHalted (s : State) : s.Idles s.returnFromHalted :=
  (idles_enter_restored s).trans (.of_slots rfl rfl)

theorem idles_pwarnAssert (order : Order) (s : State) : s.Idles (s.pwarnAssert order) := by
  have line : s.Idles (s.setPwarn true) := .of_state rfl id rfl
  unfold pwarnAssert
  split
  · exact Idles.refl s
  · dsimp only
    split
    · exact (line.trans (idles_powerWarning _)).trans (idles_classifyAllHeld ..)
    · exact line

theorem idles_pwarnRelease (s : State) : s.Idles s.pwarnRelease := by
  have line : s.Idles (s.setPwarn false) := .of_state rfl id rfl
  unfold pwarnRelease
  split
  · dsimp only
    split
    · exact line.trans (idles_returnFromHalted _)
    · exact line
  · exact Idles.refl s

theorem idles_purgeNow (s : State) : s.Idles s.purgeNow := by
  unfold purgeNow; split
  · exact (idles_startWake s).trans (.of_state rfl id rfl)
  · exact idles_enterPurging s

theorem idles_purgeAssert (s : State) : s.Idles s.purgeAssert := by
  have line : s.Idles (s.setPurge true) := .of_state rfl id rfl
  unfold purgeAssert
  split
  · exact Idles.refl s
  · dsimp only
    split
    · exact line
    · exact .of_state rfl id rfl
    · split
      · exact line
      all_goals exact line.trans (idles_purgeNow _)

theorem idles_eraseCompletion (s : State) : s.Idles s.eraseCompletion := by
  have erased : s.Idles s.endErase := .of_slots rfl rfl
  unfold eraseCompletion completeErase
  split
  · split
    · exact erased.trans (idles_powerWarning _)
    · split
      · exact erased.trans (idles_returnFromHalted _)
      · exact erased.trans (idles_enter_restored _)
  · exact Idles.refl s

theorem idles_sampleLines (purgeFirst : Bool) (s : State) : s.Idles (s.sampleLines purgeFirst) := by
  unfold sampleLines
  dsimp only
  split
  · split
    · exact idles_enterPurging s
    · exact (idles_powerWarning s).trans (idles_enterPurging _)
  · split
    · exact idles_powerWarning s
    · split
      · exact idles_enterPurging s
      · exact Idles.refl s

theorem idles_restPorts (order : Order) (s : State) : s.Idles (s.restPorts order) := by
  obtain ⟨ports, path, raised, arbiter, mem, fresh, eq⟩ := restPorts_form order s
  rw [eq]; exact .of_slots rfl rfl

theorem idles_failAgentWord (s : State) : s.Idles s.failAgentWord := by
  obtain ⟨mem, fresh, eq⟩ := failAgentWord_form s
  rw [eq]; exact .of_slots rfl rfl

theorem idles_mrestAssert (order : Order) (s : State) : s.Idles (s.mrestAssert order) := by
  have line : s.Idles (s.setMrest true) := .of_state rfl id rfl
  have retried : ∀ p (t : State), t.Idles (t.retryPort p) := fun p t => by
    obtain ⟨ports, arbiter, mem, fresh, eq⟩ := retryPort_form p t
    rw [eq]; exact .of_slots rfl rfl
  have rewound : ∀ t : State, t.Idles t.rewindJob := fun t => by
    obtain ⟨agent, eq⟩ := rewindJob_form t
    rw [eq]; exact .of_slots rfl rfl
  unfold mrestAssert
  split
  · exact Idles.refl s
  · dsimp only
    split
    · exact line
    · exact ((line.trans (retried ..)).trans (retried ..)).trans (idles_failAgentWord _)
    · exact (((line.trans (idles_restPorts ..)).trans (idles_failAgentWord _)).trans (rewound _)).trans (idles_relax _)

/-! ## Both invariants -/

/-- What EveryStepKeepsIdleSlotsFree says of a step. -/
def KeepsLayout (s t : State) : Prop := (s.idleSlots → t.idleSlots) ∧ (s.laidOut → t.laidOut)

theorem KeepsLayout.refl (s : State) : s.KeepsLayout s := ⟨id, id⟩

theorem KeepsLayout.trans {s t u : State} (h : s.KeepsLayout t) (g : t.KeepsLayout u) : s.KeepsLayout u :=
  ⟨g.1 ∘ h.1, g.2 ∘ h.2⟩

/-- R154: how a setup is laid out is a matter of the setup in force and of whether it is there. -/
theorem laidOut_congr {s t : State} (setup : t.setup = s.setup)
    (present : t.controller.setupPresent = s.controller.setupPresent) (laidOut : s.laidOut) : t.laidOut := by
  unfold State.laidOut
  rw [setup, present]
  exact laidOut

/-- The setup in force stays. -/
theorem Idles.keepsLayout {s t : State} (idles : s.Idles t) (setup : t.setup = s.setup) : s.KeepsLayout t := by
  refine ⟨fun layout => ?_, laidOut_congr setup idles.present⟩
  obtain ⟨lanes, free⟩ := (idleSlots_iff s).mp layout
  refine (idleSlots_iff t).mpr ⟨fun absent => ?_, idles.idle free⟩
  unfold noLanes
  rw [setup]
  exact lanes (idles.present ▸ absent)

/-- R165: RESET values, whatever went before. -/
theorem keepsLayout_loseVolatile {c : Controller} (absent : c.setupPresent = false) (k : Keys) (s : State) :
    s.KeepsLayout (s.loseVolatile c k) := by
  have lane : ∀ n, (s.loseVolatile c k).setup.lanes.get n = Lane.reset := fun n => Table.get_fill ..
  refine ⟨fun _ => ⟨fun _ => ⟨rfl, fun n => ?_⟩, fun _ r => ?_⟩,
    fun _ => ⟨fun n on => ?_, fun n _ _ _ on => ?_, fun present => ?_⟩⟩
  · rw [lane]; exact ⟨rfl, rfl, rfl⟩
  · have slots : (s.loseVolatile c k).slots.lanes.get r.lane = LaneSlots.reset := Table.get_fill ..
    unfold inSlot outSlot
    rw [slots]
    exact ⟨Table.get_fill .., congrArg OutSlot.state (Table.get_fill ..)⟩
  · rw [lane] at on; cases on
  · rw [lane] at on; cases on
  · exact absurd (absent.symm.trans present) nofun

/-! ## Tracked writes -/

/-- R14, R35: a slot word is found only while lanes are tracked. -/
theorem slotAt_of_idle {s : State} (layout : s.idleSlots) (idle : s.controller.idle) (word : BitVec 20) :
    s.slotAt word = none := by
  unfold slotAt
  split
  · next watching =>
    have tracking : s.controller.state ≠ .unset ∧ s.controller.state ≠ .halted := by
      constructor <;> intro state <;> rw [state] at watching <;> exact absurd watching.2 nofun
    obtain ⟨-, disabled⟩ := layout.1 (Controller.idle_of_tracking tracking idle)
    refine List.findSome?_eq_none_iff.mpr fun n _ => ?_
    rw [Lane.find, (disabled n).1]; rfl
  · rfl

/-- R18: a tracked write takes effect only in a part that tracks lanes, and leaves it one. -/
theorem keepsLayout_applyTracked (a : Access) (judged : Option Judged) (s : State) :
    s.KeepsLayout (s.applyTracked a judged) := by
  unfold applyTracked
  split
  · exact KeepsLayout.refl s
  · split
    · next j found =>
      split
      · next t effect =>
        have work : s.Work t := work_writeSlot effect
        refine KeepsLayout.trans (t := t) ⟨fun layout => ?_, laidOut_congr work.setup (by rw [work.controller])⟩
          ((idles_rouse t).keepsLayout (setup_rouse t))
        have tracks : ¬ t.controller.idle := fun idle => by
          have lost := slotAt_of_idle layout (work.controller ▸ idle) a.word
          exact absurd (lost.symm.trans found.1) nofun
        refine (idleSlots_iff t).mpr ⟨fun absent => absurd (.inr (.inr absent)) tracks, fun idle => absurd idle tracks⟩
      · exact KeepsLayout.refl s
    · exact KeepsLayout.refl s

theorem keepsLayout_wordAccessComplete (s : State) : s.KeepsLayout s.wordAccessComplete := by
  have freed : s.KeepsLayout s.freePort := (Idles.of_slots rfl rfl).keepsLayout rfl
  have stored : ∀ w size data (t : State), t.KeepsLayout (t.store w size data) :=
    fun _ _ _ _ => (Idles.of_slots rfl rfl).keepsLayout rfl
  have answered : ∀ p r (t : State), t.KeepsLayout (t.respond p r) :=
    fun p r t => (idles_setPort ..).keepsLayout (setup_respond ..)
  have completed : ∀ p a judged, s.KeepsLayout (s.completeAccess p a judged) := fun p a judged => by
    unfold completeAccess; split
    · exact ((freed.trans (stored ..)).trans (answered ..)).trans (keepsLayout_applyTracked ..)
    · exact freed.trans (answered ..)
  unfold wordAccessComplete
  split
  · split
    · exact (completed ..).trans ((idles_relax_settle _).keepsLayout (frame_relax_settle _).setup)
    · exact KeepsLayout.refl s
  · exact KeepsLayout.refl s

/-! ## The take of a setup image -/

theorem afterSetup_tracks (p : PartState) : p.afterSetup ≠ .unset ∧ p.afterSetup ≠ .halted := by
  cases p <;> exact ⟨nofun, nofun⟩

theorem setup_applySetup (image : List Word) (s : State) : (s.applySetup image).setup = Setup.ofImage image := by
  have clock : ∀ t : State, (t.setClockFrom image).setup = t.setup := fun t => by
    unfold setClockFrom; split
    · exact (frame_setClock ..).setup
    · rfl
  exact clock _

/-- R154: an image that passes every check. -/
theorem passes_of_firstFailing {s : State} {image : List Word} (passed : s.firstFailing image = none) (k : Nat) (word : k < 44) :
    wordPasses image s.controller.seconds.isSome s.blockRange (Setup.ofImage image) k = true := by
  have passes := List.find?_eq_none.mp passed k (List.mem_range.mpr word)
  simpa using passes

/-- R154, R155: an applied setup is laid out, and its lanes are tracked from then on. -/
theorem keepsLayout_applySetup {s : State} {image : List Word} (passed : s.firstFailing image = none) :
    s.KeepsLayout (s.applySetup image) := by
  have controller := controller_applySetup image s
  have tracks : ¬ (s.applySetup image).controller.idle := fun idle => by
    have absent := Controller.idle_of_tracking (by rw [controller]; exact afterSetup_tracks _) idle
    rw [controller] at absent; cases absent
  refine ⟨fun _ => (idleSlots_iff _).mpr ⟨fun absent => absurd (.inr (.inr absent)) tracks, fun idle => absurd idle tracks⟩,
    fun _ => laidOut_of_passes (image := image) (clockSet := s.controller.seconds.isSome) (block := s.blockRange) ?_⟩
  rw [setup_applySetup]
  exact passes_of_firstFailing passed

theorem keepsLayout_takeSetup (image : List Word) (s : State) : s.KeepsLayout (s.takeSetup image) := by
  have ended : ∀ o detail, s.KeepsLayout (s.endSetup o detail) := fun _ _ => (Idles.of_slots rfl rfl).keepsLayout rfl
  unfold takeSetup
  split
  · split
    · exact ended ..
    · next passed => exact keepsLayout_applySetup passed
  · exact ended ..

theorem idles_written (s : State) : s.Idles s.written := by
  have advanced : s.Idles s.advanceRing := .of_slots rfl rfl
  unfold written
  split
  · have shortened : ∀ l, s.Idles (s.advanceRing.setWaiting l) := fun _ => .of_slots rfl rfl
    exact (shortened _).trans (.of_free (track_releaseHolder ..).controller (free_releaseHolder ..))
  · exact advanced

theorem keepsLayout_endJob (j : Job) (buffer : List Word) (s : State) : s.KeepsLayout (s.endJob j buffer) := by
  cases j with
  | fetchFrame ring r =>
    have track := track_takeFrame ring r buffer s
    exact (Idles.of_free track.controller (free_takeFrame ..)).keepsLayout track.setup
  | fetchSetup => exact keepsLayout_takeSetup ..
  | writeReport => exact (idles_written s).keepsLayout (frame_written s).setup

theorem keepsLayout_advanceJob (data : Option Word) (s : State) : s.KeepsLayout (s.advanceJob data) := by
  have agent : ∀ x, s.KeepsLayout (s.setAgent x) := fun _ => (Idles.of_slots rfl rfl).keepsLayout rfl
  unfold advanceJob
  split
  · dsimp only
    split
    · exact ((agent _).trans (keepsLayout_endJob ..)).trans ((idles_settle _).keepsLayout (work_settle _).setup)
    · exact agent _
  · exact KeepsLayout.refl s

theorem keepsLayout_agentWordComplete (s : State) : s.KeepsLayout s.agentWordComplete := by
  have freed : s.KeepsLayout s.freePort := (Idles.of_slots rfl rfl).keepsLayout rfl
  have stored : ∀ w size data, s.KeepsLayout (s.freePort.store w size data) :=
    fun _ _ _ => (Idles.of_slots rfl rfl).keepsLayout rfl
  unfold agentWordComplete
  split
  · split
    · split
      · exact (stored ..).trans (keepsLayout_advanceJob ..)
      · exact stored ..
    · split
      · exact freed.trans (keepsLayout_advanceJob ..)
      · exact freed
  · exact KeepsLayout.refl s

/-! ## RESET and power -/

theorem keepsLayout_resetAssert (cut : Bool) (s : State) : s.KeepsLayout (s.resetAssert cut) := by
  have unwatched : ∀ t : State, t.KeepsLayout t.unwatchPorts := fun _ => (Idles.of_slots rfl rfl).keepsLayout rfl
  unfold resetAssert; split
  · exact (keepsLayout_loseVolatile (c := s.controller.stopped .inReset) rfl _ s).trans (unwatched _)
  · exact KeepsLayout.refl s

theorem keepsLayout_powerLoss (cut : Bool) (s : State) : s.KeepsLayout (s.powerLoss cut) := by
  have lost : ∀ t : State, t.KeepsLayout t.loseMemory := fun _ => (Idles.of_slots rfl rfl).keepsLayout rfl
  unfold powerLoss; split
  · exact KeepsLayout.refl s
  · exact (keepsLayout_loseVolatile (c := s.controller.stopped .off) rfl _ s).trans (lost _)

theorem keepsLayout_startUp (straps : BitVec 6) (purgeFirst : Bool) (order : Order) (s : State) :
    s.KeepsLayout (s.startUp straps purgeFirst order) := by
  have sampled : ∀ t : State, t.KeepsLayout (t.sampleLines purgeFirst) :=
    fun t => (idles_sampleLines ..).keepsLayout (frame_sampleLines ..).setup
  have rested : ∀ t : State, t.KeepsLayout (t.restPorts order) :=
    fun t => (idles_restPorts ..).keepsLayout (setup_restPorts ..)
  unfold startUp
  split
  · exact KeepsLayout.refl s
  · have lost := keepsLayout_loseVolatile (c := Controller.reset straps s.controller.lines) rfl s.keys.startUp s
    dsimp only
    split
    · exact (lost.trans (rested _)).trans (sampled _)
    · exact lost.trans (sampled _)

end State

/-- The commands that leave the setup in force. -/
theorem exec_idles {i : Instr} {s t : State} (next : exec i s = .next t) (noWord : i ≠ .wordAccessComplete)
    (noAgentWord : i ≠ .agentWordComplete) (noReset : ∀ cut, i ≠ .resetAssert cut)
    (noStart : ∀ a b o, i ≠ .startUp a b o) (noLoss : ∀ cut, i ≠ .powerLoss cut) : s.Idles t := by
  cases i with
  | memoryAccess | controlBlockWrite | codeWordRead | loadWindowWrite | setup | rest | laneRestart | releaseReports
  | clearAttention | unknownCommand => cases next; exact State.idles_arrive ..
  | arbiterGrant => cases next; exact (State.idles_grant s).trans (State.idles_relax _)
  | wordAccessComplete => exact absurd rfl noWord
  | holdLimitExpiry => cases next; exact State.idles_holdLimitExpiry s
  | agentJobStart => cases next; exact State.idles_agentJobStart s
  | agentWordComplete => exact absurd rfl noAgentWord
  | engineStart => cases next; exact .of_work (State.work_weighEngine s) (State.free_weighEngine s)
  | codeComplete => cases next; exact State.idles_codeComplete s
  | deriveComplete => cases next; exact State.idles_deriveComplete s
  | verifyComplete => cases next; exact State.idles_verifyComplete s
  | unwrapComplete => cases next; exact State.idles_unwrapComplete s
  | deadlineExpiry => cases next; exact .of_work (State.work_deadlineExpiry ..) (State.free_deadlineExpiry ..)
  | recentEntryExpiry => cases next; exact State.idles_recentEntryExpiry s
  | secondsClockRise => cases next; exact State.idles_secondsClockRise s
  | wakeEnd => cases next; exact State.idles_wakeEnd ..
  | mrestAssert => cases next; exact State.idles_mrestAssert ..
  | mrestRelease => cases next; exact .of_state rfl id rfl
  | pwarnAssert => cases next; exact State.idles_pwarnAssert ..
  | pwarnRelease => cases next; exact State.idles_pwarnRelease s
  | purgeAssert => cases next; exact State.idles_purgeAssert s
  | purgeRelease => cases next; exact .of_state rfl id rfl
  | eraseCompletion => cases next; exact State.idles_eraseCompletion s
  | resetAssert cut => exact absurd rfl (noReset cut)
  | startUp a b o => exact absurd rfl (noStart a b o)
  | powerLoss cut => exact absurd rfl (noLoss cut)

theorem exec_keepsLayout {i : Instr} {s t : State} (next : exec i s = .next t) : s.KeepsLayout t := by
  by_cases own : i = .wordAccessComplete ∨ i = .agentWordComplete ∨ (∃ cut, i = .resetAssert cut)
      ∨ (∃ a b o, i = .startUp a b o) ∨ ∃ cut, i = .powerLoss cut
  · rcases own with rfl | rfl | ⟨cut, rfl⟩ | ⟨a, b, o, rfl⟩ | ⟨cut, rfl⟩ <;> cases next
    · exact s.keepsLayout_wordAccessComplete
    · exact s.keepsLayout_agentWordComplete
    · exact s.keepsLayout_resetAssert cut
    · exact s.keepsLayout_startUp a b o
    · exact s.keepsLayout_powerLoss cut
  · simp only [not_or, not_exists] at own
    obtain ⟨word, agentWord, reset, start, loss⟩ := own
    refine (exec_idles next word agentWord reset start loss).keepsLayout ?_
    by_cases mrest : ∃ o, i = .mrestAssert o
    · obtain ⟨o, rfl⟩ := mrest; cases next; exact s.setup_mrestAssert o
    · exact (exec_frame next word agentWord (not_exists.mp mrest) reset start loss).setup

/-- Settles O57: a millisecond leaves the setup in force, and every command keeps both invariants. -/
theorem everyStepKeepsIdleSlotsFree : Obligations.EveryStepKeepsIdleSlotsFree := by
  unfold Obligations.EveryStepKeepsIdleSlotsFree
  intro s t next
  unfold step at next
  split at next
  · cases next; exact (State.idles_tick s).keepsLayout (State.frame_tick s).setup
  · next c rest _ =>
    have taken : s.KeepsLayout { s with pending := rest } := (State.Idles.of_slots rfl rfl).keepsLayout rfl
    exact taken.trans (exec_keepsLayout next)

end Sys2Proof.Machine
end

section
/-! PROOF of SlotJudgesByItsState, RingWriteIsJudged, CodeReadIsAnsweredByTheSlot and EarlyCodeReadIsHeld: what a slot refuses,
the slot word of an address, the arrival of an access in a ring, and a code-word read by the state of its slot. -/

namespace Sys2Proof.Machine

/-! ## What a slot refuses -/

/-- R39: the locked states of an inbound slot. -/
theorem InSlot.judge_eq (x : InSlot) :
    x.judge = if x.tag = .closed ∨ x.tag = .fetching ∨ x.tag = .reportWait then some .overrun else none := by
  cases x <;> rfl

/-- R45: a SPOILED slot is locked by a pending report or the engine mark. -/
theorem OutSlot.spoiledLock_spoiled {x : OutSlot} {h : Header} {report : Option Report} (spoiled : x.state = .spoiled h report) :
    x.spoiledLock = true ↔ report ≠ none ∨ x.mark = true := by
  simp only [spoiledLock, spoiled, Bool.or_eq_true, Option.isSome_iff_ne_none]

/-- R43, R44, R45: what each state of an outbound slot refuses. -/
theorem OutSlot.judge_eq (x : OutSlot) (w : Nat) : x.judge w =
    match x.state with
    | .free => none
    | .composing h _ => if w + 2 = h.length.toNat ∨ w + 1 = h.length.toNat then some .codeField else none
    | .spoiled _ report => if report ≠ none ∨ x.mark = true then some .lockedSlot else none
    | .closed _ | .fetching _ | .waitingKey _ _ | .coding _ _ | .armed _ _ _ | .draining _ => some .lockedSlot := by
  cases state : x.state with
  | spoiled h report =>
    simp only [judge, state]
    exact if_congr (spoiledLock_spoiled state) rfl rfl
  | free | composing | closed | fetching | waitingKey | coding | armed | draining => simp only [judge, state]

/-- Settles O14, by the states of an inbound and of an outbound slot. -/
theorem slotJudgesByItsState : Obligations.SlotJudgesByItsState := by
  unfold Obligations.SlotJudgesByItsState
  exact ⟨fun _ _ _ => ⟨rfl, rfl, rfl, rfl⟩, fun _ _ _ _ _ _ => ⟨rfl, rfl, rfl, rfl, rfl⟩, InSlot.judge_eq, OutSlot.judge_eq⟩

/-! ## The slot word of an address -/

/-- R14: the part states in which rings are watched. -/
theorem PartState.watches_iff (p : PartState) : p.watches = true ↔ p = .running ∨ p = .dormant ∨ p = .purging := by
  cases p <;> simp [watches]

namespace State

/-- R14: outside RUNNING, DORMANT and PURGING no ring is watched. -/
theorem slotAt_unwatched {s : State}
    (h : s.controller.power ≠ .on
      ∨ ¬ (s.controller.state = .running ∨ s.controller.state = .dormant ∨ s.controller.state = .purging))
    (word : BitVec 20) : s.slotAt word = none := by
  refine if_neg fun watching => ?_
  rcases h with off | elsewhere
  · exact off watching.1
  · exact elsewhere ((PartState.watches_iff _).mp watching.2)

/-- R14, R33: the slot word that an address is in a lane's ring. -/
def Holds (s : State) (word : BitVec 20) (ring : Ring) (n : Fin 8) (k : Fin 16) (w : Nat) : Prop :=
  let l := s.setup.lanes.get n
  l.enable = true ∧ k.val < l.ringSlots ring ∧ w < l.slotWords
    ∧ 4 * word.toNat = l.ringBase ring + k.val * (4 * l.slotWords) + 4 * w

/-- R33: what the lookup finds in one lane of a setup that is laid out. -/
theorem find_eq_some_iff {s : State} (laidOut : s.laidOut) (m : Fin 8) (word : BitVec 20) (ring : Ring) (n : Fin 8) (k : Fin 16)
    (w : Nat) :
    (s.setup.lanes.get m).find m word.toNat = some ⟨ring, ⟨n, k⟩, w⟩ ↔ n = m ∧ s.Holds word ring n k w := by
  obtain ⟨placed, apart, -⟩ := laidOut
  have own : (s.setup.lanes.get m).enable = true →
      clear (s.setup.lanes.get m).inBase ((s.setup.lanes.get m).inCount * (4 * (s.setup.lanes.get m).slotWords))
        (s.setup.lanes.get m).outBase ((s.setup.lanes.get m).outCount * (4 * (s.setup.lanes.get m).slotWords)) :=
    fun on => apart m m .inbound .outbound on on (by simp)
  rw [Lane.find_eq_some_iff (placed m) own]
  refine and_congr_right fun same => ?_
  subst same
  rfl

/-- R14: an address that is a slot word lies among the bytes of the slot's ring. -/
theorem Holds.bytes {s : State} (laidOut : s.laidOut) {word : BitVec 20} {ring : Ring} {n : Fin 8} {k : Fin 16} {w : Nat}
    (holds : s.Holds word ring n k w) :
    let l := s.setup.lanes.get n
    l.ringBase ring ≤ 4 * word.toNat ∧ 4 * word.toNat < l.ringBase ring + l.ringSlots ring * (4 * l.slotWords) := by
  obtain ⟨on, slot, inside, address⟩ := holds
  obtain ⟨sizes, rings⟩ := laidOut.1 n on
  obtain ⟨-, aligned, -⟩ := rings ring
  obtain ⟨low, high⟩ := ring_contains sizes aligned slot inside address
  exact ring_bytes sizes aligned low high

/-- R14, R154: no address is a word of two rings. -/
theorem Holds.unique {s : State} (laidOut : s.laidOut) {word : BitVec 20} {ring ring' : Ring} {n n' : Fin 8} {k k' : Fin 16}
    {w w' : Nat} (holds : s.Holds word ring n k w) (holds' : s.Holds word ring' n' k' w') :
    SlotWord.mk ring ⟨n, k⟩ w = ⟨ring', ⟨n', k'⟩, w'⟩ := by
  have same : (n, ring) = (n', ring') := by
    by_contra other
    obtain ⟨low, high⟩ := holds.bytes laidOut
    obtain ⟨low', high'⟩ := holds'.bytes laidOut
    have apart := laidOut.2.1 n n' ring ring' holds.1 holds'.1 other
    unfold clear at apart
    omega
  obtain ⟨rfl, rfl⟩ := Prod.mk.inj same
  have found := (find_eq_some_iff laidOut n word ring n k w).mpr ⟨rfl, holds⟩
  have found' := (find_eq_some_iff laidOut n word ring n k' w').mpr ⟨rfl, holds'⟩
  exact Option.some.inj (found.symm.trans found')

/-- R14, R33: the slot word that an address is, in a setup that is laid out. -/
theorem slotAt_eq_some_iff {s : State} (laidOut : s.laidOut) (on : s.controller.power = .on)
    (watches : s.controller.state.watches = true) (word : BitVec 20) (ring : Ring) (n : Fin 8) (k : Fin 16) (w : Nat) :
    s.slotAt word = some ⟨ring, ⟨n, k⟩, w⟩ ↔ s.Holds word ring n k w := by
  have lookup : s.slotAt word = (List.finRange 8).findSome? fun m => (s.setup.lanes.get m).find m word.toNat :=
    if_pos ⟨on, watches⟩
  have sound : ∀ ring n k w, s.slotAt word = some ⟨ring, ⟨n, k⟩, w⟩ → s.Holds word ring n k w := fun ring n k w found => by
    obtain ⟨m, -, inLane⟩ := List.exists_of_findSome?_eq_some (lookup.symm.trans found)
    exact ((find_eq_some_iff laidOut m word ring n k w).mp inLane).2
  refine ⟨sound ring n k w, fun holds => ?_⟩
  rcases found : s.slotAt word with _ | ⟨ring', ⟨n', k'⟩, w'⟩
  · have missed := List.findSome?_eq_none_iff.mp (lookup.symm.trans found) n (List.mem_finRange n)
    exact absurd (((find_eq_some_iff laidOut n word ring n k w).mpr ⟨rfl, holds⟩).symm.trans missed) nofun
  · exact congrArg some ((sound ring' n' k' w' found).unique laidOut holds)

/-! ## An access in a ring -/

/-- R15: an access that is heard and falls in a ring. -/
theorem arrive_ring {s : State} {p : Port} {a : Access} {t : SlotWord} (hears : s.hears p) (outside : s.inBlock a.word = false)
    (here : s.slotAt a.word = some t) : s.arrive p a = ((s.ringAccess p a t).relax).settle := by
  have classified : s.classify p a = s.ringAccess p a t := by
    simp only [classify, outside, here, Bool.false_eq_true, if_false]
  rw [arrive_hears hears, classified]

/-- R39, R44: a write by the port that owns no frames of the ring. -/
theorem ringAccess_wrongPort {p : Port} {a : Access} {t : SlotWord} (write : a.write = true)
    (wrong : (t.ring = .inbound ∧ p = .c) ∨ (t.ring = .outbound ∧ p = .r)) (s : State) :
    s.ringAccess p a t = s.refuse p .wrongPort a.address := by
  rcases wrong with ⟨ring, rfl⟩ | ⟨ring, rfl⟩ <;> simp only [ringAccess, ring, write]

/-- R39, R44: a write by the ring's own port. -/
theorem ringAccess_write {p : Port} {a : Access} {t : SlotWord} (write : a.write = true)
    (own : (t.ring = .inbound ∧ p = .r) ∨ (t.ring = .outbound ∧ p = .c)) (s : State) :
    s.ringAccess p a t =
      if a.size = .word then s.passThrough p a (some t) else s.refuse p .partialWrite a.address := by
  rcases own with ⟨ring, rfl⟩ | ⟨ring, rfl⟩ <;> simp only [ringAccess, ring, write]

/-- R18, R30: during MREST a tracked write is refused with the slot's own kind first. -/
theorem passThrough_rests_tracked {s : State} {a : Access} {t : SlotWord} (line : s.controller.lines.mrest = true)
    (here : s.slotAt a.word = some t) (p : Port) :
    s.passThrough p a (some t) = s.refuse p ((s.judge t).getD .memoryResting) a.address := by
  simp only [passThrough, line, if_true, judgeTracked_here here]
  cases s.judge t <;> rfl

/-- R49: the words of a slot that are no code words. -/
theorem codeWord_none {x : OutSlot} {w : Nat} (other : ∀ k, x.codePosition = some k → w ≠ k ∧ w ≠ k + 1) :
    x.codeWord w = none := by
  unfold OutSlot.codeWord
  split
  · rfl
  · next k position => rw [if_neg (other k position).1, if_neg (other k position).2]

/-- R49: the two code words of a slot. -/
theorem codeWord_some {x : OutSlot} {k : Nat} (position : x.codePosition = some k) (high : Bool) :
    x.codeWord (if high then k + 1 else k) = some high := by
  cases high <;> simp [OutSlot.codeWord, position]

/-- R39, R44, R49: a read that is no read of a code word by the R-port passes through. -/
theorem ringAccess_read {s : State} {p : Port} {a : Access} {t : SlotWord} (read : a.write = false)
    (plain : t.ring = .inbound ∨ p = .c ∨ (s.outSlot t.slot).codeWord t.word = none) :
    s.ringAccess p a t = s.passThrough p a none := by
  obtain ⟨ring, slot, word⟩ := t
  cases ring with
  | inbound => cases p <;> simp only [ringAccess, read]
  | outbound =>
    cases p with
    | c => simp only [ringAccess, read]
    | r =>
      have noCode : (s.outSlot slot).codeWord word = none := by
        rcases plain with ring | port | noCode
        · cases ring
        · cases port
        · exact noCode
      simp only [ringAccess, read, noCode]

/-- R49: a code-word read goes to its slot. -/
theorem codeWordRead_ring {s : State} {word : BitVec 20} {size : Size} {r : SlotRef} {w : Nat} {high : Bool} (hears : s.hears .r)
    (outside : s.inBlock word = false) (here : s.slotAt word = some ⟨.outbound, r, w⟩)
    (code : (s.outSlot r).codeWord w = some high) :
    exec (.codeWordRead word size) s = .next (((s.readCode r high ⟨false, word, size, 0⟩).relax).settle) := by
  show Host.Outcome.next (s.arrive .r ⟨false, word, size, 0⟩) = _
  rw [arrive_ring (a := ⟨false, word, size, 0⟩) hears outside here]
  simp only [ringAccess, code]

/-! ## A code-word read, by the state of its slot -/

/-- R71: with an attempt on the list the newest one is the last. -/
theorem sendNewest_append (time : Word) (before : List Attempt) (a : Attempt) :
    sendNewest time (before ++ [a]) = before ++ [{ a with sentAt := some time }] := by
  induction before with
  | nil => rfl
  | cons b rest ih =>
    cases rest with
    | nil => rfl
    | cons b' rest => exact congrArg (b :: ·) ih

/-- R50, R71: the send of an ARMED slot. -/
theorem send_armed {s : State} {r : SlotRef} {h : Header} {c : Fin 24} {code : Wide} {x : Context}
    (armed : (s.outSlot r).state = .armed h c code) (context : s.context c = some x) :
    s.send r = (s.setOutSlot r { s.outSlot r with state := .free }).setContext c (some (x.send s.controller.time)) := by
  have same : (s.setOutSlot r { s.outSlot r with state := .free }).context c = some x := context
  simp only [send, armed, modifyContext, same, Option.map_some]

theorem outSlot_setPort (p : Port) (x : PortState) (r : SlotRef) (s : State) : (s.setPort p x).outSlot r = s.outSlot r := by
  simp only [outSlot, slots_setPort]

theorem context_setPort (p : Port) (x : PortState) (c : Fin 24) (s : State) : (s.setPort p x).context c = s.context c := by
  simp only [context, contexts_setPort]

theorem readCode_armed_low {s : State} {r : SlotRef} {h : Header} {c : Fin 24} {code : Wide}
    (armed : (s.outSlot r).state = .armed h c code) (a : Access) :
    s.readCode r false a = s.setPort .r ⟨none, some (.done (some (a.size.extract code.low)))⟩ := by
  simp only [readCode, armed]; rfl

/-- R50: the read of the high word is the send. -/
theorem readCode_armed_high {s : State} {r : SlotRef} {h : Header} {c : Fin 24} {code : Wide} {x : Context}
    (armed : (s.outSlot r).state = .armed h c code) (context : s.context c = some x) (a : Access) :
    s.readCode r true a =
      ((s.setPort .r ⟨none, some (.done (some (a.size.extract code.high)))⟩).setOutSlot r
        { s.outSlot r with state := .free }).setContext c (some (x.send s.controller.time)) := by
  have read : s.readCode r true a = (s.setPort .r ⟨none, some (.done (some (a.size.extract code.high)))⟩).send r := by
    simp only [readCode, armed]; rfl
  rw [read, send_armed (by rw [outSlot_setPort]; exact armed) (by rw [context_setPort]; exact context), outSlot_setPort,
    controller_setPort]

/-- R49: the states in which a read is answered with the fill pattern. -/
theorem readCode_fills {s : State} {r : SlotRef}
    (state : (s.outSlot r).state.tag ∈ [SlotState.free, .composing, .spoiled, .draining]) (high : Bool) (a : Access) :
    s.readCode r high a = s.setPort .r ⟨none, some (.done (some (a.size.extract 0xFFFFFFFF#32)))⟩ := by
  cases at_ : (s.outSlot r).state with
  | free | composing | spoiled | draining => simp only [readCode, at_]; rfl
  | closed | fetching | waitingKey | coding | armed => rw [at_] at state; simp [OutState.tag] at state

/-- R49, R51: the states in which a read comes before the code. -/
theorem readCode_early {s : State} {r : SlotRef}
    (state : (s.outSlot r).state.tag ∈ [SlotState.closed, .fetching, .waitingKey, .coding]) (high : Bool) (a : Access) :
    s.readCode r high a = s.holdRead r high a := by
  cases at_ : (s.outSlot r).state with
  | closed | fetching | waitingKey | coding => simp only [readCode, at_]
  | free | composing | spoiled | draining | armed => rw [at_] at state; simp [OutState.tag] at state

/-- R51: a read is held under the lane's hold limit. -/
theorem holdRead_held {s : State} {r : SlotRef} (limit : 0 < (s.setup.lanes.get r.lane).holdLimit) (high : Bool) (a : Access) :
    s.holdRead r high a =
      ({ s with slots := { s.slots with
          held := some ⟨r, high, s.controller.time, (s.setup.lanes.get r.lane).holdLimit⟩ } } : State).hold .r
        ⟨a, .codeHeld, s.sinceWake a.word⟩ := by
  rw [holdRead, if_neg (Nat.ne_of_gt limit)]; rfl

/-- R51, R52: with a hold limit of 0 it underruns at once. -/
theorem holdRead_unlimited {s : State} {r : SlotRef} (limit : (s.setup.lanes.get r.lane).holdLimit = 0) (high : Bool)
    (a : Access) :
    s.holdRead r high a = (s.setPort .r ⟨none, some (.done (some (a.size.extract 0xFFFFFFFF#32)))⟩).underrun r := by
  rw [holdRead, if_pos limit]; rfl

end State

/-- Settles O9: the map by the layout of the setup in force, a write by its port, its size and the MREST line, a read by the MREST
line. -/
theorem ringWriteIsJudged : Obligations.RingWriteIsJudged := by
  unfold Obligations.RingWriteIsJudged
  refine ⟨fun s word => ⟨fun unwatched => State.slotAt_unwatched unwatched word, fun n k w laidOut on watches => ?map⟩,
    fun s p a t hears outside here => ⟨fun write => ?write, fun read plain => ?read⟩⟩
  case map =>
    have found := State.slotAt_eq_some_iff laidOut on ((PartState.watches_iff _).mpr watches) word
    exact ⟨found .inbound n k w, found .outbound n k w⟩
  case write =>
    have arrives : exec (.memoryAccess p a) s = .next (((s.ringAccess p a t).relax).settle) :=
      congrArg Host.Outcome.next (State.arrive_ring hears outside here)
    rw [arrives]
    refine ⟨fun ring port => ?_, fun ring port => ?_, fun own => ⟨fun partly => ?_, fun full released => ?_,
      fun full asserted => ?_⟩⟩
    · rw [State.ringAccess_wrongPort write (.inl ⟨ring, port⟩)]
    · rw [State.ringAccess_wrongPort write (.inr ⟨ring, port⟩)]
    · rw [State.ringAccess_write write own, if_neg partly]
    · rw [State.ringAccess_write write own, if_pos full, State.passThrough_waits released]
    · rw [State.ringAccess_write write own, if_pos full, State.passThrough_rests_tracked asserted here]
  case read =>
    have arrives : exec (.memoryAccess p a) s = .next (((s.passThrough p a none).relax).settle) := by
      refine congrArg Host.Outcome.next ((State.arrive_ring hears outside here).trans ?_)
      rw [State.ringAccess_read read (plain.imp_right (Or.imp_right State.codeWord_none))]
    rw [arrives]
    refine ⟨fun released => ?_, fun asserted => ?_⟩
    · rw [State.passThrough_waits released]
    · rw [State.passThrough_rests asserted]

/-- Settles O21, by the state of the slot and the code word that is read. -/
theorem codeReadIsAnsweredByTheSlot : Obligations.CodeReadIsAnsweredByTheSlot := by
  unfold Obligations.CodeReadIsAnsweredByTheSlot
  refine ⟨fun time before a => ⟨rfl, State.sendNewest_append time before a⟩,
    fun s word size r w k hears outside here position => ?_⟩
  have reads : ∀ high, w = (if high then k + 1 else k) →
      exec (.codeWordRead word size) s = .next (((s.readCode r high ⟨false, word, size, 0⟩).relax).settle) :=
    fun high which => State.codeWordRead_ring hears outside here (which ▸ State.codeWord_some position high)
  refine ⟨fun h c code armed low => ?_, fun h c code x armed context high => ?_, fun state codeWord => ?_⟩
  · rw [reads false low, State.readCode_armed_low armed]
  · rw [reads true high, State.readCode_armed_high armed context]; rfl
  · rcases codeWord with low | high
    · rw [reads false low, State.readCode_fills state]
    · rw [reads true high, State.readCode_fills state]

/-- Settles O22, by the hold limit. -/
theorem earlyCodeReadIsHeld : Obligations.EarlyCodeReadIsHeld := by
  unfold Obligations.EarlyCodeReadIsHeld
  intro s word size r w k high hears outside here position which state limit
  rw [State.codeWordRead_ring hears outside here (which ▸ State.codeWord_some position high), State.readCode_early state]
  refine ⟨fun positive => ?_, fun zero => ?_⟩
  · rw [State.holdRead_held positive]
  · rw [State.holdRead_unlimited zero]

end Sys2Proof.Machine
end

section
/-! PROOF of CodeCompletionFollowsTheSlot and HoldLimitExpiryUnderruns: the completion of a CODE by its slot, and what an underrun
makes of a bound slot and of one whose frame is not taken yet. -/

namespace Sys2Proof.Machine

namespace State

/-! ## A CODE completes -/

/-- R51: the read held on a slot is answered. -/
theorem answerHeld_here {s : State} {q : HeldRead} {o : Outstanding} (held : s.slots.held = some q)
    (access : s.ports.r.access = some o) (w : Word) :
    s.answerHeld q.slot w = (s.setHeld none).setPort .r ⟨none, some (.done (some (o.access.size.extract w)))⟩ := by
  simp only [answerHeld, held, access, if_true]; rfl

theorem codeComplete_eq {s : State} {r : SlotRef} {key : Key} {id tn rn : Wide} {rec : PassageRecord}
    (busy : s.engine.operation = some (.code r key id tn rn rec)) :
    s.codeComplete = ((s.setOperation none).finishCode r (Config.challengeCode key id tn rn rec)).settle := by
  simp only [codeComplete, busy]

theorem finishCode_coding {s : State} {r : SlotRef} {h : Header} {c : Fin 24} (coding : (s.outSlot r).state = .coding h c)
    (code : Wide) : s.finishCode r code = (s.setMark (.code r) false).arm r h c code := by
  simp only [finishCode, coding]

/-- R48: an armed slot keeps its code position and loses its mark. -/
theorem setMark_setArmed (r : SlotRef) (h : Header) (c : Fin 24) (code : Wide) (s : State) :
    (s.setMark (.code r) false).setOutSlot r { (s.setMark (.code r) false).outSlot r with state := .armed h c code }
      = s.setOutSlot r ⟨.armed h c code, (s.outSlot r).codePosition, false⟩ := by
  have unmarked : (s.setMark (.code r) false).outSlot r = { s.outSlot r with mark := false } :=
    (outSlot_setOutSlot ..).trans (if_pos rfl)
  rw [unmarked]
  exact setOutSlot_setOutSlot ..

theorem held_setMark_code (r : SlotRef) (m : Bool) (s : State) : (s.setMark (.code r) m).slots.held = s.slots.held := rfl

/-- R48: with no read held on it a CODING slot is armed. -/
theorem finishCode_unheld {s : State} {r : SlotRef} {h : Header} {c : Fin 24} (coding : (s.outSlot r).state = .coding h c)
    (elsewhere : ∀ q, s.slots.held = some q → q.slot ≠ r) (code : Wide) :
    s.finishCode r code = s.setOutSlot r ⟨.armed h c code, (s.outSlot r).codePosition, false⟩ := by
  rw [finishCode_coding coding]
  cases held : s.slots.held with
  | none => simp only [arm, setMark_setArmed, held_setMark_code, held]
  | some q => simp only [arm, setMark_setArmed, held_setMark_code, held, if_neg (elsewhere q held)]

/-- R50, R51: the code answers the read held on the slot. -/
theorem finishCode_held {s : State} {q : HeldRead} {o : Outstanding} {h : Header} {c : Fin 24}
    (coding : (s.outSlot q.slot).state = .coding h c) (held : s.slots.held = some q) (access : s.ports.r.access = some o)
    (code : Wide) :
    s.finishCode q.slot code =
      let answered := ((s.setHeld none).setOutSlot q.slot ⟨.armed h c code, (s.outSlot q.slot).codePosition, false⟩).setPort .r
        ⟨none, some (.done (some (o.access.size.extract (codeHalf q.high code))))⟩
      if q.high then answered.send q.slot else answered := by
  have answered := answerHeld_here
    (s := s.setOutSlot q.slot ⟨.armed h c code, (s.outSlot q.slot).codePosition, false⟩) held access (codeHalf q.high code)
  have aside : ∀ (t : State) x, (t.setOutSlot q.slot x).setHeld none = (t.setHeld none).setOutSlot q.slot x := fun _ _ => rfl
  rw [finishCode_coding coding]
  simp only [arm, setMark_setArmed, held_setMark_code, held, if_true, answered, aside]

/-- R50, R51: a held read of the high word is the send. -/
theorem finishCode_sends {s : State} {q : HeldRead} {o : Outstanding} {h : Header} {c : Fin 24} {x : Context}
    (coding : (s.outSlot q.slot).state = .coding h c) (held : s.slots.held = some q) (high : q.high = true)
    (access : s.ports.r.access = some o) (context : s.context c = some x) (code : Wide) :
    s.finishCode q.slot code =
      (((s.setHeld none).setOutSlot q.slot ⟨.free, (s.outSlot q.slot).codePosition, false⟩).setPort .r
        ⟨none, some (.done (some (o.access.size.extract code.high)))⟩).setContext c
          (some (x.send s.controller.time)) := by
  have armed : ((((s.setHeld none).setOutSlot q.slot ⟨.armed h c code, (s.outSlot q.slot).codePosition, false⟩).setPort .r
      ⟨none, some (.done (some (o.access.size.extract code.high)))⟩).outSlot q.slot)
        = ⟨.armed h c code, (s.outSlot q.slot).codePosition, false⟩ := by
    rw [outSlot_setPort, outSlot_setOutSlot, if_pos rfl]
  have resent : ∀ (t : State) x y z, ((t.setOutSlot q.slot x).setPort .r y).setOutSlot q.slot z
      = ((t.setOutSlot q.slot x).setOutSlot q.slot z).setPort .r y := fun _ _ _ _ => rfl
  rw [finishCode_held coding held access, if_pos high, high]
  show State.send _ (State.setPort _ ⟨none, some (.done (some (o.access.size.extract code.high)))⟩ _) = _
  rw [send_armed (congrArg OutSlot.state armed) context, armed, resent, setOutSlot_setOutSlot]
  rfl

/-- R48: a slot that is no longer CODING loses its mark, and a DRAINING one goes to FREE. -/
theorem finishCode_dropped {s : State} {r : SlotRef} (other : ∀ h c, (s.outSlot r).state ≠ .coding h c) (code : Wide) :
    s.finishCode r code = s.setOutSlot r (s.outSlot r).dropResult := by
  unfold finishCode
  split
  · next h c coding => exact absurd coding (other h c)
  · rfl

/-! ## The hold limit expires -/

/-- R52: an underrun is counted. -/
def countUnderrun (r : SlotRef) (s : State) : State :=
  s.setLane r.lane
    { s.slots.lanes.get r.lane with underruns := (s.slots.lanes.get r.lane).underruns + 1 }

theorem inSlot_countUnderrun (r q : SlotRef) (s : State) : (s.countUnderrun r).inSlot q = s.inSlot q := by
  unfold countUnderrun inSlot; rw [lane_setLane]; split
  · next same => rw [same]
  · rfl

theorem outSlot_countUnderrun (r q : SlotRef) (s : State) : (s.countUnderrun r).outSlot q = s.outSlot q := by
  unfold countUnderrun outSlot; rw [lane_setLane]; split
  · next same => rw [same]
  · rfl

theorem underruns_countUnderrun (r : SlotRef) (n : Fin 8) (s : State) :
    ((s.countUnderrun r).slots.lanes.get n).underruns =
      if n = r.lane then (s.slots.lanes.get r.lane).underruns + 1 else (s.slots.lanes.get n).underruns := by
  unfold countUnderrun; rw [lane_setLane]; split <;> rfl

/-- R52: the underrun of a slot whose frame is not taken yet: its fetch is dropped and it is spoiled. -/
theorem underrun_fetched {s : State} {r : SlotRef} {h : Header}
    (fetched : (s.outSlot r).state = .closed h ∨ (s.outSlot r).state = .fetching h) :
    s.underrun r =
      ((s.countUnderrun r).dropJobs (· == .fetchFrame .outbound r)).spoil r (s.notice .underrun r none none none) := by
  rcases fetched with closed | fetching
  · simp only [underrun, closed]; rfl
  · simp only [underrun, fetching]; rfl

/-- R52, R72: the underrun of a bound slot: its context drops the binding and it is spoiled. -/
theorem underrun_bound {s : State} {r : SlotRef} {h : Header} {c : Fin 24} {x : Context}
    (bound : (s.outSlot r).state = .coding h c ∨ (s.outSlot r).state = .waitingKey h c) (context : s.context c = some x) :
    s.underrun r =
      ((s.countUnderrun r).setContext c (some x.dropBinding)).spoil r
        (s.notice .underrun r (some c) (some x.identity) none) := by
  have same : ∀ l : LaneSlots, (s.setLane r.lane l).context c = some x := fun _ => context
  rcases bound with coding | waitingKey
  · simp only [underrun, coding, modifyContext, boundNotice, same, context, Option.map_some]; rfl
  · simp only [underrun, waitingKey, modifyContext, boundNotice, same, context, Option.map_some]; rfl

/-- R28: a current job that is picked is abandoned. -/
theorem dropJobs_current {s : State} {p : Job → Bool} {k : Nat} {j : Job} {rest : List Job}
    (current : s.agent.position = some k) (head : s.agent.jobs = j :: rest) (picked : p j = true) :
    s.dropJobs p = { s with
      agent := ⟨s.agent.jobs.filter fun j => !p j, none, []⟩, arbiter := s.arbiter.map InFlight.abandon } := by
  have is : s.currentIs p = true := by simp only [currentIs, current, head, picked]
  rw [dropJobs, if_pos is]; rfl

/-- R28: another current job goes on. -/
theorem dropJobs_other {s : State} {p : Job → Bool}
    (other : s.agent.position = none ∨ ∀ j rest, s.agent.jobs = j :: rest → p j = false) :
    s.dropJobs p = { s with agent := { s.agent with jobs := s.agent.jobs.filter fun j => !p j } } := by
  have isNot : s.currentIs p = false := by
    unfold currentIs
    split
    · next j rest position head =>
      rcases other with idle | unpicked
      · rw [idle] at position; cases position
      · exact unpicked j rest head
    · rfl
  rw [dropJobs, if_neg (Bool.eq_false_iff.mp isNot)]

/-- R28: the jobs that are picked leave the list; else only what the current job is and the memory port change. -/
theorem dropJobs_form (p : Job → Bool) (s : State) : ∃ agent arbiter,
    s.dropJobs p = { s with agent := agent, arbiter := arbiter } ∧ agent.jobs = s.agent.jobs.filter fun j => !p j := by
  unfold dropJobs; dsimp only; split <;> exact ⟨_, _, rfl, rfl⟩

/-- R51, R52: from `s` to `t` the read held on slot `r` is answered with the fill pattern and its underrun is counted; the agent,
the memory port and the context table are left open. -/
structure Fills (r : SlotRef) (o : Outstanding) (s t : State) : Prop where
  controller : t.controller = s.controller
  path : t.path = s.path
  control : t.control = s.control
  load : t.load = s.load
  setup : t.setup = s.setup
  keys : t.keys = s.keys
  mem : t.mem = s.mem
  engine : t.engine = s.engine
  reports : t.reports = s.reports
  recent : t.contexts.recent = s.contexts.recent
  abandoned : t.contexts.abandoned = s.contexts.abandoned
  portC : t.port .c = s.port .c
  portR : t.port .r = ⟨none, some (.done (some (o.access.size.extract 0xFFFFFFFF#32)))⟩
  held : t.slots.held = none
  inSlot : ∀ q, t.inSlot q = s.inSlot q
  outSlot : ∀ q, t.outSlot q = s.outSlot q
  underruns : ∀ n, (t.slots.lanes.get n).underruns =
    if n = r.lane then (s.slots.lanes.get r.lane).underruns + 1 else (s.slots.lanes.get n).underruns

/-- R51: the state in which the held read has its fill pattern. -/
def filled (o : Outstanding) (s : State) : State :=
  (s.setHeld none).setPort .r ⟨none, some (.done (some (o.access.size.extract 0xFFFFFFFF#32)))⟩

/-- R51, R52: so does answering and counting, whatever becomes of the agent, the memory port and the context table. -/
theorem fills_counted (r : SlotRef) (o : Outstanding) (table : Table 24 (Option Context)) (agent : Agent)
    (arbiter : Option InFlight) (s : State) :
    Fills r o s { (s.filled o).countUnderrun r with
      contexts := { s.contexts with table := table }, agent := agent, arbiter := arbiter } where
  controller := rfl
  path := rfl
  control := rfl
  load := rfl
  setup := rfl
  keys := rfl
  mem := rfl
  engine := rfl
  reports := rfl
  recent := rfl
  abandoned := rfl
  portC := rfl
  portR := rfl
  held := rfl
  inSlot := fun q => inSlot_countUnderrun r q (s.filled o)
  outSlot := fun q => outSlot_countUnderrun r q (s.filled o)
  underruns := fun n => underruns_countUnderrun r n (s.filled o)

theorem holdLimitExpiry_eq {s : State} {q : HeldRead} {o : Outstanding} (held : s.slots.held = some q)
    (access : s.ports.r.access = some o) : s.holdLimitExpiry = ((s.filled o).underrun q.slot).settle := by
  simp only [holdLimitExpiry, held, answerHeld_here held access]; rfl

/-- R52, R72: the expiry on a bound slot. -/
theorem underrun_filled_bound {s : State} {r : SlotRef} {h : Header} {c : Fin 24} {x : Context} (o : Outstanding)
    (bound : (s.outSlot r).state = .coding h c ∨ (s.outSlot r).state = .waitingKey h c) (context : s.context c = some x) :
    ∃ t, (s.filled o).underrun r = t.spoil r (s.notice .underrun r (some c) (some x.identity) none) ∧ Fills r o s t
      ∧ t.agent = s.agent ∧ t.arbiter = s.arbiter
      ∧ t.contexts.table = s.contexts.table.set c (some x.dropBinding) :=
  ⟨_, underrun_bound (s := s.filled o) bound context,
    fills_counted r o (s.contexts.table.set c (some x.dropBinding)) s.agent s.arbiter s, rfl, rfl, rfl⟩

/-- R52, R28: the expiry on a slot whose frame is not taken yet. -/
theorem underrun_filled_fetched {s : State} {r : SlotRef} {h : Header} (o : Outstanding)
    (fetched : (s.outSlot r).state = .closed h ∨ (s.outSlot r).state = .fetching h) :
    ∃ t, (s.filled o).underrun r = t.spoil r (s.notice .underrun r none none none) ∧ Fills r o s t
      ∧ t.contexts.table = s.contexts.table
      ∧ t.agent.jobs = s.agent.jobs.filter (· != .fetchFrame .outbound r)
      ∧ (∀ k rest, s.agent.position = some k → s.agent.jobs = .fetchFrame .outbound r :: rest → s.abandonsJob t)
      ∧ (s.agent.position = none ∨ (∀ rest, s.agent.jobs ≠ .fetchFrame .outbound r :: rest) → s.keepsJob t) := by
  have underran := underrun_fetched (s := s.filled o) fetched
  obtain ⟨agent, arbiter, dropped, jobs⟩ := dropJobs_form (· == .fetchFrame .outbound r) ((s.filled o).countUnderrun r)
  refine ⟨_, underran, ?_, ?_, ?_, fun k rest current head => ?_, fun other => ?_⟩
  · rw [dropped]; exact fills_counted r o s.contexts.table agent arbiter s
  · rw [dropped]; rfl
  · rw [dropped]; exact jobs
  · rw [dropJobs_current (s := (s.filled o).countUnderrun r) (p := (· == .fetchFrame .outbound r)) current head
      (beq_self_eq_true _)]
    exact ⟨rfl, rfl, rfl⟩
  · have unpicked : ∀ j rest, s.agent.jobs = j :: rest → s.agent.position = none ∨ (j == .fetchFrame .outbound r) = false := by
      intro j rest head
      refine other.imp_right fun another => beq_eq_false_iff_ne.mpr fun same => another rest (same ▸ head)
    have spared : s.agent.position = none ∨ ∀ j rest, s.agent.jobs = j :: rest → (j == .fetchFrame .outbound r) = false :=
      or_iff_not_imp_left.mpr fun current j rest head => (unpicked j rest head).resolve_left current
    rw [dropJobs_other (s := (s.filled o).countUnderrun r) spared]
    exact ⟨rfl, rfl, rfl⟩

/-- R72: a binding dropped without a send. -/
theorem dropBinding_eq (x : Context) : x.dropBinding =
    { x with
      bound := none
      accepted := x.accepted - 1
      state := if x.state = .challenging then (if ∃ a ∈ x.attempts, a.sentAt ≠ none then .awaiting else .keyed)
        else x.state } := by
  have sent : (x.attempts.any fun a => a.sentAt.isSome) = true ↔ ∃ a ∈ x.attempts, a.sentAt ≠ none := by
    simp only [List.any_eq_true, Option.isSome_iff_ne_none]
  simp only [Context.dropBinding, sent]

/-- R53: the spoil that ends an underrun: the slot is SPOILED and joins the pending list, its CODE leaves the ready list, and
nothing is left of the held read. -/
theorem spoil_of_fills {s t : State} {r : SlotRef} {o : Outstanding} {h : Header} (fills : Fills r o s t)
    (frame : (s.outSlot r).state.header = some h) (report : Report) :
    let u := t.spoil r report
    u.outSlot r = { s.outSlot r with state := .spoiled h (some report) }
      ∧ u.reports = { s.reports with waiting := s.reports.waiting ++ [.outbound r] }
      ∧ u.engine = { s.engine with ready := s.engine.ready.filter (· != .code r) }
      ∧ u.slots.held = none ∧ u.port .r = t.port .r := by
  have frame' : (t.outSlot r).state.header = some h := by rw [fills.outSlot]; exact frame
  obtain ⟨held, port⟩ := unanswered_spoil (s := t) (r := r) (fun q held => by rw [fills.held] at held; cases held) report
  refine ⟨?_, ?_, ?_, held.trans fills.held, port⟩
  · rw [outSlot_spoil frame', if_pos rfl, fills.outSlot]
  · rw [reports_spoil, frame', fills.reports]; rfl
  · rw [engine_spoil, frame', fills.engine]; rfl

/-- R52: a held read's slot is bound to a context, or its frame is not taken yet. -/
theorem early_cases {x : OutState} (early : x.tag ∈ [SlotState.closed, .fetching, .waitingKey, .coding]) :
    (∃ h c, x = .coding h c ∨ x = .waitingKey h c) ∨ ∃ h, x = .closed h ∨ x = .fetching h := by
  cases x with
  | closed h => exact .inr ⟨h, .inl rfl⟩
  | fetching h => exact .inr ⟨h, .inr rfl⟩
  | coding h c => exact .inl ⟨h, c, .inl rfl⟩
  | waitingKey h c => exact .inl ⟨h, c, .inr rfl⟩
  | free | composing | armed | spoiled | draining => simp [OutState.tag] at early

theorem header_of_bound {x : OutState} {h : Header} {c : Fin 24} (bound : x = .coding h c ∨ x = .waitingKey h c) :
    x.header = some h ∧ x.boundContext = some c := by
  rcases bound with rfl | rfl <;> exact ⟨rfl, rfl⟩

theorem header_of_fetched {x : OutState} {h : Header} (fetched : x = .closed h ∨ x = .fetching h) : x.header = some h := by
  rcases fetched with rfl | rfl <;> rfl

/-- R52: every expiry fills the read, counts the underrun and spoils the slot. -/
theorem underrun_filled {s : State} {r : SlotRef} (o : Outstanding)
    (early : (s.outSlot r).state.tag ∈ [SlotState.closed, .fetching, .waitingKey, .coding])
    (isOpen : ∀ c, (s.outSlot r).state.boundContext = some c → s.context c ≠ none) :
    ∃ t h report, (s.filled o).underrun r = t.spoil r report ∧ Fills r o s t ∧ (s.outSlot r).state.header = some h := by
  rcases early_cases early with ⟨h, c, bound⟩ | ⟨h, fetched⟩
  · obtain ⟨header, named⟩ := header_of_bound bound
    obtain ⟨x, context⟩ := Option.ne_none_iff_exists'.mp (isOpen c named)
    obtain ⟨t, underran, fills, -⟩ := underrun_filled_bound o bound context
    exact ⟨t, h, _, underran, fills, header⟩
  · obtain ⟨t, underran, fills, -⟩ := underrun_filled_fetched o fetched
    exact ⟨t, h, _, underran, fills, header_of_fetched fetched⟩

end State

/-- Settles O36, by the state of the slot and the read held on it. -/
theorem codeCompletionFollowsTheSlot : Obligations.CodeCompletionFollowsTheSlot := by
  unfold Obligations.CodeCompletionFollowsTheSlot
  intro s r key id tn rn rec busy idle x code
  have done : exec .codeComplete s = .next (idle.finishCode r code).settle :=
    congrArg Host.Outcome.next (State.codeComplete_eq busy)
  rw [done]
  refine ⟨fun h c coding elsewhere => ?unheld, ?low, ?high, fun h report spoiled => ?spoiled, fun h draining => ?draining⟩
  case unheld => rw [State.finishCode_unheld (s := idle) coding elsewhere]; rfl
  case low =>
    rintro h c q o coding held rfl low access
    rw [State.finishCode_held (s := idle) coding held access, low]; rfl
  case high =>
    rintro h c q o y coding held rfl high access context
    rw [State.finishCode_sends (s := idle) coding held high access context]; rfl
  case spoiled =>
    have dropped : x.dropResult = { x with mark := false } := by simp only [OutSlot.dropResult, spoiled]
    rw [State.finishCode_dropped (s := idle) fun _ _ coding => nomatch spoiled.symm.trans coding]
    exact congrArg (fun y => Host.Outcome.next (idle.setOutSlot r y).settle) dropped
  case draining =>
    have dropped : x.dropResult = ⟨.free, x.codePosition, false⟩ := by simp only [OutSlot.dropResult, draining]
    rw [State.finishCode_dropped (s := idle) fun _ _ coding => nomatch draining.symm.trans coding]
    exact congrArg (fun y => Host.Outcome.next (idle.setOutSlot r y).settle) dropped

/-- Settles O23: what every expiry does, then a bound slot's context and a fetch that is not done. -/
theorem holdLimitExpiryUnderruns : Obligations.HoldLimitExpiryUnderruns := by
  unfold Obligations.HoldLimitExpiryUnderruns
  intro s q o held access r spoiled early isOpen
  obtain ⟨t, h, report, underran, fills, header⟩ := State.underrun_filled o early isOpen
  obtain ⟨-, reports, engine, unheld, portR⟩ := State.spoil_of_fills fills header report
  have spoils := State.spoils_spoil r report t
  have contexts := State.contexts_spoil r report t
  have counted := fun n => (spoils.underruns n).trans (fills.underruns n)
  rw [← underran] at reports engine unheld portR spoils contexts counted
  refine ⟨(s.filled o).underrun r, congrArg Host.Outcome.next (State.holdLimitExpiry_eq held access), portR.trans fills.portR,
    spoils.portC.trans fills.portC, unheld, (counted _).trans (if_pos rfl),
    fun d other => (spoils.outSlot d other).trans (fills.outSlot d), fun d => (spoils.inSlot d).trans (fills.inSlot d),
    fun n other => (counted n).trans (if_neg other), reports, engine, (congrArg Contexts.recent contexts).trans fills.recent,
    (congrArg Contexts.abandoned contexts).trans fills.abandoned, spoils.controller.trans fills.controller,
    spoils.control.trans fills.control, spoils.load.trans fills.load, spoils.setup.trans fills.setup,
    spoils.keys.trans fills.keys, spoils.mem.trans fills.mem, spoils.path.trans fills.path,
    fun h c x bound context => ?bound, fun h fetched => ?fetched⟩
  case bound =>
    obtain ⟨t, underran, fills, agent, arbiter, table⟩ := State.underrun_filled_bound o bound context
    obtain ⟨slot, -⟩ := State.spoil_of_fills fills (State.header_of_bound bound).1
      (s.notice .underrun r (some c) (some x.identity) none)
    have spoils := State.spoils_spoil r (s.notice .underrun r (some c) (some x.identity) none) t
    have contexts : ∀ d, ((s.filled o).underrun r).context d = if d = c then some x.dropBinding else s.context d := fun d => by
      rw [underran, State.context_eq, State.contexts_spoil, table, Table.get_set]; rfl
    refine ⟨underran ▸ slot, underran ▸ spoils.agent.trans agent, underran ▸ spoils.arbiter.trans arbiter,
      fun d other => (contexts d).trans (if_neg other), ?_⟩
    rw [contexts, if_pos rfl, State.dropBinding_eq]
  case fetched =>
    obtain ⟨t, underran, fills, table, jobs, abandons, keeps⟩ := State.underrun_filled_fetched o fetched
    obtain ⟨slot, -⟩ := State.spoil_of_fills fills (State.header_of_fetched fetched)
      (s.notice .underrun r none none none)
    have spoils := State.spoils_spoil r (s.notice .underrun r none none none) t
    rw [← underran] at slot spoils
    refine ⟨slot, fun d => ?_, (congrArg Agent.jobs spoils.agent).trans jobs, fun k rest current head => ?_, fun other => ?_⟩
    · rw [underran, State.context_eq, State.contexts_spoil, table]; rfl
    · have abandoned := abandons k rest current head
      unfold State.abandonsJob at abandoned ⊢
      rw [spoils.agent, spoils.arbiter]; exact abandoned
    · have kept := keeps other
      unfold State.keepsJob at kept ⊢
      rw [spoils.agent, spoils.arbiter]; exact kept

end Sys2Proof.Machine
end

section
/-! PROOF of AnnounceIsAbsorbed: the lowest context that holds an identity, a lane's bit in a lane set, and the take of an ANNOUNCE
whose identity is open. -/

namespace Sys2Proof.Machine

namespace Table

variable {n : Nat} {α : Type}

/-- A search gives the lowest index whose cell satisfies the predicate. -/
theorem first_eq_some_iff {p : α → Bool} {t : Table n α} {i : Fin n} :
    t.first p = some i ↔ p (t.get i) = true ∧ ∀ j, j < i → p (t.get j) = false := by
  constructor
  · intro found
    refine ⟨first_some found, fun j lower => Bool.eq_false_iff.mpr fun also => ?_⟩
    exact absurd (first_lowest found also) (not_le.mpr lower)
  · rintro ⟨here, lower⟩
    cases found : t.first p with
    | none => exact absurd (first_none found i) (by rw [here]; decide)
    | some j =>
      rcases lt_trichotomy j i with below | rfl | above
      · exact absurd (first_some found) (by rw [lower j below]; decide)
      · rfl
      · exact absurd (first_lowest found here) (not_le.mpr above)

/-- A search gives nothing when no cell satisfies the predicate. -/
theorem first_eq_none_iff {p : α → Bool} {t : Table n α} : t.first p = none ↔ ∀ i, p (t.get i) = false := by
  refine ⟨first_none, fun nowhere => ?_⟩
  cases found : t.first p with
  | none => rfl
  | some i => exact absurd (first_some found) (by rw [nowhere i]; decide)

end Table

/-! ## Lane sets -/

theorem laneBit_eq_twoPow (n : Fin 8) : laneBit n = BitVec.twoPow 8 n.val := by
  rw [laneBit, BitVec.twoPow_eq]
  revert n; decide

/-- Formats: lane `n` is bit `n` of a lane set. -/
theorem laneBit_getLsbD (n m : Fin 8) : (laneBit n).getLsbD m.val = decide (m = n) := by
  rw [laneBit_eq_twoPow, BitVec.getLsbD_twoPow]
  simp [n.isLt, Fin.ext_iff, eq_comm]

theorem laneIn_eq_getLsbD (n : Fin 8) (set : BitVec 8) : laneIn n set = set.getLsbD n.val := by
  have present : laneBit n ≠ 0#8 := fun zero => by
    have bit := laneBit_getLsbD n n
    rw [zero] at bit; simp at bit
  rw [laneIn, laneBit_eq_twoPow, BitVec.and_twoPow, ← laneBit_eq_twoPow]
  cases set.getLsbD n.val <;> simp [present]

/-! ## The states of a context -/

theorem ContextState.challengeable_iff (x : ContextState) :
    x.challengeable = true ↔ x ∈ [ContextState.derivingKey, .keyed, .challenging, .awaiting] := by
  cases x <;> decide

theorem ContextState.closable_iff (x : ContextState) : x.closable = true ↔ x ∉ [ContextState.closing, .reporting] := by
  cases x <;> decide

/-- R63: what an absorbed ANNOUNCE makes of its context. -/
theorem Context.absorb_eq (lane : Fin 8) (x : Context) :
    x.absorb lane =
      if x.state ∈ [ContextState.derivingKey, .keyed, .challenging, .awaiting] then
        { x with hearings := min 255 (x.hearings + 1), lanes := x.lanes ||| laneBit lane }
      else x := by
  simp only [Context.absorb, ContextState.challengeable_iff]

namespace State

/-! ## The context that holds an identity -/

/-- R62: a context holds an identity. -/
def HoldsIdentity (s : State) (identity : Wide) (c : Fin 24) : Prop := ∃ x, s.context c = some x ∧ x.identity = identity

theorem holds_cell_iff (s : State) (identity : Wide) (c : Fin 24) :
    (match s.contexts.table.get c with | some x => x.identity == identity | none => false) = true ↔ s.HoldsIdentity identity c := by
  unfold HoldsIdentity
  rw [context_eq]
  cases s.contexts.table.get c <;> simp

theorem findContext_eq_some_iff {s : State} {identity : Wide} {c : Fin 24} :
    s.findContext identity = some c ↔ s.HoldsIdentity identity c ∧ ∀ d, d < c → ¬ s.HoldsIdentity identity d := by
  simp only [← holds_cell_iff, Bool.not_eq_true]
  exact Table.first_eq_some_iff

theorem findContext_eq_none_iff {s : State} {identity : Wide} :
    s.findContext identity = none ↔ ∀ c, ¬ s.HoldsIdentity identity c := by
  simp only [← holds_cell_iff, Bool.not_eq_true]
  exact Table.first_eq_none_iff

theorem modifyContext_of_open {c : Fin 24} {x : Context} {s : State} (context : s.context c = some x) (f : Context → Context) :
    s.modifyContext c f = s.setContext c (some (f x)) := by
  rw [modifyContext, context, Option.map_some]

/-- R63: the take of an ANNOUNCE whose identity is open. -/
theorem takeAnnounce_absorbed {s : State} {a : Announce} {c : Fin 24} {x : Context}
    (found : s.findContext a.identity = some c) (context : s.context c = some x) (h : Header) (r : SlotRef) :
    s.takeAnnounce h r a = (s.setInSlot r .free).setContext c (some (x.absorb r.lane)) := by
  simp only [takeAnnounce, found]
  exact modifyContext_of_open (s := s.setInSlot r .free) context _

end State

/-- Settles O24: the lookup by the search of the table, the take by the context that is found. -/
theorem announceIsAbsorbed : Obligations.AnnounceIsAbsorbed := by
  unfold Obligations.AnnounceIsAbsorbed
  refine ⟨fun s identity => ⟨fun c => State.findContext_eq_some_iff, State.findContext_eq_none_iff⟩, laneBit_getLsbD, ?_⟩
  intro s h r a c x found context
  rw [State.takeAnnounce_absorbed found context, Context.absorb_eq]

end Sys2Proof.Machine
end

section
/-! PROOF of EveryStepKeepsIdentitiesUnique: most operations bring no identity into the context table or onto the recent passage list,
one lemma per operation; the take of an ANNOUNCE and the freeing of a PAID context move one in under their own conditions. -/

namespace Sys2Proof.Machine

namespace State

/-! ## Operations that bring no identity in -/

/-- From `s` to `t` no context takes an identity that it did not hold, and no identity joins the recent passage list. -/
structure NoNewIdentity (s t : State) : Prop where
  context : ∀ c y, t.context c = some y → ∃ x, s.context c = some x ∧ x.identity = y.identity
  recent : t.contexts.recent.Sublist s.contexts.recent

theorem NoNewIdentity.refl (s : State) : s.NoNewIdentity s := ⟨fun _ y hy => ⟨y, hy, rfl⟩, List.Sublist.refl _⟩

theorem NoNewIdentity.trans {s t u : State} (h : s.NoNewIdentity t) (g : t.NoNewIdentity u) : s.NoNewIdentity u where
  context c z hz := by
    obtain ⟨y, hy, same⟩ := g.context c z hz
    obtain ⟨x, hx, same'⟩ := h.context c y hy
    exact ⟨x, hx, same'.trans same⟩
  recent := g.recent.trans h.recent

theorem NoNewIdentity.of_contexts {s t : State} (contexts : t.contexts = s.contexts) : s.NoNewIdentity t := by
  refine ⟨fun c y hy => ⟨y, ?_, rfl⟩, by rw [contexts]⟩
  rw [← hy, context_eq, context_eq, contexts]

/-- The context table and the recent passage list are emptied. -/
theorem NoNewIdentity.of_empty {s t : State} (table : ∀ c, t.context c = none) (recent : t.contexts.recent = []) :
    s.NoNewIdentity t where
  context c y hy := by rw [table c] at hy; cases hy
  recent := recent ▸ List.nil_sublist _

/-- Only the recent passage list changes, by removal. -/
theorem NoNewIdentity.of_recent {s t : State} (table : t.contexts.table = s.contexts.table)
    (recent : t.contexts.recent.Sublist s.contexts.recent) : s.NoNewIdentity t where
  context c y hy := ⟨y, by rw [← hy, context_eq, context_eq, table], rfl⟩
  recent := recent

theorem recentlyPaid_eq_false_iff (s : State) (identity : Wide) :
    s.recentlyPaid identity = false ↔ identity ∉ s.contexts.recent.map (·.identity) := by
  rw [← Bool.not_eq_true, not_iff_not, recentlyPaid, List.any_eq_true, List.mem_map]
  simp only [beq_iff_eq]

/-- R66, R84: identities that were unique stay so. -/
theorem NoNewIdentity.identities {s t : State} (old : s.NoNewIdentity t) (unique : s.identities) : t.identities := by
  obtain ⟨contexts, recent, apart⟩ := unique
  have listed := old.recent.map RecentEntry.identity
  refine ⟨fun c c' y y' hy hy' same => ?_, recent.sublist listed, fun c y hy => ?_⟩
  · obtain ⟨x, hx, e⟩ := old.context c y hy
    obtain ⟨x', hx', e'⟩ := old.context c' y' hy'
    exact contexts c c' x x' hx hx' (e.trans (same.trans e'.symm))
  · obtain ⟨x, hx, e⟩ := old.context c y hy
    have unpaid := (recentlyPaid_eq_false_iff s _).mp (apart c x hx)
    rw [recentlyPaid_eq_false_iff, ← e]
    exact fun paid => unpaid (listed.mem paid)

theorem noNew_modifyContext (c : Fin 24) (f : Context → Context) (s : State)
    (same : ∀ x, (f x).identity = x.identity := by exact fun _ => rfl) : s.NoNewIdentity (s.modifyContext c f) := by
  refine ⟨fun d y hy => ?_, List.Sublist.refl _⟩
  rw [context_modifyContext] at hy
  split at hy
  · next here =>
    obtain ⟨x, hx, rfl⟩ := Option.map_eq_some_iff.mp hy
    exact ⟨x, by rw [here]; exact hx, (same x).symm⟩
  · exact ⟨y, hy, rfl⟩

theorem noNew_setContext {c : Fin 24} {x y : Context} {s : State} (context : s.context c = some x)
    (same : y.identity = x.identity) : s.NoNewIdentity (s.setContext c (some y)) := by
  refine ⟨fun d z hz => ?_, List.Sublist.refl _⟩
  rw [context_setContext] at hz
  split at hz
  · next here => cases hz; exact ⟨x, by rw [here]; exact context, same.symm⟩
  · exact ⟨z, hz, rfl⟩

theorem noNew_mapContexts (f : Context → Context) (s : State)
    (same : ∀ x, (f x).identity = x.identity := by exact fun _ => rfl) : s.NoNewIdentity (s.mapContexts f) := by
  refine ⟨fun d y hy => ?_, List.Sublist.refl _⟩
  rw [context_mapContexts] at hy
  obtain ⟨x, hx, rfl⟩ := Option.map_eq_some_iff.mp hy
  exact ⟨x, hx, (same x).symm⟩

theorem noNew_ascending {f : Fin 24 → State → State} (step : ∀ c (s : State), s.NoNewIdentity (f c s)) (s : State) :
    s.NoNewIdentity (Table.ascending 24 f s) :=
  Table.ascending_keeps (P := fun t => s.NoNewIdentity t) (fun c t h => h.trans (step c t)) s (NoNewIdentity.refl s)

/-! ## Slots and contexts -/

theorem noNew_spoil (r : SlotRef) (report : Report) (s : State) : s.NoNewIdentity (s.spoil r report) :=
  .of_contexts (contexts_spoil ..)

theorem noNew_answerHeld (r : SlotRef) (w : Word) (s : State) : s.NoNewIdentity (s.answerHeld r w) :=
  .of_contexts (contexts_answerHeld ..)

theorem contexts_dropJobs (p : Job → Bool) (s : State) : (s.dropJobs p).contexts = s.contexts := by
  obtain ⟨agent, arbiter, eq, -⟩ := dropJobs_form p s
  rw [eq]

theorem noNew_send (r : SlotRef) (s : State) : s.NoNewIdentity (s.send r) := by
  unfold send; split
  · have freed : s.NoNewIdentity (s.setOutSlot r { s.outSlot r with state := .free }) := .of_contexts rfl
    exact freed.trans (noNew_modifyContext ..)
  · exact NoNewIdentity.refl s

theorem noNew_underrun (r : SlotRef) (s : State) : s.NoNewIdentity (s.underrun r) := by
  have counted : s.NoNewIdentity (s.countUnderrun r) := .of_contexts rfl
  have fetched : ∀ p (t : State), t.NoNewIdentity (t.dropJobs p) := fun p t => .of_contexts (contexts_dropJobs ..)
  have bound : ∀ c (t : State), t.NoNewIdentity (t.modifyContext c Context.dropBinding) :=
    fun c t => noNew_modifyContext c _ t
  unfold underrun
  split
  · exact (counted.trans (fetched ..)).trans (noNew_spoil ..)
  · exact (counted.trans (fetched ..)).trans (noNew_spoil ..)
  · exact (counted.trans (bound ..)).trans (noNew_spoil ..)
  · exact (counted.trans (bound ..)).trans (noNew_spoil ..)
  · exact NoNewIdentity.refl s

theorem noNew_close (code : PassageCode) (c : Fin 24) (s : State) : s.NoNewIdentity (s.close code c) :=
  (noNew_modifyContext c _ s fun x => by split <;> rfl).trans (.of_contexts (contexts_close code c s))

theorem noNew_endClosing (c : Fin 24) (s : State) : s.NoNewIdentity (s.endClosing c) :=
  (noNew_modifyContext c (fun x => { x with state := .reporting }) s).trans (.of_contexts rfl)

theorem noNew_closeHolders (k : Fin 48) (s : State) : s.NoNewIdentity (s.closeHolders k) := by
  refine noNew_ascending (fun c t => ?_) s
  split
  · split
    · exact noNew_close ..
    · exact NoNewIdentity.refl t
  · exact NoNewIdentity.refl t

theorem noNew_purgeContexts (s : State) : s.NoNewIdentity s.purgeContexts := by
  have each : ∀ c (t : State), t.NoNewIdentity (t.purgeContext c) := fun c t => by
    unfold purgeContext; split
    · exact NoNewIdentity.refl t
    · split
      · exact noNew_endClosing ..
      · exact noNew_close ..
  exact ((noNew_mapContexts _ s).trans (noNew_ascending each _)).trans (noNew_mapContexts ..)

theorem identity_trim (n : Fin 8) (x : Context) : (x.trim n).identity = x.identity := by
  unfold Context.trim; dsimp only; split <;> rfl

theorem noNew_restartContext (n : Fin 8) (c : Fin 24) (s : State) : s.NoNewIdentity (s.restartContext n c) := by
  unfold restartContext
  split
  · exact NoNewIdentity.refl s
  · next x context =>
    split
    · split
      · refine NoNewIdentity.trans ?_ (noNew_close ..)
        split
        · exact noNew_setContext context rfl
        · exact NoNewIdentity.refl s
      · split
        · exact noNew_setContext context (identity_trim n x)
        · exact NoNewIdentity.refl s
    · exact NoNewIdentity.refl s

theorem noNew_restartLane (n : Fin 8) (s : State) : s.NoNewIdentity (s.restartLane n) := by
  have answered : s.NoNewIdentity (s.answerHeldInLane n) := by
    unfold answerHeldInLane; split
    · split
      · exact noNew_answerHeld ..
      · exact NoNewIdentity.refl s
    · exact NoNewIdentity.refl s
  have released : ∀ t : State, t.NoNewIdentity ((t.releaseLane n).dropCodes n) := fun _ => .of_contexts rfl
  have dropped : ∀ t : State, t.NoNewIdentity ((t.dropJobs (Job.fetchesLane n)).dropLaneReports n) := fun t =>
    .of_contexts (contexts_dropJobs (Job.fetchesLane n) t)
  exact ((answered.trans (released _)).trans (dropped _)).trans (noNew_ascending (noNew_restartContext n) _)

/-! ## Engine, report writer and load unit -/

theorem noNew_setMark (h : Holder) (m : Bool) (s : State) : s.NoNewIdentity (s.setMark h m) := by
  cases h with
  | code | unwrap => exact .of_contexts rfl
  | verify c | derive c => exact noNew_modifyContext c (fun x => { x with mark := m }) s

theorem noNew_weighEngine (s : State) : s.NoNewIdentity s.weighEngine := by
  unfold weighEngine
  split
  · split
    · exact NoNewIdentity.refl s
    · next h _ =>
      split
      · exact NoNewIdentity.refl s
      · have left : s.NoNewIdentity (s.leaveReady h) := .of_contexts rfl
        exact (left.trans (noNew_setMark ..)).trans (.of_contexts rfl)
  · exact NoNewIdentity.refl s

theorem noNew_settle (s : State) : s.NoNewIdentity s.settle := by
  obtain ⟨⟨jobs, write, eq⟩, -⟩ := s.weighEngine.weighReports_spec
  have written : s.weighEngine.NoNewIdentity s.weighEngine.weighReports := .of_contexts (by rw [eq])
  exact (noNew_weighEngine s).trans written

theorem noNew_relax (s : State) : s.NoNewIdentity s.relax := by
  unfold relax; split
  · exact .of_contexts rfl
  · exact NoNewIdentity.refl s

theorem noNew_relax_settle (s : State) : s.NoNewIdentity s.relax.settle := (noNew_relax s).trans (noNew_settle _)

theorem noNew_rouse (s : State) : s.NoNewIdentity s.rouse := .of_contexts (by rw [rouse_eq])

theorem noNew_endOperation (h : Holder) (s : State) : s.NoNewIdentity (s.endOperation h) :=
  NoNewIdentity.trans (t := s.setOperation none) (.of_contexts rfl) (noNew_setMark ..)

theorem noNew_codeComplete (s : State) : s.NoNewIdentity s.codeComplete := by
  have armed : ∀ r h c code (t : State), t.NoNewIdentity (t.arm r h c code) := fun r h c code t => by
    have set : t.NoNewIdentity (t.setOutSlot r { t.outSlot r with state := .armed h c code }) := .of_contexts rfl
    unfold arm
    dsimp only
    split
    · split
      · split
        · exact (set.trans (noNew_answerHeld ..)).trans (noNew_send ..)
        · exact set.trans (noNew_answerHeld ..)
      · exact set
    · exact set
  have finished : ∀ r code (t : State), t.NoNewIdentity (t.finishCode r code) := fun r code t => by
    unfold finishCode; split
    · exact (noNew_setMark ..).trans (armed ..)
    · exact .of_contexts rfl
  unfold codeComplete; split
  · have idle : s.NoNewIdentity (s.setOperation none) := .of_contexts rfl
    exact (idle.trans (finished ..)).trans (noNew_settle _)
  · exact NoNewIdentity.refl s

theorem contexts_startCoding (r : SlotRef) (s : State) : (s.startCoding r).contexts = s.contexts := by
  unfold startCoding; split <;> rfl

theorem noNew_deriveComplete (s : State) : s.NoNewIdentity s.deriveComplete := by
  have finished : ∀ c key (t : State), t.NoNewIdentity (t.finishDerive c key) := fun c key t => by
    unfold finishDerive
    split
    · exact NoNewIdentity.refl t
    · next x context =>
      split
      · have keyed : t.NoNewIdentity (t.setContext c (some (x.keyed key))) := noNew_setContext context rfl
        dsimp only
        split
        · exact keyed.trans (.of_contexts (contexts_startCoding ..))
        · exact keyed
      · split
        · exact noNew_endClosing ..
        · exact NoNewIdentity.refl t
  unfold deriveComplete; split
  · exact ((noNew_endOperation ..).trans (finished ..)).trans (noNew_settle _)
  · exact NoNewIdentity.refl s

theorem noNew_verifyComplete (s : State) : s.NoNewIdentity s.verifyComplete := by
  have finished : ∀ c m (t : State), t.NoNewIdentity (t.finishVerify c m) := fun c m t => by
    unfold finishVerify
    split
    · exact NoNewIdentity.refl t
    · next x context =>
      split
      · refine NoNewIdentity.trans ?_ (.of_contexts (contexts_joinReports ..))
        exact noNew_setContext context rfl
      · split
        · exact noNew_endClosing ..
        · exact NoNewIdentity.refl t
  unfold verifyComplete; split
  · exact ((noNew_endOperation ..).trans (finished ..)).trans (noNew_settle _)
  · exact NoNewIdentity.refl s

theorem noNew_unwrapComplete (s : State) : s.NoNewIdentity s.unwrapComplete := by
  have applied : ∀ d key o (t : State), t.NoNewIdentity (t.applyRecord d key o) := fun d key o t => by
    unfold applyRecord
    split
    · next k =>
      split
      · exact .of_contexts rfl
      · have marked : t.NoNewIdentity ((t.raiseSerial k d.serial).setEntry k (t.keys.entries.get k).revoke.settle) :=
          .of_contexts rfl
        exact marked.trans (noNew_closeHolders ..)
    · exact NoNewIdentity.refl t
  have ended : ∀ d o (t : State), t.NoNewIdentity (t.endLoad d o) := fun _ _ _ => .of_contexts rfl
  unfold unwrapComplete; split
  · exact (((noNew_endOperation ..).trans (applied ..)).trans (ended ..)).trans (noNew_settle _)
  · exact NoNewIdentity.refl s

/-! ## Accesses -/

theorem noNew_setPort (p : Port) (x : PortState) (s : State) : s.NoNewIdentity (s.setPort p x) :=
  .of_contexts (contexts_setPort ..)

theorem noNew_supply (p : Port) (size : Size) (w : Word) (s : State) : s.NoNewIdentity (s.supply p size w) :=
  .of_contexts (contexts_supply ..)

theorem noNew_refuse (p : Port) (kind : RefusalKind) (address : BitVec 22) (s : State) :
    s.NoNewIdentity (s.refuse p kind address) := .of_contexts (contexts_refuse ..)

theorem noNew_passThrough (p : Port) (a : Access) (track : Option SlotWord) (s : State) :
    s.NoNewIdentity (s.passThrough p a track) := by
  unfold passThrough
  split
  · split <;> exact noNew_refuse ..
  · exact noNew_setPort ..

theorem noNew_readCode (r : SlotRef) (high : Bool) (a : Access) (s : State) : s.NoNewIdentity (s.readCode r high a) := by
  have held : s.NoNewIdentity (s.holdRead r high a) := by
    unfold holdRead; dsimp only; split
    · exact (noNew_supply ..).trans (noNew_underrun ..)
    · exact .of_contexts rfl
  have supplied : ∀ w, s.NoNewIdentity (s.supply .r a.size w) := fun _ => noNew_supply ..
  unfold readCode
  split
  · dsimp only; split
    · exact (supplied _).trans (noNew_send ..)
    · exact supplied _
  · exact held
  · exact held
  · exact held
  · exact held
  · exact supplied _
  · exact supplied _
  · exact supplied _
  · exact supplied _

theorem noNew_command (code : BitVec 8) (operand : BitVec 24) (s : State) : s.NoNewIdentity (s.command code operand) := by
  have carried : ∀ c, s.NoNewIdentity (s.carryOut c code operand) := fun c => by
    cases c with
    | laneRestart =>
      have reported : ∀ t : State, t.NoNewIdentity (t.result code .done 0) := fun _ => .of_contexts rfl
      exact (noNew_restartLane (Fin.ofNat 8 operand.toNat) s).trans (reported _)
    | setup | rest | releaseReports | clearAttention => exact .of_contexts rfl
  have declined : ∀ o, s.NoNewIdentity (s.result code o 0) := fun _ => .of_contexts rfl
  unfold command
  split
  · exact carried _
  · exact (carried _).trans (noNew_rouse _)
  · exact (declined _).trans (noNew_rouse _)
  · exact NoNewIdentity.refl s

theorem contexts_takeLoadWord (i : Fin 16) (v : Word) (s : State) : (s.takeLoadWord i v).contexts = s.contexts := by
  unfold takeLoadWord
  split
  · split <;> rfl
  · split
    · rfl
    · split <;> rfl
  · rfl

theorem noNew_blockAccess (a : Access) (s : State) : s.NoNewIdentity (s.blockAccess a) := by
  have commanded : s.NoNewIdentity (s.commandWrite a) := by
    unfold commandWrite; split
    · exact (noNew_setPort ..).trans (noNew_command ..)
    · exact noNew_refuse ..
  have loaded : ∀ i, s.NoNewIdentity (s.loadWindow i a) := fun i => by
    unfold loadWindow; split
    · exact noNew_refuse ..
    · have taken : s.NoNewIdentity (s.takeLoadWord i a.data) := .of_contexts (contexts_takeLoadWord ..)
      exact (taken.trans (noNew_setPort ..)).trans (noNew_rouse _)
  unfold blockAccess
  dsimp only
  split
  · split
    · exact noNew_passThrough ..
    · exact commanded
    · exact noNew_refuse ..
    · exact loaded _
    · exact noNew_refuse ..
    · exact noNew_refuse ..
  · split
    · exact noNew_supply ..
    · exact noNew_passThrough ..

theorem noNew_ringAccess (p : Port) (a : Access) (t : SlotWord) (s : State) : s.NoNewIdentity (s.ringAccess p a t) := by
  have judged : s.NoNewIdentity
      (if a.size = .word then s.passThrough p a (some t) else s.refuse p .partialWrite a.address) := by
    split
    · exact noNew_passThrough ..
    · exact noNew_refuse ..
  unfold ringAccess
  split
  · exact noNew_refuse ..
  · exact judged
  · exact noNew_passThrough ..
  · exact noNew_refuse ..
  · exact judged
  · exact noNew_passThrough ..
  · split
    · exact noNew_readCode ..
    · exact noNew_passThrough ..

theorem noNew_classify (p : Port) (a : Access) (s : State) : s.NoNewIdentity (s.classify p a) := by
  unfold classify
  split
  · split
    · exact noNew_blockAccess ..
    · exact noNew_refuse ..
  · split
    · exact noNew_ringAccess ..
    · exact noNew_passThrough ..

theorem noNew_startWake (s : State) : s.NoNewIdentity s.startWake := by
  unfold startWake; split
  · exact NoNewIdentity.refl s
  · exact .of_contexts rfl

theorem noNew_arrive (p : Port) (a : Access) (s : State) : s.NoNewIdentity (s.arrive p a) := by
  unfold arrive
  split
  · exact NoNewIdentity.refl s
  · split
    · exact NoNewIdentity.refl s
    · exact noNew_setPort ..
    · split
      · exact (noNew_startWake s).trans (noNew_setPort ..)
      · exact (noNew_classify ..).trans (noNew_relax_settle _)

theorem noNew_classifyAllHeld (order : Order) (s : State) : s.NoNewIdentity (s.classifyAllHeld order) := by
  have one : ∀ p (t : State), t.NoNewIdentity (t.classifyHeld p) := fun p t => by
    unfold classifyHeld; split
    · exact (noNew_setPort ..).trans (noNew_classify ..)
    · exact NoNewIdentity.refl t
  cases order <;> exact (one ..).trans (one ..)

/-! ## The memory port -/

theorem noNew_grant (s : State) : s.NoNewIdentity s.grant := by
  have port : ∀ p a track, s.NoNewIdentity (s.grantPort p a track) := fun p a track => by
    unfold grantPort; split
    · exact noNew_refuse ..
    · exact NoNewIdentity.trans (t := s.setArbiter (some (.port p))) (.of_contexts rfl) (noNew_setPort ..)
  unfold grant
  split
  · exact NoNewIdentity.refl s
  · split
    · exact port ..
    · exact .of_contexts rfl
    · exact port ..
    · exact NoNewIdentity.refl s

theorem contexts_reportInbound (h : Header) (r : SlotRef) (report : Report) (s : State) :
    (s.reportInbound h r report).contexts = s.contexts := rfl

theorem contexts_spoilWith (h : Header) (r : SlotRef) (report : Report) (s : State) :
    (s.spoilWith h r report).contexts = s.contexts := contexts_answerHeld ..

/-- R36 to R38, R42, R43: a tracked write is the slot tracker's alone. -/
theorem contexts_writeSlot {s t : State} {w : SlotWord} {data : Word} (effect : s.writeSlot w data = some t) :
    t.contexts = s.contexts := by
  obtain ⟨ring, r, word⟩ := w
  cases ring with
  | inbound =>
    simp only [writeSlot, writeInbound] at effect
    split at effect
    · cases effect; unfold latchInbound; split <;> rfl
    · split at effect
      · cases effect; unfold countInbound; split <;> rfl
      · cases effect
  | outbound =>
    simp only [writeSlot, writeOutbound] at effect
    split at effect
    · cases effect
      unfold latchOutbound; split
      · rfl
      · exact contexts_spoilWith ..
    · split at effect
      · split at effect
        · cases effect; unfold countOutbound; dsimp only; split <;> rfl
        · cases effect
      · cases effect

theorem noNew_wordAccessComplete (s : State) : s.NoNewIdentity s.wordAccessComplete := by
  have tracked : ∀ a judged (t : State), t.NoNewIdentity (t.applyTracked a judged) := fun a judged t => by
    unfold applyTracked
    split
    · exact NoNewIdentity.refl t
    · split
      · split
        · next effect => exact (NoNewIdentity.of_contexts (contexts_writeSlot effect)).trans (noNew_rouse _)
        · exact NoNewIdentity.refl t
      · exact NoNewIdentity.refl t
  have completed : ∀ p a judged, s.NoNewIdentity (s.completeAccess p a judged) := fun p a judged => by
    unfold completeAccess
    split
    · have stored : s.NoNewIdentity (s.freePort.store a.word a.size a.data) := .of_contexts rfl
      exact (stored.trans (noNew_setPort ..)).trans (tracked ..)
    · exact NoNewIdentity.trans (t := s.freePort) (.of_contexts rfl) (noNew_supply ..)
  unfold wordAccessComplete
  split
  · split
    · exact (completed ..).trans (noNew_relax_settle _)
    · exact NoNewIdentity.refl s
  · exact NoNewIdentity.refl s

theorem noNew_agentJobStart (s : State) : s.NoNewIdentity s.agentJobStart := by
  have begun : ∀ j (t : State), (t.beginFetch j).contexts = t.contexts := fun j t => by
    cases j with
    | fetchFrame ring r => cases ring <;> (unfold beginFetch; dsimp only; split <;> rfl)
    | fetchSetup | writeReport => rfl
  unfold agentJobStart
  split
  · split
    · exact .of_contexts (begun ..)
    · exact NoNewIdentity.refl s
  · exact NoNewIdentity.refl s

theorem noNew_restPorts (order : Order) (s : State) : s.NoNewIdentity (s.restPorts order) := by
  obtain ⟨ports, path, raised, arbiter, mem, fresh, eq⟩ := restPorts_form order s
  rw [eq]; exact .of_contexts rfl

theorem noNew_mrestAssert (order : Order) (s : State) : s.NoNewIdentity (s.mrestAssert order) := by
  have line : s.NoNewIdentity (s.setMrest true) := .of_contexts rfl
  have retried : ∀ p (t : State), t.NoNewIdentity (t.retryPort p) := fun p t => by
    obtain ⟨ports, arbiter, mem, fresh, eq⟩ := retryPort_form p t
    rw [eq]; exact .of_contexts rfl
  have failed : ∀ t : State, t.NoNewIdentity t.failAgentWord := fun t => by
    obtain ⟨mem, fresh, eq⟩ := failAgentWord_form t
    rw [eq]; exact .of_contexts rfl
  have rewound : ∀ t : State, t.NoNewIdentity t.rewindJob := fun t => by
    obtain ⟨agent, eq⟩ := rewindJob_form t
    rw [eq]; exact .of_contexts rfl
  unfold mrestAssert
  split
  · exact NoNewIdentity.refl s
  · dsimp only
    split
    · exact line
    · exact ((line.trans (retried ..)).trans (retried ..)).trans (failed _)
    · exact (((line.trans (noNew_restPorts ..)).trans (failed _)).trans (rewound _)).trans (noNew_relax _)

/-! ## Time -/

theorem noNew_holdLimitExpiry (s : State) : s.NoNewIdentity s.holdLimitExpiry := by
  unfold holdLimitExpiry; split
  · exact NoNewIdentity.refl s
  · exact ((noNew_answerHeld ..).trans (noNew_underrun ..)).trans (noNew_settle _)

theorem noNew_deadlineExpiry (c : Fin 24) (s : State) : s.NoNewIdentity (s.deadlineExpiry c) := by
  unfold deadlineExpiry; split
  · exact NoNewIdentity.refl s
  · split
    · exact (noNew_close ..).trans (noNew_settle _)
    · exact NoNewIdentity.refl s

theorem noNew_recentEntryExpiry (s : State) : s.NoNewIdentity s.recentEntryExpiry := by
  unfold recentEntryExpiry
  split
  · exact NoNewIdentity.refl s
  · next recent =>
    split
    · exact .of_recent rfl (recent ▸ List.sublist_cons_self ..)
    · exact NoNewIdentity.refl s

theorem contexts_setClock (w : Word) (s : State) : (s.setClock w).contexts = s.contexts := by
  unfold setClock evaluateKeys; split <;> rfl

theorem noNew_secondsClockRise (s : State) : s.NoNewIdentity s.secondsClockRise := by
  unfold secondsClockRise
  split
  · exact NoNewIdentity.refl s
  · split
    · exact .of_contexts (contexts_setClock ..)
    · exact NoNewIdentity.refl s

theorem noNew_tick (s : State) : s.NoNewIdentity s.tick := by
  have overdue : s.NoNewIdentity s.expireOverdue := by
    unfold expireOverdue; split
    · exact noNew_holdLimitExpiry s
    · exact NoNewIdentity.refl s
  have trimmed : ∀ t : State, t.NoNewIdentity t.dropDueRecent := fun _ => .of_recent rfl (List.dropWhile_sublist _)
  have elapsed : ∀ x : Context, x.elapse.identity = x.identity := fun x => by unfold Context.elapse; split <;> rfl
  have advanced : ∀ t : State, t.NoNewIdentity t.advance := fun t =>
    (noNew_mapContexts Context.elapse t elapsed).trans (.of_contexts rfl)
  unfold tick; split
  · exact (((overdue.trans (noNew_ascending noNew_deadlineExpiry _)).trans (trimmed _)).trans
      (noNew_secondsClockRise _)).trans (advanced _)
  · exact NoNewIdentity.refl s

/-! ## Lines and power -/

/-- R88, R84: a power warning empties the context table and the recent passage list. -/
theorem noNew_powerWarning (s : State) : s.NoNewIdentity s.powerWarning := by
  obtain ⟨-, table, recent, -⟩ := s.haltedFrom_powerWarning
  exact .of_empty table recent

theorem noNew_enterPurging (s : State) : s.NoNewIdentity s.enterPurging := by
  have start : s.NoNewIdentity (((s.markOrigin).purgeKeys).dropLoad).cutEngine := .of_contexts rfl
  have entered : ∀ t : State, t.NoNewIdentity ((t.mapSlots id OutSlot.dropResult).enter .purging) := fun _ => .of_contexts rfl
  exact ((start.trans (noNew_purgeContexts _)).trans (entered _)).trans (noNew_settle _)

theorem noNew_wakeEnd (order : Order) (s : State) : s.NoNewIdentity (s.wakeEnd order) := by
  have awake : s.NoNewIdentity s.awaken := .of_contexts rfl
  unfold wakeEnd
  split
  · exact ((noNew_enterPurging s).trans (noNew_classifyAllHeld ..)).trans (noNew_relax_settle _)
  · split
    · exact (awake.trans (noNew_classifyAllHeld ..)).trans (noNew_relax_settle _)
    · exact NoNewIdentity.refl s

theorem noNew_pwarnAssert (order : Order) (s : State) : s.NoNewIdentity (s.pwarnAssert order) := by
  have line : s.NoNewIdentity (s.setPwarn true) := .of_contexts rfl
  unfold pwarnAssert
  split
  · exact NoNewIdentity.refl s
  · dsimp only
    split
    · exact (line.trans (noNew_powerWarning _)).trans (noNew_classifyAllHeld ..)
    · exact line

theorem noNew_pwarnRelease (s : State) : s.NoNewIdentity s.pwarnRelease := by
  unfold pwarnRelease
  split
  · dsimp only
    split <;> exact .of_contexts rfl
  · exact NoNewIdentity.refl s

theorem noNew_purgeAssert (s : State) : s.NoNewIdentity s.purgeAssert := by
  have line : s.NoNewIdentity (s.setPurge true) := .of_contexts rfl
  have now : ∀ t : State, t.NoNewIdentity t.purgeNow := fun t => by
    unfold purgeNow; split
    · exact (noNew_startWake t).trans (.of_contexts rfl)
    · exact noNew_enterPurging t
  unfold purgeAssert
  split
  · exact NoNewIdentity.refl s
  · dsimp only
    split
    · exact line
    · exact .of_contexts rfl
    · split
      · exact line
      all_goals exact line.trans (now _)

theorem noNew_eraseCompletion (s : State) : s.NoNewIdentity s.eraseCompletion := by
  have erased : s.NoNewIdentity s.endErase := .of_contexts rfl
  unfold eraseCompletion completeErase
  split
  · split
    · exact erased.trans (noNew_powerWarning _)
    · split <;> exact erased.trans (.of_contexts rfl)
  · exact NoNewIdentity.refl s

/-- R165 step 4: the volatile items are lost, every context and the recent passage list among them. -/
theorem noNew_loseVolatile (c : Controller) (k : Keys) (s : State) : s.NoNewIdentity (s.loseVolatile c k) :=
  .of_empty (fun _ => Table.get_fill ..) rfl

theorem noNew_resetAssert (cut : Bool) (s : State) : s.NoNewIdentity (s.resetAssert cut) := by
  unfold resetAssert; split
  · have unwatched : ∀ t : State, t.NoNewIdentity t.unwatchPorts := fun _ => .of_contexts rfl
    exact (noNew_loseVolatile ..).trans (unwatched _)
  · exact NoNewIdentity.refl s

theorem noNew_powerLoss (cut : Bool) (s : State) : s.NoNewIdentity (s.powerLoss cut) := by
  unfold powerLoss; split
  · exact NoNewIdentity.refl s
  · have lost : ∀ t : State, t.NoNewIdentity t.loseMemory := fun _ => .of_contexts rfl
    exact (noNew_loseVolatile ..).trans (lost _)

theorem noNew_startUp (straps : BitVec 6) (purgeFirst : Bool) (order : Order) (s : State) :
    s.NoNewIdentity (s.startUp straps purgeFirst order) := by
  have sampled : ∀ t : State, t.NoNewIdentity (t.sampleLines purgeFirst) := fun t => by
    unfold sampleLines
    dsimp only
    split
    · split
      · exact noNew_enterPurging t
      · exact (noNew_powerWarning t).trans (noNew_enterPurging _)
    · split
      · exact noNew_powerWarning t
      · split
        · exact noNew_enterPurging t
        · exact NoNewIdentity.refl t
  unfold startUp
  split
  · exact NoNewIdentity.refl s
  · dsimp only
    split
    · exact ((noNew_loseVolatile ..).trans (noNew_restPorts ..)).trans (sampled _)
    · exact (noNew_loseVolatile ..).trans (sampled _)

/-! ## The take of a frame -/

theorem noNew_takeConfirm (h : Header) (r : SlotRef) (f : Confirm) (s : State) : s.NoNewIdentity (s.takeConfirm h r f) := by
  unfold takeConfirm
  split
  · exact .of_contexts (contexts_reportInbound ..)
  · next c _ =>
    split
    · exact .of_contexts (contexts_reportInbound ..)
    · next x i matched =>
      obtain ⟨y, context, matched⟩ := Option.bind_eq_some_iff.mp matched
      obtain ⟨j, -, pair⟩ := Option.map_eq_some_iff.mp matched
      cases pair
      have spoiled : ∀ t : State, t.contexts = s.contexts →
          s.NoNewIdentity (((t.setContext c (some (x.confirmed r.lane f i))).setInSlot r .free).joinReady (.verify c)) := by
        intro t same
        have context' : t.context c = some x := by rw [context_eq, same]; exact context
        have confirmed : t.NoNewIdentity (t.setContext c (some (x.confirmed r.lane f i))) := noNew_setContext context' rfl
        exact ((NoNewIdentity.of_contexts same).trans confirmed).trans (.of_contexts rfl)
      unfold matchedConfirm
      split
      · exact spoiled _ (contexts_spoil ..)
      · exact spoiled s rfl

theorem noNew_takeChallenge (h : Header) (r : SlotRef) (f : Challenge) (s : State) :
    s.NoNewIdentity (s.takeChallenge h r f) := by
  unfold takeChallenge
  split
  · exact noNew_spoil ..
  · next c _ =>
    split
    · exact NoNewIdentity.refl s
    · next x context =>
      split
      · exact noNew_spoil ..
      · have bound : s.NoNewIdentity (s.setContext c (some (x.bind r f))) := noNew_setContext context rfl
        unfold bindChallenge
        dsimp only
        split <;> exact bound.trans (.of_contexts rfl)

/-- R62: the entry an ANNOUNCE is admitted under is found only for an identity that is not on the recent passage list. -/
theorem recentlyPaid_of_admitted {s : State} {a : Announce} {k : Fin 48} (admitted : s.admission a = .inr k) :
    s.recentlyPaid a.identity = false := by
  unfold admission at admitted
  split at admitted
  · cases admitted
  · next unpaid => exact Bool.eq_false_iff.mpr unpaid

/-- R66: the context that opens is the only one to hold its identity. -/
theorem identities_setContext_fresh {s : State} {c : Fin 24} {x : Context} (unique : s.identities)
    (fresh : s.findContext x.identity = none) (unpaid : s.recentlyPaid x.identity = false) :
    (s.setContext c (some x)).identities := by
  obtain ⟨contexts, recent, apart⟩ := unique
  have absent : ∀ d y, s.context d = some y → y.identity ≠ x.identity := fun d y hy same =>
    findContext_eq_none_iff.mp fresh d ⟨y, hy, same⟩
  have either : ∀ d y, (s.setContext c (some x)).context d = some y → (d = c ∧ y = x) ∨ s.context d = some y := by
    intro d y hy
    rw [context_setContext] at hy
    split at hy
    · next here => cases hy; exact .inl ⟨here, rfl⟩
    · exact .inr hy
  refine ⟨fun d d' y y' hy hy' same => ?_, recent, fun d y hy => ?_⟩
  · rcases either d y hy with ⟨rfl, rfl⟩ | was <;> rcases either d' y' hy' with ⟨rfl, rfl⟩ | was'
    · rfl
    · exact absurd same.symm (absent _ _ was')
    · exact absurd same (absent _ _ was)
    · exact contexts d d' y y' was was' same
  · rcases either d y hy with ⟨-, rfl⟩ | was
    · exact unpaid
    · exact apart d y was

theorem identities_takeAnnounce {s : State} (unique : s.identities) (h : Header) (r : SlotRef) (a : Announce) :
    (s.takeAnnounce h r a).identities := by
  have freed : s.NoNewIdentity (s.setInSlot r .free) := .of_contexts rfl
  have absorbed : ∀ x : Context, (x.absorb r.lane).identity = x.identity := fun x => by
    unfold Context.absorb; split <;> rfl
  have declined : ∀ report, (s.reportInbound h r report).identities := fun report =>
    (NoNewIdentity.of_contexts (contexts_reportInbound ..)).identities unique
  unfold takeAnnounce
  split
  · exact (freed.trans (noNew_modifyContext _ _ _ absorbed)).identities unique
  · next fresh =>
    split
    · exact declined _
    · next k admitted =>
      split
      · exact declined _
      · next c _ =>
        have opened := identities_setContext_fresh (s := s.setInSlot r .free) (c := c)
          (x := Context.opened r.lane a k (s.setup.lanes.get r.lane).deadline) (freed.identities unique) fresh
          (recentlyPaid_of_admitted admitted)
        exact (NoNewIdentity.of_contexts rfl).identities opened

theorem identities_takeFrame {s : State} (unique : s.identities) (ring : Ring) (r : SlotRef) (buffer : List Word) :
    (s.takeFrame ring r buffer).identities := by
  unfold takeFrame
  split
  · exact unique
  · split
    · unfold takeInbound
      split
      · exact (NoNewIdentity.of_contexts (contexts_reportInbound ..)).identities unique
      · split
        · exact identities_takeAnnounce unique ..
        · exact (noNew_takeConfirm ..).identities unique
    · unfold takeOutbound
      split
      · exact (noNew_spoil ..).identities unique
      · exact (noNew_takeChallenge ..).identities unique

/-! ## The freeing of a context -/

/-- R84: an identity that joins the recent passage list leaves it without a duplicate. -/
theorem nodup_joinRecent {e : RecentEntry} {l : List RecentEntry} (distinct : (l.map (·.identity)).Nodup)
    (new : e.identity ∉ l.map (·.identity)) : ((joinRecent e l).map (·.identity)).Nodup := by
  have kept : (if 64 ≤ l.length then l.drop 1 else l).Sublist l := by
    split
    · exact List.drop_sublist 1 l
    · exact List.Sublist.refl l
  have listed := kept.map RecentEntry.identity
  rw [joinRecent, List.map_append, List.nodup_append]
  refine ⟨distinct.sublist listed, List.nodup_singleton _, fun i hi j hj same => ?_⟩
  rw [List.map_singleton, List.mem_singleton] at hj
  exact new (hj ▸ same ▸ listed.mem hi)

theorem mem_joinRecent {e f : RecentEntry} {l : List RecentEntry} (joined : f ∈ joinRecent e l) : f = e ∨ f ∈ l := by
  rw [joinRecent, List.mem_append, List.mem_singleton] at joined
  rcases joined with old | rfl
  · split at old
    · exact .inr (List.mem_of_mem_drop old)
    · exact .inr old
  · exact .inl rfl

/-- R83, R84: an identity that leaves its context may join the recent passage list. -/
theorem identities_remembered {s : State} {c : Fin 24} {x : Context} (unique : s.identities) (context : s.context c = some x) :
    ((s.rememberPaid x).setContext c none).identities := by
  obtain ⟨contexts, recent, apart⟩ := unique
  have left : ∀ (t : State), t.contexts.table = s.contexts.table → ∀ d y, (t.setContext c none).context d = some y →
      s.context d = some y ∧ d ≠ c := by
    intro t same d y hy
    rw [context_setContext] at hy
    split at hy
    · cases hy
    · next elsewhere => exact ⟨by rw [context_eq, ← same]; exact hy, elsewhere⟩
  unfold rememberPaid
  split
  · have still := left { s with contexts := { s.contexts with
      recent := joinRecent ⟨x.identity, s.controller.time⟩ s.contexts.recent } } rfl
    refine ⟨fun d d' y y' hy hy' => contexts d d' y y' (still d y hy).1 (still d' y' hy').1,
      nodup_joinRecent recent ((recentlyPaid_eq_false_iff s _).mp (apart c x context)), fun d y hy => ?_⟩
    obtain ⟨was, elsewhere⟩ := still d y hy
    rw [recentlyPaid_eq_false_iff]
    intro paid
    obtain ⟨e, listed, same⟩ := List.mem_map.mp paid
    rcases mem_joinRecent listed with rfl | old
    · exact elsewhere (contexts d c y x was context same.symm)
    · exact (recentlyPaid_eq_false_iff s _).mp (apart d y was) (List.mem_map.mpr ⟨e, old, same⟩)
  · have still := left s rfl
    exact ⟨fun d d' y y' hy hy' => contexts d d' y y' (still d y hy).1 (still d' y' hy').1, recent,
      fun d y hy => apart d y (still d y hy).1⟩

theorem identities_freeContext {s : State} (unique : s.identities) (c : Fin 24) : (s.freeContext c).identities := by
  unfold freeContext
  split
  · exact unique
  · next x context =>
    split
    · have released : ∀ t : State, t.contexts = s.contexts → ((t.rememberPaid x).setContext c none).identities :=
        fun t same => identities_remembered ((NoNewIdentity.of_contexts same).identities unique)
          (by rw [context_eq, same]; exact context)
      dsimp only
      split <;> exact released _ rfl
    · exact unique

theorem identities_written {s : State} (unique : s.identities) : s.written.identities := by
  have released : ∀ (t : State) h, t.identities → (t.releaseHolder h).identities := fun t h unique => by
    unfold releaseHolder
    split
    · exact identities_freeContext unique _
    · split
      · exact (NoNewIdentity.of_contexts rfl).identities unique
      · exact unique
    · split
      · exact (NoNewIdentity.of_contexts rfl).identities unique
      · exact unique
  unfold written
  split
  · exact released _ _ ((NoNewIdentity.of_contexts rfl).identities unique)
  · exact (NoNewIdentity.of_contexts rfl).identities unique

/-! ## The word of a job -/

theorem noNew_takeSetup (image : List Word) (s : State) : s.NoNewIdentity (s.takeSetup image) := by
  have ended : ∀ o detail (t : State), t.NoNewIdentity (t.endSetup o detail) := fun _ _ _ => .of_contexts rfl
  have slots : s.releaseSlotsForSetup.contexts = s.contexts := by
    refine (contexts_dropJobs ..).trans ?_
    show s.answerAnyHeld.contexts = _
    unfold answerAnyHeld; split
    · exact contexts_answerHeld ..
    · rfl
  have trimmed : ∀ x (t : State), t.NoNewIdentity (t.enforce x).trimRecent := fun _ _ =>
    .of_recent rfl List.filter_sublist
  have clock : ∀ t : State, t.NoNewIdentity (t.setClockFrom image) := fun t => by
    unfold setClockFrom; split
    · exact .of_contexts (contexts_setClock ..)
    · exact NoNewIdentity.refl t
  unfold takeSetup
  split
  · split
    · exact ended ..
    · exact (((NoNewIdentity.of_contexts slots).trans (trimmed ..)).trans (clock _)).trans (ended ..)
  · exact ended ..

theorem identities_endJob {s : State} (unique : s.identities) (j : Job) (buffer : List Word) :
    (s.endJob j buffer).identities := by
  cases j with
  | fetchFrame ring r => exact identities_takeFrame unique ring r buffer
  | fetchSetup => exact (noNew_takeSetup buffer s).identities unique
  | writeReport => exact identities_written unique

theorem identities_advanceJob {s : State} (unique : s.identities) (data : Option Word) : (s.advanceJob data).identities := by
  have agent : ∀ x, (s.setAgent x).identities := fun _ => (NoNewIdentity.of_contexts rfl).identities unique
  unfold advanceJob
  split
  · dsimp only
    split
    · exact (noNew_settle _).identities (identities_endJob (agent _) ..)
    · exact agent _
  · exact unique

theorem identities_agentWordComplete {s : State} (unique : s.identities) : s.agentWordComplete.identities := by
  have freed : s.freePort.identities := (NoNewIdentity.of_contexts rfl).identities unique
  have stored : ∀ w data, (s.freePort.store w .word data).identities := fun _ _ =>
    (NoNewIdentity.of_contexts rfl).identities freed
  unfold agentWordComplete
  split
  · split
    · split
      · exact identities_advanceJob (stored ..) _
      · exact stored ..
    · split
      · exact identities_advanceJob freed _
      · exact freed
  · exact unique

end State

/-- Only a word of the agent, the last one of a frame or of a report, brings an identity in. -/
theorem exec_noNewIdentity {i : Instr} {s t : State} (next : exec i s = .next t) (noAgentWord : i ≠ .agentWordComplete) :
    s.NoNewIdentity t := by
  cases i with
  | memoryAccess | controlBlockWrite | codeWordRead | loadWindowWrite | setup | rest | laneRestart | releaseReports
  | clearAttention | unknownCommand => cases next; exact State.noNew_arrive ..
  | arbiterGrant => cases next; exact (State.noNew_grant s).trans (State.noNew_relax _)
  | wordAccessComplete => cases next; exact State.noNew_wordAccessComplete s
  | holdLimitExpiry => cases next; exact State.noNew_holdLimitExpiry s
  | agentJobStart => cases next; exact State.noNew_agentJobStart s
  | agentWordComplete => exact absurd rfl noAgentWord
  | engineStart => cases next; exact State.noNew_weighEngine s
  | codeComplete => cases next; exact State.noNew_codeComplete s
  | deriveComplete => cases next; exact State.noNew_deriveComplete s
  | verifyComplete => cases next; exact State.noNew_verifyComplete s
  | unwrapComplete => cases next; exact State.noNew_unwrapComplete s
  | deadlineExpiry => cases next; exact State.noNew_deadlineExpiry ..
  | recentEntryExpiry => cases next; exact State.noNew_recentEntryExpiry s
  | secondsClockRise => cases next; exact State.noNew_secondsClockRise s
  | wakeEnd => cases next; exact State.noNew_wakeEnd ..
  | mrestAssert => cases next; exact State.noNew_mrestAssert ..
  | mrestRelease | purgeRelease => cases next; exact .of_contexts rfl
  | pwarnAssert => cases next; exact State.noNew_pwarnAssert ..
  | pwarnRelease => cases next; exact State.noNew_pwarnRelease s
  | purgeAssert => cases next; exact State.noNew_purgeAssert s
  | eraseCompletion => cases next; exact State.noNew_eraseCompletion s
  | resetAssert => cases next; exact State.noNew_resetAssert ..
  | startUp => cases next; exact State.noNew_startUp ..
  | powerLoss => cases next; exact State.noNew_powerLoss ..

theorem exec_keeps_identities {i : Instr} {s t : State} (unique : s.identities) (next : exec i s = .next t) : t.identities := by
  by_cases word : i = .agentWordComplete
  · subst word; cases next; exact State.identities_agentWordComplete unique
  · exact (exec_noNewIdentity next word).identities unique

/-- Settles O59: a millisecond brings no identity in, and every command keeps them unique. -/
theorem everyStepKeepsIdentitiesUnique : Obligations.EveryStepKeepsIdentitiesUnique := by
  unfold Obligations.EveryStepKeepsIdentitiesUnique
  intro s t unique next
  unfold step at next
  split at next
  · cases next; exact (State.noNew_tick s).identities unique
  · next c rest _ =>
    have taken : s.NoNewIdentity { s with pending := rest } := .of_contexts rfl
    exact exec_keeps_identities (taken.identities unique) next

end Sys2Proof.Machine
end

section
/-! PROOF of AnnounceIsDeclinedOrOpens, ChallengeIsRefusedOrBound and ConfirmIsMatchedOrStray: the checks an ANNOUNCE meets, the row
of R67 that a CHALLENGE meets and its binding, the attempt a CONFIRM is matched to, and the spoil of a slot. -/

namespace Sys2Proof.Machine

namespace State

/-! ## The take of an ANNOUNCE -/

theorem recentlyPaid_iff (s : State) (identity : Wide) :
    s.recentlyPaid identity = true ↔ ∃ e ∈ s.contexts.recent, e.identity = identity := by
  simp only [recentlyPaid, List.any_eq_true, beq_iff_eq]

theorem admission_repeated {s : State} {a : Announce} (paid : s.recentlyPaid a.identity = true) :
    s.admission a = .inl (.repeated, none) := by
  simp only [admission, paid, if_true]

theorem admission_foreign {s : State} {a : Announce} (unpaid : s.recentlyPaid a.identity = false)
    (unserved : s.setup.serves a.issuer = false) : s.admission a = .inl (.foreign, none) := by
  simp only [admission, unpaid, unserved, Bool.false_eq_true, if_false, if_true]

theorem admission_tagExhausted {s : State} {a : Announce} (unpaid : s.recentlyPaid a.identity = false)
    (served : s.setup.serves a.issuer = true) (last : a.counter = 0xFFFFFFFF#32) :
    s.admission a = .inl (.tagExhausted, none) := by
  simp only [admission, unpaid, served, last, Bool.false_eq_true, Bool.true_eq_false, if_false, if_true]

/-- R62, R65: past the first three checks the key entry decides. -/
theorem admission_by_key {s : State} {a : Announce} (unpaid : s.recentlyPaid a.identity = false)
    (served : s.setup.serves a.issuer = true) (more : a.counter ≠ 0xFFFFFFFF#32) :
    s.admission a = match s.lookup a.issuer a.generation with
      | none => .inl (.noKey, none)
      | some k => match (s.keys.entries.get k).state with
        | .empty => .inl (.noKey, none)
        | .waiting => .inl (.keyNotYet, some k)
        | .expired => .inl (.keyExpired, some k)
        | .revoked => .inl (.keyRevoked, some k)
        | .live => .inr k := by
  unfold admission
  have isUnpaid : ¬ s.recentlyPaid a.identity = true := by rw [unpaid]; decide
  have isServed : ¬ s.setup.serves a.issuer = false := by rw [served]; decide
  exact (if_neg isUnpaid).trans ((if_neg isServed).trans (if_neg more))

/-- R64: a declined ANNOUNCE. -/
theorem takeAnnounce_declined {s : State} {a : Announce} {code : DeclineCode} {k : Option (Fin 48)}
    (fresh : s.findContext a.identity = none) (declined : s.admission a = .inl (code, k)) (h : Header) (r : SlotRef) :
    s.takeAnnounce h r a = s.reportInbound h r (s.decline code r a k) := by
  simp only [takeAnnounce, fresh, declined]

/-- R62: an ANNOUNCE that finds no FREE context. -/
theorem takeAnnounce_noContext {s : State} {a : Announce} {k : Fin 48} (fresh : s.findContext a.identity = none)
    (admitted : s.admission a = .inr k) (full : ∀ c, s.context c ≠ none) (h : Header) (r : SlotRef) :
    s.takeAnnounce h r a = s.reportInbound h r (s.decline .noContext r a (some k)) := by
  have taken : s.contexts.table.first (·.isNone) = none :=
    Table.first_eq_none_iff.mpr fun c => Option.isNone_eq_false_iff.mpr (Option.isSome_iff_ne_none.mpr (full c))
  simp only [takeAnnounce, fresh, admitted, taken]

/-- R66: an admitted ANNOUNCE opens the lowest-numbered FREE context. -/
theorem takeAnnounce_opens {s : State} {a : Announce} {k : Fin 48} {c : Fin 24} (fresh : s.findContext a.identity = none)
    (admitted : s.admission a = .inr k) (free : s.context c = none) (lower : ∀ d, d < c → s.context d ≠ none)
    (h : Header) (r : SlotRef) : s.takeAnnounce h r a = s.openContext c r a k := by
  have lowest : s.contexts.table.first (·.isNone) = some c := Table.first_eq_some_iff.mpr
    ⟨Option.isNone_iff_eq_none.mpr free,
      fun d below => Option.isNone_eq_false_iff.mpr (Option.isSome_iff_ne_none.mpr (lower d below))⟩
  simp only [takeAnnounce, fresh, admitted, lowest]

end State

/-- Settles O25: the checks in their order, then the search for a FREE context. -/
theorem announceIsDeclinedOrOpens : Obligations.AnnounceIsDeclinedOrOpens := by
  unfold Obligations.AnnounceIsDeclinedOrOpens
  refine ⟨fun _ _ _ _ _ => rfl, State.recentlyPaid_iff, fun _ _ _ => rfl, fun s h r a fresh => ?_⟩
  intro take declined
  have declines : ∀ code k, s.admission a = .inl (code, k) → take = declined code k := fun code k refused =>
    State.takeAnnounce_declined fresh refused h r
  refine ⟨fun paid => declines _ _ (State.admission_repeated paid),
    fun unpaid unserved => declines _ _ (State.admission_foreign unpaid unserved),
    fun unpaid served last => declines _ _ (State.admission_tagExhausted unpaid served last),
    fun unpaid served more => ?_⟩
  have byKey := State.admission_by_key unpaid served more
  refine ⟨fun nowhere => declines _ _ (by rw [byKey, nowhere]), fun k found => ?_⟩
  rw [found] at byKey
  have admitted : (s.keys.entries.get k).state = .live → s.admission a = .inr k := fun live => by rw [byKey]; simp only [live]
  refine ⟨fun waiting => declines _ _ (by rw [byKey]; simp only [waiting]),
    fun expired => declines _ _ (by rw [byKey]; simp only [expired]),
    fun revoked => declines _ _ (by rw [byKey]; simp only [revoked]),
    fun live full => State.takeAnnounce_noContext fresh (admitted live) full h r, fun c live free lower => ?_⟩
  exact ⟨Context.opened r.lane a k (s.setup.lanes.get r.lane).deadline,
    State.takeAnnounce_opens fresh (admitted live) free lower h r, rfl, rfl, rfl, rfl, rfl, rfl, rfl, rfl, rfl, rfl, rfl, rfl,
    rfl, rfl, rfl, rfl, rfl, rfl, rfl⟩

/-! ## The take of a CHALLENGE -/

/-- R67: the rows in their order. -/
theorem Context.challengeNotice_eq (lane : Fin 8) (x : Context) :
    x.challengeNotice lane =
      if laneIn lane x.lanes = false then some .wrongLane
      else if x.state = .verifying ∨ x.state = .closing ∨ x.state = .reporting then some .closedTransaction
      else if x.state = .challenging ∨ (x.state = .derivingKey ∧ x.bound ≠ none) then some .busyTransaction
      else if x.accepted = 3 then some .tooMany
      else none := by
  have closed : x.state.challengeable = false ↔ x.state = .verifying ∨ x.state = .closing ∨ x.state = .reporting := by
    cases x.state <;> decide
  simp only [Context.challengeNotice, closed, Option.isSome_iff_ne_none]

/-- R69: the oldest unsent attempt is the one behind the sent ones at the head of the list. -/
theorem dropOldestUnsent_append {before after : List Attempt} {a : Attempt} (sent : ∀ b ∈ before, b.sentAt ≠ none)
    (unsent : a.sentAt = none) : dropOldestUnsent (before ++ a :: after) = before ++ after := by
  induction before with
  | nil => simp only [List.nil_append, dropOldestUnsent, unsent, if_true]
  | cons b before ih =>
    rw [List.cons_append, dropOldestUnsent, if_neg (sent b List.mem_cons_self),
      ih fun b' older => sent b' (List.mem_cons_of_mem _ older), List.cons_append]

theorem addAttempt_of_room {l : List Attempt} (room : l.length < 3) (a : Attempt) : addAttempt a l = l ++ [a] := by
  rw [addAttempt, if_neg (Nat.not_le.mpr room)]

theorem addAttempt_of_full {before after : List Attempt} {old : Attempt} (full : (before ++ old :: after).length = 3)
    (sent : ∀ b ∈ before, b.sentAt ≠ none) (unsent : old.sentAt = none) (a : Attempt) :
    addAttempt a (before ++ old :: after) = before ++ after ++ [a] := by
  rw [addAttempt, if_pos full.ge, dropOldestUnsent_append sent unsent]

namespace State

theorem takeChallenge_stray {s : State} {f : Challenge} (nowhere : s.findContext f.identity = none) (h : Header) (r : SlotRef) :
    s.takeChallenge h r f = s.spoil r (s.notice .noTransaction r none (some f.identity) none) := by
  simp only [takeChallenge, nowhere]

/-- R67: a CHALLENGE that meets a notice. -/
theorem takeChallenge_refused {s : State} {f : Challenge} {c : Fin 24} {x : Context} {r : SlotRef} {code : NoticeCode}
    (found : s.findContext f.identity = some c) (context : s.context c = some x)
    (refused : x.challengeNotice r.lane = some code) (h : Header) :
    s.takeChallenge h r f = s.spoil r (s.notice code r (some c) (some f.identity) none) := by
  simp only [takeChallenge, found, context, refused]

/-- R68: a CHALLENGE bound while the key is derived: the slot waits for it. -/
theorem takeChallenge_waits {s : State} {f : Challenge} {c : Fin 24} {x : Context} {r : SlotRef} {attempts : List Attempt}
    (found : s.findContext f.identity = some c) (context : s.context c = some x) (allowed : x.challengeNotice r.lane = none)
    (keyless : x.state = .derivingKey) (listed : addAttempt ⟨f.readerNonce, f.record, none⟩ x.attempts = attempts) (h : Header) :
    s.takeChallenge h r f =
      (s.setContext c (some { x with
        attempts := attempts, accepted := x.accepted + 1, bound := some r, state := .derivingKey })).setOutSlot r
        { s.outSlot r with state := .waitingKey h c } := by
  simp only [takeChallenge, found, context, allowed, bindChallenge, Context.bind, keyless, listed, if_true]
  rfl

/-- R68: a CHALLENGE bound with the key at hand: its CODE joins the ready list. -/
theorem takeChallenge_codes {s : State} {f : Challenge} {c : Fin 24} {x : Context} {r : SlotRef} {attempts : List Attempt}
    (found : s.findContext f.identity = some c) (context : s.context c = some x) (allowed : x.challengeNotice r.lane = none)
    (derived : x.state ≠ .derivingKey) (listed : addAttempt ⟨f.readerNonce, f.record, none⟩ x.attempts = attempts) (h : Header) :
    s.takeChallenge h r f =
      ((s.setContext c (some { x with
        attempts := attempts, accepted := x.accepted + 1, bound := some r, state := .challenging })).setOutSlot r
        { s.outSlot r with state := .coding h c }).joinReady (.code r) := by
  simp only [takeChallenge, found, context, allowed, bindChallenge, Context.bind, if_neg derived, listed]
  rfl

/-! ## The spoil of a slot -/

theorem spoil_of_frame {s : State} {r : SlotRef} {h : Header} (frame : (s.outSlot r).state.header = some h) (report : Report) :
    s.spoil r report = s.spoilWith h r report := by
  simp only [spoil, frame]

/-- R53: with no read held on it a spoiled slot loses its CODE, holds the notice and joins the pending list. -/
theorem spoil_unheld {s : State} {r : SlotRef} {h : Header} (frame : (s.outSlot r).state.header = some h)
    (elsewhere : ∀ q, s.slots.held = some q → q.slot ≠ r) (report : Report) :
    s.spoil r report =
      ((s.leaveReady (.code r)).setOutSlot r { s.outSlot r with state := .spoiled h (some report) }).joinReports
        (.outbound r) := by
  rw [spoil_of_frame frame, spoilWith, answerHeld_of_elsewhere elsewhere]
  rfl

/-- R53, R51: a read held on the slot has the fill pattern first. -/
theorem spoil_held {s : State} {q : HeldRead} {o : Outstanding} {h : Header}
    (frame : (s.outSlot q.slot).state.header = some h) (held : s.slots.held = some q) (access : s.ports.r.access = some o)
    (report : Report) :
    s.spoil q.slot report =
      (((s.filled o).leaveReady (.code q.slot)).setOutSlot q.slot
        { s.outSlot q.slot with state := .spoiled h (some report) }).joinReports (.outbound q.slot) := by
  rw [spoil_of_frame frame, spoilWith, answerHeld_here held access]
  rfl

end State

/-- Settles O26: the rows of R67, the binding by the state of the context and the room on its list, and the spoil by the read that
is held. -/
theorem challengeIsRefusedOrBound : Obligations.ChallengeIsRefusedOrBound := by
  unfold Obligations.ChallengeIsRefusedOrBound
  refine ⟨fun _ _ _ _ _ _ => rfl, laneIn_eq_getLsbD, fun lane x => ?rows, fun s h r f => ⟨?stray, ?found⟩,
    fun s r h report frame => ⟨?unheld, ?held⟩⟩
  case rows =>
    intro closed busy
    have rows := Context.challengeNotice_eq lane x
    have inside : laneIn lane x.lanes = true → ¬ laneIn lane x.lanes = false := fun i => by rw [i]; decide
    refine ⟨fun out => ?_, fun i isClosed => ?_, fun i isOpen isBusy => ?_, fun i isOpen idle many => ?_,
      fun i isOpen idle few => ?_⟩
    · rw [rows, if_pos out]
    · rw [rows, if_neg (inside i), if_pos isClosed]
    · rw [rows, if_neg (inside i), if_neg isOpen, if_pos isBusy]
    · rw [rows, if_neg (inside i), if_neg isOpen, if_neg idle, if_pos many]
    · rw [rows, if_neg (inside i), if_neg isOpen, if_neg idle, if_neg few]
  case stray => exact fun nowhere => State.takeChallenge_stray nowhere h r
  case found =>
    intro c x found context attempt bound
    refine ⟨fun code refused => State.takeChallenge_refused found context refused h, fun allowed keyless room => ?_,
      fun allowed derived room => ?_, fun before a after allowed list full sent unsent => ⟨fun keyless => ?_, fun derived => ?_⟩⟩
    · exact State.takeChallenge_waits found context allowed keyless (addAttempt_of_room room _) h
    · exact State.takeChallenge_codes found context allowed derived (addAttempt_of_room room _) h
    · refine State.takeChallenge_waits found context allowed keyless ?_ h
      rw [list] at full ⊢; exact addAttempt_of_full full sent unsent _
    · refine State.takeChallenge_codes found context allowed derived ?_ h
      rw [list] at full ⊢; exact addAttempt_of_full full sent unsent _
  case unheld => exact fun elsewhere => State.spoil_unheld frame elsewhere report
  case held =>
    rintro q o held rfl access
    exact State.spoil_held frame held access report

/-! ## The take of a CONFIRM -/

/-- R73: no sent attempt has the nonce. -/
theorem Context.matchEcho_none {x : Context} {echo : Wide} (unmatched : ∀ a ∈ x.attempts, a.sentAt = none ∨ a.nonce ≠ echo) :
    x.matchEcho echo = none := by
  refine List.findIdx?_eq_none_iff.mpr fun a listed => ?_
  rcases unmatched a listed with unsent | other
  · simp [unsent]
  · simp [other]

/-- R73: the oldest sent attempt that has the nonce. -/
theorem Context.matchEcho_some {x : Context} {echo : Wide} {before after : List Attempt} {a : Attempt}
    (list : x.attempts = before ++ a :: after) (sent : a.sentAt ≠ none) (nonce : a.nonce = echo)
    (older : ∀ b ∈ before, b.sentAt = none ∨ b.nonce ≠ echo) : x.matchEcho echo = some before.length := by
  have skipped : before.findIdx? (fun a => a.sentAt.isSome && a.nonce == echo) = none :=
    Context.matchEcho_none (x := { x with attempts := before }) older
  have here : (a.sentAt.isSome && a.nonce == echo) = true := by simp [Option.isSome_iff_ne_none, sent, nonce]
  rw [Context.matchEcho, list, List.findIdx?_append, skipped, List.findIdx?_cons, if_pos here]
  simp

namespace State

theorem takeConfirm_stray {s : State} {f : Confirm} {c : Fin 24} {x : Context} (found : s.findContext f.identity = some c)
    (context : s.context c = some x) (unmatched : x.matchConfirm f = none) (h : Header) (r : SlotRef) :
    s.takeConfirm h r f =
      s.reportInbound h r (s.notice .strayConfirm r (some c) (some f.identity) (some f.counter)) := by
  simp only [takeConfirm, found, context, Option.bind_some, unmatched, Option.map_none]

theorem takeConfirm_matched {s : State} {f : Confirm} {c : Fin 24} {x : Context} {i : Nat}
    (found : s.findContext f.identity = some c) (context : s.context c = some x) (matched : x.matchConfirm f = some i)
    (h : Header) (r : SlotRef) : s.takeConfirm h r f = s.matchedConfirm c x r f i := by
  simp only [takeConfirm, found, context, Option.bind_some, matched, Option.map_some]

theorem boundNotice_of_open {s : State} {c : Fin 24} {x : Context} (context : s.context c = some x) (code : NoticeCode)
    (r : SlotRef) : s.boundNotice code r c = s.notice code r (some c) (some x.identity) none := by
  rw [boundNotice, context, Option.map_some]

end State

/-- Settles O27: by the context that is found and the attempt that is matched. -/
theorem confirmIsMatchedOrStray : Obligations.ConfirmIsMatchedOrStray := by
  unfold Obligations.ConfirmIsMatchedOrStray
  intro s h r f stray
  refine ⟨fun nowhere => ?_, fun c x found context => ⟨fun strays => ?_, ?_⟩⟩
  · simp only [State.takeConfirm, nowhere]; rfl
  · refine State.takeConfirm_stray found context ?_ h r
    unfold Context.matchConfirm
    rcases strays with state | unmatched
    · rw [if_neg (not_or.mpr state)]
    · rw [Context.matchEcho_none unmatched, ite_self]
  · intro before a after list sent nonce older state matched
    have place : x.matchConfirm f = some before.length := by
      rw [Context.matchConfirm, if_pos state, Context.matchEcho_some list sent nonce older]
    rw [State.takeConfirm_matched found context place]
    unfold State.matchedConfirm
    refine ⟨fun unbound => ?_, fun o bound => ?_⟩
    · rw [unbound]; rfl
    · rw [bound]
      show matched (s.spoil o (s.boundNotice .superseded o c)) = _
      rw [State.boundNotice_of_open context]

end Sys2Proof.Machine
end

section
/-! PROOF of DeriveCompletionFollowsTheContext and VerifyCompletionDecidesTheOutcome: the end of an operation at its context, then the
completion by the context's state. -/

namespace Sys2Proof.Machine

namespace State

/-! ## The end of an operation at its context -/

/-- The second of two replacements of a context stands. -/
theorem setContext_setContext (c : Fin 24) (x y : Option Context) (s : State) :
    (s.setContext c x).setContext c y = s.setContext c y := by
  simp only [setContext, Table.set_set]

/-- R131: the holder's mark clears. -/
theorem endOperation_at_context {h : Holder} {c : Fin 24} {x : Context} {s : State} (holder : h = .derive c ∨ h = .verify c)
    (context : s.context c = some x) :
    s.endOperation h = (s.setOperation none).setContext c (some { x with mark := false }) := by
  rcases holder with rfl | rfl <;> exact modifyContext_of_open (s := s.setOperation none) context _

/-- R79: a CLOSING context goes to REPORTING. -/
theorem endClosing_of_open {c : Fin 24} {x : Context} {s : State} (context : s.context c = some x) :
    s.endClosing c = (s.setContext c (some { x with state := .reporting })).joinReports (.context c) := by
  rw [endClosing, modifyContext_of_open context]

/-! ## A DERIVE completes -/

theorem deriveComplete_eq {s : State} {c : Fin 24} {master : Key} {id : Wide} {g : BitVec 8} {x : Context}
    (busy : s.engine.operation = some (.derive c master id g)) (context : s.context c = some x) :
    s.deriveComplete = (((s.setOperation none).setContext c (some { x with mark := false })).finishDerive c
      (Config.deriveTagKey master id g)).settle := by
  simp only [deriveComplete, busy, endOperation_at_context (.inl rfl) context]

/-- R70: with no slot bound the context has its key. -/
theorem finishDerive_unbound {s : State} {c : Fin 24} {x : Context} (keyless : x.state = .derivingKey)
    (unbound : x.bound = none) (key : Key) :
    (s.setContext c (some x)).finishDerive c key = s.setContext c (some { x with tagKey := some key, state := .keyed }) := by
  simp only [finishDerive, context_setContext_self, keyless, if_true, unbound, setContext_setContext, Context.keyed,
    Option.isSome_none, Bool.false_eq_true, if_false]

/-- R47, R70: the bound slot, which waited for the key, is coded. -/
theorem finishDerive_bound {s : State} {c : Fin 24} {x : Context} {r : SlotRef} {h : Header} (keyless : x.state = .derivingKey)
    (bound : x.bound = some r) (waiting : (s.outSlot r).state = .waitingKey h c) (key : Key) :
    (s.setContext c (some x)).finishDerive c key =
      ((s.setContext c (some { x with tagKey := some key, state := .challenging })).setOutSlot r
        { s.outSlot r with state := .coding h c }).joinReady (.code r) := by
  have waits : ((s.setContext c (some (x.keyed key))).outSlot r).state = .waitingKey h c := waiting
  simp only [finishDerive, context_setContext_self, keyless, if_true, bound, setContext_setContext, startCoding, waits]
  simp only [Context.keyed, bound, Option.isSome_some, if_true]
  rfl

theorem finishDerive_closing {s : State} {c : Fin 24} {x : Context} (closing : x.state = .closing) (key : Key) :
    (s.setContext c (some x)).finishDerive c key =
      (s.setContext c (some { x with state := .reporting })).joinReports (.context c) := by
  simp only [finishDerive, context_setContext_self, closing, reduceCtorEq, if_false, if_true,
    endClosing_of_open (context_setContext_self ..), setContext_setContext]

/-! ## A VERIFY completes -/

theorem verifyComplete_eq {s : State} {c : Fin 24} {key : Key} {id nonce : Wide} {rec : PassageRecord} {counter : Word}
    {tagCode : Wide} {x : Context} (busy : s.engine.operation = some (.verify c key id nonce rec counter tagCode))
    (context : s.context c = some x) :
    s.verifyComplete = (((s.setOperation none).setContext c (some { x with mark := false })).finishVerify c
      (decide (Config.expectedTagCode key id nonce rec counter = tagCode))).settle := by
  simp only [verifyComplete, busy, endOperation_at_context (.inr rfl) context]

theorem finishVerify_verifying {s : State} {c : Fin 24} {x : Context} (verifying : x.state = .verifying) (codeMatches : Bool) :
    (s.setContext c (some x)).finishVerify c codeMatches =
      (s.setContext c (some { x with
        outcome := some (x.decide codeMatches, s.controller.time), state := .reporting })).joinReports (.context c) := by
  simp only [finishVerify, context_setContext_self, verifying, if_true, setContext_setContext, controller_setContext]

theorem finishVerify_closing {s : State} {c : Fin 24} {x : Context} (closing : x.state = .closing) (codeMatches : Bool) :
    (s.setContext c (some x)).finishVerify c codeMatches =
      (s.setContext c (some { x with state := .reporting })).joinReports (.context c) := by
  simp only [finishVerify, context_setContext_self, closing, reduceCtorEq, if_false, if_true,
    endClosing_of_open (context_setContext_self ..), setContext_setContext]

end State

/-- R75: the outcome, from the confirm counter, the comparison and the issuer, in this order. -/
theorem Context.decide_eq {x : Context} {d : ConfirmData} (confirm : x.confirm = some d) (codeMatches : Bool) :
    x.decide codeMatches =
      if d.counter ≠ x.announceCounter + 1 then .badCounter
      else if codeMatches = false then .badCode
      else if x.issuer = 0 then .servicePass
      else .paid := by
  simp only [Context.decide, confirm, Option.map_some, ne_eq, Option.some.injEq]

/-- Settles O37, by the state of the context and the slot bound to it. -/
theorem deriveCompletionFollowsTheContext : Obligations.DeriveCompletionFollowsTheContext := by
  unfold Obligations.DeriveCompletionFollowsTheContext
  intro s c master id g x busy context idle key
  have done : exec .deriveComplete s =
      .next ((idle.setContext c (some { x with mark := false })).finishDerive c key).settle :=
    congrArg Host.Outcome.next (State.deriveComplete_eq busy context)
  rw [done]
  refine ⟨fun keyless unbound => ?_, fun r h keyless bound waiting => ?_, fun closing => ?_⟩
  · rw [State.finishDerive_unbound (x := { x with mark := false }) keyless unbound]
  · rw [State.finishDerive_bound (s := idle) (x := { x with mark := false }) keyless bound waiting]; rfl
  · rw [State.finishDerive_closing (x := { x with mark := false }) closing]

/-- Settles O38: the completion by the state of the context, the outcome by the three comparisons. -/
theorem verifyCompletionDecidesTheOutcome : Obligations.VerifyCompletionDecidesTheOutcome := by
  unfold Obligations.VerifyCompletionDecidesTheOutcome
  intro s c key id nonce rec counter tagCode x d busy context confirm idle ended good decided
  have done : exec .verifyComplete s =
      .next ((idle.setContext c (some { x with mark := false })).finishVerify c (decide good)).settle :=
    congrArg Host.Outcome.next (State.verifyComplete_eq busy context)
  have decides : ∀ code, x.state = .verifying → Context.decide { x with mark := false } (decide good) = code →
      exec .verifyComplete s = ended (decided code) := fun code verifying outcome => by
    rw [done, State.finishVerify_verifying (x := { x with mark := false }) verifying, outcome]
  have outcome := Context.decide_eq (x := { x with mark := false }) confirm (decide good)
  refine ⟨fun verifying wrong => decides _ verifying ?_, fun verifying next bad => decides _ verifying ?_,
    fun verifying next ok service => decides _ verifying ?_, fun verifying next ok fare => decides _ verifying ?_,
    fun closing => ?_⟩
  · rw [outcome, if_pos wrong]
  · rw [outcome, if_neg (not_not.mpr next), if_pos (decide_eq_false bad)]
  · rw [outcome, if_neg (not_not.mpr next), decide_eq_true ok, if_neg (by decide), if_pos service]
  · rw [outcome, if_neg (not_not.mpr next), decide_eq_true ok, if_neg (by decide), if_neg fare]
  · rw [done, State.finishVerify_closing (x := { x with mark := false }) closing]

end Sys2Proof.Machine
end

section
/-! PROOF of DueEventsAreTakenWhenDue: the close of a late context, the oldest recent entry, and the rise of the seconds clock. -/

namespace Sys2Proof.Machine

theorem Context.deadlineDue_iff (x : Context) : x.deadlineDue = true ↔ x.running = true ∧ x.deadline = 0 := by
  rw [Context.deadlineDue, Bool.and_eq_true, beq_iff_eq]

/-- R78: with the engine mark a closed context waits in CLOSING. -/
theorem Context.close_marked {x : Context} (mark : x.mark = true) (code : PassageCode) (time : Word) :
    x.close code time = { x with outcome := some (code, time), running := false, bound := none, state := .closing } := by
  rw [Context.close, if_pos mark]

theorem Context.close_unmarked {x : Context} (mark : x.mark = false) (code : PassageCode) (time : Word) :
    x.close code time = { x with outcome := some (code, time), running := false, bound := none, state := .reporting } := by
  rw [Context.close, if_neg (Bool.eq_false_iff.mp mark)]

theorem ContextState.closable_of_undecided {x : ContextState} (undecided : x ≠ .closing ∧ x ≠ .reporting) :
    x.closable = true := by
  rw [ContextState.closable_iff]; simpa using undecided

namespace State

/-! ## Expiries -/

theorem deadlineExpiry_of_due {s : State} {c : Fin 24} {x : Context} (context : s.context c = some x)
    (due : x.running = true ∧ x.deadline = 0) : s.deadlineExpiry c = (s.close .late c).settle := by
  simp only [deadlineExpiry, context, (Context.deadlineDue_iff x).mpr due, if_true]

theorem deadlineExpiry_of_not_due {s : State} {c : Fin 24} {x : Context} (context : s.context c = some x)
    (early : ¬ (x.running = true ∧ x.deadline = 0)) : s.deadlineExpiry c = s := by
  simp only [deadlineExpiry, context, Context.deadlineDue_iff, if_neg early]

theorem recentEntryExpiry_of_cons {s : State} {e : RecentEntry} {rest : List RecentEntry}
    (recent : s.contexts.recent = e :: rest) :
    s.recentEntryExpiry =
      if s.setup.holdOff * 1000 ≤ (s.controller.time - e.time).toNat then
        { s with contexts := { s.contexts with recent := rest } }
      else s := by
  unfold recentEntryExpiry
  rw [recent]
  exact if_congr decide_eq_true_iff rfl rfl

/-! ## The seconds clock -/

/-- R91, R93: the key table evaluated against the clock. -/
theorem evaluateKeys_of_change {s : State}
    (changed : ∃ k, ((s.keys.entries.get k).evaluate s.controller.seconds).state ≠ (s.keys.entries.get k).state) :
    s.evaluateKeys = s.ageEntries.raise .keytime := by
  refine if_pos ((Table.any_iff ..).mpr ?_)
  obtain ⟨k, change⟩ := changed
  exact ⟨k, bne_iff_ne.mpr change⟩

theorem evaluateKeys_of_same {s : State}
    (same : ¬ ∃ k, ((s.keys.entries.get k).evaluate s.controller.seconds).state ≠ (s.keys.entries.get k).state) :
    s.evaluateKeys = s.ageEntries := by
  refine if_neg fun changed => same ?_
  obtain ⟨k, change⟩ := (Table.any_iff ..).mp changed
  exact ⟨k, bne_iff_ne.mp change⟩

theorem secondsClockRise_of_due {s : State} {clock : Word} (set : s.controller.seconds = some clock)
    (due : 1000 ≤ s.controller.millis) : s.secondsClockRise = (s.setSeconds (clock + 1)).evaluateKeys := by
  simp only [secondsClockRise, set, if_pos due, setClock]

theorem secondsClockRise_of_not_due {s : State} (early : s.controller.millis < 1000) : s.secondsClockRise = s := by
  unfold secondsClockRise
  split
  · rfl
  · rw [if_neg (Nat.not_le.mpr early)]

end State

/-- Settles O47: the close of the context, the oldest entry's age, and the table under the risen clock. -/
theorem dueEventsAreTakenWhenDue : Obligations.DueEventsAreTakenWhenDue := by
  unfold Obligations.DueEventsAreTakenWhenDue
  refine ⟨fun s c x context => ?deadline, fun s e rest recent => ?recent, fun s clock set => ?clock⟩
  case deadline =>
    intro late due undecided t
    have closes : due → undecided → exec (.deadlineExpiry c) s = .next (s.close .late c).settle := fun isDue _ =>
      congrArg Host.Outcome.next (State.deadlineExpiry_of_due context isDue)
    refine ⟨fun early => congrArg Host.Outcome.next (State.deadlineExpiry_of_not_due context early),
      fun isDue running mark => ?_, fun isDue running mark => ?_⟩
    · rw [closes isDue running, State.close_eq .late context (ContextState.closable_of_undecided running)]
      rw [Context.close_marked mark]; exact congrArg (fun u : State => Host.Outcome.next u.settle) (if_pos mark)
    · rw [closes isDue running, State.close_eq .late context (ContextState.closable_of_undecided running)]
      rw [Context.close_unmarked mark]
      exact congrArg (fun u : State => Host.Outcome.next u.settle) (if_neg (Bool.eq_false_iff.mp mark))
  case recent =>
    have expires : exec .recentEntryExpiry s = .next s.recentEntryExpiry := rfl
    rw [expires, State.recentEntryExpiry_of_cons recent]
    exact ⟨fun due => by rw [if_pos due], fun early => by rw [if_neg (Nat.not_le.mpr early)]⟩
  case clock =>
    intro aged changed t
    have rises : 1000 ≤ s.controller.millis →
        exec .secondsClockRise s = .next (s.setSeconds (clock + 1)).evaluateKeys := fun due =>
      congrArg Host.Outcome.next (State.secondsClockRise_of_due set due)
    refine ⟨fun early => congrArg Host.Outcome.next (State.secondsClockRise_of_not_due early), fun due change => ?_,
      fun due same => ?_⟩
    · rw [rises due, State.evaluateKeys_of_change (s := s.setSeconds (clock + 1)) change]; rfl
    · rw [rises due, State.evaluateKeys_of_same (s := s.setSeconds (clock + 1)) same]; rfl

end Sys2Proof.Machine
end

section
/-! PROOF of UnwrapCompletionEndsTheLoad: what one close leaves of contexts, slots and a held read, the pass that closes the holders
of an entry, and the effect of a record. -/

namespace Sys2Proof.Machine

namespace State

/-! ## What one close leaves -/

/-- R78: a close changes its own context only. -/
theorem context_close {s : State} {c : Fin 24} {x : Context} (code : PassageCode) (context : s.context c = some x)
    (closable : x.state.closable = true) (d : Fin 24) :
    (s.close code c).context d = if d = c then some (x.close code s.controller.time) else s.context d := by
  rw [context_eq, contexts_close, ← context_eq, context_modifyContext, context, Option.map_some, if_pos closable]

/-- R78: what follows the spoil in a close touches no slot and no port. -/
theorem slots_ports_of_reported (mark : Bool) (c : Fin 24) (t : State) :
    (if mark then t else ((t.leaveReady (.derive c)).leaveReady (.verify c)).joinReports (.context c)).slots = t.slots
      ∧ (if mark then t else ((t.leaveReady (.derive c)).leaveReady (.verify c)).joinReports (.context c)).ports = t.ports := by
  cases mark <;> exact ⟨rfl, rfl⟩

/-- R78: the slots and the ports of a close are those of the spoil of the bound slot. -/
theorem close_spoils {s : State} {c : Fin 24} {x : Context} {r : SlotRef} (code : PassageCode)
    (context : s.context c = some x) (closable : x.state.closable = true) (bound : x.bound = some r) :
    let u := s.spoil r (s.notice .closedTransaction r (some c) (some x.identity) none)
    (s.close code c).slots = u.slots ∧ (s.close code c).ports = u.ports := by
  intro u
  have closed := slots_ports_of_reported x.mark c (u.setContext c (some (x.close code s.controller.time)))
  rw [close_eq code context closable, bound]
  exact closed

theorem close_of_unbound {s : State} {c : Fin 24} {x : Context} (code : PassageCode)
    (context : s.context c = some x) (closable : x.state.closable = true) (unbound : x.bound = none) :
    (s.close code c).slots = s.slots ∧ (s.close code c).ports = s.ports := by
  have closed := slots_ports_of_reported x.mark c (s.setContext c (some (x.close code s.controller.time)))
  rw [close_eq code context closable, unbound]
  exact closed

theorem outSlot_congr {s t : State} (slots : t.slots = s.slots) (q : SlotRef) : t.outSlot q = s.outSlot q := by
  rw [outSlot, outSlot, slots]

/-- R78, R53: the bound slot is SPOILED with a notice. -/
theorem outSlot_close_bound {s : State} {c : Fin 24} {x : Context} {r : SlotRef} {h : Header} (code : PassageCode)
    (context : s.context c = some x) (closable : x.state.closable = true) (bound : x.bound = some r)
    (frame : (s.outSlot r).state.header = some h) :
    (s.close code c).outSlot r = { s.outSlot r with
      state := .spoiled h (some (s.notice .closedTransaction r (some c) (some x.identity) none)) } := by
  rw [outSlot_congr (close_spoils code context closable bound).1, outSlot_spoil frame, if_pos rfl]

/-- R78, R53, R51: a read held on the bound slot has its fill pattern. -/
theorem answered_close {s : State} {c : Fin 24} {x : Context} {q : HeldRead} {o : Outstanding} (code : PassageCode)
    (context : s.context c = some x) (closable : x.state.closable = true) (bound : x.bound = some q.slot)
    (frame : (s.outSlot q.slot).state.header ≠ none) (held : s.slots.held = some q) (access : s.ports.r.access = some o) :
    (s.close code c).slots.held = none
      ∧ (s.close code c).ports.r = ⟨none, some (.done (some (o.access.size.extract fillPattern)))⟩ := by
  obtain ⟨slots, ports⟩ := close_spoils code context closable bound
  rw [slots, ports]
  exact answered_spoil frame held rfl access _

/-- R78: another held read stays. -/
theorem unanswered_close {s : State} {c : Fin 24} {x : Context} (code : PassageCode)
    (context : s.context c = some x) (closable : x.state.closable = true)
    (elsewhere : ∀ q, s.slots.held = some q → x.bound ≠ some q.slot) :
    (s.close code c).slots.held = s.slots.held ∧ (s.close code c).ports.r = s.ports.r := by
  cases bound : x.bound with
  | none =>
    obtain ⟨slots, ports⟩ := close_of_unbound code context closable bound
    rw [slots, ports]; exact ⟨rfl, rfl⟩
  | some r =>
    obtain ⟨slots, ports⟩ := close_spoils code context closable bound
    rw [slots, ports]
    exact unanswered_spoil (fun q held here => elsewhere q held (bound.trans (congrArg some here.symm))) _

/-! ## The pass over the holders -/

/-- R81: an open context links the entry, and is not closed already. -/
def HoldsEntry (s : State) (k : Fin 48) (c : Fin 24) (x : Context) : Prop :=
  s.context c = some x ∧ x.keyLink = some k ∧ x.state ∉ [ContextState.closing, .reporting]

theorem HoldsEntry.context {s : State} {k : Fin 48} {c : Fin 24} {x : Context} (holds : s.HoldsEntry k c x) :
    s.context c = some x := holds.1

theorem HoldsEntry.undecided {s : State} {k : Fin 48} {c : Fin 24} {x : Context} (holds : s.HoldsEntry k c x) :
    x.state ∉ [ContextState.closing, .reporting] := holds.2.2

theorem HoldsEntry.closable {s : State} {k : Fin 48} {c : Fin 24} {x : Context} (holds : s.HoldsEntry k c x) :
    x.state.closable = true := (ContextState.closable_iff _).mpr holds.undecided

/-- R81: one context of the pass. -/
def closeHolder (k : Fin 48) (c : Fin 24) (s : State) : State :=
  match s.context c with
  | some x => if x.keyLink = some k then s.close .keyRevoked c else s
  | none => s

theorem closeHolders_eq (k : Fin 48) (s : State) : s.closeHolders k = Table.ascending 24 (closeHolder k) s := rfl

theorem closeHolder_of_holds {s : State} {k : Fin 48} {c : Fin 24} {x : Context} (holds : s.HoldsEntry k c x) :
    s.closeHolder k c = s.close .keyRevoked c := by
  obtain ⟨context, link, -⟩ := holds
  simp only [closeHolder, context, if_pos link]

theorem closeHolder_of_other {s : State} {k : Fin 48} {c : Fin 24} (other : ∀ x, ¬ s.HoldsEntry k c x) :
    s.closeHolder k c = s := by
  unfold closeHolder
  split
  · next x context =>
    split
    · next link =>
      have closed : ¬ x.state.closable = true := fun closable =>
        other x ⟨context, link, (ContextState.closable_iff _).mp closable⟩
      simp only [close, context, if_neg closed]
    · rfl
  · rfl

/-- R81: from `s` to `t` some holders of the entry have been closed, each at most once, and nothing else has happened. -/
structure ClosesHolders (k : Fin 48) (s t : State) : Prop where
  spoils : Spoils (fun r => ∃ c x, s.HoldsEntry k c x ∧ x.bound = some r) s t
  context : ∀ c, t.context c = s.context c
    ∨ ∃ x, s.HoldsEntry k c x ∧ t.context c = some (x.close .keyRevoked s.controller.time)
  recent : t.contexts.recent = s.contexts.recent
  abandoned : t.contexts.abandoned = s.contexts.abandoned
  header : ∀ q, (t.outSlot q).state.header = (s.outSlot q).state.header

theorem ClosesHolders.refl (k : Fin 48) (s : State) : ClosesHolders k s s :=
  ⟨Spoils.refl _ s, fun _ => .inl rfl, rfl, rfl, fun _ => rfl⟩

/-- R78: a closed context is CLOSING or REPORTING. -/
theorem state_close (code : PassageCode) (time : Word) (x : Context) :
    (x.close code time).state ∈ [ContextState.closing, .reporting] := by
  cases mark : x.mark with
  | true => rw [Context.close_marked mark]; exact List.mem_cons_self
  | false => rw [Context.close_unmarked mark]; exact List.mem_cons_of_mem _ List.mem_cons_self

/-- A context that is still open is not what a close has made. -/
theorem HoldsEntry.ne_close {s : State} {k : Fin 48} {c : Fin 24} {x : Context} (holds : s.HoldsEntry k c x)
    (code : PassageCode) (time : Word) (y : Context) : some (y.close code time) ≠ some x := fun same =>
  holds.undecided (Option.some.inj same ▸ state_close ..)

/-- A holder that is left to close is as it was when the pass began. -/
theorem ClosesHolders.holds {k : Fin 48} {s t : State} (closed : ClosesHolders k s t) {c : Fin 24} {x : Context}
    (holds : t.HoldsEntry k c x) : s.HoldsEntry k c x := by
  rcases closed.context c with same | ⟨y, -, after⟩
  · exact ⟨same ▸ holds.context, holds.2⟩
  · exact absurd (after.symm.trans holds.context) (holds.ne_close _ _ _)

theorem ClosesHolders.close {k : Fin 48} {s t : State} (closed : ClosesHolders k s t) {c : Fin 24} {x : Context}
    (holds : t.HoldsEntry k c x) : ClosesHolders k s (t.close .keyRevoked c) := by
  have was := closed.holds holds
  have contexts := contexts_close .keyRevoked c t
  refine ⟨closed.spoils.trans ((spoils_close .keyRevoked c t).mono ?_), fun d => ?_, ?_, ?_,
    fun q => (header_close ..).trans (closed.header q)⟩
  · rintro r ⟨y, context, bound⟩
    rw [holds.context] at context; cases context
    exact ⟨c, x, was, bound⟩
  · rw [context_close .keyRevoked holds.context holds.closable]
    split
    · next here => exact .inr ⟨x, by rw [here]; exact was, by rw [closed.spoils.controller]⟩
    · exact closed.context d
  · rw [contexts]; exact closed.recent
  · rw [contexts]; exact closed.abandoned

/-- What holds at the start of the pass, and is kept by the close of each holder, holds at its end. -/
theorem closeHolders_induction {P : State → Prop} {k : Fin 48} {s : State} (start : P s)
    (step : ∀ t c x, ClosesHolders k s t → t.HoldsEntry k c x → P t → P (t.close .keyRevoked c)) :
    ClosesHolders k s (s.closeHolders k) ∧ P (s.closeHolders k) := by
  rw [closeHolders_eq]
  refine Table.ascending_keeps (P := fun t => ClosesHolders k s t ∧ P t) (fun c t ⟨closed, kept⟩ => ?_) s
    ⟨ClosesHolders.refl k s, start⟩
  by_cases holder : ∃ x, t.HoldsEntry k c x
  · obtain ⟨x, holds⟩ := holder
    rw [closeHolder_of_holds holds]
    exact ⟨closed.close holds, step t c x closed holds kept⟩
  · rw [closeHolder_of_other (not_exists.mp holder)]
    exact ⟨closed, kept⟩

theorem closesHolders_closeHolders (k : Fin 48) (s : State) : ClosesHolders k s (s.closeHolders k) :=
  (closeHolders_induction (P := fun _ => True) trivial fun _ _ _ _ _ _ => trivial).1

/-- R81: what the pass makes of an open context. -/
def revokedContext (k : Fin 48) (time : Word) (x : Context) : Context :=
  if x.keyLink = some k ∧ x.state ∉ [ContextState.closing, .reporting] then x.close .keyRevoked time else x

theorem context_closeHolder (k : Fin 48) (c d : Fin 24) (s : State) :
    (s.closeHolder k c).context d =
      if d = c then (s.context c).map (revokedContext k s.controller.time) else s.context d := by
  by_cases holder : ∃ x, s.HoldsEntry k c x
  · obtain ⟨x, holds⟩ := holder
    rw [closeHolder_of_holds holds, context_close .keyRevoked holds.context holds.closable, holds.context, Option.map_some,
      revokedContext, if_pos holds.2]
  · rw [closeHolder_of_other (not_exists.mp holder)]
    split
    · next here =>
      rw [here]
      cases context : s.context c with
      | none => rfl
      | some x => rw [Option.map_some, revokedContext, if_neg fun holds => holder ⟨x, context, holds⟩]
    · rfl

/-- R81: no holder is left. -/
theorem context_closeHolders {k : Fin 48} {s : State} {c : Fin 24} {x : Context} (holds : s.HoldsEntry k c x) :
    (s.closeHolders k).context c = some (x.close .keyRevoked s.controller.time) := by
  have time : ∀ d (t : State), (t.closeHolder k d).controller = t.controller := fun d t => by
    unfold closeHolder; split
    · split
      · exact (work_close ..).controller
      · rfl
    · rfl
  have pass : (s.closeHolders k).context c = (s.context c).map (revokedContext k s.controller.time) :=
    Table.ascending_each (P := fun t => t.controller = s.controller) (f := closeHolder k) (read := State.context)
      (g := fun _ y => y.map (revokedContext k s.controller.time)) (fun d t same => (time d t).trans same)
      (fun d t same e => by rw [context_closeHolder, same]) s rfl c
  rw [pass, holds.context, Option.map_some, revokedContext, if_pos holds.2]

/-- R81: the other contexts stay. -/
theorem context_closeHolders_other {k : Fin 48} {s : State} {c : Fin 24} (other : ∀ x, ¬ s.HoldsEntry k c x) :
    (s.closeHolders k).context c = s.context c := by
  rcases (closesHolders_closeHolders k s).context c with same | ⟨x, holds, -⟩
  · exact same
  · exact absurd holds (other x)

/-- R53, R81: the record of a slot that is spoiled as its context closes. -/
def slotOfClosed (s : State) (c : Fin 24) (x : Context) (r : SlotRef) (h : Header) : OutSlot :=
  { s.outSlot r with state := .spoiled h (some (s.notice .closedTransaction r (some c) (some x.identity) none)) }

/-- R81, R53: a slot bound to one holder alone is SPOILED with that holder's notice. -/
theorem outSlot_closeHolders {k : Fin 48} {s : State} {c : Fin 24} {x : Context} {r : SlotRef} {h : Header}
    (holds : s.HoldsEntry k c x) (bound : x.bound = some r)
    (alone : ∀ d y, s.context d = some y → y.bound = some r → d = c) (frame : (s.outSlot r).state.header = some h) :
    (s.closeHolders k).outSlot r = s.slotOfClosed c x r h := by
  have pass := closeHolders_induction (k := k) (s := s)
    (P := fun t => (t.context c = some x → t.outSlot r = s.outSlot r)
      ∧ (t.context c ≠ some x → t.outSlot r = s.slotOfClosed c x r h))
    ⟨fun _ => rfl, fun closed => absurd holds.context closed⟩ ?_
  · obtain ⟨-, -, spoiled⟩ := pass
    exact spoiled fun still => holds.ne_close _ _ _ ((context_closeHolders holds).symm.trans still)
  · intro t d y closed held ⟨before, after⟩
    have context := context_close .keyRevoked held.context held.closable c
    by_cases here : d = c
    · subst here
      have same : y = x := Option.some.inj ((closed.holds held).context.symm.trans holds.context)
      subst same
      have slot := before held.context
      have notice : t.notice .closedTransaction r (some d) (some y.identity) none
          = s.notice .closedTransaction r (some d) (some y.identity) none := by
        rw [notice, notice, closed.spoils.controller]
      rw [if_pos rfl] at context
      refine ⟨fun still => absurd (context.symm.trans still) (held.ne_close _ _ _), fun _ => ?_⟩
      rw [outSlot_close_bound .keyRevoked held.context held.closable bound (slot ▸ frame), slot, notice, slotOfClosed]
    · have kept : (t.close .keyRevoked d).outSlot r = t.outSlot r := by
        refine (spoils_close .keyRevoked d t).outSlot r ?_
        rintro ⟨z, same, bound'⟩
        rw [held.context] at same; cases same
        exact here (alone d y (closed.holds held).context bound')
      rw [if_neg (Ne.symm here)] at context
      rw [context, kept]
      exact ⟨before, after⟩

/-- R81, R53, R51: a read held on a slot bound to a holder has its fill pattern. -/
theorem answered_closeHolders {k : Fin 48} {s : State} {c : Fin 24} {x : Context} {q : HeldRead} {o : Outstanding}
    (holds : s.HoldsEntry k c x) (bound : x.bound = some q.slot) (frame : (s.outSlot q.slot).state.header ≠ none)
    (held : s.slots.held = some q) (access : s.ports.r.access = some o) :
    (s.closeHolders k).slots.held = none
      ∧ (s.closeHolders k).ports.r = ⟨none, some (.done (some (o.access.size.extract fillPattern)))⟩ := by
  have pass := closeHolders_induction (k := k) (s := s)
    (P := fun t => (t.context c = some x ∧ t.slots.held = some q ∧ t.ports.r = s.ports.r)
      ∨ (t.slots.held = none ∧ t.ports.r = ⟨none, some (.done (some (o.access.size.extract fillPattern)))⟩))
    (.inl ⟨holds.context, held, rfl⟩) ?_
  · rcases pass.2 with ⟨still, -⟩ | answered
    · exact absurd ((context_closeHolders holds).symm.trans still) (holds.ne_close _ _ _)
    · exact answered
  · rintro t d y closed held' (⟨context, waiting, port⟩ | ⟨answered, port⟩)
    · have frame' : (t.outSlot q.slot).state.header ≠ none := by rw [closed.header]; exact frame
      by_cases named : y.bound = some q.slot
      · exact .inr (answered_close .keyRevoked held'.context held'.closable named frame' waiting (port ▸ access))
      · obtain ⟨waiting', port'⟩ := unanswered_close .keyRevoked held'.context held'.closable fun p there => by
          rw [waiting] at there; cases there; exact named
        have elsewhere : c ≠ d := by
          rintro rfl
          have same : x = y := Option.some.inj (context.symm.trans held'.context)
          exact named (same ▸ bound)
        have context' := context_close .keyRevoked held'.context held'.closable c
        rw [if_neg elsewhere] at context'
        exact .inl ⟨context'.trans context, waiting'.trans waiting, port'.trans port⟩
    · obtain ⟨answered', port'⟩ := unanswered_close .keyRevoked held'.context held'.closable fun p there => by
        rw [answered] at there; cases there
      exact .inr ⟨answered'.trans answered, port'.trans port⟩

/-- R81: a read held elsewhere stays. -/
theorem unanswered_closeHolders {k : Fin 48} {s : State}
    (elsewhere : ∀ c x q, s.HoldsEntry k c x → s.slots.held = some q → x.bound ≠ some q.slot) :
    (s.closeHolders k).slots.held = s.slots.held ∧ (s.closeHolders k).ports.r = s.ports.r := by
  refine (closeHolders_induction (P := fun t => t.slots.held = s.slots.held ∧ t.ports.r = s.ports.r) ⟨rfl, rfl⟩ ?_).2
  rintro t c x closed holds ⟨held, port⟩
  obtain ⟨held', port'⟩ := unanswered_close .keyRevoked holds.context holds.closable fun q there =>
    elsewhere c x q (closed.holds holds) (held ▸ there)
  exact ⟨held'.trans held, port'.trans port⟩

/-- R53: the slot that joins with a context, in a state that has latched the same headers. -/
theorem boundHolder_congr {s t : State} (header : ∀ q, (t.outSlot q).state.header = (s.outSlot q).state.header)
    (x : Context) : t.boundHolder x = s.boundHolder x := by
  unfold boundHolder
  split
  · rfl
  · rw [header]

/-- R81, R53: what the holders of an entry join to the pending list. -/
def joinsRevoked (s : State) (k : Fin 48) (c : Fin 24) (x : Context) : List ReportHolder :=
  if x.keyLink = some k ∧ x.state ∉ [ContextState.closing, .reporting] then
    s.boundHolder x ++ if x.mark then [] else [.context c]
  else []

/-- R133, R53: the holders that the close of a context takes from the ready list. -/
def CancelledBy (s : State) (c : Fin 24) (x : Context) (h : Holder) : Prop :=
  (x.mark = false ∧ (h = .derive c ∨ h = .verify c))
    ∨ ∃ r, x.bound = some r ∧ (s.outSlot r).state.header ≠ none ∧ h = .code r

/-- R81: what the pass puts on the pending list and takes from the ready list. -/
theorem lists_closeHolders (k : Fin 48) (s : State) :
    (s.closeHolders k).reports = { s.reports with waiting := s.reports.waiting ++ s.eachContext (s.joinsRevoked k) }
      ∧ ∃ keep : Holder → Bool, (s.closeHolders k).engine = { s.engine with ready := s.engine.ready.filter keep }
        ∧ ∀ h, keep h = true ↔ ¬ s.cancelled (s.HoldsEntry k) h := by
  have pass := lists_ascending (f := closeHolder k) (joins := s.joinsRevoked k)
    (drops := fun c x h => s.HoldsEntry k c x ∧ s.CancelledBy c x h) s fun c t same headers => ?_
  · rw [closeHolders_eq]
    obtain ⟨reports, keep, engine, keeps⟩ := pass
    refine ⟨reports, keep, engine, fun h => ?_⟩
    rw [keeps]
    constructor
    · rintro none ⟨c, x, holds, drop⟩
      exact none c x holds.context ⟨holds, drop⟩
    · rintro spared c x - ⟨holds, drop⟩
      exact spared ⟨c, x, holds, drop⟩
  · by_cases holder : ∃ x, t.HoldsEntry k c x
    · obtain ⟨x, holds⟩ := holder
      obtain ⟨context, link, undecided⟩ := holds
      have was : s.context c = some x := same ▸ context
      have closable := HoldsEntry.closable ⟨context, link, undecided⟩
      rw [closeHolder_of_holds ⟨context, link, undecided⟩]
      refine ⟨fun d elsewhere => ?_, fun q => header_close .., ?_, ?_⟩
      · rw [context_close .keyRevoked context closable, if_neg elsewhere]
      · rw [reports_close .keyRevoked context closable, boundHolder_congr headers, joinedBy, was]
        simp only [joinsRevoked, link, undecided, not_false_eq_true, and_self, if_true]
      · obtain ⟨keep, engine, keeps⟩ := engine_close .keyRevoked context closable
        refine ⟨keep, engine, fun h => ?_⟩
        rw [keeps, was]
        have named : t.cancelled (fun d y => d = c ∧ y = x) h ↔ s.CancelledBy c x h := by
          unfold cancelled CancelledBy
          simp only [headers]
          constructor
          · rintro ⟨_, _, ⟨rfl, rfl⟩, drop⟩; exact drop
          · exact fun drop => ⟨c, x, ⟨rfl, rfl⟩, drop⟩
        rw [named]
        constructor
        · rintro spared y e ⟨-, drop⟩; cases e; exact spared drop
        · exact fun spared drop => spared x rfl ⟨⟨was, link, undecided⟩, drop⟩
    · have other := not_exists.mp holder
      rw [closeHolder_of_other other]
      have idle : ∀ x, s.context c = some x → ¬ (x.keyLink = some k ∧ x.state ∉ [ContextState.closing, .reporting]) :=
        fun x context holds => other x ⟨same.trans context, holds⟩
      have joined : s.joinedBy (s.joinsRevoked k) c = [] := by
        unfold joinedBy
        split
        · rfl
        · next x context => exact if_neg (idle x context)
      refine ⟨fun _ _ => rfl, fun _ => rfl, by rw [joined, List.append_nil], fun _ => true, ?_, fun h => ?_⟩
      · rw [List.filter_true]
      · exact ⟨fun _ x context drop => idle x context drop.1.2, fun _ => rfl⟩

/-! ## The effect of a record -/

theorem unwrapComplete_eq {s : State} {transport : Key} {words : List Word} {check : Wide}
    (busy : s.engine.operation = some (.unwrap transport words check)) :
    s.unwrapComplete = ((s.endOperation .unwrap).openRecord transport words check).settle := by
  simp only [unwrapComplete, busy]

theorem applyRecord_of_not_ok {d : LoadRecord} {key : Key} {o : LoadOutcome × Option (Fin 48)} (refused : o.1 ≠ .ok)
    (s : State) : s.applyRecord d key o = s := by
  unfold applyRecord
  split
  · exact absurd rfl refused
  · rfl

/-- R116: an OK INSTALL writes its entry. -/
theorem applyRecord_install {d : LoadRecord} (install : d.kind = 1) (key : Key) (k : Fin 48) (s : State) :
    s.applyRecord d key (.ok, some k) = s.install k d key :=
  if_pos (beq_iff_eq.mpr install)

/-- R117: an OK REVOKE revokes its entry and closes its holders. -/
theorem applyRecord_revoke {d : LoadRecord} (revoke : d.kind = 2) (key : Key) (k : Fin 48) (s : State) :
    s.applyRecord d key (.ok, some k) = s.revoke k d :=
  if_neg (by rw [LoadRecord.isInstall, revoke]; decide)

end State

/-- Settles O31: the pass over the holders, clause by clause, then the record's effect and the end of the load. -/
theorem unwrapCompletionEndsTheLoad : Obligations.UnwrapCompletionEndsTheLoad := by
  unfold Obligations.UnwrapCompletionEndsTheLoad
  refine ⟨fun s k => ?holders, fun s transport words check busy => ?record⟩
  case holders =>
    obtain ⟨spoils, -, recent, abandoned, -⟩ := State.closesHolders_closeHolders k s
    obtain ⟨reports, ready⟩ := State.lists_closeHolders k s
    refine ⟨fun c x closes => State.context_closeHolders closes, fun c other => State.context_closeHolders_other other,
      recent, abandoned, reports, ready,
      fun c x r h closes bound alone frame => State.outSlot_closeHolders closes bound alone frame,
      fun r unbound => spoils.outSlot r ?_, spoils.inSlot, spoils.underruns,
      fun c x q o closes bound frame held access => State.answered_closeHolders closes bound frame held access,
      fun elsewhere => State.unanswered_closeHolders elsewhere, spoils.portC, spoils.arbiter, spoils.keys, spoils.load,
      spoils.agent, spoils.controller, spoils.control, spoils.setup, spoils.mem, spoils.path⟩
    rintro ⟨c, x, holds, bound⟩
    exact unbound c x holds bound
  case record =>
    intro d o idle done
    have completes : ∀ t, idle.applyRecord d (Config.unwrapKey transport words) o = t →
        exec .unwrapComplete s = .next (done t).settle := fun t effect => by
      rw [← effect]; exact congrArg Host.Outcome.next (State.unwrapComplete_eq busy)
    refine ⟨fun refused => completes _ (State.applyRecord_of_not_ok refused idle), fun k ok install => completes _ ?_,
      fun k ok revoke => completes _ ?_⟩
    · rw [ok, State.applyRecord_install install]; rfl
    · rw [ok, State.applyRecord_revoke revoke]; rfl

end Sys2Proof.Machine
end

section
/-! PROOF of ClockGivesTheKeyState, IssuersAreServedByFilters and LoadTestsAreMadeInOrder: the state of a key entry under the clock,
the bits an issuer filter compares, the entry that holds a pair, and the tests on a load record. -/

namespace Sys2Proof.Machine

/-! ## A key entry under the clock -/

theorem KeyEntry.ages_iff (e : KeyEntry) : e.ages = true ↔ ¬ (e.state = .empty ∨ e.state = .revoked) := by
  unfold KeyEntry.ages
  cases e.state <;> decide

theorem KeyEntry.evaluate_of_ages {e : KeyEntry} (ages : ¬ (e.state = .empty ∨ e.state = .revoked)) (clock : Option Word) :
    e.evaluate clock = { e with state := windowState clock e.validFrom e.validUntil } :=
  if_pos (e.ages_iff.mpr ages)

theorem KeyEntry.evaluate_of_fixed {e : KeyEntry} (fixed : e.state = .empty ∨ e.state = .revoked) (clock : Option Word) :
    e.evaluate clock = e :=
  if_neg fun ages => e.ages_iff.mp ages fixed

/-- Settles O28: the clock's order is that of the values, and R90 and R92 case by case. -/
theorem clockGivesTheKeyState : Obligations.ClockGivesTheKeyState := by
  unfold Obligations.ClockGivesTheKeyState
  refine ⟨fun clock first until_ => ?window, fun clock e => ?evaluated, fun e => rfl⟩
  case window => cases clock <;> rfl
  case evaluated =>
    split
    · next fixed => exact KeyEntry.evaluate_of_fixed fixed clock
    · next ages => exact KeyEntry.evaluate_of_ages ages clock

/-! ## Issuer filters -/

/-- R101: what is left of a code without its low `w` bits is the bits from `w` up. -/
theorem ushiftRight_eq_iff (i code : BitVec 16) (w : Nat) :
    i >>> w = code >>> w ↔ ∀ b, w ≤ b → b < 16 → i.getLsbD b = code.getLsbD b := by
  constructor
  · intro same b above _
    have bit := congrArg (fun x => x.getLsbD (b - w)) same
    simpa only [BitVec.getLsbD_ushiftRight, Nat.add_sub_cancel' above] using bit
  · intro agree
    apply BitVec.eq_of_getLsbD_eq
    intro b _
    rw [BitVec.getLsbD_ushiftRight, BitVec.getLsbD_ushiftRight]
    by_cases inside : w + b < 16
    · exact agree (w + b) (Nat.le_add_right w b) inside
    · rw [BitVec.getLsbD_of_ge i _ (Nat.not_lt.mp inside), BitVec.getLsbD_of_ge code _ (Nat.not_lt.mp inside)]

theorem Filter.matches_iff (f : Filter) (i : BitVec 16) :
    f.matches i = true ↔
      f.enable = true ∧ (∀ b, f.maskWidth ≤ b → b < 16 → i.getLsbD b = f.code.getLsbD b)
        ∧ (0 < f.maskWidth → i ≠ 0 ∧ i ≠ 0xFFFF#16) := by
  rw [← ushiftRight_eq_iff]
  simp [Filter.matches, and_assoc, Nat.pos_iff_ne_zero, or_iff_not_imp_left]

/-- Settles O29: a filter by the bits it compares, then the branches of R102. -/
theorem issuersAreServedByFilters : Obligations.IssuersAreServedByFilters := by
  unfold Obligations.IssuersAreServedByFilters
  refine ⟨Filter.matches_iff, fun x i => ⟨fun all => if_pos all, fun zero => ?service, fun notZero notAll => ?filters⟩⟩
  case service => subst zero; rfl
  case filters => rw [Setup.serves, if_neg notAll, if_neg notZero]; exact Table.any_iff ..

/-! ## The entry that holds a pair -/

theorem KeyEntry.holds_iff (issuer : BitVec 16) (generation : BitVec 8) (e : KeyEntry) :
    e.holds issuer generation = true ↔ e.state ≠ .empty ∧ e.issuer = issuer ∧ e.generation = generation := by
  simp [KeyEntry.holds, and_assoc]

namespace State

/-- R94: entry `k` holds the pair. -/
def HoldsPair (s : State) (issuer : BitVec 16) (generation : BitVec 8) (k : Fin 48) : Prop :=
  (s.keys.entries.get k).state ≠ .empty ∧ (s.keys.entries.get k).issuer = issuer
    ∧ (s.keys.entries.get k).generation = generation

theorem holds_entry_iff (s : State) (issuer : BitVec 16) (generation : BitVec 8) (k : Fin 48) :
    (s.keys.entries.get k).holds issuer generation = true ↔ s.HoldsPair issuer generation k := KeyEntry.holds_iff ..

theorem findKey_eq_some_iff {s : State} {issuer : BitVec 16} {generation : BitVec 8} {k : Fin 48} :
    s.findKey issuer generation = some k ↔
      s.HoldsPair issuer generation k ∧ ∀ j, j < k → ¬ s.HoldsPair issuer generation j := by
  simp only [← holds_entry_iff, Bool.not_eq_true]
  exact Table.first_eq_some_iff

theorem findKey_eq_none_iff {s : State} {issuer : BitVec 16} {generation : BitVec 8} :
    s.findKey issuer generation = none ↔ ∀ k, ¬ s.HoldsPair issuer generation k := by
  simp only [← holds_entry_iff, Bool.not_eq_true]
  exact Table.first_eq_none_iff

end State

/-! ## The tests on a load record -/

/-- R114: the record carries content the part accepts. -/
def LoadRecord.Known (d : LoadRecord) : Prop :=
  (d.kind = 1 ∨ d.kind = 2) ∧ d.format = 1 ∧ ¬ (d.kind = 1 ∧ d.issuer = 0xFFFF#16)

theorem LoadRecord.bad_eq_true_iff (d : LoadRecord) : d.bad = true ↔ ¬ d.Known := by
  simp [LoadRecord.bad, LoadRecord.isInstall, LoadRecord.isRevoke, LoadRecord.Known]
  tauto

theorem LoadRecord.isInstall_iff (d : LoadRecord) : d.isInstall = true ↔ d.kind = 1 := beq_iff_eq

namespace State

/-- R116: an INSTALL whose window holds a second is decided by the entry that holds its pair, then by the lowest EMPTY one. -/
def installOutcome (s : State) (d : LoadRecord) : LoadOutcome × Option (Fin 48) :=
  match s.findKey d.issuer d.generation with
  | some k => (.duplicate, some k)
  | none =>
    match s.keys.entries.first fun e => e.state == .empty with
    | some k => (.ok, some k)
    | none => (.tableFull, none)

/-- R117: a REVOKE is decided by the entry that holds its pair. -/
def revokeOutcome (s : State) (d : LoadRecord) : LoadOutcome × Option (Fin 48) :=
  match s.findKey d.issuer d.generation with
  | some k => (.ok, some k)
  | none => (.notFound, none)

variable {s : State} {d : LoadRecord}

theorem loadOutcome_badRecord (unknown : ¬ d.Known) : s.loadOutcome d true = (.badRecord, none) := by
  rw [loadOutcome, if_neg (by decide), if_pos (d.bad_eq_true_iff.mpr unknown)]

theorem loadOutcome_stale (known : d.Known) (stale : ¬ s.keys.highestSerial < d.serial) :
    s.loadOutcome d true = (.stale, none) := by
  rw [loadOutcome, if_neg (by decide), if_neg (fun bad => d.bad_eq_true_iff.mp bad known),
    if_pos (Nat.not_lt.mp stale)]

theorem loadOutcome_badWindow (known : d.Known) (fresh : s.keys.highestSerial < d.serial) (install : d.kind = 1)
    (ended : ¬ d.validFrom < d.validUntil) : s.loadOutcome d true = (.badWindow, none) := by
  rw [loadOutcome, if_neg (by decide), if_neg (fun bad => d.bad_eq_true_iff.mp bad known), if_neg (Nat.not_le.mpr fresh),
    if_pos (d.isInstall_iff.mpr install), if_pos (Nat.not_lt.mp ended)]

theorem loadOutcome_install (known : d.Known) (fresh : s.keys.highestSerial < d.serial) (install : d.kind = 1)
    (opens : d.validFrom < d.validUntil) : s.loadOutcome d true = s.installOutcome d := by
  rw [loadOutcome, if_neg (by decide), if_neg (fun bad => d.bad_eq_true_iff.mp bad known), if_neg (Nat.not_le.mpr fresh),
    if_pos (d.isInstall_iff.mpr install), if_neg (Nat.not_le.mpr opens)]
  rfl

theorem loadOutcome_revoke (known : d.Known) (fresh : s.keys.highestSerial < d.serial) (revoke : d.kind = 2) :
    s.loadOutcome d true = s.revokeOutcome d := by
  rw [loadOutcome, if_neg (by decide), if_neg (fun bad => d.bad_eq_true_iff.mp bad known), if_neg (Nat.not_le.mpr fresh),
    if_neg (by rw [d.isInstall_iff, revoke]; decide)]
  rfl

theorem installOutcome_duplicate {k : Fin 48} (held : s.findKey d.issuer d.generation = some k) :
    s.installOutcome d = (.duplicate, some k) := by
  simp only [installOutcome, held]

theorem installOutcome_full (unheld : s.findKey d.issuer d.generation = none)
    (full : ∀ k, (s.keys.entries.get k).state ≠ .empty) : s.installOutcome d = (.tableFull, none) := by
  have noneEmpty : (s.keys.entries.first fun e => e.state == .empty) = none :=
    Table.first_eq_none_iff.mpr fun k => beq_eq_false_iff_ne.mpr (full k)
  simp only [installOutcome, unheld, noneEmpty]

theorem installOutcome_ok {k : Fin 48} (unheld : s.findKey d.issuer d.generation = none)
    (empty : (s.keys.entries.get k).state = .empty) (lower : ∀ j, j < k → (s.keys.entries.get j).state ≠ .empty) :
    s.installOutcome d = (.ok, some k) := by
  have lowest : (s.keys.entries.first fun e => e.state == .empty) = some k :=
    Table.first_eq_some_iff.mpr ⟨beq_iff_eq.mpr empty, fun j below => beq_eq_false_iff_ne.mpr (lower j below)⟩
  simp only [installOutcome, unheld, lowest]

end State

/-- Settles O30: the fields as they are defined, the search of the table, and the tests one after another. -/
theorem loadTestsAreMadeInOrder : Obligations.LoadTestsAreMadeInOrder := by
  unfold Obligations.LoadTestsAreMadeInOrder
  refine ⟨fun b => ⟨rfl, rfl, rfl, rfl, rfl, rfl, rfl⟩, fun s issuer generation =>
    ⟨fun k => State.findKey_eq_some_iff, State.findKey_eq_none_iff⟩, fun s d pass => ?_⟩
  refine ⟨fun fail => if_pos fail, ?badRecord, ?stale, ?install, ?revoke⟩ <;> (intro passed; subst passed)
  case badRecord => exact State.loadOutcome_badRecord
  case stale => exact State.loadOutcome_stale
  case install =>
    intro known fresh install
    refine ⟨State.loadOutcome_badWindow known fresh install, fun opens => ?_⟩
    rw [State.loadOutcome_install known fresh install opens]
    exact ⟨fun k => State.installOutcome_duplicate, fun unheld =>
      ⟨State.installOutcome_full unheld, fun k => State.installOutcome_ok unheld⟩⟩
  case revoke =>
    intro known fresh revoke
    rw [State.loadOutcome_revoke known fresh revoke, State.revokeOutcome]
    exact ⟨fun unheld => by rw [unheld], fun k held => by rw [held]⟩

end Sys2Proof.Machine
end

section
/-! SUPPORT of EveryStepKeepsTheKeyTable and HighestSerialNeverFalls: the operations that leave the key table, the seconds clock and
the key links as they were, one equation per operation. -/

namespace Sys2Proof.Machine

/-- What the consistency of the key table and the highest load serial speak of. -/
structure KeyView where
  entries : Table 48 KeyEntry
  highestSerial : Word
  lastWrite : Option RetainedWrite
  clock : Option Word
  power : Power
  links : Fin 24 → Option (Fin 48)

namespace State

/-- R96: the key entry a context links, none for a FREE one. -/
def link (s : State) (c : Fin 24) : Option (Fin 48) := (s.context c).bind (·.keyLink)

/-- R96, R103, R167: the key table with its clock and its links. -/
def keyView (s : State) : KeyView :=
  ⟨s.keys.entries, s.keys.highestSerial, s.keys.lastWrite, s.controller.seconds, s.controller.power, s.link⟩

theorem link_of_contexts {s t : State} (same : t.contexts = s.contexts) : t.link = s.link := by
  funext c
  rw [link, link, context_eq, context_eq, same]

theorem keyView_of_work {s t : State} (work : s.Work t) (links : t.link = s.link) : t.keyView = s.keyView := by
  rw [keyView, keyView, work.keys, work.controller, links]

theorem keyView_of_contexts {s t : State} (work : s.Work t) (same : t.contexts = s.contexts) : t.keyView = s.keyView :=
  keyView_of_work work (link_of_contexts same)

/-! ## Contexts that keep their key links -/

theorem link_setContext (c : Fin 24) (x : Option Context) (s : State) (d : Fin 24) :
    (s.setContext c x).link d = if d = c then x.bind (·.keyLink) else s.link d := by
  rw [link, context_setContext]
  split <;> rfl

theorem keyView_setContext {c : Fin 24} {x : Option Context} {s : State} (same : x.bind (·.keyLink) = s.link c) :
    (s.setContext c x).keyView = s.keyView := by
  refine keyView_of_work (work_setContext ..) (funext fun d => ?_)
  rw [link_setContext, same]
  split
  · next here => rw [here]
  · rfl

theorem keyView_setOpen {c : Fin 24} {x y : Context} {s : State} (context : s.context c = some x)
    (same : y.keyLink = x.keyLink) : (s.setContext c (some y)).keyView = s.keyView :=
  keyView_setContext (by rw [link, context]; exact same)

theorem keyView_modifyContext (c : Fin 24) (f : Context → Context) (s : State)
    (same : ∀ x, (f x).keyLink = x.keyLink := by exact fun _ => rfl) : (s.modifyContext c f).keyView = s.keyView := by
  refine keyView_setContext ?_
  rw [link]
  cases s.context c with
  | none => rfl
  | some x => exact same x

theorem keyView_mapContexts (f : Context → Context) (s : State)
    (same : ∀ x, (f x).keyLink = x.keyLink := by exact fun _ => rfl) : (s.mapContexts f).keyView = s.keyView := by
  refine keyView_of_work (work_mapContexts ..) (funext fun c => ?_)
  rw [link, link, context_mapContexts]
  cases s.context c with
  | none => rfl
  | some x => exact same x

theorem keyView_ascending {f : Fin 24 → State → State} (step : ∀ c (s : State), (f c s).keyView = s.keyView) (s : State) :
    (Table.ascending 24 f s).keyView = s.keyView :=
  Table.ascending_keeps (P := fun t => t.keyView = s.keyView) (fun c t same => (step c t).trans same) s rfl

theorem keyLink_absorb (lane : Fin 8) (x : Context) : (x.absorb lane).keyLink = x.keyLink := by
  unfold Context.absorb; split <;> rfl

theorem keyLink_trim (n : Fin 8) (x : Context) : (x.trim n).keyLink = x.keyLink := by
  unfold Context.trim; dsimp only; split <;> rfl

theorem keyLink_elapse (x : Context) : x.elapse.keyLink = x.keyLink := by
  unfold Context.elapse; split <;> rfl

/-! ## Slots and contexts -/

@[simp] theorem keyView_setOutSlot (r : SlotRef) (x : OutSlot) (s : State) : (s.setOutSlot r x).keyView = s.keyView := rfl
@[simp] theorem keyView_setInSlot (r : SlotRef) (x : InSlot) (s : State) : (s.setInSlot r x).keyView = s.keyView := rfl
@[simp] theorem keyView_setLane (n : Fin 8) (x : LaneSlots) (s : State) : (s.setLane n x).keyView = s.keyView := rfl
@[simp] theorem keyView_joinReady (h : Holder) (s : State) : (s.joinReady h).keyView = s.keyView := rfl
@[simp] theorem keyView_joinReports (h : ReportHolder) (s : State) : (s.joinReports h).keyView = s.keyView := rfl

@[simp] theorem keyView_result (code : BitVec 8) (o : CommandOutcome) (detail : BitVec 8) (s : State) :
    (s.result code o detail).keyView = s.keyView := rfl

@[simp] theorem keyView_setPort (p : Port) (x : PortState) (s : State) : (s.setPort p x).keyView = s.keyView :=
  keyView_of_contexts (work_setPort ..) (contexts_setPort ..)

@[simp] theorem keyView_hold (p : Port) (o : Outstanding) (s : State) : (s.hold p o).keyView = s.keyView := keyView_setPort ..

@[simp] theorem keyView_respond (p : Port) (r : Response) (s : State) : (s.respond p r).keyView = s.keyView := keyView_setPort ..

@[simp] theorem keyView_supply (p : Port) (size : Size) (w : Word) (s : State) : (s.supply p size w).keyView = s.keyView :=
  keyView_setPort ..

@[simp] theorem keyView_refuse (p : Port) (kind : RefusalKind) (address : BitVec 22) (s : State) :
    (s.refuse p kind address).keyView = s.keyView := keyView_setPort p _ (s.recordRefusal p kind address)

@[simp] theorem keyView_answerHeld (r : SlotRef) (w : Word) (s : State) : (s.answerHeld r w).keyView = s.keyView :=
  keyView_of_contexts (work_answerHeld ..) (contexts_answerHeld ..)

@[simp] theorem keyView_spoil (r : SlotRef) (report : Report) (s : State) : (s.spoil r report).keyView = s.keyView :=
  keyView_of_contexts (work_spoil ..) (contexts_spoil ..)

@[simp] theorem keyView_dropJobs (p : Job → Bool) (s : State) : (s.dropJobs p).keyView = s.keyView :=
  keyView_of_contexts (work_dropJobs ..) (contexts_dropJobs ..)

@[simp] theorem keyView_send (r : SlotRef) (s : State) : (s.send r).keyView = s.keyView := by
  unfold send
  split
  · exact keyView_modifyContext _ _ (s.setOutSlot r { s.outSlot r with state := .free })
  · rfl

@[simp] theorem keyView_underrun (r : SlotRef) (s : State) : (s.underrun r).keyView = s.keyView := by
  have bound : ∀ c (t : State), (t.modifyContext c Context.dropBinding).keyView = t.keyView :=
    fun c t => keyView_modifyContext c _ t
  unfold underrun
  split <;> simp [bound]

@[simp] theorem keyView_close (code : PassageCode) (c : Fin 24) (s : State) : (s.close code c).keyView = s.keyView := by
  refine keyView_of_work (work_close ..) ?_
  rw [link_of_contexts (contexts_close code c s)]
  refine congrArg KeyView.links (keyView_modifyContext c _ s fun x => ?_)
  split <;> rfl

@[simp] theorem keyView_endClosing (c : Fin 24) (s : State) : (s.endClosing c).keyView = s.keyView := by
  exact keyView_modifyContext c (fun x => { x with state := .reporting }) s

@[simp] theorem keyView_closeHolders (k : Fin 48) (s : State) : (s.closeHolders k).keyView = s.keyView := by
  refine keyView_ascending (fun c t => ?_) s
  split
  · split <;> simp
  · rfl

theorem keyView_restartContext (n : Fin 8) (c : Fin 24) (s : State) : (s.restartContext n c).keyView = s.keyView := by
  unfold restartContext
  split
  · rfl
  · next x context =>
    split
    · split
      · rw [keyView_close]
        split
        · exact keyView_setOpen context rfl
        · rfl
      · split
        · exact keyView_setOpen context (keyLink_trim n x)
        · rfl
    · rfl

@[simp] theorem keyView_restartLane (n : Fin 8) (s : State) : (s.restartLane n).keyView = s.keyView := by
  have answered : (s.answerHeldInLane n).keyView = s.keyView := by
    unfold answerHeldInLane
    split
    · split <;> simp
    · rfl
  have dropped : ∀ t : State, (((t.dropCodes n).dropJobs (Job.fetchesLane n)).dropLaneReports n).keyView = t.keyView :=
    fun t => keyView_dropJobs (Job.fetchesLane n) (t.dropCodes n)
  unfold restartLane
  rw [keyView_ascending (keyView_restartContext n), dropped]
  exact answered

/-! ## Engine, report writer and load unit -/

@[simp] theorem keyView_setMark (h : Holder) (m : Bool) (s : State) : (s.setMark h m).keyView = s.keyView := by
  cases h with
  | code | unwrap => rfl
  | verify c | derive c => exact keyView_modifyContext c (fun x => { x with mark := m }) s

@[simp] theorem keyView_weighEngine (s : State) : s.weighEngine.keyView = s.keyView := by
  unfold weighEngine
  split
  · split
    · rfl
    · next h _ =>
      split
      · rfl
      · exact keyView_setMark h true (s.leaveReady h)
  · rfl

@[simp] theorem keyView_settle (s : State) : s.settle.keyView = s.keyView := by
  obtain ⟨⟨jobs, write, eq⟩, -⟩ := s.weighEngine.weighReports_spec
  rw [settle, eq]
  exact keyView_weighEngine s

@[simp] theorem keyView_relax (s : State) : s.relax.keyView = s.keyView := by
  unfold relax; split <;> rfl

@[simp] theorem keyView_rouse (s : State) : s.rouse.keyView = s.keyView := by
  unfold rouse; split <;> rfl

theorem keyView_endOperation (h : Holder) (s : State) : (s.endOperation h).keyView = s.keyView :=
  keyView_setMark h false (s.setOperation none)

theorem keyView_arm (r : SlotRef) (h : Header) (c : Fin 24) (code : Wide) (s : State) :
    (s.arm r h c code).keyView = s.keyView := by
  unfold arm
  dsimp only
  split
  · split
    · split <;> simp
    · rfl
  · rfl

theorem keyView_codeComplete (s : State) : s.codeComplete.keyView = s.keyView := by
  have finished : ∀ r code (t : State), (t.finishCode r code).keyView = t.keyView := fun r code t => by
    unfold finishCode
    split
    · rw [keyView_arm, keyView_setMark]
    · rfl
  unfold codeComplete
  split
  · rw [keyView_settle, finished]; rfl
  · rfl

theorem keyView_deriveComplete (s : State) : s.deriveComplete.keyView = s.keyView := by
  have finished : ∀ c key (t : State), (t.finishDerive c key).keyView = t.keyView := fun c key t => by
    unfold finishDerive
    split
    · rfl
    · next x context =>
      split
      · have keyed : (t.setContext c (some (x.keyed key))).keyView = t.keyView := keyView_setOpen context rfl
        dsimp only
        split
        · rw [keyView_of_contexts (work_startCoding ..) (contexts_startCoding ..), keyed]
        · exact keyed
      · split
        · exact keyView_endClosing ..
        · rfl
  unfold deriveComplete
  split
  · rw [keyView_settle, finished, keyView_endOperation]
  · rfl

theorem keyView_verifyComplete (s : State) : s.verifyComplete.keyView = s.keyView := by
  have finished : ∀ c m (t : State), (t.finishVerify c m).keyView = t.keyView := fun c m t => by
    unfold finishVerify
    split
    · rfl
    · next x context =>
      split
      · rw [keyView_joinReports]; exact keyView_setOpen context rfl
      · split
        · exact keyView_endClosing ..
        · rfl
  unfold verifyComplete
  split
  · rw [keyView_settle, finished, keyView_endOperation]
  · rfl

/-! ## Accesses -/

@[simp] theorem keyView_passThrough (p : Port) (a : Access) (track : Option SlotWord) (s : State) :
    (s.passThrough p a track).keyView = s.keyView := by
  unfold passThrough
  split
  · split <;> simp
  · simp

theorem keyView_readCode (r : SlotRef) (high : Bool) (a : Access) (s : State) : (s.readCode r high a).keyView = s.keyView := by
  have held : (s.holdRead r high a).keyView = s.keyView := by
    unfold holdRead
    dsimp only
    split
    · simp
    · exact keyView_hold ..
  unfold readCode
  split
  · dsimp only
    split <;> simp
  · exact held
  · exact held
  · exact held
  · exact held
  · exact keyView_supply ..
  · exact keyView_supply ..
  · exact keyView_supply ..
  · exact keyView_supply ..

theorem keyView_command (code : BitVec 8) (operand : BitVec 24) (s : State) : (s.command code operand).keyView = s.keyView := by
  have carried : ∀ c, (s.carryOut c code operand).keyView = s.keyView := fun c => by
    cases c with
    | laneRestart => rw [carryOut, keyView_result, keyView_restartLane]
    | setup | rest | releaseReports | clearAttention => rfl
  unfold command
  split
  · exact carried _
  · rw [keyView_rouse, carried]
  · rw [keyView_rouse]; rfl
  · rfl

theorem keyView_blockAccess (a : Access) (s : State) : (s.blockAccess a).keyView = s.keyView := by
  have commanded : (s.commandWrite a).keyView = s.keyView := by
    unfold commandWrite
    split
    · rw [keyView_command, keyView_respond]
    · exact keyView_refuse ..
  have loaded : ∀ i, (s.loadWindow i a).keyView = s.keyView := fun i => by
    unfold loadWindow
    split
    · exact keyView_refuse ..
    · rw [keyView_rouse, keyView_respond, keyView_of_contexts (work_takeLoadWord ..) (contexts_takeLoadWord ..)]
  unfold blockAccess
  dsimp only
  split
  · split
    · exact keyView_passThrough ..
    · exact commanded
    · exact keyView_refuse ..
    · exact loaded _
    · exact keyView_refuse ..
    · exact keyView_refuse ..
  · split <;> simp

theorem keyView_ringAccess (p : Port) (a : Access) (t : SlotWord) (s : State) : (s.ringAccess p a t).keyView = s.keyView := by
  have judged : (if a.size = .word then s.passThrough p a (some t) else s.refuse p .partialWrite a.address).keyView
      = s.keyView := by
    split <;> simp
  unfold ringAccess
  split
  · exact keyView_refuse ..
  · exact judged
  · exact keyView_passThrough ..
  · exact keyView_refuse ..
  · exact judged
  · exact keyView_passThrough ..
  · split
    · exact keyView_readCode ..
    · exact keyView_passThrough ..

@[simp] theorem keyView_classify (p : Port) (a : Access) (s : State) : (s.classify p a).keyView = s.keyView := by
  unfold classify
  split
  · split
    · exact keyView_blockAccess ..
    · exact keyView_refuse ..
  · split
    · exact keyView_ringAccess ..
    · exact keyView_passThrough ..

@[simp] theorem keyView_startWake (s : State) : s.startWake.keyView = s.keyView := by
  unfold startWake; split <;> rfl

theorem keyView_arrive (p : Port) (a : Access) (s : State) : (s.arrive p a).keyView = s.keyView := by
  unfold arrive
  split
  · rfl
  · split
    · rfl
    · exact keyView_hold ..
    · split <;> simp

@[simp] theorem keyView_classifyAllHeld (order : Order) (s : State) : (s.classifyAllHeld order).keyView = s.keyView := by
  have one : ∀ p (t : State), (t.classifyHeld p).keyView = t.keyView := fun p t => by
    unfold classifyHeld; split <;> simp
  cases order <;> simp [classifyAllHeld, one]

/-! ## The memory port -/

theorem keyView_grant (s : State) : s.grant.keyView = s.keyView := by
  have port : ∀ p a track, (s.grantPort p a track).keyView = s.keyView := fun p a track => by
    unfold grantPort
    split
    · exact keyView_refuse ..
    · exact keyView_hold p _ (s.setArbiter (some (.port p)))
  unfold grant
  split
  · rfl
  · split
    · exact port ..
    · rfl
    · exact port ..
    · rfl

theorem keyView_wordAccessComplete (s : State) : s.wordAccessComplete.keyView = s.keyView := by
  have tracked : ∀ a judged (t : State), (t.applyTracked a judged).keyView = t.keyView := fun a judged t => by
    unfold applyTracked
    split
    · rfl
    · split
      · split
        · next effect => rw [keyView_rouse, keyView_of_contexts (work_writeSlot effect) (contexts_writeSlot effect)]
        · rfl
      · rfl
  have completed : ∀ p a judged, (s.completeAccess p a judged).keyView = s.keyView := fun p a judged => by
    unfold completeAccess
    split
    · rw [tracked, keyView_respond]; rfl
    · exact keyView_supply p _ _ s.freePort
  unfold wordAccessComplete
  split
  · split
    · rw [keyView_settle, keyView_relax, completed]
    · rfl
  · rfl

theorem keyView_agentJobStart (s : State) : s.agentJobStart.keyView = s.keyView := by
  have begun : ∀ j (t : State), (t.beginFetch j).keyView = t.keyView := fun j t => by
    cases j with
    | fetchFrame ring r => cases ring <;> (unfold beginFetch; dsimp only; split <;> rfl)
    | fetchSetup | writeReport => rfl
  unfold agentJobStart
  split
  · split
    · rw [begun]; rfl
    · rfl
  · rfl

@[simp] theorem keyView_restPorts (order : Order) (s : State) : (s.restPorts order).keyView = s.keyView := by
  obtain ⟨ports, path, raised, arbiter, mem, fresh, eq⟩ := restPorts_form order s
  rw [eq]; rfl

theorem keyView_mrestAssert (order : Order) (s : State) : (s.mrestAssert order).keyView = s.keyView := by
  have retried : ∀ p (t : State), (t.retryPort p).keyView = t.keyView := fun p t => by
    obtain ⟨ports, arbiter, mem, fresh, eq⟩ := retryPort_form p t
    rw [eq]; rfl
  have failed : ∀ t : State, t.failAgentWord.keyView = t.keyView := fun t => by
    obtain ⟨mem, fresh, eq⟩ := failAgentWord_form t
    rw [eq]; rfl
  have rewound : ∀ t : State, t.rewindJob.keyView = t.keyView := fun t => by
    obtain ⟨agent, eq⟩ := rewindJob_form t
    rw [eq]; rfl
  unfold mrestAssert
  split
  · rfl
  · dsimp only
    split
    · rfl
    · rw [failed, retried, retried]; rfl
    · rw [keyView_relax, rewound, failed, keyView_restPorts]; rfl

/-! ## Time -/

theorem keyView_holdLimitExpiry (s : State) : s.holdLimitExpiry.keyView = s.keyView := by
  unfold holdLimitExpiry; split <;> simp

theorem keyView_deadlineExpiry (c : Fin 24) (s : State) : (s.deadlineExpiry c).keyView = s.keyView := by
  unfold deadlineExpiry
  split
  · rfl
  · split <;> simp

theorem keyView_recentEntryExpiry (s : State) : s.recentEntryExpiry.keyView = s.keyView := by
  unfold recentEntryExpiry
  split
  · rfl
  · split <;> rfl

theorem keyView_expireOverdue (s : State) : s.expireOverdue.keyView = s.keyView := by
  unfold expireOverdue
  split
  · exact keyView_holdLimitExpiry s
  · rfl

theorem keyView_advance (s : State) : s.advance.keyView = s.keyView :=
  keyView_mapContexts Context.elapse { s with controller := { s.controller with
    time := s.controller.time + 1
    millis := if s.controller.seconds.isSome then s.controller.millis + 1 else s.controller.millis } } keyLink_elapse

/-! ## Frames without an ANNOUNCE that opens a context -/

theorem keyView_takeConfirm (h : Header) (r : SlotRef) (f : Confirm) (s : State) :
    (s.takeConfirm h r f).keyView = s.keyView := by
  unfold takeConfirm
  split
  · rfl
  · next c _ =>
    split
    · rfl
    · next x i matched =>
      obtain ⟨y, context, matched⟩ := Option.bind_eq_some_iff.mp matched
      obtain ⟨j, -, pair⟩ := Option.map_eq_some_iff.mp matched
      cases pair
      unfold matchedConfirm
      have confirmed : ∀ t : State, t.contexts = s.contexts → t.keyView = s.keyView →
          (((t.setContext c (some (x.confirmed r.lane f i))).setInSlot r .free).joinReady (.verify c)).keyView = s.keyView := by
        intro t same view
        have context' : t.context c = some x := by rw [context_eq, same]; exact context
        have set : (t.setContext c (some (x.confirmed r.lane f i))).keyView = t.keyView := keyView_setOpen context' rfl
        rw [keyView_joinReady, keyView_setInSlot, set, view]
      split
      · exact confirmed _ (contexts_spoil ..) (keyView_spoil ..)
      · exact confirmed s rfl rfl

theorem keyView_takeChallenge (h : Header) (r : SlotRef) (f : Challenge) (s : State) :
    (s.takeChallenge h r f).keyView = s.keyView := by
  unfold takeChallenge
  split
  · exact keyView_spoil ..
  · next c _ =>
    split
    · rfl
    · next x context =>
      split
      · exact keyView_spoil ..
      · have bound : (s.setContext c (some (x.bind r f))).keyView = s.keyView := keyView_setOpen context rfl
        unfold bindChallenge
        dsimp only
        split <;> exact bound

end State

end Sys2Proof.Machine
end

section
/-! SUPPORT of EveryStepKeepsTheKeyTable and HighestSerialNeverFalls: what one entry of a consistent table keeps under each change
of it, the labels of a table, and the table as a whole. -/

namespace Sys2Proof.Machine

/-! ## One entry of the table -/

theorem windowState_clocked (clock : Option Word) (first until_ : Word) :
    windowState clock first until_ ≠ .empty ∧ windowState clock first until_ ≠ .revoked := by
  unfold windowState
  split
  · decide
  · split
    · decide
    · split <;> decide

namespace KeyEntry

/-- R90: an entry has the state that the clock gives it. -/
theorem evaluate_eq_self_iff {clock : Option Word} {e : KeyEntry} :
    e.evaluate clock = e ↔
      ¬ (e.state = .empty ∨ e.state = .revoked) → e.state = windowState clock e.validFrom e.validUntil := by
  constructor
  · intro aged ages
    have state := congrArg KeyEntry.state (evaluate_of_ages ages clock)
    rwa [aged] at state
  · intro clocked
    by_cases fixed : e.state = .empty ∨ e.state = .revoked
    · exact evaluate_of_fixed fixed clock
    · rw [evaluate_of_ages fixed, ← clocked fixed]

theorem evaluate_evaluate (clock : Option Word) (e : KeyEntry) : (e.evaluate clock).evaluate clock = e.evaluate clock := by
  by_cases fixed : e.state = .empty ∨ e.state = .revoked
  · rw [evaluate_of_fixed fixed, evaluate_of_fixed fixed]
  · rw [evaluate_of_ages fixed]
    exact evaluate_eq_self_iff.mpr fun _ => rfl

theorem evaluate_references {clock : Option Word} {e : KeyEntry} (aged : e.evaluate clock = e) (n : Nat) :
    ({ e with references := n } : KeyEntry).evaluate clock = { e with references := n } :=
  have clocked := evaluate_eq_self_iff.mp aged
  evaluate_eq_self_iff.mpr clocked

theorem references_evaluate (clock : Option Word) (e : KeyEntry) : (e.evaluate clock).references = e.references := by
  unfold evaluate; split <;> rfl

theorem empty_of_evaluate {clock : Option Word} {e : KeyEntry} (vacant : (e.evaluate clock).state = .empty) : e.state = .empty := by
  by_cases fixed : e.state = .empty ∨ e.state = .revoked
  · rwa [evaluate_of_fixed fixed] at vacant
  · rw [evaluate_of_ages fixed] at vacant
    exact absurd vacant (windowState_clocked ..).1

/-- R90, R92, R96: what an entry of a consistent table keeps, by the power, the clock and the number of contexts that link it. -/
structure Consistent (power : Power) (clock : Option Word) (links : Nat) (e : KeyEntry) : Prop where
  counted : e.references = links
  unlinked : e.state = .empty → e.references = 0
  unspent : power = .on → e.state = .expired ∨ e.state = .revoked → e.references ≠ 0
  aged : e.evaluate clock = e

theorem consistent_empty (power : Power) (clock : Option Word) : KeyEntry.empty.Consistent power clock 0 :=
  ⟨rfl, fun _ => rfl, fun _ spent => absurd spent (by decide), rfl⟩

/-- R92: an entry that is settled is not spent. -/
theorem consistent_settle {power : Power} {clock : Option Word} {links : Nat} {e : KeyEntry} (counted : e.references = links)
    (unlinked : e.state = .empty → e.references = 0) (aged : e.evaluate clock = e) :
    e.settle.Consistent power clock links := by
  unfold settle
  split
  · next spent => rw [← counted, spent.2]; exact consistent_empty power clock
  · next unspent => exact ⟨counted, unlinked, fun _ state zero => unspent ⟨state, zero⟩, aged⟩

section

variable {power : Power} {clock : Option Word} {links : Nat} {e : KeyEntry}

/-- R91, R93: an entry evaluated against a new clock. -/
theorem Consistent.evaluated (ok : e.Consistent power clock links) (clock' : Option Word) :
    (e.evaluate clock').settle.Consistent power clock' links := by
  refine consistent_settle ((references_evaluate ..).trans ok.counted) (fun vacant => ?_) (evaluate_evaluate ..)
  exact (references_evaluate ..).trans (ok.unlinked (empty_of_evaluate vacant))

/-- R66, R96: a LIVE entry that one more context links. -/
theorem Consistent.linked (ok : e.Consistent power clock links) (live : e.state = .live) :
    ({ e with references := e.references + 1 } : KeyEntry).Consistent power clock (links + 1) where
  counted := congrArg (· + 1) ok.counted
  unlinked vacant := absurd (live.symm.trans vacant) (by decide)
  unspent _ _ := Nat.succ_ne_zero _
  aged := evaluate_references ok.aged _

/-- R83, R96: an entry whose count falls to `n`. -/
theorem Consistent.counting (ok : e.Consistent power clock links) {n : Nat} (fewer : n ≤ links) :
    ({ e with references := n } : KeyEntry).settle.Consistent power clock n := by
  refine consistent_settle rfl (fun vacant => ?_) (evaluate_references ok.aged n)
  exact Nat.le_zero.mp ((ok.counted ▸ ok.unlinked vacant) ▸ fewer)

/-- R98, R92: a revoked entry. -/
theorem Consistent.revoked (ok : e.Consistent power clock links) : e.revoke.settle.Consistent power clock links :=
  consistent_settle ok.counted (fun vacant => by cases vacant) (evaluate_of_fixed (.inr rfl) clock)

end

/-! ## Labels -/

/-- R94: `e` has no label, or it has that of `was`. -/
def LabelFrom (was e : KeyEntry) : Prop :=
  e.state ≠ .empty → was.state ≠ .empty ∧ e.issuer = was.issuer ∧ e.generation = was.generation

theorem LabelFrom.refl (e : KeyEntry) : e.LabelFrom e := fun label => ⟨label, rfl, rfl⟩

theorem LabelFrom.trans {e f g : KeyEntry} (h : e.LabelFrom f) (k : f.LabelFrom g) : e.LabelFrom g := fun label => by
  obtain ⟨label', issuer, generation⟩ := k label
  obtain ⟨label'', issuer', generation'⟩ := h label'
  exact ⟨label'', issuer.trans issuer', generation.trans generation'⟩

theorem labelFrom_empty (e : KeyEntry) : e.LabelFrom KeyEntry.empty := fun label => absurd rfl label

theorem labelFrom_settle (e : KeyEntry) : e.LabelFrom e.settle := by
  unfold settle
  split
  · exact labelFrom_empty e
  · exact .refl e

/-- R98, R92: a revoked entry has the label it had; an EMPTY one gets none. -/
theorem Consistent.label_revoked {power : Power} {clock : Option Word} {links : Nat} {e : KeyEntry}
    (ok : e.Consistent power clock links) : e.LabelFrom e.revoke.settle := by
  by_cases empty : e.state = .empty
  · have spent : e.revoke.settle = KeyEntry.empty := if_pos ⟨.inr rfl, ok.unlinked empty⟩
    rw [spent]
    exact labelFrom_empty e
  · exact LabelFrom.trans (f := e.revoke) (fun _ => ⟨empty, rfl, rfl⟩) (labelFrom_settle _)

theorem labelFrom_evaluate (clock : Option Word) (e : KeyEntry) : e.LabelFrom (e.evaluate clock) := by
  by_cases fixed : e.state = .empty ∨ e.state = .revoked
  · rw [evaluate_of_fixed fixed]; exact .refl e
  · rw [evaluate_of_ages fixed]; exact fun _ => ⟨fun vacant => fixed (.inl vacant), rfl, rfl⟩

/-! ## Retained entries -/

theorem retained_of_fixed {e : KeyEntry} (fixed : e.state = .empty ∨ e.state = .revoked) :
    e.retained = { e with references := 0 } := by
  rw [retained, if_neg fun ages => e.ages_iff.mp ages fixed]

theorem retained_of_ages {e : KeyEntry} (ages : ¬ (e.state = .empty ∨ e.state = .revoked)) :
    e.retained = { e with references := 0, state := .waiting } := by
  rw [retained, if_pos (e.ages_iff.mpr ages)]

/-- R103, R90: a part that does not operate may retain a REVOKED entry. -/
theorem consistent_retained {power : Power} (e : KeyEntry) (kept : power = .on → e.state ≠ .revoked) :
    e.retained.Consistent power none 0 := by
  by_cases fixed : e.state = .empty ∨ e.state = .revoked
  · rw [retained_of_fixed fixed]
    refine ⟨rfl, fun _ => rfl, fun on spent => ?_, evaluate_references (evaluate_of_fixed fixed none) 0⟩
    have empty := fixed.resolve_right (kept on)
    rw [empty] at spent
    exact absurd spent (by decide)
  · rw [retained_of_ages fixed]
    exact ⟨rfl, fun _ => rfl, fun _ spent => spent.elim nofun nofun, evaluate_eq_self_iff.mpr fun _ => rfl⟩

theorem labelFrom_retained (e : KeyEntry) : e.LabelFrom e.retained := by
  by_cases fixed : e.state = .empty ∨ e.state = .revoked
  · rw [retained_of_fixed fixed]; exact .refl e
  · rw [retained_of_ages fixed]; exact fun _ => ⟨fun vacant => fixed (.inl vacant), rfl, rfl⟩

/-- R104: the entry at start-up. -/
theorem consistent_startUp (power : Power) (e : KeyEntry) : e.startUp.Consistent power none 0 := by
  unfold startUp
  split
  · exact consistent_empty power none
  · next kept => exact consistent_retained e fun _ => kept

theorem labelFrom_startUp (e : KeyEntry) : e.LabelFrom e.startUp := by
  unfold startUp
  split
  · exact labelFrom_empty e
  · exact labelFrom_retained e

end KeyEntry

theorem uniqueLabels_of_labelFrom {t u : Table 48 KeyEntry} (labels : ∀ k, (t.get k).LabelFrom (u.get k))
    (unique : uniqueLabels t) : uniqueLabels u := by
  intro i j label label' issuer generation
  obtain ⟨was, issuerI, generationI⟩ := labels i label
  obtain ⟨was', issuerJ, generationJ⟩ := labels j label'
  exact unique i j was was' (issuerI.symm.trans (issuer.trans issuerJ)) (generationI.symm.trans (generation.trans generationJ))

theorem uniqueLabels_of_empty {t : Table 48 KeyEntry} (empty : ∀ k, (t.get k).state = .empty) : uniqueLabels t :=
  fun i _ label => absurd (empty i) label

/-- R94, R116: an entry whose pair no other entry holds joins the table. -/
theorem uniqueLabels_set {t : Table 48 KeyEntry} {k : Fin 48} {e : KeyEntry} (unique : uniqueLabels t)
    (fresh : ∀ j, (t.get j).holds e.issuer e.generation = false) : uniqueLabels (t.set k e) := by
  have apart : ∀ j, (t.get j).state ≠ .empty → e.issuer = (t.get j).issuer → e.generation ≠ (t.get j).generation :=
    fun j label issuer generation =>
      absurd ((KeyEntry.holds_iff ..).mpr ⟨label, issuer.symm, generation.symm⟩) (Bool.eq_false_iff.mp (fresh j))
  intro i j label label' issuer generation
  simp only [Table.get_set] at label label' issuer generation
  by_cases first : i = k <;> by_cases second : j = k
  · exact first.trans second.symm
  · simp only [if_pos first, if_neg second] at label' issuer generation
    exact (apart j label' issuer generation).elim
  · simp only [if_neg first, if_pos second] at label issuer generation
    exact (apart i label issuer.symm generation.symm).elim
  · simp only [if_neg first, if_neg second] at label label' issuer generation
    exact unique i j label label' issuer generation

namespace State

/-! ## The table as a whole -/

theorem linksTo_eq (s : State) (k : Fin 48) : s.linksTo k = (List.finRange 24).countP fun c => s.link c == some k :=
  Table.count_eq ..

theorem linksTo_of_link {s t : State} (same : t.link = s.link) (k : Fin 48) : t.linksTo k = s.linksTo k := by
  rw [linksTo_eq, linksTo_eq, same]

theorem linksTo_of_unlinked {s : State} (unlinked : ∀ c, s.link c = none) (k : Fin 48) : s.linksTo k = 0 := by
  rw [linksTo_eq, List.countP_eq_zero]
  intro c _
  rw [unlinked c]
  exact Bool.false_ne_true

theorem keyTable_iff (s : State) :
    s.keyTable ↔
      (∀ k, (s.keys.entries.get k).Consistent s.controller.power s.controller.seconds (s.linksTo k)) ∧ s.entryLabels := by
  constructor
  · rintro ⟨counts, spent, labels, clocked⟩
    exact ⟨fun k => ⟨(counts k).1, (counts k).2, fun on => spent on k, clocked k⟩, labels⟩
  · rintro ⟨entries, labels⟩
    exact ⟨fun k => ⟨(entries k).counted, (entries k).unlinked⟩, fun on k => (entries k).unspent on, labels,
      fun k => (entries k).aged⟩

/-- R94, R105: no entry has a label that it did not have, and the last record's effect is the same or is complete. -/
theorem entryLabels_of_labelFrom {s t : State} (labels : ∀ k, (s.keys.entries.get k).LabelFrom (t.keys.entries.get k))
    (last : t.keys.lastWrite = s.keys.lastWrite ∨ t.keys.lastWrite = none) (unique : s.entryLabels) : t.entryLabels := by
  obtain ⟨now, cut⟩ := unique
  refine ⟨uniqueLabels_of_labelFrom labels now, fun w written => ?_⟩
  rcases last with same | complete
  · refine uniqueLabels_of_labelFrom (fun k => ?_) (cut w (same ▸ written))
    rw [Table.get_set, Table.get_set]
    split
    · exact .refl _
    · exact labels k
  · rw [complete] at written; cases written

/-- The key table stays consistent and the highest load serial does not fall. -/
structure KeepsKeyTable (s t : State) : Prop where
  table : s.keyTable → t.keyTable
  serial : s.keys.highestSerial ≤ t.keys.highestSerial

theorem KeepsKeyTable.refl (s : State) : s.KeepsKeyTable s := ⟨id, BitVec.le_refl _⟩

theorem KeepsKeyTable.trans {s t u : State} (h : s.KeepsKeyTable t) (g : t.KeepsKeyTable u) : s.KeepsKeyTable u :=
  ⟨g.table ∘ h.table, BitVec.le_trans h.serial g.serial⟩

/-- An operation that leaves all that the two statements speak of. -/
theorem KeepsKeyTable.of_view {s t : State} (same : t.keyView = s.keyView) : s.KeepsKeyTable t := by
  have entries : t.keys.entries = s.keys.entries := congrArg KeyView.entries same
  have last : t.keys.lastWrite = s.keys.lastWrite := congrArg KeyView.lastWrite same
  have clock : t.controller.seconds = s.controller.seconds := congrArg KeyView.clock same
  have power : t.controller.power = s.controller.power := congrArg KeyView.power same
  have links := linksTo_of_link (congrArg KeyView.links same)
  refine ⟨fun table => ?_, BitVec.le_of_eq (congrArg KeyView.highestSerial same).symm⟩
  obtain ⟨consistent, labels⟩ := s.keyTable_iff.mp table
  refine t.keyTable_iff.mpr ⟨fun k => ?_, entryLabels_of_labelFrom (fun k => ?_) (.inl last) labels⟩
  · rw [entries, clock, power, links]; exact consistent k
  · rw [entries]; exact .refl _

end State

end Sys2Proof.Machine
end

section
/-! PROOF of EveryStepKeepsTheKeyTable and HighestSerialNeverFalls: the operations that change an entry, a key link, the clock or
the retained store keep the table consistent, and lower the highest load serial only where a record's effect is cut short. -/

namespace Sys2Proof.Machine

theorem labelFrom_set (t : Table 48 KeyEntry) (k : Fin 48) {e f : KeyEntry} (label : e.LabelFrom f) (j : Fin 48) :
    ((t.set k e).get j).LabelFrom ((t.set k f).get j) := by
  rw [Table.get_set, Table.get_set]
  split
  · exact label
  · exact .refl _

theorem labelFrom_replace (t : Table 48 KeyEntry) (k : Fin 48) {f : KeyEntry} (label : (t.get k).LabelFrom f) (j : Fin 48) :
    (t.get j).LabelFrom ((t.set k f).get j) := by
  have replaced := labelFrom_set t k label j
  rwa [Table.set_get] at replaced

namespace State

/-! ## One entry replaced -/

theorem keyTable_of_set {s t : State} {k : Fin 48} {e : KeyEntry} (table : s.keyTable)
    (entries : t.keys.entries = s.keys.entries.set k e) (controller : t.controller = s.controller)
    (here : e.Consistent s.controller.power s.controller.seconds (t.linksTo k))
    (elsewhere : ∀ j, j ≠ k → t.linksTo j = s.linksTo j) (labels : t.entryLabels) : t.keyTable := by
  obtain ⟨consistent, -⟩ := s.keyTable_iff.mp table
  refine t.keyTable_iff.mpr ⟨fun j => ?_, labels⟩
  rw [entries, controller, Table.get_set]
  split
  · next same => rw [same]; exact here
  · next other => rw [elsewhere j other]; exact consistent j

/-- R94, R105: one entry changes and takes no label that it did not have. -/
theorem entryLabels_of_set {s t : State} {k : Fin 48} {e : KeyEntry} (entries : t.keys.entries = s.keys.entries.set k e)
    (last : t.keys.lastWrite = s.keys.lastWrite) (label : (s.keys.entries.get k).LabelFrom e) (unique : s.entryLabels) :
    t.entryLabels :=
  entryLabels_of_labelFrom (fun j => entries ▸ labelFrom_replace _ k label j) (.inl last) unique

/-- R105: were a record's effect cut short, the entry it changed would be as it was. -/
theorem entryLabels_of_written {s t : State} {k : Fin 48} {e : KeyEntry} {n : Word}
    (entries : t.keys.entries = s.keys.entries.set k e)
    (last : t.keys.lastWrite = some ⟨k, s.keys.entries.get k, n⟩) (unique : uniqueLabels (s.keys.entries.set k e))
    (was : uniqueLabels s.keys.entries) : t.entryLabels := by
  refine ⟨entries ▸ unique, fun w written => ?_⟩
  rw [last] at written
  cases written
  rw [entries, Table.set_set, Table.set_get]
  exact was

theorem linksTo_setContext (c : Fin 24) (x : Option Context) (s : State) (k : Fin 48) :
    (s.setContext c x).linksTo k + (if s.link c = some k then 1 else 0)
      = s.linksTo k + if x.bind (·.keyLink) = some k then 1 else 0 := by
  have counted := Table.count_set (fun x => x.bind (·.keyLink) == some k) s.contexts.table c x
  simp only [beq_iff_eq] at counted
  exact counted

/-! ## A context opens, a context is freed -/

/-- R66, R96: the context that opens links a LIVE entry, whose count rises by one. -/
theorem keeps_openContext {s : State} {c : Fin 24} {k : Fin 48} (free : s.context c = none)
    (live : (s.keys.entries.get k).state = .live) (r : SlotRef) (a : Announce) :
    s.KeepsKeyTable (s.openContext c r a k) := by
  have unlinked : s.link c = none := by rw [link, free]; rfl
  have counted : ∀ j, (s.openContext c r a k).linksTo j = s.linksTo j + if some k = some j then 1 else 0 := fun j => by
    have links := linksTo_setContext c (some (Context.opened r.lane a k (s.setup.lanes.get r.lane).deadline)) s j
    rw [unlinked, if_neg nofun] at links
    exact links
  refine ⟨fun table => ?_, BitVec.le_refl _⟩
  obtain ⟨consistent, labels⟩ := s.keyTable_iff.mp table
  refine keyTable_of_set (k := k) table rfl rfl ?_ (fun j other => ?_)
    (entryLabels_of_set rfl rfl (fun label => ⟨label, rfl, rfl⟩) labels)
  · rw [counted, if_pos rfl]
    exact (consistent k).linked live
  · rw [counted, if_neg fun same => other (Option.some.inj same).symm]
    rfl

/-- R83, R96, R92: the entry a freed context links counts one less, and is settled. -/
theorem keeps_released {s : State} {c : Fin 24} {k : Fin 48} (linked : s.link c = some k) :
    s.KeepsKeyTable ((s.releaseReference k).setContext c none) := by
  have counted : ∀ j, ((s.releaseReference k).setContext c none).linksTo j + (if some k = some j then 1 else 0)
      = s.linksTo j := fun j => by
    rw [← linked]
    exact linksTo_setContext c none (s.releaseReference k) j
  have here := counted k
  rw [if_pos rfl] at here
  refine ⟨fun table => ?_, BitVec.le_refl _⟩
  obtain ⟨consistent, labels⟩ := s.keyTable_iff.mp table
  refine keyTable_of_set (k := k) table rfl rfl ?_ (fun j other => ?_) (entryLabels_of_set rfl rfl ?_ labels)
  · rw [(consistent k).counted, ← here, Nat.add_sub_cancel]
    exact (consistent k).counting (here ▸ Nat.le_add_right ..)
  · rw [← counted j, if_neg fun same => other (Option.some.inj same).symm, Nat.add_zero]
  · exact .trans (fun label => ⟨label, rfl, rfl⟩) (KeyEntry.labelFrom_settle _)

theorem keeps_freeContext (c : Fin 24) (s : State) : s.KeepsKeyTable (s.freeContext c) := by
  have remembered : ∀ x (t : State), ((t.rememberPaid x).setContext c none).keyView = (t.setContext c none).keyView :=
    fun x t => by unfold rememberPaid; split <;> rfl
  unfold freeContext
  split
  · exact .refl s
  · next x context =>
    have link_eq : s.link c = x.keyLink := by rw [link, context]; rfl
    split
    · dsimp only
      split
      · next linked => exact (keeps_released (link_eq.trans linked)).trans (.of_view (remembered ..))
      · next unlinked =>
        refine .of_view ((remembered ..).trans (keyView_setContext ?_))
        rw [link_eq, unlinked]; rfl
    · exact .refl s

theorem keeps_written (s : State) : s.KeepsKeyTable s.written := by
  have released : ∀ h (t : State), t.KeepsKeyTable (t.releaseHolder h) := fun h t => by
    unfold releaseHolder
    split
    · exact keeps_freeContext ..
    · split <;> exact .of_view rfl
    · split <;> exact .of_view rfl
  unfold written
  split
  · have shortened : ∀ l, s.KeepsKeyTable (s.advanceRing.setWaiting l) := fun _ => .of_view rfl
    exact (shortened _).trans (released ..)
  · exact .of_view rfl

/-- R62, R65: an ANNOUNCE is admitted under a LIVE entry. -/
theorem live_of_admitted {s : State} {a : Announce} {k : Fin 48} (admitted : s.admission a = .inr k) :
    (s.keys.entries.get k).state = .live := by
  unfold admission at admitted
  split at admitted
  · cases admitted
  · split at admitted
    · cases admitted
    · split at admitted
      · cases admitted
      · split at admitted
        · cases admitted
        · split at admitted
          all_goals cases admitted
          next live => exact live

theorem keeps_takeAnnounce (h : Header) (r : SlotRef) (a : Announce) (s : State) :
    s.KeepsKeyTable (s.takeAnnounce h r a) := by
  unfold takeAnnounce
  split
  · exact .of_view (keyView_modifyContext _ (Context.absorb r.lane) (s.setInSlot r .free) (keyLink_absorb r.lane))
  · split
    · exact .of_view rfl
    · next k admitted =>
      split
      · exact .of_view rfl
      · next c found =>
        exact keeps_openContext (Option.isNone_iff_eq_none.mp (Table.first_some found)) (live_of_admitted admitted) r a

theorem keeps_takeFrame (ring : Ring) (r : SlotRef) (buffer : List Word) (s : State) :
    s.KeepsKeyTable (s.takeFrame ring r buffer) := by
  unfold takeFrame
  split
  · exact .refl s
  · split
    · unfold takeInbound
      split
      · exact .of_view rfl
      · split
        · exact keeps_takeAnnounce ..
        · exact .of_view (keyView_takeConfirm ..)
    · unfold takeOutbound
      split
      · exact .of_view (keyView_spoil ..)
      · exact .of_view (keyView_takeChallenge ..)

/-! ## The clock -/

/-- R91, R93, R92: the clock takes a value; every entry is evaluated against it and settled. -/
theorem keeps_setClock (w : Word) (s : State) : s.KeepsKeyTable (s.setClock w) := by
  have aged : s.KeepsKeyTable (s.setSeconds w).ageEntries := by
    refine ⟨fun table => ?_, BitVec.le_refl _⟩
    obtain ⟨consistent, labels⟩ := s.keyTable_iff.mp table
    refine (keyTable_iff _).mpr ⟨fun k => ?_, entryLabels_of_labelFrom (s := s) (fun k => ?_) (.inl rfl) labels⟩ <;>
      rw [ageEntries, Table.get_map]
    · exact (consistent k).evaluated (some w)
    · exact KeyEntry.LabelFrom.trans (KeyEntry.labelFrom_evaluate (some w) _) (KeyEntry.labelFrom_settle _)
  refine aged.trans (.of_view ?_)
  unfold setClock evaluateKeys
  split <;> rfl

theorem keeps_secondsClockRise (s : State) : s.KeepsKeyTable s.secondsClockRise := by
  unfold secondsClockRise
  split
  · exact .refl s
  · split
    · exact keeps_setClock ..
    · exact .refl s

theorem keeps_tick (s : State) : s.KeepsKeyTable s.tick := by
  have trimmed : ∀ t : State, t.dropDueRecent.keyView = t.keyView := fun _ => rfl
  have due : (Table.ascending 24 deadlineExpiry s.expireOverdue).dropDueRecent.keyView = s.keyView := by
    rw [trimmed, keyView_ascending keyView_deadlineExpiry, keyView_expireOverdue]
  have taken : s.KeepsKeyTable s.takeDue := (KeepsKeyTable.of_view due).trans (keeps_secondsClockRise _)
  have advanced : ∀ t : State, t.KeepsKeyTable t.advance := fun t => .of_view (keyView_advance t)
  unfold tick
  split
  · exact taken.trans (advanced _)
  · exact .refl s

theorem keeps_takeSetup (image : List Word) (s : State) : s.KeepsKeyTable (s.takeSetup image) := by
  have released : s.releaseSlotsForSetup.keyView = s.keyView := by
    refine (keyView_dropJobs ..).trans ?_
    show s.answerAnyHeld.keyView = _
    unfold answerAnyHeld
    split
    · exact keyView_answerHeld ..
    · rfl
  have enforced : ∀ x, s.KeepsKeyTable (s.releaseSlotsForSetup.enforce x).trimRecent := fun _ => .of_view released
  have clock : ∀ t : State, t.KeepsKeyTable (t.setClockFrom image) := fun t => by
    unfold setClockFrom
    split
    · exact keeps_setClock ..
    · exact .refl t
  have ended : ∀ o detail (t : State), t.KeepsKeyTable (t.endSetup o detail) := fun _ _ _ => .of_view rfl
  unfold takeSetup
  split
  · split
    · exact ended ..
    · exact ((enforced _).trans (clock _)).trans (ended ..)
  · exact ended ..

theorem keeps_agentWordComplete (s : State) : s.KeepsKeyTable s.agentWordComplete := by
  have ended : ∀ j buffer (t : State), t.KeepsKeyTable (t.endJob j buffer) := fun j buffer t => by
    cases j with
    | fetchFrame ring r => exact keeps_takeFrame ring r buffer t
    | fetchSetup => exact keeps_takeSetup buffer t
    | writeReport => exact keeps_written t
  have advanced : ∀ data (t : State), t.KeepsKeyTable (t.advanceJob data) := fun data t => by
    have agent : ∀ x, t.KeepsKeyTable (t.setAgent x) := fun _ => .of_view rfl
    unfold advanceJob
    split
    · dsimp only
      split
      · exact ((agent _).trans (ended ..)).trans (.of_view (keyView_settle _))
      · exact agent _
    · exact .refl t
  have freed : s.KeepsKeyTable s.freePort := .of_view rfl
  have stored : ∀ w data, s.KeepsKeyTable (s.freePort.store w .word data) := fun _ _ => .of_view rfl
  unfold agentWordComplete
  split
  · split
    · split
      · exact (stored ..).trans (advanced ..)
      · exact stored ..
    · split
      · exact freed.trans (advanced ..)
      · exact freed
  · exact .refl s

/-! ## A load record -/

/-- R115 to R117: an OK record's serial is above the highest load serial; an INSTALL finds its pair unheld and takes an EMPTY
entry, a REVOKE takes an entry that holds its pair. -/
theorem loadOutcome_ok {s : State} {d : LoadRecord} {pass : Bool} {k : Fin 48} (ok : s.loadOutcome d pass = (.ok, some k)) :
    s.keys.highestSerial < d.serial
      ∧ (d.isInstall = true → s.findKey d.issuer d.generation = none ∧ (s.keys.entries.get k).state = .empty) := by
  unfold loadOutcome at ok
  split at ok
  · cases ok
  · split at ok
    · cases ok
    · split at ok
      · cases ok
      · next fresh =>
        refine ⟨Nat.not_le.mp fresh, fun install => ?_⟩
        rw [if_pos install] at ok
        split at ok
        · cases ok
        · split at ok
          · cases ok
          · next unheld =>
            split at ok
            · next found => cases ok; exact ⟨unheld, beq_iff_eq.mp (Table.first_some found)⟩
            · cases ok

/-- R116, R95: the entry an INSTALL writes has the state the clock gives it, no context links it, and it is not spent. -/
theorem consistent_entry (d : LoadRecord) (key : Key) (power : Power) (clock : Option Word) :
    (d.entry key clock).Consistent power clock 0 :=
  KeyEntry.consistent_settle rfl (fun _ => rfl) (KeyEntry.evaluate_eq_self_iff.mpr fun _ => rfl)

/-- R116: the entry takes the place of an EMPTY one, under a pair that no entry holds. -/
theorem keyTable_install {s : State} {d : LoadRecord} {k : Fin 48} (table : s.keyTable)
    (unheld : s.findKey d.issuer d.generation = none) (empty : (s.keys.entries.get k).state = .empty) (key : Key) :
    (s.install k d key).keyTable := by
  obtain ⟨consistent, labels⟩ := s.keyTable_iff.mp table
  have unlinked : s.linksTo k = 0 := by rw [← (consistent k).counted, (consistent k).unlinked empty]
  have unique : uniqueLabels (s.keys.entries.set k (d.entry key s.controller.seconds)) :=
    uniqueLabels_of_labelFrom (labelFrom_set s.keys.entries k (KeyEntry.labelFrom_settle _))
      (uniqueLabels_set labels.1 (Table.first_none unheld))
  refine keyTable_of_set (k := k) table rfl rfl ?_ (fun _ _ => rfl) (entryLabels_of_written (s := s) rfl rfl unique labels.1)
  show KeyEntry.Consistent _ _ (s.linksTo k) _
  rw [unlinked]
  exact consistent_entry ..

/-- R117: the entry is REVOKED, or EMPTY if no context links it. -/
theorem keyTable_revoke {s : State} (table : s.keyTable) (k : Fin 48) (d : LoadRecord) : (s.revoke k d).keyTable := by
  obtain ⟨consistent, labels⟩ := s.keyTable_iff.mp table
  refine (KeepsKeyTable.of_view (keyView_closeHolders k _)).table ?_
  have unique := uniqueLabels_of_labelFrom (labelFrom_replace s.keys.entries k (consistent k).label_revoked) labels.1
  exact keyTable_of_set (k := k) table rfl rfl (consistent k).revoked (fun _ _ => rfl)
    (entryLabels_of_written (s := s) rfl rfl unique labels.1)

theorem serial_revoke (k : Fin 48) (d : LoadRecord) (s : State) : (s.revoke k d).keys.highestSerial = d.serial := by
  rw [revoke, (work_closeHolders ..).keys]; rfl

/-- R114 to R117: a record has an effect on the key table only when it is OK. -/
theorem keeps_applyRecord (d : LoadRecord) (pass : Bool) (key : Key) (s : State) :
    s.KeepsKeyTable (s.applyRecord d key (s.loadOutcome d pass)) := by
  unfold applyRecord
  split
  · next k ok =>
    obtain ⟨fresh, installs⟩ := loadOutcome_ok ok
    split
    · next install =>
      obtain ⟨unheld, empty⟩ := installs install
      exact ⟨fun table => keyTable_install table unheld empty key, BitVec.le_of_lt fresh⟩
    · exact ⟨fun table => keyTable_revoke table k d, by rw [serial_revoke]; exact BitVec.le_of_lt fresh⟩
  · exact .refl s

theorem keeps_unwrapComplete (s : State) : s.KeepsKeyTable s.unwrapComplete := by
  have opened : ∀ transport words check (t : State), t.KeepsKeyTable (t.openRecord transport words check) :=
    fun _ _ _ t => (keeps_applyRecord _ _ _ t).trans (.of_view rfl)
  unfold unwrapComplete
  split
  · exact ((KeepsKeyTable.of_view (keyView_endOperation ..)).trans (opened ..)).trans (.of_view (keyView_settle _))
  · exact .refl s

/-! ## Lines and power -/

/-- A table of EMPTY entries, none of which a context links. -/
theorem keyTable_of_empty {t : State} (entries : ∀ k, t.keys.entries.get k = KeyEntry.empty) (last : t.keys.lastWrite = none)
    (unlinked : ∀ c, t.link c = none) : t.keyTable := by
  have unique := uniqueLabels_of_empty fun k => congrArg KeyEntry.state (entries k)
  refine t.keyTable_iff.mpr ⟨fun k => ?_, unique, fun w written => ?_⟩
  · rw [entries, linksTo_of_unlinked unlinked]
    exact KeyEntry.consistent_empty ..
  · rw [last] at written; cases written

/-- R170, R99: every context is cleared and every reference count returns to 0. -/
theorem keeps_powerWarning (s : State) : s.KeepsKeyTable s.powerWarning := by
  obtain ⟨controller, table, -, -, keys, -⟩ := s.haltedFrom_powerWarning
  have unlinked : ∀ c, s.powerWarning.link c = none := fun c => by rw [link, table c]; rfl
  refine ⟨fun ok => ?_, by rw [keys]; exact BitVec.le_refl _⟩
  obtain ⟨consistent, labels⟩ := s.keyTable_iff.mp ok
  refine (keyTable_iff _).mpr ⟨fun k => ?_, entryLabels_of_labelFrom (fun k => ?_) (.inl (by rw [keys])) labels⟩
  · rw [keys, controller, linksTo_of_unlinked unlinked, Table.get_map]
    exact (consistent k).counting (Nat.zero_le _)
  · rw [keys, Table.get_map]
    exact KeyEntry.LabelFrom.trans (fun label => ⟨label, rfl, rfl⟩) (KeyEntry.labelFrom_settle _)

/-- R172, R120: the key side of a purge. -/
theorem keys_enterPurging (s : State) : s.enterPurging.keys = s.keys.purge := by
  have entered : ∀ t : State, (((t.mapSlots id OutSlot.dropResult).enter .purging).settle).keys = t.keys := fun t =>
    (work_settle _).keys
  exact (entered _).trans (work_purgeContexts _).keys

/-- R82: no context links a key entry any more. -/
theorem link_enterPurging (s : State) (c : Fin 24) : s.enterPurging.link c = none := by
  have purged : ∀ t : State, ((t.mapContexts fun x => { x with keyLink := none, tagKey := none }).link c) = none := fun t => by
    rw [link, context_mapContexts]
    cases t.context c <;> rfl
  have settled : ∀ t : State, (((t.mapSlots id OutSlot.dropResult).enter .purging).settle).link = t.link := fun t =>
    congrArg KeyView.links (keyView_settle _)
  exact (congrFun (settled _) c).trans (purged _)

theorem keeps_enterPurging (s : State) : s.KeepsKeyTable s.enterPurging := by
  have keys := keys_enterPurging s
  have empty : ∀ k, s.enterPurging.keys.entries.get k = KeyEntry.empty := fun k => by rw [keys]; exact Table.get_fill ..
  have last : s.enterPurging.keys.lastWrite = none := by rw [keys]; rfl
  exact ⟨fun _ => keyTable_of_empty empty last (link_enterPurging s), by rw [keys]; exact BitVec.le_refl _⟩

theorem keeps_wakeEnd (order : Order) (s : State) : s.KeepsKeyTable (s.wakeEnd order) := by
  have classified : ∀ t : State, t.KeepsKeyTable (((t.classifyAllHeld order).relax).settle) := fun t => .of_view (by simp)
  have awake : s.KeepsKeyTable s.awaken := .of_view rfl
  unfold wakeEnd
  split
  · exact (keeps_enterPurging s).trans (classified _)
  · split
    · exact awake.trans (classified _)
    · exact .refl s

theorem keeps_pwarnAssert (order : Order) (s : State) : s.KeepsKeyTable (s.pwarnAssert order) := by
  have line : s.KeepsKeyTable (s.setPwarn true) := .of_view rfl
  unfold pwarnAssert
  split
  · exact .refl s
  · dsimp only
    split
    · exact (line.trans (keeps_powerWarning _)).trans (.of_view (keyView_classifyAllHeld ..))
    · exact line

theorem keyView_pwarnRelease (s : State) : s.pwarnRelease.keyView = s.keyView := by
  unfold pwarnRelease
  split
  · dsimp only
    split <;> rfl
  · rfl

theorem keeps_purgeAssert (s : State) : s.KeepsKeyTable s.purgeAssert := by
  have line : s.KeepsKeyTable (s.setPurge true) := .of_view rfl
  have marked : ∀ t : State, t.purgeAfterWake.keyView = t.startWake.keyView := fun _ => rfl
  have now : ∀ t : State, t.KeepsKeyTable t.purgeNow := fun t => by
    unfold purgeNow
    split
    · exact .of_view ((marked t).trans (keyView_startWake t))
    · exact keeps_enterPurging t
  unfold purgeAssert
  split
  · exact .refl s
  · dsimp only
    split
    · exact line
    · exact .of_view rfl
    · split
      · exact line
      all_goals exact line.trans (now _)

theorem keeps_eraseCompletion (s : State) : s.KeepsKeyTable s.eraseCompletion := by
  have erased : s.KeepsKeyTable s.endErase := .of_view rfl
  unfold eraseCompletion completeErase
  split
  · split
    · exact erased.trans (keeps_powerWarning _)
    · split <;> exact .of_view rfl
  · exact .refl s

/-! ## RESET and loss of power -/

/-- R165 step 4: the volatile items are lost, the clock and every context among them. -/
theorem keyTable_loseVolatile {c : Controller} {k : Keys} (unset : c.seconds = none)
    (entries : ∀ i, (k.entries.get i).Consistent c.power none 0) (unique : uniqueLabels k.entries) (last : k.lastWrite = none)
    (s : State) : (s.loseVolatile c k).keyTable := by
  have unlinked : ∀ d, (s.loseVolatile c k).link d = none := fun d => by
    have free : (s.loseVolatile c k).context d = none := Table.get_fill ..
    rw [link, free]; rfl
  refine (keyTable_iff _).mpr ⟨fun i => ?_, unique, fun w written => absurd (last.symm.trans written) nofun⟩
  rw [linksTo_of_unlinked unlinked]
  show (k.entries.get i).Consistent c.power c.seconds 0
  rw [unset]
  exact entries i

/-- R105: the table as it is, or as it was before the last record. -/
theorem uniqueLabels_cutShort {s : State} (labels : s.entryLabels) (cut : Bool) : uniqueLabels (s.keys.cutShort cut).entries := by
  obtain ⟨now, before⟩ := labels
  unfold Keys.cutShort
  split
  · next w written => exact before w written
  · exact now

theorem keyTable_losePower {s : State} (table : s.keyTable) {power : Power} (stopped : power ≠ .on) (cut : Bool) :
    (s.loseVolatile (s.controller.stopped power) (s.keys.losePower cut)).keyTable := by
  obtain ⟨-, labels⟩ := s.keyTable_iff.mp table
  refine keyTable_loseVolatile rfl (fun i => ?_) ?_ rfl s
  · rw [Keys.losePower, Table.get_map]
    exact KeyEntry.consistent_retained _ fun on => absurd on stopped
  · refine uniqueLabels_of_labelFrom (fun i => ?_) (uniqueLabels_cutShort labels cut)
    rw [Keys.losePower, Table.get_map]
    exact KeyEntry.labelFrom_retained _

theorem keyTable_resetAssert {s : State} (table : s.keyTable) (cut : Bool) : (s.resetAssert cut).keyTable := by
  have unwatched : ∀ t : State, t.KeepsKeyTable t.unwatchPorts := fun _ => .of_view rfl
  unfold resetAssert
  split
  · exact (unwatched _).table (keyTable_losePower (power := .inReset) table nofun cut)
  · exact table

theorem keyTable_powerLoss {s : State} (table : s.keyTable) (cut : Bool) : (s.powerLoss cut).keyTable := by
  have lost : ∀ t : State, t.KeepsKeyTable t.loseMemory := fun _ => .of_view rfl
  unfold powerLoss
  split
  · exact table
  · exact (lost _).table (keyTable_losePower (power := .off) table nofun cut)

theorem keyTable_started {s : State} (table : s.keyTable) {c : Controller} (unset : c.seconds = none) :
    (s.loseVolatile c s.keys.startUp).keyTable := by
  obtain ⟨-, labels⟩ := s.keyTable_iff.mp table
  unfold Keys.startUp
  split
  · refine keyTable_of_empty (fun k => Table.get_fill ..) rfl fun d => ?_
    rw [link, show (State.loseVolatile ..).context d = none from Table.get_fill ..]; rfl
  · refine keyTable_loseVolatile unset (fun i => ?_) (uniqueLabels_of_labelFrom (fun i => ?_) labels.1) rfl s
    · rw [Table.get_map]; exact KeyEntry.consistent_startUp ..
    · rw [Table.get_map]; exact KeyEntry.labelFrom_startUp _

theorem serial_startUp (k : Keys) : k.startUp.highestSerial = k.highestSerial := by
  unfold Keys.startUp; split <;> rfl

theorem keeps_sampleLines (purgeFirst : Bool) (s : State) : s.KeepsKeyTable (s.sampleLines purgeFirst) := by
  unfold sampleLines
  dsimp only
  split
  · split
    · exact keeps_enterPurging s
    · exact (keeps_powerWarning s).trans (keeps_enterPurging _)
  · split
    · exact keeps_powerWarning s
    · split
      · exact keeps_enterPurging s
      · exact .refl s

theorem keeps_startUp (straps : BitVec 6) (purgeFirst : Bool) (order : Order) (s : State) :
    s.KeepsKeyTable (s.startUp straps purgeFirst order) := by
  have started : s.KeepsKeyTable (s.loseVolatile (Controller.reset straps s.controller.lines) s.keys.startUp) :=
    ⟨fun table => keyTable_started table rfl, BitVec.le_of_eq (serial_startUp s.keys).symm⟩
  unfold startUp
  split
  · exact .refl s
  · dsimp only
    split
    · exact (started.trans (.of_view (keyView_restPorts ..))).trans (keeps_sampleLines ..)
    · exact started.trans (keeps_sampleLines ..)

/-- R103, R105: the highest load serial stays, but for a record that is cut short. -/
theorem serial_losePower {k : Keys} {cut : Bool} (whole : cut = true → k.lastWrite = none) :
    (k.losePower cut).highestSerial = k.highestSerial := by
  have kept : k.cutShort cut = k := by
    unfold Keys.cutShort
    split
    · next written => rw [whole rfl] at written; cases written
    · rfl
  rw [Keys.losePower, kept]

theorem serial_resetAssert {s : State} {cut : Bool} (whole : cut = true → s.keys.lastWrite = none) :
    (s.resetAssert cut).keys.highestSerial = s.keys.highestSerial := by
  unfold resetAssert
  split
  · exact serial_losePower whole
  · rfl

theorem serial_powerLoss {s : State} {cut : Bool} (whole : cut = true → s.keys.lastWrite = none) :
    (s.powerLoss cut).keys.highestSerial = s.keys.highestSerial := by
  unfold powerLoss
  split
  · rfl
  · exact serial_losePower whole

end State

/-- Every command but RESET_ASSERT and POWER_LOSS, which may cut a record's effect short. -/
theorem exec_keepsKeyTable {i : Instr} {s t : State} (next : exec i s = .next t) (noReset : ∀ cut, i ≠ .resetAssert cut)
    (noLoss : ∀ cut, i ≠ .powerLoss cut) : s.KeepsKeyTable t := by
  cases i with
  | memoryAccess | controlBlockWrite | codeWordRead | loadWindowWrite | setup | rest | laneRestart | releaseReports
  | clearAttention | unknownCommand => cases next; exact .of_view (State.keyView_arrive ..)
  | arbiterGrant => cases next; exact .of_view ((State.keyView_relax _).trans (State.keyView_grant s))
  | wordAccessComplete => cases next; exact .of_view (State.keyView_wordAccessComplete s)
  | holdLimitExpiry => cases next; exact .of_view (State.keyView_holdLimitExpiry s)
  | agentJobStart => cases next; exact .of_view (State.keyView_agentJobStart s)
  | agentWordComplete => cases next; exact State.keeps_agentWordComplete s
  | engineStart => cases next; exact .of_view (State.keyView_weighEngine s)
  | codeComplete => cases next; exact .of_view (State.keyView_codeComplete s)
  | deriveComplete => cases next; exact .of_view (State.keyView_deriveComplete s)
  | verifyComplete => cases next; exact .of_view (State.keyView_verifyComplete s)
  | unwrapComplete => cases next; exact State.keeps_unwrapComplete s
  | deadlineExpiry => cases next; exact .of_view (State.keyView_deadlineExpiry ..)
  | recentEntryExpiry => cases next; exact .of_view (State.keyView_recentEntryExpiry s)
  | secondsClockRise => cases next; exact State.keeps_secondsClockRise s
  | wakeEnd => cases next; exact State.keeps_wakeEnd ..
  | mrestAssert => cases next; exact .of_view (State.keyView_mrestAssert ..)
  | mrestRelease | purgeRelease => cases next; exact .of_view rfl
  | pwarnAssert => cases next; exact State.keeps_pwarnAssert ..
  | pwarnRelease => cases next; exact .of_view (State.keyView_pwarnRelease s)
  | purgeAssert => cases next; exact State.keeps_purgeAssert s
  | eraseCompletion => cases next; exact State.keeps_eraseCompletion s
  | resetAssert cut => exact absurd rfl (noReset cut)
  | startUp => cases next; exact State.keeps_startUp ..
  | powerLoss cut => exact absurd rfl (noLoss cut)

theorem exec_keeps_keyTable {i : Instr} {s t : State} (table : s.keyTable) (next : exec i s = .next t) : t.keyTable := by
  by_cases cuts : (∃ cut, i = .resetAssert cut) ∨ ∃ cut, i = .powerLoss cut
  · rcases cuts with ⟨cut, rfl⟩ | ⟨cut, rfl⟩ <;> cases next
    · exact State.keyTable_resetAssert table cut
    · exact State.keyTable_powerLoss table cut
  · simp only [not_or, not_exists] at cuts
    exact (exec_keepsKeyTable next cuts.1 cuts.2).table table

/-- Settles O58: a millisecond and every command keep the key table consistent. -/
theorem everyStepKeepsTheKeyTable : Obligations.EveryStepKeepsTheKeyTable := by
  unfold Obligations.EveryStepKeepsTheKeyTable
  intro s t table next
  unfold step at next
  split at next
  · cases next; exact (State.keeps_tick s).table table
  · next c rest _ =>
    have taken : s.KeepsKeyTable { s with pending := rest } := .of_view rfl
    exact exec_keeps_keyTable (taken.table table) next

/-- Settles O32: RESET_ASSERT and POWER_LOSS keep the highest load serial of a record that is whole, and no other command lowers
it. -/
theorem highestSerialNeverFalls : Obligations.HighestSerialNeverFalls := by
  unfold Obligations.HighestSerialNeverFalls
  intro i s t next whole
  by_cases cuts : (∃ cut, i = .resetAssert cut) ∨ ∃ cut, i = .powerLoss cut
  · rcases cuts with ⟨cut, rfl⟩ | ⟨cut, rfl⟩ <;> cases next
    · exact BitVec.le_of_eq (State.serial_resetAssert fun cut => whole (.inl (cut ▸ rfl))).symm
    · exact BitVec.le_of_eq (State.serial_powerLoss fun cut => whole (.inr (cut ▸ rfl))).symm
  · simp only [not_or, not_exists] at cuts
    exact (exec_keepsKeyTable next cuts.1 cuts.2).serial

end Sys2Proof.Machine
end

section
/-! PROOF of LoadWindowWriteIsRefusedOrTaken: why a window write is refused, what the load unit makes of the word it takes, and the
write as a whole. -/

namespace Sys2Proof.Machine

namespace State

/-! ## Why a window write is refused -/

/-- The part states that take no load (R112). -/
def closedToLoads (s : State) : Prop :=
  s.controller.state = .unset ∨ s.controller.state = .halted ∨ s.controller.state = .purging

theorem loadRefusal_closed {s : State} (closed : s.closedToLoads) (size : Size) : s.loadRefusal size = some .state :=
  if_pos closed

theorem loadRefusal_partial {s : State} {size : Size} (takes : ¬ s.closedToLoads) (part : size ≠ .word) :
    s.loadRefusal size = some .partialWrite :=
  (if_neg takes).trans (if_pos part)

theorem loadRefusal_word {s : State} (takes : ¬ s.closedToLoads) :
    s.loadRefusal .word = if s.load.state = .unwrapping then some .loadBusy else none :=
  (if_neg takes).trans (if_neg fun part => part rfl)

/-! ## A word the load unit takes -/

/-- R109, R110: word 0 starts a record, and one that is being written starts again. -/
theorem takeLoadWord_zero {s : State} (state : s.load.state = .idle ∨ s.load.state = .filling) (v : Word) :
    s.takeLoadWord 0 v = s.setLoad { s.load with state := .filling, buffer := loadStart v, fill := 1 } := by
  rcases state with idle | filling
  · simp only [takeLoadWord, idle, if_true]
  · simp only [takeLoadWord, filling, if_true]

/-- R110: in IDLE a word other than word 0 is ignored. -/
theorem takeLoadWord_idle {s : State} {i : Fin 16} (idle : s.load.state = .idle) (other : i ≠ 0) (v : Word) :
    s.takeLoadWord i v = s := by
  simp only [takeLoadWord, idle, other, if_false]

/-- R110: a word before the sixteenth is stored and counted. -/
theorem takeLoadWord_counted {s : State} {i : Fin 16} (filling : s.load.state = .filling) (other : i ≠ 0)
    (more : s.load.fill + 1 ≠ 16) (v : Word) :
    s.takeLoadWord i v = s.setLoad { s.load with buffer := s.load.buffer.set i v, fill := s.load.fill + 1 } := by
  simp only [takeLoadWord, filling, other, more, if_false]

/-- R111: the sixteenth word closes the record, and its UNWRAP joins the ready list. -/
theorem takeLoadWord_sixteenth {s : State} {i : Fin 16} (filling : s.load.state = .filling) (other : i ≠ 0)
    (last : s.load.fill + 1 = 16) (v : Word) :
    s.takeLoadWord i v
      = (s.setLoad { s.load with state := .unwrapping, buffer := s.load.buffer.set i v, fill := 16 }).joinReady .unwrap := by
  simp only [takeLoadWord, filling, other, last, if_false, if_true]

/-! ## The write as a whole -/

theorem exec_loadWindowWrite_refused {s : State} {size : Size} {kind : RefusalKind} (hears : s.hears .c)
    (refusal : s.loadRefusal size = some kind) (i : Fin 16) (data : Word) :
    exec (.loadWindowWrite i size data) s
      = .next ((s.refuse .c kind (Access.address ⟨true, s.blockWord (0xC0 + i.val), size, data⟩)).relax).settle := by
  show Host.Outcome.next (s.arrive .c _) = _
  rw [loadWrite_hears hears]
  simp only [loadWindow, refusal]

/-- R169: a write that is taken is answered done and a DORMANT part is RUNNING, so there is no return to sleep to weigh. -/
theorem exec_loadWindowWrite_taken {s t : State} {i : Fin 16} {size : Size} {data : Word} (hears : s.hears .c)
    (accepted : s.loadRefusal size = none) (takes : s.takeLoadWord i data = t) :
    exec (.loadWindowWrite i size data) s
      = .next ({ t with
          ports := { t.ports with c := ⟨none, some (.done none)⟩ }
          controller := t.controller.roused } : State).settle := by
  show Host.Outcome.next (s.arrive .c _) = _
  rw [loadWrite_hears hears]
  simp only [loadWindow, accepted, takes, relax_rouse]
  rw [rouse_eq]
  rfl

end State

/-- Settles O33: the refusals in the order of R21, then the word that is taken by the load state, the word's index and the
count. -/
theorem loadWindowWriteIsRefusedOrTaken : Obligations.LoadWindowWriteIsRefusedOrTaken := by
  unfold Obligations.LoadWindowWriteIsRefusedOrTaken
  intro s i size data hears
  have accepted (takes : ¬ s.closedToLoads) (full : size = .word) (ready : s.load.state ≠ .unwrapping) :
      s.loadRefusal size = none := by
    rw [full, State.loadRefusal_word takes, if_neg ready]
  refine ⟨fun closed => ?closed, fun takes part => ?part, fun takes full unwrapping => ?busy,
    fun takes full idle other => ?ignored, fun takes full state zero => ?first,
    fun takes full filling other more => ?counted, fun takes full filling other last => ?sixteenth⟩
  case closed => exact State.exec_loadWindowWrite_refused hears (State.loadRefusal_closed closed size) i data
  case part => exact State.exec_loadWindowWrite_refused hears (State.loadRefusal_partial takes part) i data
  case busy =>
    have busy : s.loadRefusal size = some .loadBusy := by
      rw [full, State.loadRefusal_word takes, if_pos unwrapping]
    exact State.exec_loadWindowWrite_refused hears busy i data
  case ignored =>
    exact State.exec_loadWindowWrite_taken hears (accepted takes full (by simp [idle]))
      (State.takeLoadWord_idle idle other data)
  case first =>
    subst zero
    have ready : s.load.state ≠ .unwrapping := by rcases state with h | h <;> simp [h]
    exact State.exec_loadWindowWrite_taken hears (accepted takes full ready) (State.takeLoadWord_zero state data)
  case counted =>
    exact State.exec_loadWindowWrite_taken hears (accepted takes full (by simp [filling]))
      (State.takeLoadWord_counted filling other more data)
  case sixteenth =>
    exact State.exec_loadWindowWrite_taken hears (accepted takes full (by simp [filling]))
      (State.takeLoadWord_sixteenth filling other last data)

end Sys2Proof.Machine
end

section
/-! PROOF of EngineStartTakesLowestClassOldest and OperationCopiesItsInputs: the oldest holder of the lowest class, the weighing of
the engine, and the inputs of each operation. -/

namespace Sys2Proof.Machine

/-! ## The next holder -/

/-- R124: there are four classes. -/
theorem Holder.priority_lt (h : Holder) : h.priority < 4 := by cases h <;> simp [Holder.priority]

/-- The oldest holder of a class. -/
theorem find?_priority_eq_some_iff (ready : List Holder) (k : Nat) (h : Holder) :
    ready.find? (fun x => x.priority == k) = some h ↔
      h.priority = k ∧ ∃ older younger, ready = older ++ h :: younger ∧ ∀ x ∈ older, x.priority ≠ k := by
  simp [List.find?_eq_some_iff_append]

theorem find?_priority_eq_none_iff (ready : List Holder) (k : Nat) :
    ready.find? (fun x => x.priority == k) = none ↔ ∀ x ∈ ready, x.priority ≠ k := by
  simp

/-- A search through the numbers below `n` stops at the lowest that gives a value. -/
theorem findSome?_range_eq_some_iff {α : Type} (f : Nat → Option α) (n : Nat) (b : α) :
    (List.range n).findSome? f = some b ↔ ∃ k < n, f k = some b ∧ ∀ j < k, f j = none := by
  induction n with
  | zero => simp
  | succ n ih =>
    simp only [List.range_succ, List.findSome?_append, Option.or_eq_some_iff, ih, List.findSome?_eq_none_iff, List.mem_range,
      List.findSome?_singleton]
    constructor
    · rintro (⟨k, below, found⟩ | ⟨earlier, found⟩)
      · exact ⟨k, Nat.lt_succ_of_lt below, found⟩
      · exact ⟨n, Nat.lt_succ_self n, found, earlier⟩
    · rintro ⟨k, below, found, earlier⟩
      rcases Nat.lt_succ_iff_lt_or_eq.mp below with below | rfl
      · exact .inl ⟨k, below, found, earlier⟩
      · exact .inr ⟨earlier, found⟩

/-- R127: every holder before the next is of a higher class, and none after it of a lower. -/
theorem nextHolder_eq_some_iff (ready : List Holder) (h : Holder) :
    nextHolder ready = some h ↔
      ∃ older younger, ready = older ++ h :: younger
        ∧ (∀ x ∈ older, h.priority < x.priority) ∧ ∀ x ∈ younger, h.priority ≤ x.priority := by
  simp only [nextHolder, findSome?_range_eq_some_iff, find?_priority_eq_some_iff, find?_priority_eq_none_iff]
  constructor
  · rintro ⟨_, -, ⟨rfl, older, younger, rfl, others⟩, lower⟩
    have least : ∀ x ∈ older ++ h :: younger, h.priority ≤ x.priority := fun x mem =>
      Nat.not_lt.mp fun below => lower _ below x mem rfl
    refine ⟨older, younger, rfl, fun x mem => ?_, fun x mem => least x (by simp [mem])⟩
    exact Nat.lt_of_le_of_ne (least x (by simp [mem])) (others x mem).symm
  · rintro ⟨older, younger, rfl, above, least⟩
    refine ⟨h.priority, h.priority_lt, ⟨rfl, older, younger, rfl, fun x mem => (above x mem).ne'⟩, fun j below x mem => ?_⟩
    have : h.priority ≤ x.priority := by
      rcases List.mem_append.mp mem with mem | mem
      · exact (above x mem).le
      · rcases List.mem_cons.mp mem with rfl | mem
        · exact le_rfl
        · exact least x mem
    omega

/-! ## The engine weighs the list -/

/-- R130: the engine of an operating part starts operations in UNSET, RUNNING and PURGING. -/
theorem Controller.engineStarts_iff (x : Controller) :
    x.engineStarts = true ↔ x.power = .on ∧ (x.state = .unset ∨ x.state = .running ∨ x.state = .purging) := by
  simp [Controller.engineStarts, or_assoc]

namespace State

/-- R128, R129: the mark is set beside the change of the engine. -/
theorem startOperation_eq (h : Holder) (o : Operation) (s : State) :
    s.startOperation h o = ({ s with engine := ⟨some o, s.engine.ready.filter (· != h)⟩ } : State).setMark h true := by
  cases h <;> rfl

theorem weighEngine_starts {s : State} {h : Holder} {o : Operation} (starts : s.controller.engineStarts = true)
    (idle : s.engine.operation = none) (next : nextHolder s.engine.ready = some h) (inputs : s.operationOf h = some o) :
    s.weighEngine = s.startOperation h o := by
  simp only [weighEngine, starts, idle, and_self, if_true, next, inputs]

theorem weighEngine_of_stopped {s : State} (stopped : s.controller.engineStarts ≠ true) : s.weighEngine = s :=
  if_neg fun ⟨starts, _⟩ => stopped starts

theorem weighEngine_of_busy {s : State} (busy : s.engine.operation ≠ none) : s.weighEngine = s :=
  if_neg fun ⟨_, idle⟩ => busy idle

theorem weighEngine_of_empty {s : State} (empty : s.engine.ready = []) : s.weighEngine = s := by
  have nobody : nextHolder s.engine.ready = none := by rw [empty]; rfl
  simp only [weighEngine, nobody, ite_self]

theorem exec_engineStart (s : State) : exec .engineStart s = .next s.weighEngine := rfl

/-! ## The inputs of an operation -/

theorem operationOf_code {s : State} {r : SlotRef} {h : Header} {c : Fin 24} {x : Context} {key : Key} {a : Attempt}
    (coding : (s.outSlot r).state = .coding h c) (context : s.context c = some x) (keyed : x.tagKey = some key)
    (newest : x.attempts.getLast? = some a) :
    s.operationOf (.code r) = some (.code r key x.identity x.tagNonce a.nonce a.record) := by
  simp [operationOf, coding, context, keyed, newest]

theorem operationOf_verify {s : State} {c : Fin 24} {x : Context} {key : Key} {d : ConfirmData} {a : Attempt}
    (context : s.context c = some x) (keyed : x.tagKey = some key) (confirm : x.confirm = some d)
    (matched : x.attempts[d.matched]? = some a) :
    s.operationOf (.verify c) = some (.verify c key x.identity a.nonce a.record d.counter d.tagCode) := by
  simp [operationOf, context, keyed, confirm, matched]

theorem operationOf_derive {s : State} {c : Fin 24} {x : Context} {k : Fin 48} {key : Key} (context : s.context c = some x)
    (linked : x.keyLink = some k) (master : (s.keys.entries.get k).key = some key) :
    s.operationOf (.derive c) = some (.derive c key x.identity x.generation) := by
  simp [operationOf, context, linked, master]

end State

/-- R12: the check is the last two words of the load buffer, low word first, and the words before it are its inputs. -/
theorem loadInputs_of_cells {b : Table 16 Word} {words : List Word} {low high : Word} (cells : b.cells = words ++ [low, high]) :
    loadWords b = words ∧ loadCheck b = high ++ low := by
  have fourteen : words.length = 14 := by
    have sixteen := b.size
    simpa [cells] using sixteen
  constructor
  · rw [loadWords, cells, ← fourteen, List.take_left]
  · simp [loadCheck, Wide.ofWords, Table.get, cells, fourteen]

/-- Settles O34: the search for the next holder, then the engine by what R127 and R130 ask of it. -/
theorem engineStartTakesLowestClassOldest : Obligations.EngineStartTakesLowestClassOldest := by
  unfold Obligations.EngineStartTakesLowestClassOldest
  refine ⟨fun s h => ⟨rfl, rfl⟩, fun s m r c => ⟨rfl, rfl, rfl, rfl, ?classes⟩, nextHolder_eq_some_iff, fun s => ⟨?starts, ?keeps⟩⟩
  case classes => simp [Holder.priority]
  case starts =>
    intro h o on state idle next inputs
    rw [State.exec_engineStart, State.weighEngine_starts (s.controller.engineStarts_iff.mpr ⟨on, state⟩) idle next inputs,
      State.startOperation_eq]
  case keeps =>
    have kept : s.controller.state = .dormant ∨ s.controller.state = .halted ∨ s.engine.operation ≠ none ∨ s.engine.ready = [] →
        s.weighEngine = s := by
      rintro (state | state | busy | empty)
      · exact State.weighEngine_of_stopped (by simp [Controller.engineStarts_iff, state])
      · exact State.weighEngine_of_stopped (by simp [Controller.engineStarts_iff, state])
      · exact State.weighEngine_of_busy busy
      · exact State.weighEngine_of_empty empty
    exact fun why => congrArg Host.Outcome.next (kept why)

/-- Settles O35, holder by holder. -/
theorem operationCopiesItsInputs : Obligations.OperationCopiesItsInputs := by
  unfold Obligations.OperationCopiesItsInputs
  refine ⟨fun s words low high cells => ?unwrap, fun s c x key context => ⟨fun r h a coding keyed newest => ?code,
    fun d a keyed confirm matched => ?verify, fun k linked master => ?derive⟩⟩
  case unwrap =>
    obtain ⟨inputs, check⟩ := loadInputs_of_cells cells
    rw [State.operationOf, inputs, check]
  case code => exact State.operationOf_code coding context keyed newest
  case verify => exact State.operationOf_verify context keyed confirm matched
  case derive => exact State.operationOf_derive context linked master

end Sys2Proof.Machine
end

section
/-! PROOF of ReportWriterQueuesTheHead: what the report writer queues, the report each holder gives, and the words of a record as
their fields side by side. -/

namespace Sys2Proof.Machine

namespace State

/-! ## The report writer weighs the list -/

/-- R141: with an empty list, a full ring or a write in progress nothing is queued. -/
theorem weighReports_keeps {s : State} (why : s.reports.waiting = [] ∨ s.ringFull = true ∨ s.reports.write ≠ .idle) :
    s.weighReports = s := by
  obtain ⟨-, -, keeps⟩ := weighReports_spec s
  rcases why with empty | full | busy
  · exact keeps (.inr (.inr fun h rest cons => by cases empty.symm.trans cons))
  · exact keeps (.inr (.inl full))
  · exact keeps (.inl busy)

theorem weighReports_queues {s : State} {h : ReportHolder} {rest : List ReportHolder} {r : Report}
    (head : s.reports.waiting = h :: rest) (room : s.ringFull = false) (idle : s.reports.write = .idle)
    (held : s.heldReport h = some r) :
    s.weighReports = (s.setWrite .writing).queueJob (.writeReport s.producerWord (r.words s.reports.sequence)) := by
  obtain ⟨⟨jobs, write, weighed⟩, queues, -⟩ := weighReports_spec s
  obtain ⟨writing, queued⟩ := queues h rest r idle head room held
  rw [weighed] at writing queued ⊢
  cases writing
  cases queued
  rfl

theorem ringFull_iff (s : State) :
    s.ringFull = true ↔ (s.reports.producer + 1) % s.setup.capacity = s.reports.consumer := beq_iff_eq

/-! ## The report of a holder -/

theorem heldReport_inbound {s : State} {r : SlotRef} {h : Header} {report : Report}
    (waits : s.inSlot r = .reportWait h report) : s.heldReport (.inbound r) = some report := by
  simp only [heldReport, waits]

theorem heldReport_outbound {s : State} {r : SlotRef} {h : Header} {report : Option Report}
    (spoiled : (s.outSlot r).state = .spoiled h report) : s.heldReport (.outbound r) = report := by
  simp only [heldReport, spoiled]

theorem heldReport_context {s : State} {c : Fin 24} {x : Context} (context : s.context c = some x) :
    s.heldReport (.context c) = x.report c := by
  simp only [heldReport, context, Option.bind_some]

end State

/-- R69: the sent attempts are those with a send time. -/
theorem Context.sentCount_eq (x : Context) : x.sentCount = (x.attempts.filter fun a => a.sentAt ≠ none).length := by
  simp only [Context.sentCount, List.countP_eq_length_filter, ← Option.isSome_iff_ne_none, Bool.decide_eq_true]

/-- R80: the report of a context that has its outcome. -/
theorem Context.report_of_outcome {x : Context} {code : PassageCode} {time : Word} (outcome : x.outcome = some (code, time))
    (c : Fin 24) :
    x.report c = some
      { ending := .passage code
        lane := x.homeLane
        slotIndex := none
        context := some c
        passage := some ⟨(x.attempts.filter fun a => a.sentAt ≠ none).length, x.hearings, x.lanes⟩
        identity := some x.identity
        label := some (x.issuer, x.generation)
        keyIndex := x.keyLink
        time := time
        tagCounter := some x.reportCounter } := by
  rw [Context.report, outcome, x.sentCount_eq, Option.map_some]

/-! ## The fields of a record -/

theorem Ending.classCode_lt (e : Ending) : e.classCode < 2 ^ 8 := by cases e <;> simp [Ending.classCode]

theorem Ending.code_lt (e : Ending) : e.code < 2 ^ 8 := by
  rcases e with c | c | c <;> cases c <;> decide

theorem indexByte_lt {n : Nat} (small : n ≤ 2 ^ 8) (i : Option (Fin n)) : indexByte i < 2 ^ 8 := by
  cases i with
  | none => simp [indexByte]
  | some i => exact i.isLt.trans_le small

/-- Formats: the context field, whose none is 1Fh. -/
def Report.contextField (r : Report) : BitVec 5 :=
  match r.context with
  | some c => BitVec.ofNat 5 c.val
  | none => 0x1F

/-- Formats: the sent attempts, the hearings and the lane set, 0 in a report that has none. -/
def Report.passageFields (r : Report) : BitVec 2 × BitVec 8 × BitVec 8 :=
  match r.passage with
  | some f => (BitVec.ofNat 2 f.attemptsSent, BitVec.ofNat 8 f.hearings, f.lanes)
  | none => (0, 0, 0)

/-- The counts of a report fit their fields. -/
def Report.Fits (r : Report) : Prop := ∀ f, r.passage = some f → f.attemptsSent < 4 ∧ f.hearings < 256

/-! ## The words of a record -/

/-- Word 0: the class, the code, the lane and the slot index. -/
theorem Report.endingWord_eq (r : Report) :
    place 0 r.ending.classCode ||| place 8 r.ending.code ||| place 16 r.lane.val ||| place 24 (indexByte r.slotIndex)
      = BitVec.ofNat 8 (indexByte r.slotIndex) ++ BitVec.ofNat 8 r.lane.val ++ BitVec.ofNat 8 r.ending.code
          ++ BitVec.ofNat 8 r.ending.classCode :=
  fourBytes_eq r.ending.classCode_lt r.ending.code_lt (by omega) (indexByte_lt (by decide) _)

/-- Word 1, from the lowest field up: the context, the sent attempts, what the report has, the hearings and the lane set. -/
theorem passageWord_eq {number : Nat} {context : BitVec 5} {counts : Word} {attempts : BitVec 2} {hearings lanes : BitVec 8}
    (numbered : number = context.toNat)
    (counted : counts = place 8 attempts.toNat ||| place 16 hearings.toNat ||| place 24 lanes.toNat)
    (passage identity label counter : Bool) :
    place 0 number ||| place 10 (bit passage) ||| place 11 (bit identity) ||| place 12 (bit label) ||| place 13 (bit counter)
        ||| counts
      = lanes ++ hearings ++ 0#2 ++ BitVec.ofBool counter ++ BitVec.ofBool label ++ BitVec.ofBool identity
          ++ BitVec.ofBool passage ++ attempts ++ 0#3 ++ context := by
  have upward : place 0 context.toNat ||| place 10 (bit passage) ||| place 11 (bit identity) ||| place 12 (bit label)
        ||| place 13 (bit counter) ||| (place 8 attempts.toNat ||| place 16 hearings.toNat ||| place 24 lanes.toNat)
      = place 0 context.toNat ||| place 8 attempts.toNat ||| place 10 (bit passage) ||| place 11 (bit identity)
        ||| place 12 (bit label) ||| place 13 (bit counter) ||| place 16 hearings.toNat ||| place 24 lanes.toNat := by
    ac_rfl
  rw [numbered, counted, upward, bit_toNat, bit_toNat, bit_toNat, bit_toNat, place_zero, or_place_gap 3, or_place, or_place,
    or_place, or_place, or_place_gap 2, or_place, BitVec.setWidth_eq]
  apply BitVec.eq_of_toNat_eq
  simp only [toNat_append_assoc]

/-- Word 4: the issuer, the generation and the key index. -/
theorem labelWord_eq (issuer : BitVec 16) (generation : BitVec 8) {k : Nat} (fits : k < 2 ^ 8) :
    place 0 issuer.toNat ||| place 16 generation.toNat ||| place 24 k = BitVec.ofNat 8 k ++ generation ++ issuer := by
  rw [place_ofNat 24 8 fits, place_zero, or_place, or_place, BitVec.setWidth_eq]
  apply BitVec.eq_of_toNat_eq
  simp only [toNat_append_assoc]

/-- R140, R176, R13: the eight words, field by field. -/
theorem Report.words_eq {r : Report} (fits : r.Fits) (sequence : Word) :
    r.words sequence =
      [ BitVec.ofNat 8 (indexByte r.slotIndex) ++ BitVec.ofNat 8 r.lane.val ++ BitVec.ofNat 8 r.ending.code
          ++ BitVec.ofNat 8 r.ending.classCode,
        r.passageFields.2.2 ++ r.passageFields.2.1 ++ 0#2 ++ BitVec.ofBool r.tagCounter.isSome ++ BitVec.ofBool r.label.isSome
          ++ BitVec.ofBool r.identity.isSome ++ BitVec.ofBool r.passage.isSome ++ r.passageFields.1 ++ 0#3 ++ r.contextField,
        (r.identity.getD 0).extractLsb' 0 32, (r.identity.getD 0).extractLsb' 32 32,
        BitVec.ofNat 8 (indexByte r.keyIndex) ++ (r.label.getD (0, 0)).2 ++ (r.label.getD (0, 0)).1,
        r.time, r.tagCounter.getD 0, sequence ] := by
  simp only [Report.words, List.cons.injEq, and_true]
  refine ⟨r.endingWord_eq, passageWord_eq ?context ?counts _ _ _ _, ?low, ?high, ?label⟩
  case context =>
    unfold Report.contextField
    cases r.context with
    | none => rfl
    | some c => exact (Nat.mod_eq_of_lt (c.isLt.trans (by decide))).symm
  case counts =>
    unfold Report.passageFields
    cases passage : r.passage with
    | none => rfl
    | some f =>
      obtain ⟨attempts, hearings⟩ := fits f passage
      rw [← place_ofNat 8 2 attempts, ← place_ofNat 16 8 hearings]
  case low => cases r.identity <;> rfl
  case high => cases r.identity <;> rfl
  case label =>
    have index : indexByte r.keyIndex < 2 ^ 8 := indexByte_lt (by decide) _
    cases r.label with
    | none => exact labelWord_eq 0 0 index
    | some label => exact labelWord_eq label.1 label.2 index

/-- Settles O39: the weighing, the report each holder gives, the words of a record, and the codes one by one. -/
theorem reportWriterQueuesTheHead : Obligations.ReportWriterQueuesTheHead := by
  unfold Obligations.ReportWriterQueuesTheHead
  refine ⟨fun s h => rfl,
    fun s => ⟨rfl, s.exec_engineStart, State.weighReports_keeps, fun h rest r => State.weighReports_queues, s.ringFull_iff,
      fun r h report => State.heldReport_inbound, fun r h report => State.heldReport_outbound, ?passage⟩,
    fun r sequence fits => Report.words_eq fits sequence, fun c d n => ⟨rfl, rfl, rfl⟩, rfl, rfl, rfl⟩
  case passage =>
    intro c x code time context outcome
    exact (State.heldReport_context context).trans (Context.report_of_outcome outcome c)

end Sys2Proof.Machine
end

section
/-! SUPPORT of ReportsCauseFollowsTheRing and EveryStepKeepsRingIndices: a set of causes, bit by bit. -/

namespace Sys2Proof.Machine

/-- Formats: the place of a cause in the cause order. -/
def Cause.index (c : Cause) : Nat :=
  match c with
  | .reports => 0
  | .command => 1
  | .load => 2
  | .refusal => 3
  | .keytime => 4
  | .power => 5
  | .purge => 6

theorem Cause.bit_eq_twoPow (c : Cause) : c.bit = BitVec.twoPow 7 c.index := by cases c <;> rfl

theorem Cause.index_lt (c : Cause) : c.index < 7 := by cases c <;> decide

theorem Cause.exists_index {i : Nat} (place : i < 7) : ∃ c : Cause, c.index = i := by
  match i, place with
  | 0, _ => exact ⟨.reports, rfl⟩
  | 1, _ => exact ⟨.command, rfl⟩
  | 2, _ => exact ⟨.load, rfl⟩
  | 3, _ => exact ⟨.refusal, rfl⟩
  | 4, _ => exact ⟨.keytime, rfl⟩
  | 5, _ => exact ⟨.power, rfl⟩
  | 6, _ => exact ⟨.purge, rfl⟩

theorem Cause.bit_and_reports {c : Cause} (other : c ≠ .reports) : c.bit &&& Cause.reports.bit = 0 := by
  cases c with
  | reports => exact absurd rfl other
  | command | load | refusal | keytime | power | purge => rfl

/-- A cause is in a set of causes if its bit is on. -/
theorem and_bit_ne_zero_iff (set : BitVec 7) (c : Cause) : set &&& c.bit ≠ 0 ↔ set.getLsbD c.index = true := by
  have alone : BitVec.twoPow 7 c.index ≠ 0 := by rw [← c.bit_eq_twoPow]; cases c <;> decide
  rw [c.bit_eq_twoPow, BitVec.and_twoPow]
  split
  · next on => exact iff_of_true alone on
  · next off => exact iff_of_false (absurd rfl) off

theorem ne_zero_iff_exists_cause (set : BitVec 7) : set ≠ 0 ↔ ∃ c : Cause, set &&& c.bit ≠ 0 := by
  constructor
  · intro nonempty
    by_contra unnamed
    refine nonempty (BitVec.eq_of_getLsbD_eq fun i place => ?_)
    obtain ⟨c, rfl⟩ := Cause.exists_index place
    have off : ¬ set.getLsbD c.index = true := fun on => unnamed ⟨c, (and_bit_ne_zero_iff set c).mpr on⟩
    rw [Bool.eq_false_iff.mpr off]
    exact (BitVec.getLsbD_zero ..).symm
  · rintro ⟨c, named⟩ rfl
    exact named (BitVec.zero_and ..)

/-- A cause is in both of two sets if it is in their meet. -/
theorem meet_and_bit_ne_zero_iff (x y : BitVec 7) (c : Cause) :
    (x &&& y) &&& c.bit ≠ 0 ↔ x &&& c.bit ≠ 0 ∧ y &&& c.bit ≠ 0 := by
  simp only [and_bit_ne_zero_iff, BitVec.getLsbD_and, Bool.and_eq_true]

/-- R148, R162: raising another cause leaves REPORTS unstored. -/
theorem unstored_or_bit {raised : BitVec 7} {c : Cause} (other : c ≠ .reports)
    (unstored : raised &&& Cause.reports.bit = 0) : (raised ||| c.bit) &&& Cause.reports.bit = 0 := by
  rw [BitVec.and_comm, BitVec.and_or_distrib_left, BitVec.and_comm _ raised, BitVec.and_comm _ c.bit, unstored,
    Cause.bit_and_reports other]
  rfl

/-- R148, R160: clearing causes leaves REPORTS unstored. -/
theorem unstored_and {raised : BitVec 7} (kept : BitVec 7) (unstored : raised &&& Cause.reports.bit = 0) :
    (raised &&& kept) &&& Cause.reports.bit = 0 := by
  rw [BitVec.and_assoc, BitVec.and_comm kept, ← BitVec.and_assoc, unstored]
  exact BitVec.zero_and

end Sys2Proof.Machine
end

section
/-! PROOF of ReportsCauseFollowsTheRing: which causes are pending, and the ATTN output as a meet with the enables. -/

namespace Sys2Proof.Machine

namespace State

theorem isPending_iff (s : State) (c : Cause) : s.isPending c = true ↔ s.pendingCauses &&& c.bit ≠ 0 := bne_iff_ne

/-- R162: a cause other than REPORTS is pending as it was raised. -/
theorem isPending_other_iff (s : State) {c : Cause} (other : c ≠ .reports) :
    s.isPending c = true ↔ s.control.raised &&& c.bit ≠ 0 := by
  rw [isPending_iff, pendingCauses]
  split
  · exact Iff.rfl
  · rw [BitVec.and_comm, BitVec.and_or_distrib_left, Cause.bit_and_reports other, BitVec.and_comm c.bit]
    exact iff_of_eq (congrArg (· ≠ 0) BitVec.or_zero)

/-- R148: REPORTS is pending while P differs from C. -/
theorem isPending_reports_iff {s : State} (unstored : s.control.raised &&& Cause.reports.bit = 0) :
    s.isPending .reports = true ↔ s.reports.producer ≠ s.reports.consumer := by
  rw [isPending_iff, pendingCauses]
  split
  · next equal => exact iff_of_false (absurd unstored) (absurd equal)
  · next differ =>
    refine iff_of_true ?_ differ
    rw [BitVec.and_comm, BitVec.and_or_distrib_left, BitVec.and_comm _ s.control.raised, unstored]
    decide

/-- R163: ATTN of an operating part. -/
theorem attn_iff {s : State} (operates : s.controller.power = .on) :
    s.attn = true ↔ ∃ c : Cause, s.isPending c = true ∧ s.setup.enables &&& c.bit ≠ 0 := by
  have output : s.attn = true ↔ s.pendingCauses &&& s.setup.enables ≠ 0 := by
    rw [attn, operates]
    exact bne_iff_ne
  rw [output, ne_zero_iff_exists_cause]
  simp only [meet_and_bit_ne_zero_iff, isPending_iff]

/-- R163, R148: with no cause raised, REPORTS alone drives ATTN. -/
theorem attn_iff_of_none_raised {s : State} (operates : s.controller.power = .on) (unraised : s.control.raised = 0) :
    s.attn = true ↔ s.reports.producer ≠ s.reports.consumer ∧ s.setup.enables &&& Cause.reports.bit ≠ 0 := by
  have unstored : s.control.raised &&& Cause.reports.bit = 0 := by rw [unraised]; rfl
  rw [attn_iff operates, ← isPending_reports_iff unstored]
  constructor
  · rintro ⟨c, pending, enabled⟩
    by_cases reports : c = .reports
    · subst reports; exact ⟨pending, enabled⟩
    · rw [isPending_other_iff s reports, unraised] at pending
      exact absurd BitVec.zero_and pending
  · exact fun pending => ⟨.reports, pending⟩

end State

/-- Settles O41: each state named takes the same reading of REPORTS, with its own P and C. -/
theorem reportsCauseFollowsTheRing : Obligations.ReportsCauseFollowsTheRing := by
  unfold Obligations.ReportsCauseFollowsTheRing
  refine ⟨rfl, fun s c => s.isPending_other_iff, fun s => State.attn_iff, fun s unstored => ?_, rfl⟩
  refine ⟨State.isPending_reports_iff unstored, ?written, ?released, ?cleared, ?applied,
    State.attn_iff_of_none_raised⟩
  case written => exact State.isPending_reports_iff (s := s.advanceRing) unstored
  case released => exact fun i => State.isPending_reports_iff (s := s.setConsumer i) unstored
  case cleared =>
    intro set
    rw [Bool.eq_iff_iff, State.isPending_reports_iff (s := s.clearCauses set) (unstored_and _ unstored),
      State.isPending_reports_iff unstored]
    exact Iff.rfl
  case applied =>
    intro x
    rw [Bool.eq_false_iff]
    exact fun pending => (State.isPending_reports_iff (s := s.enforce x) unstored).mp pending rfl

end Sys2Proof.Machine
end

section
/-! PROOF of WrittenEventReleasesTheHolder: the written event by the state of the write and the pending list, then the release of
each holder. -/

namespace Sys2Proof.Machine

namespace State

/-! ## The written event -/

theorem advanceRing_eq_setWaiting {s : State} {l : List ReportHolder} (waiting : s.reports.waiting = l) :
    s.advanceRing = s.advanceRing.setWaiting l := by
  rw [← waiting]; rfl

/-- R142: the written event of a write whose entry is the head of the pending list. -/
theorem written_of_writing {s : State} {h : ReportHolder} {rest : List ReportHolder} (writing : s.reports.write = .writing)
    (head : s.reports.waiting = h :: rest) : s.written = (s.advanceRing.setWaiting rest).releaseHolder h := by
  simp only [written, writing, head]

/-- R146: a write whose entry has been removed releases nothing. -/
theorem written_of_not_writing {s : State} (removed : s.reports.write ≠ .writing) : s.written = s.advanceRing := by
  unfold written
  split
  · next writing _ => exact absurd writing removed
  · rfl

theorem written_of_empty {s : State} (empty : s.reports.waiting = []) : s.written = s.advanceRing := by
  unfold written
  split
  · next head => rw [empty] at head; cases head
  · rfl

/-! ## The release of a holder -/

theorem releaseHolder_inbound {s : State} {r : SlotRef} {g : Header} {report : Report}
    (waits : s.inSlot r = .reportWait g report) : s.releaseHolder (.inbound r) = s.setInSlot r .free := by
  simp only [releaseHolder, waits]

theorem releaseHolder_outbound {s : State} {r : SlotRef} {g : Header} {report : Report}
    (spoiled : (s.outSlot r).state = .spoiled g (some report)) :
    s.releaseHolder (.outbound r) = s.setOutSlot r { s.outSlot r with state := .spoiled g none } := by
  simp only [releaseHolder, spoiled]

theorem rememberPaid_of_paid {s : State} {x : Context} {time : Word} (paid : x.outcome = some (.paid, time))
    (holdOff : s.setup.holdOff ≠ 0) :
    s.rememberPaid x = { s with contexts := { s.contexts with
      recent := joinRecent ⟨x.identity, s.controller.time⟩ s.contexts.recent } } :=
  if_pos ⟨by rw [paid]; rfl, holdOff⟩

theorem rememberPaid_of_unpaid {s : State} {x : Context}
    (unpaid : (∀ time, x.outcome ≠ some (.paid, time)) ∨ s.setup.holdOff = 0) : s.rememberPaid x = s := by
  refine if_neg ?_
  rintro ⟨paid, holdOff⟩
  obtain ⟨⟨code, time⟩, outcome, rfl⟩ := Option.map_eq_some_iff.mp paid
  exact unpaid.elim (absurd outcome <| · time) holdOff

/-- R83, R96: the entry that a context in REPORTING links, if any, counts one less. -/
def releaseLink (x : Context) (s : State) : State :=
  match x.keyLink with
  | some k => s.releaseReference k
  | none => s

theorem releaseLink_of_linked {x : Context} {k : Fin 48} (linked : x.keyLink = some k) (s : State) :
    s.releaseLink x = s.releaseReference k := by
  rw [releaseLink, linked]

theorem releaseLink_of_unlinked {x : Context} (unlinked : x.keyLink = none) (s : State) : s.releaseLink x = s := by
  rw [releaseLink, unlinked]

theorem track_releaseLink (x : Context) (s : State) : s.Track (s.releaseLink x) := by
  unfold releaseLink
  split
  · exact track_releaseReference ..
  · exact Track.refl s

theorem contexts_releaseLink (x : Context) (s : State) : (s.releaseLink x).contexts = s.contexts := by
  unfold releaseLink
  split <;> rfl

theorem freeContext_of_reporting {s : State} {c : Fin 24} {x : Context} (context : s.context c = some x)
    (reporting : x.state = .reporting) : s.freeContext c = ((s.releaseLink x).rememberPaid x).setContext c none := by
  unfold freeContext
  rw [context]
  exact if_pos reporting

/-- R83, R84: the identity of a PAID context joins the recent passage list. -/
theorem freeContext_of_paid {s : State} {c : Fin 24} {x : Context} {time : Word} (context : s.context c = some x)
    (reporting : x.state = .reporting) (paid : x.outcome = some (.paid, time)) (holdOff : s.setup.holdOff ≠ 0) :
    s.freeContext c = { (s.releaseLink x).setContext c none with
      contexts := { ((s.releaseLink x).setContext c none).contexts with
        recent := joinRecent ⟨x.identity, s.controller.time⟩ s.contexts.recent } } := by
  have track := track_releaseLink x s
  have now : (s.releaseLink x).controller.time = s.controller.time := by rw [track.controller]
  have recent : (s.releaseLink x).contexts.recent = s.contexts.recent := by rw [contexts_releaseLink]
  rw [freeContext_of_reporting context reporting, rememberPaid_of_paid paid (by rwa [track.setup]), now, recent]
  rfl

theorem freeContext_of_unpaid {s : State} {c : Fin 24} {x : Context} (context : s.context c = some x)
    (reporting : x.state = .reporting) (unpaid : (∀ time, x.outcome ≠ some (.paid, time)) ∨ s.setup.holdOff = 0) :
    s.freeContext c = (s.releaseLink x).setContext c none := by
  rw [freeContext_of_reporting context reporting, rememberPaid_of_unpaid (by rwa [(track_releaseLink x s).setup])]

end State

/-- Settles O40: the event by the state of the write and the list, and of a write in progress by the holder at the head. -/
theorem writtenEventReleasesTheHolder : Obligations.WrittenEventReleasesTheHolder := by
  unfold Obligations.WrittenEventReleasesTheHolder
  refine ⟨fun s empty => ?empty, fun s h rest head => ?head⟩
  case empty => exact (State.written_of_empty empty).trans (State.advanceRing_eq_setWaiting empty)
  case head =>
    refine ⟨?removed, ?inbound, ?outbound, ?context⟩
    case removed =>
      exact fun removed => (State.written_of_not_writing removed).trans (State.advanceRing_eq_setWaiting head)
    case inbound =>
      intro r g report writing holder waits
      subst holder
      rw [State.written_of_writing writing head]
      exact State.releaseHolder_inbound (s := s.advanceRing.setWaiting rest) waits
    case outbound =>
      intro r g report writing holder spoiled
      subst holder
      rw [State.written_of_writing writing head]
      exact State.releaseHolder_outbound (s := s.advanceRing.setWaiting rest) spoiled
    case context =>
      intro c x freed writing holder context reporting unlinked linked
      subst holder
      have freed_eq : freed = ((s.advanceRing.setWaiting rest).releaseLink x).setContext c none := by
        cases link : x.keyLink with
        | none => rw [State.releaseLink_of_unlinked link]; exact unlinked link
        | some k => rw [State.releaseLink_of_linked link]; exact linked k link
      rw [freed_eq, State.written_of_writing writing head]
      refine ⟨?paid, ?unpaid⟩
      case paid =>
        rintro ⟨time, paid⟩ holdOff
        exact State.freeContext_of_paid (s := s.advanceRing.setWaiting rest) context reporting paid holdOff
      case unpaid =>
        exact fun unpaid => State.freeContext_of_unpaid (s := s.advanceRing.setWaiting rest) context reporting unpaid

end Sys2Proof.Machine
end

section
/-! PROOF of EveryStepKeepsRingIndices: most operations leave the capacity, P and C as they were and raise no REPORTS cause, one
lemma per operation; a written event, a release and a setup move P or C under their own conditions. -/

namespace Sys2Proof.Machine

namespace State

/-! ## Operations that leave the ring -/

/-- What EveryStepKeepsRingIndices says of a step. -/
structure KeepsRing (s t : State) : Prop where
  keeps : s.ringIndices → t.ringIndices

theorem KeepsRing.refl (s : State) : s.KeepsRing s := ⟨id⟩

theorem KeepsRing.trans {s t u : State} (h : s.KeepsRing t) (g : t.KeepsRing u) : s.KeepsRing u := ⟨g.keeps ∘ h.keeps⟩

/-- The ring stays, whatever causes are raised or cleared with REPORTS left unstored. -/
theorem KeepsRing.of_causes {s t : State} (setup : t.setup = s.setup) (reports : t.reports = s.reports)
    (unstored : s.control.raised &&& Cause.reports.bit = 0 → t.control.raised &&& Cause.reports.bit = 0) :
    s.KeepsRing t := by
  refine ⟨fun ⟨inside, clear⟩ => ⟨?_, unstored clear⟩⟩
  rw [setup, reports]
  exact inside

/-- The ring and the causes stay. -/
theorem KeepsRing.of_same {s t : State} (setup : t.setup = s.setup) (reports : t.reports = s.reports)
    (raised : t.control.raised = s.control.raised) : s.KeepsRing t :=
  .of_causes setup reports fun unstored => by rw [raised]; exact unstored

theorem Track.keepsRing {s t : State} (track : s.Track t) : s.KeepsRing t := by
  refine ⟨fun ⟨inside, clear⟩ => ⟨?_, ?_⟩⟩
  · rw [track.setup, track.producer, track.consumer]; exact inside
  · rw [track.control]; exact clear

theorem Work.keepsRing {s t : State} (work : s.Work t) : s.KeepsRing t := work.toTrack.keepsRing

/-- R148, R162: a cause other than REPORTS is raised. -/
theorem ring_raise {c : Cause} (s : State) (other : c ≠ .reports := by exact nofun) : s.KeepsRing (s.raise c) :=
  .of_causes rfl rfl (unstored_or_bit other)

/-! ## Accesses -/

theorem ring_refuse (p : Port) (kind : RefusalKind) (address : BitVec 22) (s : State) :
    s.KeepsRing (s.refuse p kind address) := by
  refine .of_causes (setup_refuse ..) (reports_refuse ..) fun unstored => ?_
  rw [control_refuse]
  exact unstored_or_bit (c := .refusal) nofun unstored

theorem ring_relax (s : State) : s.KeepsRing s.relax := by
  unfold relax; split
  · exact .of_same rfl rfl rfl
  · exact KeepsRing.refl s

theorem ring_relax_settle (s : State) : s.KeepsRing s.relax.settle := (ring_relax s).trans (work_settle _).keepsRing

theorem ring_rouse (s : State) : s.KeepsRing s.rouse := by
  rw [rouse_eq]; exact .of_same rfl rfl rfl

theorem ring_passThrough (p : Port) (a : Access) (track : Option SlotWord) (s : State) :
    s.KeepsRing (s.passThrough p a track) := by
  unfold passThrough
  split
  · split <;> exact ring_refuse ..
  · exact (work_hold ..).keepsRing

theorem ring_result (code : BitVec 8) (o : CommandOutcome) (detail : BitVec 8) (s : State) :
    s.KeepsRing (s.result code o detail) := by
  have written : s.KeepsRing (s.setControl { s.control with result := ⟨code, o, detail⟩ }) := .of_same rfl rfl rfl
  exact written.trans (ring_raise _)

/-- R150: an accepted command's operand is in range. -/
theorem operandInRange_of_accepted {s : State} {code : BitVec 8} {operand : BitVec 24} {c : Command}
    (accepted : s.declines code operand = none) (known : Command.ofCode code = some c) :
    s.operandInRange c operand = true := by
  unfold declines at accepted
  rw [known] at accepted
  split at accepted
  · cases accepted
  · dsimp only at accepted
    split at accepted
    · cases accepted
    · split at accepted
      · cases accepted
      · next inRange => exact Bool.eq_true_of_not_eq_false inRange

/-- R145, R159: a released index lies below the capacity. -/
theorem ring_setConsumer {i : Nat} {s : State} (inside : i < s.setup.capacity) : s.KeepsRing (s.setConsumer i) :=
  ⟨fun ⟨indices, clear⟩ => ⟨indices.imp_right fun below => ⟨below.1, inside⟩, clear⟩⟩

theorem ring_carryOut {c : Command} {operand : BitVec 24} {s : State} (inRange : s.operandInRange c operand = true)
    (code : BitVec 8) : s.KeepsRing (s.carryOut c code operand) := by
  cases c with
  | setup => exact .of_same rfl rfl rfl
  | rest => exact (ring_result ..).trans (.of_same rfl rfl rfl)
  | laneRestart => exact (work_restartLane ..).keepsRing.trans (ring_result ..)
  | releaseReports => exact (ring_setConsumer (of_decide_eq_true inRange)).trans (ring_result ..)
  | clearAttention => exact (ring_result ..).trans (.of_causes rfl rfl (unstored_and _))

theorem ring_command (code : BitVec 8) (operand : BitVec 24) (s : State) : s.KeepsRing (s.command code operand) := by
  unfold command
  split
  · next accepted known => exact ring_carryOut (operandInRange_of_accepted accepted known) code
  · next _ accepted known => exact (ring_carryOut (operandInRange_of_accepted accepted known) code).trans (ring_rouse _)
  · exact (ring_result ..).trans (ring_rouse _)
  · exact KeepsRing.refl s

theorem ring_blockAccess (a : Access) (s : State) : s.KeepsRing (s.blockAccess a) := by
  have commanded : s.KeepsRing (s.commandWrite a) := by
    unfold commandWrite; split
    · exact (work_respond ..).keepsRing.trans (ring_command ..)
    · exact ring_refuse ..
  have loaded : ∀ i, s.KeepsRing (s.loadWindow i a) := fun i => by
    unfold loadWindow; split
    · exact ring_refuse ..
    · exact ((work_takeLoadWord ..).trans (work_respond ..)).keepsRing.trans (ring_rouse _)
  unfold blockAccess
  dsimp only
  split
  · split
    · exact ring_passThrough ..
    · exact commanded
    · exact ring_refuse ..
    · exact loaded _
    · exact ring_refuse ..
    · exact ring_refuse ..
  · split
    · exact (work_supply ..).keepsRing
    · exact ring_passThrough ..

theorem ring_ringAccess (p : Port) (a : Access) (t : SlotWord) (s : State) : s.KeepsRing (s.ringAccess p a t) := by
  have judged : s.KeepsRing (if a.size = .word then s.passThrough p a (some t) else s.refuse p .partialWrite a.address) := by
    split
    · exact ring_passThrough ..
    · exact ring_refuse ..
  unfold ringAccess
  split
  · exact ring_refuse ..
  · exact judged
  · exact ring_passThrough ..
  · exact ring_refuse ..
  · exact judged
  · exact ring_passThrough ..
  · split
    · exact (work_readCode ..).keepsRing
    · exact ring_passThrough ..

theorem ring_classify (p : Port) (a : Access) (s : State) : s.KeepsRing (s.classify p a) := by
  unfold classify
  split
  · split
    · exact ring_blockAccess ..
    · exact ring_refuse ..
  · split
    · exact ring_ringAccess ..
    · exact ring_passThrough ..

theorem ring_startWake (s : State) : s.KeepsRing s.startWake := by
  unfold startWake; split
  · exact KeepsRing.refl s
  · exact .of_same rfl rfl rfl

theorem ring_arrive (p : Port) (a : Access) (s : State) : s.KeepsRing (s.arrive p a) := by
  unfold arrive
  split
  · exact KeepsRing.refl s
  · split
    · exact KeepsRing.refl s
    · exact (work_hold ..).keepsRing
    · split
      · exact (ring_startWake s).trans (work_hold ..).keepsRing
      · exact (ring_classify ..).trans (ring_relax_settle _)

theorem ring_classifyAllHeld (order : Order) (s : State) : s.KeepsRing (s.classifyAllHeld order) := by
  have one : ∀ p (t : State), t.KeepsRing (t.classifyHeld p) := fun p t => by
    unfold classifyHeld; split
    · exact (work_setPort ..).keepsRing.trans (ring_classify ..)
    · exact KeepsRing.refl t
  cases order <;> exact (one ..).trans (one ..)

/-! ## The memory port -/

theorem ring_grant (s : State) : s.KeepsRing s.grant := by
  have port : ∀ p a track, s.KeepsRing (s.grantPort p a track) := fun p a track => by
    unfold grantPort; split
    · exact ring_refuse ..
    · exact ((work_setArbiter ..).trans (work_hold ..)).keepsRing
  unfold grant
  split
  · exact KeepsRing.refl s
  · split
    · exact port ..
    · exact (work_setArbiter ..).keepsRing
    · exact port ..
    · exact KeepsRing.refl s

theorem ring_wordAccessComplete (s : State) : s.KeepsRing s.wordAccessComplete := by
  have tracked : ∀ a judged (t : State), t.KeepsRing (t.applyTracked a judged) := fun a judged t => by
    unfold applyTracked
    split
    · exact KeepsRing.refl t
    · split
      · split
        · next effect => exact (work_writeSlot effect).keepsRing.trans (ring_rouse _)
        · exact KeepsRing.refl t
      · exact KeepsRing.refl t
  have completed : ∀ p a judged, s.KeepsRing (s.completeAccess p a judged) := fun p a judged => by
    unfold completeAccess
    split
    · have stored : s.KeepsRing (s.freePort.store a.word a.size a.data) := .of_same rfl rfl rfl
      exact (stored.trans (work_respond ..).keepsRing).trans (tracked ..)
    · exact ((work_setArbiter none s).trans (work_supply ..)).keepsRing
  unfold wordAccessComplete
  split
  · split
    · exact (completed ..).trans (ring_relax_settle _)
    · exact KeepsRing.refl s
  · exact KeepsRing.refl s

theorem ring_agentJobStart (s : State) : s.KeepsRing s.agentJobStart := by
  unfold agentJobStart
  split
  · split
    · exact ((work_setAgent ..).trans (work_beginFetch ..)).keepsRing
    · exact KeepsRing.refl s
  · exact KeepsRing.refl s

theorem ring_restPorts (order : Order) (s : State) : s.KeepsRing (s.restPorts order) := by
  have one : ∀ p (t : State), t.KeepsRing (t.restPort p) := fun p t => by
    unfold restPort; split
    · exact ring_refuse ..
    · next a _ _ _ =>
      obtain ⟨mem, fresh, eq⟩ := failInFlight_form a t
      have failed : t.KeepsRing (t.failInFlight a) := by rw [eq]; exact .of_same rfl rfl rfl
      exact failed.trans (ring_refuse ..)
    · exact KeepsRing.refl t
  cases order <;> exact (one ..).trans (one ..)

theorem ring_mrestAssert (order : Order) (s : State) : s.KeepsRing (s.mrestAssert order) := by
  have line : s.KeepsRing (s.setMrest true) := .of_same rfl rfl rfl
  have retried : ∀ p (t : State), t.KeepsRing (t.retryPort p) := fun p t => by
    obtain ⟨ports, arbiter, mem, fresh, eq⟩ := retryPort_form p t
    rw [eq]; exact .of_same rfl rfl rfl
  have failed : ∀ t : State, t.KeepsRing t.failAgentWord := fun t => by
    obtain ⟨mem, fresh, eq⟩ := failAgentWord_form t
    rw [eq]; exact .of_same rfl rfl rfl
  have rewound : ∀ t : State, t.KeepsRing t.rewindJob := fun t => by
    obtain ⟨agent, eq⟩ := rewindJob_form t
    rw [eq]; exact .of_same rfl rfl rfl
  unfold mrestAssert
  split
  · exact KeepsRing.refl s
  · dsimp only
    split
    · exact line
    · exact ((line.trans (retried ..)).trans (retried ..)).trans (failed _)
    · exact (((line.trans (ring_restPorts ..)).trans (failed _)).trans (rewound _)).trans (ring_relax _)

/-! ## The engine and the load unit -/

theorem ring_codeComplete (s : State) : s.KeepsRing s.codeComplete := by
  unfold codeComplete; split
  · exact (((work_setOperation ..).trans (work_finishCode ..)).trans (work_settle _)).keepsRing
  · exact KeepsRing.refl s

theorem ring_deriveComplete (s : State) : s.KeepsRing s.deriveComplete := by
  unfold deriveComplete; split
  · exact (((work_endOperation ..).trans (work_finishDerive ..)).trans (work_settle _)).keepsRing
  · exact KeepsRing.refl s

theorem ring_verifyComplete (s : State) : s.KeepsRing s.verifyComplete := by
  unfold verifyComplete; split
  · exact (((work_endOperation ..).trans (work_finishVerify ..)).trans (work_settle _)).keepsRing
  · exact KeepsRing.refl s

theorem ring_unwrapComplete (s : State) : s.KeepsRing s.unwrapComplete := by
  have applied : ∀ d key o (t : State), t.KeepsRing (t.applyRecord d key o) := fun d key o t => by
    unfold applyRecord
    split
    · next k =>
      split
      · exact .of_same rfl rfl rfl
      · have marked : t.KeepsRing ((t.raiseSerial k d.serial).setEntry k (t.keys.entries.get k).revoke.settle) :=
          .of_same rfl rfl rfl
        exact marked.trans (work_closeHolders ..).keepsRing
    · exact KeepsRing.refl t
  have ended : ∀ d o (t : State), t.KeepsRing (t.endLoad d o) := fun d o t =>
    (work_setLoad ..).keepsRing.trans (ring_raise _)
  unfold unwrapComplete; split
  · exact (((work_endOperation ..).keepsRing.trans (applied ..)).trans (ended ..)).trans (work_settle _).keepsRing
  · exact KeepsRing.refl s

/-! ## Time -/

theorem ring_setClock (w : Word) (s : State) : s.KeepsRing (s.setClock w) := by
  have aged : s.KeepsRing (s.setSeconds w).ageEntries := .of_same rfl rfl rfl
  unfold setClock evaluateKeys; split
  · exact aged.trans (ring_raise _)
  · exact aged

theorem ring_secondsClockRise (s : State) : s.KeepsRing s.secondsClockRise := by
  unfold secondsClockRise
  split
  · exact KeepsRing.refl s
  · split
    · exact ring_setClock ..
    · exact KeepsRing.refl s

theorem ring_recentEntryExpiry (s : State) : s.KeepsRing s.recentEntryExpiry := by
  unfold recentEntryExpiry
  split
  · exact KeepsRing.refl s
  · split
    · exact .of_same rfl rfl rfl
    · exact KeepsRing.refl s

theorem ring_tick (s : State) : s.KeepsRing s.tick := by
  have overdue : s.KeepsRing s.expireOverdue := by
    unfold expireOverdue; split
    · exact (work_holdLimitExpiry s).keepsRing
    · exact KeepsRing.refl s
  have trimmed : ∀ t : State, t.KeepsRing t.dropDueRecent := fun _ => .of_same rfl rfl rfl
  have advanced : ∀ t : State, t.KeepsRing t.advance := fun _ => .of_same rfl rfl rfl
  unfold tick; split
  · exact (((overdue.trans (work_ascending work_deadlineExpiry _).keepsRing).trans (trimmed _)).trans
      (ring_secondsClockRise _)).trans (advanced _)
  · exact KeepsRing.refl s

/-! ## Lines and power -/

/-- R170: a power warning may raise COMMAND for a setup it ends. -/
theorem ring_powerWarning (s : State) : s.KeepsRing s.powerWarning := by
  obtain ⟨held, port, eq, -⟩ := s.powerWarning_eq
  rw [eq]
  refine ⟨fun ⟨inside, clear⟩ => ⟨inside, ?_⟩⟩
  dsimp only
  split
  · exact unstored_or_bit (c := .command) nofun clear
  · exact clear

theorem ring_enterPurging (s : State) : s.KeepsRing s.enterPurging := by
  have start : s.KeepsRing (((s.markOrigin).purgeKeys).dropLoad).cutEngine := .of_same rfl rfl rfl
  have entered : ∀ t : State, t.KeepsRing (t.enter .purging) := fun _ => .of_same rfl rfl rfl
  exact ((start.trans ((work_purgeContexts _).trans (work_mapSlots ..)).keepsRing).trans (entered _)).trans
    (work_settle _).keepsRing

theorem ring_wakeEnd (order : Order) (s : State) : s.KeepsRing (s.wakeEnd order) := by
  have awake : s.KeepsRing s.awaken := .of_same rfl rfl rfl
  unfold wakeEnd
  split
  · exact ((ring_enterPurging s).trans (ring_classifyAllHeld ..)).trans (ring_relax_settle _)
  · split
    · exact (awake.trans (ring_classifyAllHeld ..)).trans (ring_relax_settle _)
    · exact KeepsRing.refl s

theorem ring_pwarnAssert (order : Order) (s : State) : s.KeepsRing (s.pwarnAssert order) := by
  have line : s.KeepsRing (s.setPwarn true) := .of_same rfl rfl rfl
  unfold pwarnAssert
  split
  · exact KeepsRing.refl s
  · dsimp only
    split
    · exact (line.trans (ring_powerWarning _)).trans (ring_classifyAllHeld ..)
    · exact line

theorem ring_returnFromHalted (s : State) : s.KeepsRing s.returnFromHalted := by
  have entered : s.KeepsRing (s.enter s.controller.restored) := .of_same rfl rfl rfl
  exact entered.trans (ring_raise _)

theorem ring_pwarnRelease (s : State) : s.KeepsRing s.pwarnRelease := by
  have line : s.KeepsRing (s.setPwarn false) := .of_same rfl rfl rfl
  unfold pwarnRelease
  split
  · dsimp only
    split
    · exact line.trans (ring_returnFromHalted _)
    · exact line
  · exact KeepsRing.refl s

theorem ring_purgeAssert (s : State) : s.KeepsRing s.purgeAssert := by
  have line : s.KeepsRing (s.setPurge true) := .of_same rfl rfl rfl
  have now : ∀ t : State, t.KeepsRing t.purgeNow := fun t => by
    unfold purgeNow; split
    · exact (ring_startWake t).trans (.of_same rfl rfl rfl)
    · exact ring_enterPurging t
  unfold purgeAssert
  split
  · exact KeepsRing.refl s
  · dsimp only
    split
    · exact line
    · exact line.trans (.of_same rfl rfl rfl)
    · split
      · exact line
      all_goals exact line.trans (now _)

theorem ring_eraseCompletion (s : State) : s.KeepsRing s.eraseCompletion := by
  have forgotten : s.KeepsRing { s with keys := s.keys.erased } := .of_same rfl rfl rfl
  have erased : s.KeepsRing s.endErase := forgotten.trans (ring_raise _)
  unfold eraseCompletion completeErase
  split
  · split
    · exact erased.trans (ring_powerWarning _)
    · split
      · exact erased.trans (ring_returnFromHalted _)
      · exact erased.trans (.of_same rfl rfl rfl)
  · exact KeepsRing.refl s

/-- R165, R138: RESET leaves no ring, and no cause. -/
theorem ring_loseVolatile (c : Controller) (k : Keys) (s : State) : s.KeepsRing (s.loseVolatile c k) :=
  ⟨fun _ => ⟨.inl rfl, BitVec.zero_and⟩⟩

theorem ring_resetAssert (cut : Bool) (s : State) : s.KeepsRing (s.resetAssert cut) := by
  have unwatched : ∀ t : State, t.KeepsRing t.unwatchPorts := fun _ => .of_same rfl rfl rfl
  unfold resetAssert; split
  · exact (ring_loseVolatile ..).trans (unwatched _)
  · exact KeepsRing.refl s

theorem ring_powerLoss (cut : Bool) (s : State) : s.KeepsRing (s.powerLoss cut) := by
  have lost : ∀ t : State, t.KeepsRing t.loseMemory := fun _ => .of_same rfl rfl rfl
  unfold powerLoss; split
  · exact KeepsRing.refl s
  · exact (ring_loseVolatile ..).trans (lost _)

theorem ring_startUp (straps : BitVec 6) (purgeFirst : Bool) (order : Order) (s : State) :
    s.KeepsRing (s.startUp straps purgeFirst order) := by
  have sampled : ∀ t : State, t.KeepsRing (t.sampleLines purgeFirst) := fun t => by
    unfold sampleLines
    dsimp only
    split
    · split
      · exact ring_enterPurging t
      · exact (ring_powerWarning t).trans (ring_enterPurging _)
    · split
      · exact ring_powerWarning t
      · split
        · exact ring_enterPurging t
        · exact KeepsRing.refl t
  unfold startUp
  split
  · exact KeepsRing.refl s
  · dsimp only
    split
    · exact ((ring_loseVolatile ..).trans (ring_restPorts ..)).trans (sampled _)
    · exact (ring_loseVolatile ..).trans (sampled _)

/-! ## The word of a job -/

/-- R138, R142: P advances modulo the capacity. -/
theorem ring_advanceRing (s : State) : s.KeepsRing s.advanceRing := by
  refine ⟨fun ⟨inside, clear⟩ => ⟨inside.imp_right fun ⟨producer, consumer⟩ => ⟨?_, consumer⟩, clear⟩⟩
  exact Nat.mod_lt _ (Nat.zero_lt_of_lt producer)

theorem ring_written (s : State) : s.KeepsRing s.written := by
  unfold written
  split
  · exact ((ring_advanceRing s).trans (work_setWaiting ..).keepsRing).trans (track_releaseHolder ..).keepsRing
  · exact ring_advanceRing s

/-- R138, R155: P and C become 0, inside any ring that has room. -/
theorem ring_enforce (x : Setup) (s : State) : s.KeepsRing (s.enforce x) :=
  ⟨fun ⟨_, clear⟩ => ⟨x.capacity.eq_zero_or_pos.imp_right fun room => ⟨room, room⟩, clear⟩⟩

theorem ring_takeSetup (image : List Word) (s : State) : s.KeepsRing (s.takeSetup image) := by
  have ended : ∀ o detail (t : State), t.KeepsRing (t.endSetup o detail) := fun o detail t => by
    have stopped : t.KeepsRing (t.setControl { t.control with setupRunning := false }) := .of_same rfl rfl rfl
    exact stopped.trans (ring_result ..)
  have trimmed : ∀ t : State, t.KeepsRing t.trimRecent := fun _ => .of_same rfl rfl rfl
  have clock : ∀ t : State, t.KeepsRing (t.setClockFrom image) := fun t => by
    unfold setClockFrom; split
    · exact ring_setClock ..
    · exact KeepsRing.refl t
  unfold takeSetup
  split
  · split
    · exact ended ..
    · exact ((((work_releaseSlotsForSetup s).keepsRing.trans (ring_enforce ..)).trans (trimmed _)).trans (clock _)).trans
        (ended ..)
  · exact ended ..

theorem ring_endJob (j : Job) (buffer : List Word) (s : State) : s.KeepsRing (s.endJob j buffer) := by
  cases j with
  | fetchFrame ring r => exact (track_takeFrame ..).keepsRing
  | fetchSetup => exact ring_takeSetup ..
  | writeReport => exact ring_written s

theorem ring_advanceJob (data : Option Word) (s : State) : s.KeepsRing (s.advanceJob data) := by
  unfold advanceJob
  split
  · dsimp only
    split
    · exact ((work_setAgent ..).keepsRing.trans (ring_endJob ..)).trans (work_settle _).keepsRing
    · exact (work_setAgent ..).keepsRing
  · exact KeepsRing.refl s

theorem ring_agentWordComplete (s : State) : s.KeepsRing s.agentWordComplete := by
  have freed : s.KeepsRing s.freePort := .of_same rfl rfl rfl
  have stored : ∀ w data, s.KeepsRing (s.freePort.store w .word data) := fun _ _ => .of_same rfl rfl rfl
  unfold agentWordComplete
  split
  · split
    · split
      · exact (stored ..).trans (ring_advanceJob ..)
      · exact stored ..
    · split
      · exact freed.trans (ring_advanceJob ..)
      · exact freed
  · exact KeepsRing.refl s

end State

theorem exec_keepsRing {i : Instr} {s t : State} (next : exec i s = .next t) : s.KeepsRing t := by
  cases i with
  | memoryAccess | controlBlockWrite | codeWordRead | loadWindowWrite | setup | rest | laneRestart | releaseReports
  | clearAttention | unknownCommand => cases next; exact State.ring_arrive ..
  | arbiterGrant => cases next; exact (State.ring_grant s).trans (State.ring_relax _)
  | wordAccessComplete => cases next; exact State.ring_wordAccessComplete s
  | holdLimitExpiry => cases next; exact (State.work_holdLimitExpiry s).keepsRing
  | agentJobStart => cases next; exact State.ring_agentJobStart s
  | agentWordComplete => cases next; exact State.ring_agentWordComplete s
  | engineStart => cases next; exact (State.work_weighEngine s).keepsRing
  | codeComplete => cases next; exact State.ring_codeComplete s
  | deriveComplete => cases next; exact State.ring_deriveComplete s
  | verifyComplete => cases next; exact State.ring_verifyComplete s
  | unwrapComplete => cases next; exact State.ring_unwrapComplete s
  | deadlineExpiry => cases next; exact (State.work_deadlineExpiry ..).keepsRing
  | recentEntryExpiry => cases next; exact State.ring_recentEntryExpiry s
  | secondsClockRise => cases next; exact State.ring_secondsClockRise s
  | wakeEnd => cases next; exact State.ring_wakeEnd ..
  | mrestAssert => cases next; exact State.ring_mrestAssert ..
  | mrestRelease | purgeRelease => cases next; exact .of_same rfl rfl rfl
  | pwarnAssert => cases next; exact State.ring_pwarnAssert ..
  | pwarnRelease => cases next; exact State.ring_pwarnRelease s
  | purgeAssert => cases next; exact State.ring_purgeAssert s
  | eraseCompletion => cases next; exact State.ring_eraseCompletion s
  | resetAssert => cases next; exact State.ring_resetAssert ..
  | startUp => cases next; exact State.ring_startUp ..
  | powerLoss => cases next; exact State.ring_powerLoss ..

/-- Settles O56: a millisecond leaves the ring, and every command keeps P and C inside it. -/
theorem everyStepKeepsRingIndices : Obligations.EveryStepKeepsRingIndices := by
  unfold Obligations.EveryStepKeepsRingIndices
  intro s t indices next
  unfold step at next
  split at next
  · cases next; exact (State.ring_tick s).keeps indices
  · next c rest _ =>
    have taken : s.KeepsRing { s with pending := rest } := .of_same rfl rfl rfl
    exact (taken.trans (exec_keepsRing next)).keeps indices

end Sys2Proof.Machine
end

section
/-! PROOF of CommandTestsAreMadeInOrder, DeclinedCommandOnlyReports and AcceptedCommandIsCarriedOut: the tests of R150 one by one,
the conditions they look at, and a write of the command word as a whole. -/

namespace Sys2Proof.Machine

/-! ## The code and the part state -/

/-- R150 step 2: the codes that name no command. -/
theorem Command.ofCode_unknown {code : BitVec 8} (unknown : code = 0 ∨ 5 < code) : Command.ofCode code = none := by
  rcases unknown with rfl | above
  · rfl
  · have other : ∀ k : BitVec 8, k ≤ 5 → code ≠ k := fun k low same => BitVec.not_le.mpr above (same ▸ low)
    unfold Command.ofCode
    rw [if_neg (other 1 (by decide)), if_neg (other 2 (by decide)), if_neg (other 3 (by decide)), if_neg (other 4 (by decide)),
      if_neg (other 5 (by decide))]

/-- R150 step 3, R164: a command that only a working part takes. -/
theorem PartState.allows_iff_working {c : Command} (working : c ≠ .setup ∧ c ≠ .clearAttention) (p : PartState) :
    p.allows c = true ↔ p = .running ∨ p = .dormant := by
  obtain ⟨noSetup, noClear⟩ := working
  cases c with
  | setup => exact absurd rfl noSetup
  | clearAttention => exact absurd rfl noClear
  | rest | laneRestart | releaseReports => cases p <;> decide

theorem PartState.allows_setup_iff (p : PartState) : p.allows .setup = false ↔ p = .halted ∨ p = .purging := by
  cases p <;> decide

theorem PartState.allows_clearAttention (p : PartState) : p.allows .clearAttention = true := by cases p <;> rfl

namespace State

/-! ## The conditions -/

/-- R59: every context is counted FREE exactly when none is open. -/
theorem contextsIn_none_eq_iff (s : State) : s.contextsIn none = 24 ↔ ∀ c, s.context c = none := by
  have all := List.countP_eq_length (p := fun c => decide ((s.context c).map (·.state) = none)) (l := List.finRange 24)
  rw [List.length_finRange] at all
  rw [contextsIn_eq, all]
  simp

theorem quiet_iff (s : State) :
    s.quiet = true ↔ (∀ c, s.context c = none) ∧ s.reports.waiting = [] ∧ s.reports.write = .idle := by
  simp only [quiet, Bool.and_eq_true, beq_iff_eq, List.isEmpty_iff, contextsIn_none_eq_iff, and_assoc]

theorem busyForRest_iff (s : State) :
    s.busyForRest = false ↔ (∀ c, s.context c = none) ∧ s.agent.jobs = [] ∧ s.engine.ready = [] ∧ s.engine.operation = none
      ∧ s.reports.waiting = [] ∧ s.load.state ≠ .unwrapping := by
  simp only [busyForRest, Bool.or_eq_false_iff, bne_eq_false_iff_eq, Bool.not_eq_false', List.isEmpty_iff,
    Option.isSome_eq_false_iff, Option.isNone_iff_eq_none, beq_eq_false_iff_ne, contextsIn_none_eq_iff, and_assoc, ne_eq]

/-- R152: nothing is left that a SETUP would disturb, and no load record is being taken. -/
theorem calm_iff (s : State) :
    (s.quiet && s.load.state == .idle) = true
      ↔ (∀ c, s.context c = none) ∧ s.reports.waiting = [] ∧ s.reports.write = .idle ∧ s.load.state = .idle := by
  simp only [Bool.and_eq_true, beq_iff_eq, quiet_iff, and_assoc]

/-! ## The tests in order -/

/-- R150 step 5: the command's own condition. -/
def ownCondition (s : State) (c : Command) (operand : BitVec 24) : Option CommandOutcome :=
  match c with
  | .setup => if s.quiet && s.load.state == .idle then none else some .busy
  | .rest => if s.busyForRest then some .busy else none
  | .laneRestart => none
  | .releaseReports => if s.inSpan operand.toNat then none else some .badOperand
  | .clearAttention => none

theorem declines_running {s : State} (running : s.control.setupRunning = true) (code : BitVec 8) (operand : BitVec 24) :
    s.declines code operand = some .busy := if_pos running

theorem declines_unknown {s : State} {code : BitVec 8} (ended : s.control.setupRunning = false)
    (unknown : Command.ofCode code = none) (operand : BitVec 24) : s.declines code operand = some .badOperand := by
  rw [declines, ended, unknown]; rfl

theorem declines_known {s : State} {code : BitVec 8} {c : Command} (ended : s.control.setupRunning = false)
    (known : Command.ofCode code = some c) (operand : BitVec 24) :
    s.declines code operand =
      if s.controller.state.allows c = false then some .state
      else if s.operandInRange c operand = false then some .badOperand
      else s.ownCondition c operand := by
  rw [declines, ended, known]; cases c <;> rfl

theorem declines_disallowed {s : State} {code : BitVec 8} {c : Command} (ended : s.control.setupRunning = false)
    (known : Command.ofCode code = some c) (closed : s.controller.state.allows c = false) (operand : BitVec 24) :
    s.declines code operand = some .state := by
  rw [declines_known ended known, if_pos closed]

theorem declines_outOfRange {s : State} {code : BitVec 8} {c : Command} {operand : BitVec 24}
    (ended : s.control.setupRunning = false) (known : Command.ofCode code = some c)
    (allowed : s.controller.state.allows c = true) (out : s.operandInRange c operand = false) :
    s.declines code operand = some .badOperand := by
  rw [declines_known ended known, allowed, if_neg (by decide), if_pos out]

theorem declines_inRange {s : State} {code : BitVec 8} {c : Command} {operand : BitVec 24}
    (ended : s.control.setupRunning = false) (known : Command.ofCode code = some c)
    (allowed : s.controller.state.allows c = true) (inRange : s.operandInRange c operand = true) :
    s.declines code operand = s.ownCondition c operand := by
  rw [declines_known ended known, allowed, inRange, if_neg (by decide), if_neg (by decide)]

/-! ## A write of the command word -/

/-- R150: a write of the command word has been answered done; the tests do not look at the port. -/
abbrev commandAnswered (s : State) : State := s.respond .c (.done none)

theorem command_declined {s : State} {code : BitVec 8} {operand : BitVec 24} {o : CommandOutcome}
    (declined : s.declines code operand = some o) : s.command code operand = (s.result code o 0).rouse := by
  simp only [command, declined]

/-- R168: an accepted REST rouses no part. -/
theorem command_rest {s : State} {operand : BitVec 24} (accepted : s.declines 2 operand = none) :
    s.command 2 operand = (s.result 2 .done 0).goDormant := by
  rw [command, accepted]; rfl

theorem command_accepted {s : State} {code : BitVec 8} {operand : BitVec 24} {c : Command}
    (known : Command.ofCode code = some c) (other : c ≠ .rest) (accepted : s.declines code operand = none) :
    s.command code operand = (s.carryOut c code operand).rouse := by
  rw [command, accepted, known]
  cases c with
  | rest => exact absurd rfl other
  | setup | laneRestart | releaseReports | clearAttention => rfl

/-- R150, R169: a declined write of the command word. -/
theorem writeCommand_declined {s : State} {code : BitVec 8} {operand : BitVec 24} {o : CommandOutcome} (hears : s.hears .c)
    (declined : s.declines code operand = some o) :
    s.writeCommand code operand = ((s.commandAnswered.result code o 0).rouse).settle := by
  rw [writeCommand_hears hears, command_declined (s := s.commandAnswered) declined,
    relax_rouse]

/-- R150, R169: an accepted write of the command word, but for a REST. -/
theorem writeCommand_accepted {s : State} {code : BitVec 8} {operand : BitVec 24} {c : Command} (hears : s.hears .c)
    (known : Command.ofCode code = some c) (other : c ≠ .rest) (accepted : s.declines code operand = none) :
    s.writeCommand code operand = ((s.commandAnswered.carryOut c code operand).rouse).settle := by
  rw [writeCommand_hears hears, command_accepted (s := s.commandAnswered) known other accepted, relax_rouse]

end State

/-- Settles O42: the code, the part state, the operand and then the command's own condition, code by code. -/
theorem commandTestsAreMadeInOrder : Obligations.CommandTestsAreMadeInOrder := by
  unfold Obligations.CommandTestsAreMadeInOrder
  intro s code operand state n cap working inSpan quiet atRest
  refine ⟨fun running => State.declines_running running code operand, fun ended => ?_⟩
  have refuses : ∀ c : Command, c ≠ .setup ∧ c ≠ .clearAttention → ¬ working → state.allows c = false :=
    fun c only idle => Bool.eq_false_iff.mpr fun allowed => idle ((PartState.allows_iff_working only _).mp allowed)
  have takes : ∀ c : Command, c ≠ .setup ∧ c ≠ .clearAttention → working → state.allows c = true :=
    fun c only => (PartState.allows_iff_working only _).mpr
  have takesSetup : working ∨ state = .unset → state.allows .setup = true := by
    rw [← Bool.not_eq_false, PartState.allows_setup_iff]
    rintro ((here | here) | here) <;> simp [here]
  refine ⟨fun unknown => State.declines_unknown ended (Command.ofCode_unknown unknown) operand, ?idle, ?halted, ?setup,
    ?setupBusy, ?rest, ?restBusy, ?lane, ?laneOut, ?release, ?releaseOut, ?clear, ?clearOut⟩
  case idle =>
    rintro (rfl | rfl | rfl) idle
    · exact State.declines_disallowed ended rfl (refuses .rest (by decide) idle) operand
    · exact State.declines_disallowed ended rfl (refuses .laneRestart (by decide) idle) operand
    · exact State.declines_disallowed ended rfl (refuses .releaseReports (by decide) idle) operand
  case halted =>
    rintro rfl here
    exact State.declines_disallowed ended rfl ((PartState.allows_setup_iff _).mpr here) operand
  case setup =>
    rintro rfl opens calm
    rw [State.declines_inRange ended rfl (takesSetup opens) rfl]
    exact if_pos (s.calm_iff.mpr calm)
  case setupBusy =>
    rintro rfl opens stirring
    rw [State.declines_inRange ended rfl (takesSetup opens) rfl]
    exact if_neg (mt s.calm_iff.mp stirring)
  case rest =>
    rintro rfl works resting
    rw [State.declines_inRange ended rfl (takes .rest (by decide) works) rfl]
    exact if_neg (Bool.eq_false_iff.mp (s.busyForRest_iff.mpr resting))
  case restBusy =>
    rintro rfl works stirring
    rw [State.declines_inRange ended rfl (takes .rest (by decide) works) rfl]
    exact if_pos (Bool.eq_true_of_not_eq_false (mt s.busyForRest_iff.mp stirring))
  case lane =>
    rintro rfl works isLane
    rw [State.declines_inRange ended rfl (takes .laneRestart (by decide) works) (decide_eq_true isLane)]
    rfl
  case laneOut =>
    rintro rfl works noLane
    exact State.declines_outOfRange ended rfl (takes .laneRestart (by decide) works) (decide_eq_false (Nat.not_lt.mpr noLane))
  case release =>
    rintro rfl works ⟨below, inside⟩
    rw [State.declines_inRange ended rfl (takes .releaseReports (by decide) works) (decide_eq_true below)]
    exact if_pos (decide_eq_true inside)
  case releaseOut =>
    rintro rfl works outside
    have allowed := takes .releaseReports (by decide) works
    by_cases below : n < cap
    · rw [State.declines_inRange ended rfl allowed (decide_eq_true below)]
      exact if_neg (Bool.eq_false_iff.mp (decide_eq_false fun inside => outside ⟨below, inside⟩))
    · exact State.declines_outOfRange ended rfl allowed (decide_eq_false below)
  case clear =>
    rintro rfl named
    rw [State.declines_inRange ended rfl (PartState.allows_clearAttention _) (decide_eq_true named)]
    rfl
  case clearOut =>
    rintro rfl above
    exact State.declines_outOfRange ended rfl (PartState.allows_clearAttention _) (decide_eq_false (Nat.not_lt.mpr above))

/-- Settles O43: every command form writes the command word, and a declined write ends the same way for each. -/
theorem declinedCommandOnlyReports : Obligations.DeclinedCommandOnlyReports := by
  unfold Obligations.DeclinedCommandOnlyReports
  intro s code operand o hears declined ended
  have ends : Host.Outcome.next (s.writeCommand code operand) = ended := by
    rw [State.writeCommand_declined hears declined, State.rouse_eq]; rfl
  refine ⟨ends, ?_, ?_, ?_, ?_, ?_⟩
  all_goals
    rintro rfl
    exact ends

/-- Settles O44, command by command. -/
theorem acceptedCommandIsCarriedOut : Obligations.AcceptedCommandIsCarriedOut := by
  unfold Obligations.AcceptedCommandIsCarriedOut
  intro s operand hears t done
  refine ⟨fun accepted => ?setup, fun accepted => ?rest, fun accepted => ?release, fun accepted => ?clear⟩
  case setup =>
    show Host.Outcome.next (s.writeCommand 1 operand) = _
    rw [State.writeCommand_accepted (c := .setup) hears rfl (by decide) accepted, State.rouse_eq]; rfl
  case rest =>
    show Host.Outcome.next (s.writeCommand 2 operand) = _
    rw [State.writeCommand_hears hears, State.command_rest (s := s.commandAnswered) accepted]; rfl
  case release =>
    show Host.Outcome.next (s.writeCommand 4 operand) = _
    rw [State.writeCommand_accepted (c := .releaseReports) hears rfl (by decide) accepted, State.rouse_eq]; rfl
  case clear =>
    show Host.Outcome.next (s.writeCommand 5 operand) = _
    rw [State.writeCommand_accepted (c := .clearAttention) hears rfl (by decide) accepted, State.rouse_eq]; rfl

end Sys2Proof.Machine
end

section
/-! PROOF of BlockWriteFollowsItsArea: the areas of the control block by their first byte, and a C-port write by the area it falls
in. -/

namespace Sys2Proof.Machine

namespace State

/-! ## The areas -/

theorem area_overlay (s : State) {n : Nat} (inside : n < 64) : s.area (0x80 + n) = .overlay n := by
  unfold area
  rw [if_neg (by omega), if_pos (by omega), Nat.add_sub_cancel_left]

theorem area_keyStatus (s : State) (e : Fin 48) {n : Nat} (inside : n < 4) :
    s.area (0x100 + (4 * e.val + n)) = .keyStatus e n := by
  have entry : (4 * e.val + n) / 4 = e.val := by omega
  have word : (4 * e.val + n) % 4 = n := by omega
  unfold area
  rw [if_neg (by omega), if_neg (by omega), if_neg (by omega), if_pos (by omega), Nat.add_sub_cancel_left, entry, word,
    Fin.ofNat_val_eq_self]

/-- R149: outside the areas of fixed place there is the report ring, and plain memory. -/
theorem area_of_unfixed (s : State) {off : Nat} (command : off ≠ 0x40) (overlay : ¬ (0x80 ≤ off ∧ off < 0xC0))
    (window : ¬ (0xC0 ≤ off ∧ off < 0xD0)) (keys : ¬ (0x100 ≤ off ∧ off < 0x1C0)) :
    s.area off =
      if s.controller.setupPresent = true ∧ s.setup.ringOffset / 4 ≤ off
          ∧ off < s.setup.ringOffset / 4 + s.setup.capacity * 8 then
        .reportRing
      else .plain := by
  unfold area
  rw [if_neg command, if_neg overlay, if_neg window, if_neg keys]

/-- R137, R154: the report ring lies above the areas of fixed place. -/
theorem area_reportRing {s : State} {off : Nat} (placed : s.laidOut) (present : s.controller.setupPresent = true)
    (low : s.setup.ringOffset ≤ 4 * off) (high : 4 * off < s.setup.ringOffset + s.setup.capacity * 32) :
    s.area off = .reportRing := by
  obtain ⟨-, -, ring⟩ := placed
  obtain ⟨above, aligned, -⟩ := ring present
  rw [s.area_of_unfixed (by omega) (by omega) (by omega) (by omega)]
  exact if_pos ⟨present, by omega, by omega⟩

/-- R149: every other byte is plain memory. -/
theorem area_plain {s : State} {off : Nat} (placed : s.laidOut)
    (elsewhere : 4 * off < 0x100 ∨ (0x100 < 4 * off ∧ 4 * off < 0x200) ∨ (0x340 ≤ 4 * off ∧ 4 * off < 0x400)
      ∨ (0x700 ≤ 4 * off ∧ (s.controller.setupPresent = false ∨ 4 * off < s.setup.ringOffset
        ∨ s.setup.ringOffset + s.setup.capacity * 32 ≤ 4 * off))) :
    s.area off = .plain := by
  obtain ⟨-, -, ring⟩ := placed
  rw [s.area_of_unfixed (by omega) (by omega) (by omega) (by omega)]
  refine if_neg fun ⟨present, low, high⟩ => ?_
  obtain ⟨above, aligned, -⟩ := ring present
  rcases elsewhere with _ | _ | _ | ⟨_, absent | _ | _⟩
  case inr.inr.inr.inl => rw [present] at absent; cases absent
  all_goals omega

/-! ## A write -/

/-- R149: a C-port access of the control block is what its area makes of it. -/
theorem arrive_block {s : State} {off : Nat} (hears : s.hears .c) (inside : off < 16384) (write : Bool) (size : Size)
    (data : Word) :
    s.arrive .c ⟨write, s.blockWord off, size, data⟩
      = ((s.blockAccess ⟨write, s.blockWord off, size, data⟩).relax).settle := by
  rw [arrive_hears hears, classify_block inside]

/-- R149: the areas that a C-port write may not change. -/
theorem blockAccess_readOnly {s : State} {off : Nat} (inside : off < 16384)
    (area : (∃ n, s.area off = .overlay n) ∨ (∃ e n, s.area off = .keyStatus e n) ∨ s.area off = .reportRing)
    (size : Size) (data : Word) :
    s.blockAccess ⟨true, s.blockWord off, size, data⟩
      = s.refuse .c .readOnly (Access.address ⟨true, s.blockWord off, size, data⟩) := by
  rcases area with ⟨n, here⟩ | ⟨e, n, here⟩ | here <;>
    simp only [blockAccess, s.offset_blockWord inside, here, if_true]

/-- R150: a partial write of the command word. -/
theorem blockAccess_partialCommand {s : State} {off : Nat} (inside : off < 16384) (here : s.area off = .command) {size : Size}
    (part : size ≠ .word) (data : Word) :
    s.blockAccess ⟨true, s.blockWord off, size, data⟩
      = s.refuse .c .partialWrite (Access.address ⟨true, s.blockWord off, size, data⟩) := by
  simp only [blockAccess, s.offset_blockWord inside, here, if_true, commandWrite, if_neg part]

theorem blockAccess_plain {s : State} {off : Nat} (inside : off < 16384) (here : s.area off = .plain) (size : Size)
    (data : Word) :
    s.blockAccess ⟨true, s.blockWord off, size, data⟩ = s.passThrough .c ⟨true, s.blockWord off, size, data⟩ none := by
  simp only [blockAccess, s.offset_blockWord inside, here, if_true]

end State

/-- Settles O10: the areas by their bytes, then the write by the area. -/
theorem blockWriteFollowsItsArea : Obligations.BlockWriteFollowsItsArea := by
  unfold Obligations.BlockWriteFollowsItsArea
  refine ⟨?areas, ?write⟩
  case areas =>
    intro s off inside byte ringEnd
    refine ⟨?address, fun placed => ⟨?command, ?overlay, ?window, ?keys, fun present => State.area_reportRing placed present,
      State.area_plain placed⟩⟩
    case address =>
      show 4 * (s.blockWord off).toNat = s.controller.straps.toNat * 0x10000 + 4 * off
      rw [s.blockWord_toNat inside, State.blockBase]
      omega
    case command =>
      intro here
      obtain rfl : off = 0x40 := by omega
      exact s.area_command
    case overlay =>
      intro n bound here
      obtain rfl : off = 0x80 + n := by omega
      exact s.area_overlay bound
    case window =>
      intro i here
      obtain rfl : off = 0xC0 + i.val := by omega
      exact s.area_loadWindow i
    case keys =>
      intro e n bound here
      obtain rfl : off = 0x100 + (4 * e.val + n) := by omega
      exact s.area_keyStatus e bound
  case write =>
    intro s off size data hears a
    have inside : off.toNat < 16384 := off.isLt
    have arrives : ∀ t, s.blockAccess a = t → exec (.controlBlockWrite off size data) s = .next (t.relax).settle := by
      rintro t rfl
      exact congrArg Host.Outcome.next (State.arrive_block hears inside true size data)
    refine ⟨fun area => arrives _ (State.blockAccess_readOnly inside area size data),
      fun area part => arrives _ (State.blockAccess_partialCommand inside area part data), fun area released => arrives _ ?_,
      fun area asserted => arrives _ ?_⟩
    · rw [State.blockAccess_plain inside area, State.passThrough_waits released]
    · rw [State.blockAccess_plain inside area, State.passThrough_rests asserted]

end Sys2Proof.Machine
end

section
/-! PROOF of BlockReadIsSupplied: the addressed part of a word, a C-port read by the area it falls in, and the words supplied as
their fields side by side. -/

namespace Sys2Proof.Machine

/-! ## Fields side by side -/

/-- A narrow value in the low bits of a word. -/
theorem setWidth_eq_half (x : BitVec 16) : (x.setWidth 32 : Word) = 0#16 ++ x := setWidth_top (k := 16) rfl x

theorem setWidth_eq_byte (x : BitVec 8) : (x.setWidth 32 : Word) = 0#24 ++ x := setWidth_top (k := 24) rfl x

/-- R20: the addressed part of a word. -/
theorem extract_addressedPart (w : Word) : Size.word.extract w = w
    ∧ (∀ upper, (Size.half upper).extract w = 0#16 ++ w.extractLsb' (if upper then 16 else 0) 16)
    ∧ ∀ i : Fin 4, (Size.byte i).extract w = 0#24 ++ w.extractLsb' (8 * i.val) 8 :=
  ⟨rfl, fun _ => setWidth_eq_half _, fun _ => setWidth_eq_byte _⟩

/-! ## The result words and the key status page -/

theorem CommandOutcome.code_lt (o : CommandOutcome) : o.code < 2 ^ 8 := by cases o <;> decide

theorem LoadOutcome.code_lt (o : LoadOutcome) : o.code < 2 ^ 8 := by cases o <;> decide

theorem KeyState.code_lt (x : KeyState) : x.code < 2 ^ 8 := by cases x <;> decide

theorem RefusalKind.code_lt (k : RefusalKind) : k.code < 2 ^ 8 := by cases k <;> decide

theorem PartState.code_lt (p : PartState) : p.code < 2 ^ 8 := by cases p <;> decide

/-- R151: the command result word. -/
theorem CommandResult.word_eq (r : CommandResult) : r.word = 0#8 ++ r.detail ++ BitVec.ofNat 8 r.outcome.code ++ r.code := by
  rw [CommandResult.word, place_ofNat 8 8 r.outcome.code_lt, place_zero, or_place, or_place, setWidth_top (k := 8) rfl]
  apply BitVec.eq_of_toNat_eq
  simp only [BitVec.toNat_cast, toNat_append_assoc]

/-- R119: the load result word. -/
theorem LoadResult.word_eq (r : LoadResult) :
    r.word = BitVec.ofNat 8 (indexByte r.index) ++ BitVec.ofNat 8 r.outcome.code ++ r.serial := by
  rw [LoadResult.word, place_ofNat 16 8 r.outcome.code_lt]
  exact labelWord_eq r.serial _ (indexByte_lt (by decide) _)

/-- R107: word 0 of a key status entry. -/
theorem KeyEntry.statusWord_zero (e : KeyEntry) :
    e.statusWord 0 = e.issuer ++ e.generation ++ BitVec.ofNat 8 e.state.code := by
  rw [KeyEntry.statusWord, place_ofNat 0 8 e.state.code_lt, place_zero, or_place, or_place, BitVec.setWidth_eq]
  apply BitVec.eq_of_toNat_eq
  simp only [toNat_append_assoc]

/-- R107: word 3 of a key status entry. -/
theorem KeyEntry.statusWord_three {e : KeyEntry} (fits : e.references < 256) :
    e.statusWord 3 = 0#8 ++ BitVec.ofNat 8 e.references ++ e.installSerial := by
  show place 0 e.installSerial.toNat ||| place 16 e.references = _
  rw [place_ofNat 16 8 fits, place_zero, or_place, setWidth_top (k := 8) rfl]
  apply BitVec.eq_of_toNat_eq
  simp only [BitVec.toNat_cast, toNat_append_assoc]

/-! ## The status overlay -/

/-- Formats: three counts. -/
theorem threeBytes_eq {a b c : Nat} (ha : a < 256) (hb : b < 256) (hc : c < 256) :
    place 0 a ||| place 8 b ||| place 16 c = BitVec.ofNat 8 0 ++ BitVec.ofNat 8 c ++ BitVec.ofNat 8 b ++ BitVec.ofNat 8 a := by
  rw [← fourBytes_eq ha hb hc (by decide)]
  exact (BitVec.or_zero).symm

theorem oneByte_eq {a : Nat} (ha : a < 256) :
    place 0 a = BitVec.ofNat 8 0 ++ BitVec.ofNat 8 0 ++ BitVec.ofNat 8 0 ++ BitVec.ofNat 8 a := by
  rw [← fourBytes_eq ha (by decide) (by decide) (by decide)]
  show place 0 a = place 0 a ||| 0#32 ||| 0#32 ||| 0#32
  simp only [BitVec.or_zero]

theorem high_append_low (v : Wide) : v.high ++ v.low = v := by
  apply BitVec.eq_of_getLsbD_eq
  intro i inside
  simp only [Wide.high, Wide.low, BitVec.getLsbD_append, BitVec.getLsbD_extractLsb']
  by_cases low : i < 32
  · simp [low]
  · simp [low, show i - 32 < 32 by omega, show 32 + (i - 32) = i by omega]

/-- Formats: the part state, the lines and whether the clock is set. -/
theorem Controller.stateWord_eq (c : Controller) :
    c.stateWord = 0#15 ++ BitVec.ofBool c.seconds.isSome ++ 0#5 ++ BitVec.ofBool c.lines.purge ++ BitVec.ofBool c.lines.mrest
      ++ BitVec.ofBool c.lines.pwarn ++ BitVec.ofNat 8 c.state.code := by
  rw [Controller.stateWord, bit_toNat, bit_toNat, bit_toNat, bit_toNat, place_ofNat 0 8 c.state.code_lt, place_zero, or_place,
    or_place, or_place, or_place_gap 5, setWidth_top (k := 15) rfl]
  apply BitVec.eq_of_toNat_eq
  simp only [BitVec.toNat_cast, toNat_append_assoc]

/-- Formats: the port of the last refusal, 0 before any. -/
def Path.portField (p : Path) : BitVec 2 :=
  match p.port with
  | none => 0
  | some .c => 1
  | some .r => 2

/-- Formats: the kind of the last refusal, 0 before any. -/
def Path.kindField (p : Path) : Nat :=
  match p.kind with
  | none => 0
  | some k => k.code

theorem Path.word_eq (p : Path) : p.word = 0#16 ++ BitVec.ofNat 8 p.kindField ++ 0#6 ++ p.portField := by
  have kind : p.kindField < 2 ^ 8 := by
    unfold kindField
    cases p.kind with
    | none => decide
    | some k => exact k.code_lt
  have placed : p.word = place 0 p.portField.toNat ||| place 8 p.kindField := by
    unfold Path.word kindField portField
    rcases p.port with _ | _ | _ <;> rfl
  rw [placed, place_ofNat 8 8 kind, place_zero, or_place_gap 6, setWidth_top (k := 16) rfl]
  apply BitVec.eq_of_toNat_eq
  simp only [BitVec.toNat_cast, toNat_append_assoc]

/-- R163, R162: the pending causes and the enables. -/
theorem causesWord_eq (pending enables : BitVec 7) :
    place 0 pending.toNat ||| place 16 enables.toNat = 0#9 ++ enables ++ 0#9 ++ pending := by
  rw [place_zero, or_place_gap 9, setWidth_top (k := 9) rfl]
  apply BitVec.eq_of_toNat_eq
  simp only [BitVec.toNat_cast, toNat_append_assoc]

/-- Formats: the lengths of the ready list and of the agent job list. -/
theorem lengthsWord_eq {ready jobs : Nat} (fits : ready < 256) (fits' : jobs < 65536) :
    place 0 ready ||| place 16 jobs = BitVec.ofNat 16 jobs ++ 0#8 ++ BitVec.ofNat 8 ready := by
  rw [place_ofNat 0 8 fits, place_ofNat 16 16 fits', place_zero, or_place_gap 8, BitVec.setWidth_eq]
  apply BitVec.eq_of_toNat_eq
  simp only [toNat_append_assoc]

/-- R174: the codes of the fixed store. -/
theorem codesWord_eq (vendor part : BitVec 16) : place 0 vendor.toNat ||| place 16 part.toNat = part ++ vendor := by
  rw [place_zero, or_place, BitVec.setWidth_eq]

theorem revisionWord_eq (revision : BitVec 8) : place 0 revision.toNat = 0#24 ++ revision := by
  rw [place_zero, setWidth_eq_byte]

/-- R23: the address of the last refusal. -/
theorem addressWord_eq (address : BitVec 22) : place 0 address.toNat = 0#10 ++ address := by
  rw [place_zero, setWidth_top (k := 10) rfl]
  rfl

namespace State

/-- R33: a ring has at most 16 slots to count. -/
theorem freeInbound_lt (s : State) (n : Fin 8) : s.freeInbound n < 256 := by
  have := List.countP_le_length (p := fun x => x == InSlot.free)
    (l := (s.slots.lanes.get n).inbound.cells.take (s.setup.lanes.get n).inCount)
  rw [List.length_take, (s.slots.lanes.get n).inbound.size] at this
  unfold freeInbound
  omega

theorem armedOutbound_lt (s : State) (n : Fin 8) : s.armedOutbound n < 256 := by
  have := List.countP_le_length (p := fun x : OutSlot => x.state.isArmed)
    (l := (s.slots.lanes.get n).outbound.cells.take (s.setup.lanes.get n).outCount)
  rw [List.length_take, (s.slots.lanes.get n).outbound.size] at this
  unfold armedOutbound
  omega

/-- R34, R52: a lane's word. -/
theorem laneWord_eq (s : State) (n : Fin 8) :
    s.laneWord n = (s.slots.lanes.get n).underruns ++ BitVec.ofNat 8 (s.armedOutbound n) ++ BitVec.ofNat 8 (s.freeInbound n) := by
  rw [laneWord, place_ofNat 0 8 (s.freeInbound_lt n), place_ofNat 8 8 (s.armedOutbound_lt n), place_zero, or_place, or_place,
    BitVec.setWidth_eq]
  apply BitVec.eq_of_toNat_eq
  simp only [toNat_append_assoc]

/-- R161: from word 22 on there is a word for each lane, and then nothing. -/
theorem overlayWord_lanes (s : State) (k : Nat) :
    s.overlayWord (k + 22) = if 22 ≤ k + 22 ∧ k + 22 < 30 then s.laneWord (Fin.ofNat 8 (k + 22 - 22)) else 0 := rfl

theorem overlayWord_lane (s : State) (n : Fin 8) : s.overlayWord (22 + n.val) = s.laneWord n := by
  rw [Nat.add_comm, overlayWord_lanes, if_pos (by omega), Nat.add_sub_cancel, Fin.ofNat_val_eq_self]

theorem overlayWord_above (s : State) {k : Nat} (above : 30 ≤ k) : s.overlayWord k = 0 := by
  obtain ⟨j, rfl⟩ := Nat.exists_eq_add_of_le' (show 22 ≤ k by omega)
  rw [overlayWord_lanes, if_neg (by omega)]

/-! ## A read -/

/-- R149, R20: a read of a word that the part supplies. -/
theorem arrive_supplied {s : State} {off : Nat} {w : Word} (hears : s.hears .c) (inside : off < 16384)
    (supplied : s.suppliedWord (s.area off) = some w) (size : Size) :
    s.arrive .c ⟨false, s.blockWord off, size, 0⟩
      = (({ s with ports := { s.ports with c := ⟨none, some (.done (some (size.extract w)))⟩ } } : State).relax).settle := by
  rw [arrive_block hears inside]
  simp only [blockAccess, s.offset_blockWord inside, supplied, Bool.false_eq_true, if_false]
  rfl

/-- R149: a read of memory in the control block passes through. -/
theorem arrive_unsupplied {s : State} {off : Nat} (hears : s.hears .c) (inside : off < 16384)
    (area : s.area off = .plain ∨ s.area off = .reportRing) (size : Size) :
    s.arrive .c ⟨false, s.blockWord off, size, 0⟩
      = ((s.passThrough .c ⟨false, s.blockWord off, size, 0⟩ none).relax).settle := by
  have unsupplied : s.suppliedWord (s.area off) = none := by rcases area with here | here <;> rw [here] <;> rfl
  rw [arrive_block hears inside]
  simp only [blockAccess, s.offset_blockWord inside, unsupplied, Bool.false_eq_true, if_false]

end State

/-- Settles O11: the read by its area, then the words and the counts one by one. -/
theorem blockReadIsSupplied : Obligations.BlockReadIsSupplied := by
  unfold Obligations.BlockReadIsSupplied
  refine ⟨extract_addressedPart, ?read, rfl, rfl, rfl, rfl, rfl, fun _ => rfl, rfl, CommandResult.word_eq, LoadResult.word_eq,
    fun e fits => ⟨e.statusWord_zero, rfl, rfl, KeyEntry.statusWord_three fits⟩, ?counts, ?overlay⟩
  case read =>
    intro s off size hears inside a supplied
    have reads : ∀ {x : Area} {w : Word}, s.suppliedWord x = some w → s.area off = x →
        exec (.memoryAccess .c a) s = supplied w := fun word here =>
      congrArg Host.Outcome.next (State.arrive_supplied hears inside (here ▸ word) size)
    have passes := fun area => State.arrive_unsupplied hears inside area size
    refine ⟨reads rfl, fun n => reads rfl, fun i => reads rfl, fun e n => reads rfl, fun area released => ?_,
      fun area asserted => ?_⟩ <;>
      refine congrArg Host.Outcome.next ((passes area).trans ?_)
    · rw [State.passThrough_waits released]
    · rw [State.passThrough_rests asserted]
  case counts =>
    intro s
    exact ⟨s.contextsIn_eq, s.contextsIn_add, s.entriesIn_eq, s.entriesIn_add, s.freeInbound_eq, s.armedOutbound_eq,
      State.counts_without_setup⟩
  case overlay =>
    intro s producer consumer capacity ready jobs bytes lines port kind
    have contexts := s.contextsIn_add
    have entries := s.entriesIn_add
    refine ⟨codesWord_eq _ _, revisionWord_eq _, high_append_low _, s.controller.stateWord_eq, rfl, rfl, rfl, rfl, rfl,
      threeBytes_eq producer consumer capacity, rfl, causesWord_eq .., rfl, s.path.word_eq, addressWord_eq _, ?_, ?_, ?_,
      oneByte_eq (by omega), rfl, lengthsWord_eq ready jobs, fun n => (s.overlayWord_lane n).trans (s.laneWord_eq n),
      fun k => s.overlayWord_above⟩ <;>
      exact fourBytes_eq (by omega) (by omega) (by omega) (by omega)

end Sys2Proof.Machine
end

section
/-! PROOF of SetupIsAppliedWholeOrNotAtAll: the fields of the image, what the check of each word asks, and the take of the image
by what is left and by the first failing word. -/

namespace Sys2Proof.Machine

/-! ## The fields of the image -/

theorem Table.get_tableOf {α : Type} {n : Nat} (f : Fin n → α) (i : Fin n) : (tableOf n f).get i = f i := by
  simp [Table.get, tableOf]

theorem field_eq_one_iff (w : Word) (start : Nat) : (Word.field w start 1 == 1) = true ↔ (w.extractLsb' start 1).toNat = 1 :=
  beq_iff_eq

/-- A field of a whole word. -/
theorem toNat_eq_field (w : Word) : w.toNat = (w.extractLsb' 0 32).toNat := by rw [BitVec.extractLsb'_eq_self]

/-! ## The checks -/

theorem Range.overlaps_eq_false_iff (a b : Range) : a.overlaps b = false ↔ clear a.base a.bytes b.base b.bytes := by
  refine ⟨clear_of_not_overlaps, fun apart => ?_⟩
  unfold clear at apart
  rw [Range.overlaps, decide_eq_false_iff_not]
  omega

/-- R154: the rings that a ring of lane `n` is checked against are those of the enabled lanes below it. -/
theorem forall_mem_lowerRings_iff (x : Setup) (n : Fin 8) (P : Range → Prop) :
    (∀ o ∈ lowerRings x n, P o)
      ↔ ∀ m, m < n → (x.lanes.get m).enable = true → P (x.lanes.get m).inRange ∧ P (x.lanes.get m).outRange := by
  constructor
  · intro all m lower on
    obtain ⟨inbound, outbound⟩ := mem_lowerRings x lower on
    exact ⟨all _ inbound, all _ outbound⟩
  · intro all o member
    obtain ⟨l, taken, ring⟩ := List.mem_flatMap.mp member
    obtain ⟨taken, on⟩ := List.mem_filter.mp taken
    obtain ⟨m, bound, rfl⟩ := List.mem_take_iff_getElem.mp taken
    have lower : m < n.val := bound.trans_le (min_le_left _ _)
    obtain ⟨inbound, outbound⟩ := all ⟨m, lower.trans n.isLt⟩ lower on
    rcases List.mem_cons.mp ring with rfl | ring
    · exact inbound
    · rw [List.mem_singleton.mp ring]; exact outbound

/-- R154: a ring lies in the address space, clear of the control block and of the enabled rings of the lanes below lane `n`. -/
def Setup.Places (x : Setup) (block : Range) (n : Fin 8) (a : Range) : Prop :=
  a.base + a.bytes ≤ Memory.bytes ∧ clear a.base a.bytes block.base block.bytes
    ∧ ∀ m, m < n → (x.lanes.get m).enable = true →
      clear a.base a.bytes (x.lanes.get m).inRange.base (x.lanes.get m).inRange.bytes
        ∧ clear a.base a.bytes (x.lanes.get m).outRange.base (x.lanes.get m).outRange.bytes

theorem Range.placed_iff (x : Setup) (block : Range) (n : Fin 8) (a : Range) :
    a.placed block (lowerRings x n) = true ↔ x.Places block n a := by
  simp only [Range.placed, Bool.and_eq_true, decide_eq_true_eq, Bool.not_eq_true', List.all_eq_true, and_assoc,
    Range.overlaps_eq_false_iff, forall_mem_lowerRings_iff, Setup.Places]

/-- R154: an outbound ring is clear of its own lane's inbound ring too. -/
theorem Range.placed_append_iff (a block o : Range) (others : List Range) :
    a.placed block (others ++ [o]) = true ↔ a.placed block others = true ∧ clear a.base a.bytes o.base o.bytes := by
  simp only [Range.placed, List.all_append, List.all_cons, List.all_nil, Bool.and_eq_true, Bool.not_eq_true',
    Range.overlaps_eq_false_iff, and_true, and_assoc]

theorem Lane.basePasses_iff (l : Lane) (base : Nat) (placed : Bool) :
    l.basePasses base placed = true ↔ base % (4 * l.slotWords) = 0 ∧ (l.enable = true → placed = true) := by
  simp only [Lane.basePasses, Bool.and_eq_true, beq_iff_eq, Bool.or_eq_true, Bool.not_eq_true', ← Bool.not_eq_true, imp_iff_not_or]

/-- R154: the check of word `i` of a lane's four, given the rings of the enabled lanes below it. -/
def Lane.partPasses (l : Lane) (block : Range) (lower : List Range) (i : Nat) : Bool :=
  match i with
  | 0 => (l.slotWords == 16 || l.slotWords == 32)
      && decide (1 ≤ l.inCount ∧ l.inCount ≤ 16 ∧ 1 ≤ l.outCount ∧ l.outCount ≤ 16)
  | 1 => l.basePasses l.inBase (l.inRange.placed block lower)
  | 2 => l.basePasses l.outBase (l.outRange.placed block (lower ++ [l.inRange]))
  | _ => decide (l.holdLimit ≤ 255 ∧ 10 ≤ l.deadline ∧ l.deadline ≤ 2000)

section Words

variable (image : List Word) (clockSet : Bool) (block : Range) (x : Setup)

theorem wordPasses_zero_iff : wordPasses image clockSet block x 0 = true
    ↔ (imageWord image 0).extractLsb' 0 8 = 1#8 ∧ (clockSet = true ∨ setTime image = true) := by
  have one : Word.field (imageWord image 0) 0 8 = 1 ↔ (imageWord image 0).extractLsb' 0 8 = 1#8 :=
    BitVec.toNat_inj (y := 1#8)
  rw [wordPasses, if_pos rfl, Bool.and_eq_true, beq_iff_eq, Bool.or_eq_true, one]

theorem wordPasses_two_iff : wordPasses image clockSet block x 2 = true
    ↔ 0x1000 ≤ x.ringOffset ∧ x.ringOffset % 32 = 0 ∧ 16 ≤ x.capacity ∧ x.capacity ≤ 128
      ∧ x.ringOffset + x.capacity * 32 ≤ 0x10000 := decide_eq_true_iff

theorem wordPasses_three_iff : wordPasses image clockSet block x 3 = true ↔ x.holdOff ≤ 3600 := decide_eq_true_iff

theorem wordPasses_filter_iff (f : Fin 8) :
    wordPasses image clockSet block x (4 + f.val) = true ↔ (x.filters.get f).maskWidth ≤ 15 := by
  rw [wordPasses, if_neg (by omega), if_neg (by omega), if_neg (by omega), if_neg (by omega), if_pos (by omega),
    Nat.add_sub_cancel_left, Fin.ofNat_val_eq_self, decide_eq_true_iff]

/-- R154: the four words of a lane. -/
theorem wordPasses_lane (n : Fin 8) {i : Nat} (word : i < 4) :
    wordPasses image clockSet block x (12 + 4 * n.val + i) = (x.lanes.get n).partPasses block (lowerRings x n) i := by
  have lane : (12 + 4 * n.val + i - 12) / 4 = n.val := by omega
  have part : (12 + 4 * n.val + i - 12) % 4 = i := by omega
  rw [wordPasses, if_neg (by omega), if_neg (by omega), if_neg (by omega), if_neg (by omega), if_neg (by omega), lane, part,
    Fin.ofNat_val_eq_self]
  rfl

theorem wordPasses_sizes_iff (n : Fin 8) : wordPasses image clockSet block x (12 + 4 * n.val) = true
    ↔ ((x.lanes.get n).slotWords = 16 ∨ (x.lanes.get n).slotWords = 32) ∧ 1 ≤ (x.lanes.get n).inCount
      ∧ (x.lanes.get n).inCount ≤ 16 ∧ 1 ≤ (x.lanes.get n).outCount ∧ (x.lanes.get n).outCount ≤ 16 := by
  refine (Bool.eq_iff_iff.mp (wordPasses_lane image clockSet block x n (i := 0) (by decide))).trans ?_
  simp only [Lane.partPasses, Bool.and_eq_true, Bool.or_eq_true, beq_iff_eq, decide_eq_true_eq]

theorem wordPasses_inBase_iff (n : Fin 8) : wordPasses image clockSet block x (13 + 4 * n.val) = true
    ↔ (x.lanes.get n).inBase % (4 * (x.lanes.get n).slotWords) = 0
      ∧ ((x.lanes.get n).enable = true → x.Places block n (x.lanes.get n).inRange) := by
  have word : 13 + 4 * n.val = 12 + 4 * n.val + 1 := by omega
  rw [word, wordPasses_lane image clockSet block x n (by decide)]
  exact (Lane.basePasses_iff ..).trans (and_congr_right' (imp_congr_right fun _ => Range.placed_iff ..))

theorem wordPasses_outBase_iff (n : Fin 8) : wordPasses image clockSet block x (14 + 4 * n.val) = true
    ↔ (x.lanes.get n).outBase % (4 * (x.lanes.get n).slotWords) = 0
      ∧ ((x.lanes.get n).enable = true → x.Places block n (x.lanes.get n).outRange
        ∧ clear (x.lanes.get n).outRange.base (x.lanes.get n).outRange.bytes (x.lanes.get n).inRange.base
          (x.lanes.get n).inRange.bytes) := by
  have word : 14 + 4 * n.val = 12 + 4 * n.val + 2 := by omega
  rw [word, wordPasses_lane image clockSet block x n (by decide)]
  refine (Lane.basePasses_iff ..).trans (and_congr_right' (imp_congr_right fun _ => ?_))
  rw [Range.placed_append_iff, Range.placed_iff]

theorem wordPasses_limits_iff (n : Fin 8) : wordPasses image clockSet block x (15 + 4 * n.val) = true
    ↔ (x.lanes.get n).holdLimit ≤ 255 ∧ 10 ≤ (x.lanes.get n).deadline ∧ (x.lanes.get n).deadline ≤ 2000 := by
  have word : 15 + 4 * n.val = 12 + 4 * n.val + 3 := by omega
  rw [word, wordPasses_lane image clockSet block x n (by decide)]
  exact decide_eq_true_iff

end Words

/-! ## Set-time -/

/-- R93: some entry takes another state when the clock takes a value. -/
def Keys.ClockChanges (keys : Keys) (w : Word) : Prop :=
  ∃ k, ((keys.entries.get k).evaluate (some w)).state ≠ (keys.entries.get k).state

/-- R93, R91: what an image's set-time makes of the key table and the causes. -/
structure SetsTime (image : List Word) (before : Keys) (was : BitVec 7) (keys : Keys) (raised : BitVec 7) : Prop where
  evaluates : setTime image = true → keys = { before with
    entries := before.entries.map fun e => (e.evaluate (some (imageWord image 1))).settle }
  unset : setTime image = false → keys = before
  raises : setTime image = true → before.ClockChanges (imageWord image 1) → raised = was ||| 16
  unraised : setTime image = false ∨ ¬ before.ClockChanges (imageWord image 1) → raised = was

theorem SetsTime.highestSerial {image : List Word} {before : Keys} {was : BitVec 7} {keys : Keys} {raised : BitVec 7}
    (sets : SetsTime image before was keys raised) : keys.highestSerial = before.highestSerial := by
  by_cases on : setTime image = true
  · rw [sets.evaluates on]
  · rw [sets.unset (Bool.eq_false_iff.mpr on)]

/-! ## What a setup makes of the part state, a slot and a job -/

theorem PartState.afterSetup_of_other {p : PartState} (other : p ≠ .purging) : p.afterSetup = .running := by
  cases p with
  | purging => exact absurd rfl other
  | unset | running | dormant | halted => rfl

theorem PartState.afterSetup_of_purging {p : PartState} (purging : p = .purging) : p.afterSetup = .purging := by
  rw [purging]; rfl

theorem OutSlot.release_unmarked {x : OutSlot} (unmarked : x.mark = false) : x.release = { x with state := .free } := by
  rw [OutSlot.release, unmarked]; rfl

/-- R56: a slot with the mark drains, if it has a frame. -/
theorem OutSlot.release_marked {x : OutSlot} (marked : x.mark = true) :
    x.release = { x with state := match x.state.header with
      | some h => .draining h
      | none => x.state } := by
  rw [OutSlot.release, if_pos marked]
  cases x.state.header <;> rfl

theorem OutSlot.releaseForSetup_unmarked {x : OutSlot} (unmarked : x.mark = false) :
    x.releaseForSetup = ⟨.free, none, false⟩ := by
  rw [OutSlot.releaseForSetup, unmarked]; rfl

theorem OutSlot.releaseForSetup_marked {x : OutSlot} (marked : x.mark = true) :
    x.releaseForSetup = { x with state := match x.state.header with
      | some h => .draining h
      | none => x.state } := by
  rw [OutSlot.releaseForSetup, if_pos marked, OutSlot.release_marked marked]

theorem Job.fetchesFrame_iff (j : Job) : j.fetchesFrame = true ↔ ∃ ring r, j = .fetchFrame ring r := by
  cases j with
  | fetchFrame ring r => exact iff_of_true rfl ⟨ring, r, rfl⟩
  | fetchSetup | writeReport => exact iff_of_false nofun nofun

namespace State

/-- R154: the first failing word. -/
theorem firstFailing_eq_some {s : State} {image : List Word} {k : Nat} (word : k < 44)
    (fails : wordPasses image s.controller.seconds.isSome s.blockRange (Setup.ofImage image) k = false)
    (first : ∀ j, j < k → wordPasses image s.controller.seconds.isSome s.blockRange (Setup.ofImage image) j = true) :
    s.firstFailing image = some k :=
  List.find?_range_eq_some.mpr ⟨by rw [fails]; rfl, List.mem_range.mpr word, fun j below => by rw [first j below]; rfl⟩

theorem firstFailing_eq_none {s : State} {image : List Word}
    (passes : ∀ k, k < 44 → wordPasses image s.controller.seconds.isSome s.blockRange (Setup.ofImage image) k = true) :
    s.firstFailing image = none :=
  List.find?_range_eq_none.mpr fun k word => by rw [passes k word]; rfl

/-! ## The end of a setup -/

theorem endSetup_eq (o : CommandOutcome) (detail : BitVec 8) (s : State) :
    s.endSetup o detail = { s with control := ⟨⟨1, o, detail⟩, false, s.control.raised ||| 2⟩ } := rfl

theorem takeSetup_busy {s : State} (stirring : ¬ ((∀ c, s.context c = none) ∧ s.reports.waiting = [] ∧ s.reports.write = .idle))
    (image : List Word) : s.takeSetup image = s.endSetup .busy 0 := by
  rw [takeSetup, if_neg (mt s.quiet_iff.mp stirring)]

theorem takeSetup_fails {s : State} {image : List Word} {k : Nat}
    (quiet : (∀ c, s.context c = none) ∧ s.reports.waiting = [] ∧ s.reports.write = .idle)
    (fails : s.firstFailing image = some k) : s.takeSetup image = s.endSetup .badImage (BitVec.ofNat 8 k) := by
  rw [takeSetup, if_pos (s.quiet_iff.mpr quiet), fails]

theorem takeSetup_passes {s : State} {image : List Word}
    (quiet : (∀ c, s.context c = none) ∧ s.reports.waiting = [] ∧ s.reports.write = .idle)
    (passes : s.firstFailing image = none) : s.takeSetup image = s.applySetup image := by
  rw [takeSetup, if_pos (s.quiet_iff.mpr quiet), passes]

/-! ## The jobs that leave the list -/

/-- R28: the jobs that `picks` picks leave the list, a current one abandoned. -/
structure DropsJobs (picks : Job → Bool) (before : Agent) (was : Option InFlight) (agent : Agent)
    (arbiter : Option InFlight) : Prop where
  jobs : agent.jobs = before.jobs.filter fun j => !picks j
  abandons : ∀ k j rest, before.position = some k → before.jobs = j :: rest → picks j = true →
    agent.position = none ∧ agent.buffer = [] ∧ arbiter = was.map InFlight.abandon
  keeps : before.position = none ∨ (∀ j rest, before.jobs = j :: rest → picks j = false) →
    agent.position = before.position ∧ agent.buffer = before.buffer ∧ arbiter = was

theorem dropJobs_eq (picks : Job → Bool) (s : State) :
    ∃ agent arbiter, s.dropJobs picks = { s with agent := agent, arbiter := arbiter }
      ∧ DropsJobs picks s.agent s.arbiter agent arbiter := by
  obtain ⟨agent, arbiter, dropped, jobs⟩ := s.dropJobs_form picks
  refine ⟨agent, arbiter, dropped, jobs, fun k j rest current head picked => ?_, fun other => ?_⟩
  · cases dropped.symm.trans (dropJobs_current current head picked)
    exact ⟨rfl, rfl, rfl⟩
  · cases dropped.symm.trans (dropJobs_other other)
    exact ⟨rfl, rfl, rfl⟩

/-! ## The application -/

/-- R51: the held read and the R-port once every read held has been answered. -/
structure AnswersAny (s : State) (held : Option HeldRead) (port : PortState) : Prop where
  answers : ∀ q o, s.slots.held = some q → s.ports.r.access = some o →
    held = none ∧ port = ⟨none, some (.done (some (o.access.size.extract fillPattern)))⟩
  unanswered : s.slots.held = none ∨ s.ports.r.access = none → held = s.slots.held ∧ port = s.ports.r

/-- R57, R51, R28: the release of the slots, written out. -/
theorem releaseSlotsForSetup_eq (s : State) :
    ∃ held port agent arbiter,
      s.releaseSlotsForSetup = { s with
        slots := ⟨s.slots.lanes.map fun l =>
          { l with inbound := l.inbound.map fun _ => .free, outbound := l.outbound.map OutSlot.releaseForSetup }, held⟩
        ports := { s.ports with r := port }
        agent := agent, arbiter := arbiter }
      ∧ AnswersAny s held port ∧ DropsJobs Job.fetchesFrame s.agent s.arbiter agent arbiter := by
  obtain ⟨held, port, answered, filled, kept⟩ := s.answerAnyHeld_eq
  obtain ⟨agent, arbiter, dropped, drops⟩ :=
    (s.answerAnyHeld.mapSlots (fun _ => .free) OutSlot.releaseForSetup).dropJobs_eq Job.fetchesFrame
  refine ⟨held, port, agent, arbiter, ?_, ⟨filled, kept⟩, ?_⟩
  · rw [releaseSlotsForSetup, dropped, answered]; rfl
  · rw [answered] at drops; exact drops

theorem setClockFrom_eq (image : List Word) (s : State) :
    ∃ keys raised,
      s.setClockFrom image = { s with
        controller := { s.controller with
          seconds := if setTime image = true then some (imageWord image 1) else s.controller.seconds
          millis := if setTime image = true then 0 else s.controller.millis }
        keys := keys
        control := { s.control with raised := raised } }
      ∧ SetsTime image s.keys s.control.raised keys raised := by
  have changes : (s.keys.entries.any fun e => (e.evaluate (some (imageWord image 1))).state != e.state) = true
      ↔ s.keys.ClockChanges (imageWord image 1) := by
    simp only [Table.any_iff, bne_iff_ne, Keys.ClockChanges]
  have evaluated : s.setClock (imageWord image 1) =
      if (s.keys.entries.any fun e => (e.evaluate (some (imageWord image 1))).state != e.state) = true then
        (s.setSeconds (imageWord image 1)).ageEntries.raise .keytime
      else (s.setSeconds (imageWord image 1)).ageEntries := rfl
  unfold setClockFrom
  by_cases on : setTime image = true
  · have set : ¬ setTime image = false := ne_false_of_eq_true on
    simp only [if_pos on]
    rw [evaluated]
    by_cases changed : s.keys.ClockChanges (imageWord image 1)
    · rw [if_pos (changes.mpr changed)]
      exact ⟨_, _, rfl, fun _ => rfl, fun off => absurd off set, fun _ _ => rfl,
        fun other => absurd changed (other.resolve_left set)⟩
    · rw [if_neg (mt changes.mp changed)]
      exact ⟨_, _, rfl, fun _ => rfl, fun off => absurd off set, fun _ change => absurd change changed, fun _ => rfl⟩
  · simp only [if_neg on]
    exact ⟨_, _, rfl, fun set => absurd set on, fun _ => rfl, fun set => absurd set on, fun _ => rfl⟩

/-- R155: an applied setup, written out. -/
theorem applySetup_eq (image : List Word) (s : State) :
    ∃ held port agent arbiter keys raised,
      s.applySetup image = { s with
        setup := Setup.ofImage image
        reports := { s.reports with producer := 0, consumer := 0 }
        controller := { s.controller with
          state := s.controller.state.afterSetup
          setupPresent := true
          seconds := if setTime image = true then some (imageWord image 1) else s.controller.seconds
          millis := if setTime image = true then 0 else s.controller.millis }
        contexts := { s.contexts with
          recent := s.contexts.recent.filter fun e =>
            decide ((s.controller.time - e.time).toNat < (Setup.ofImage image).holdOff * 1000) }
        keys := keys
        control := ⟨⟨1, .done, 0⟩, false, raised ||| 2⟩
        slots := ⟨s.slots.lanes.map fun l =>
          { l with inbound := l.inbound.map fun _ => .free, outbound := l.outbound.map OutSlot.releaseForSetup }, held⟩
        ports := { s.ports with r := port }
        agent := agent, arbiter := arbiter }
      ∧ AnswersAny s held port ∧ DropsJobs Job.fetchesFrame s.agent s.arbiter agent arbiter
      ∧ SetsTime image s.keys s.control.raised keys raised := by
  obtain ⟨held, port, agent, arbiter, released, answers, drops⟩ := s.releaseSlotsForSetup_eq
  obtain ⟨keys, raised, set, sets⟩ :=
    ((s.releaseSlotsForSetup.enforce (Setup.ofImage image)).trimRecent).setClockFrom_eq image
  have young : ∀ e : RecentEntry, (!(s.releaseSlotsForSetup.enforce (Setup.ofImage image)).recentDue e)
      = decide ((s.controller.time - e.time).toNat < (Setup.ofImage image).holdOff * 1000) := fun e => by
    rw [released, recentDue, ← decide_not]
    exact decide_eq_decide.mpr Nat.not_le
  refine ⟨held, port, agent, arbiter, keys, raised, ?_, answers, drops, ?_⟩
  · rw [applySetup, set, endSetup_eq]
    simp only [trimRecent, young]
    rw [released]
    rfl
  · rw [released] at sets
    exact sets

end State

/-- Settles O46: the fields, the checks word by word, and the take by its three ends. -/
theorem setupIsAppliedWholeOrNotAtAll : Obligations.SetupIsAppliedWholeOrNotAtAll := by
  unfold Obligations.SetupIsAppliedWholeOrNotAtAll
  refine ⟨?fields, ?checks, ?take⟩
  case fields =>
    intro image bits x
    refine ⟨fun n => ?_, fun f => ?_, field_eq_one_iff .., rfl, rfl, rfl, rfl, field_eq_one_iff ..⟩
    · have lane : x.lanes.get n = Lane.ofImage image n := Table.get_tableOf ..
      intro l
      rw [show l = _ from lane]
      exact ⟨field_eq_one_iff .., rfl, rfl, rfl, toNat_eq_field _, toNat_eq_field _, rfl, rfl⟩
    · have filter : x.filters.get f = Filter.ofImage image f := Table.get_tableOf ..
      intro y
      rw [show y = _ from filter]
      exact ⟨field_eq_one_iff .., rfl, rfl⟩
  case checks =>
    intro image clockSet blockBase x passes apart
    exact ⟨wordPasses_zero_iff .., rfl, wordPasses_two_iff .., wordPasses_three_iff .., wordPasses_filter_iff _ _ _ _, fun n =>
      ⟨wordPasses_sizes_iff .., wordPasses_inBase_iff .., wordPasses_outBase_iff .., wordPasses_limits_iff ..⟩⟩
  case take =>
    intro s image ended quiet passes
    refine ⟨fun stirring => State.takeSetup_busy stirring image, fun k calm word fails first => ?bad, fun calm passed => ?applied⟩
    case bad =>
      rw [State.takeSetup_fails calm (State.firstFailing_eq_some word fails first), BitVec.ofNat_toNat, BitVec.setWidth_eq]
      rfl
    case applied =>
      rw [State.takeSetup_passes calm (State.firstFailing_eq_none passed)]
      obtain ⟨held, port, agent, arbiter, keys, raised, applied, reads, drops, sets⟩ := s.applySetup_eq image
      rw [applied]
      intro t changed
      have slot : ∀ r, t.outSlot r = (s.outSlot r).releaseForSetup := fun r => by
        simp only [t, State.outSlot, Table.get_map]
      refine ⟨rfl, rfl, rfl, rfl, rfl, PartState.afterSetup_of_other, PartState.afterSetup_of_purging, rfl, rfl, rfl, rfl, rfl,
        sets.highestSerial, rfl, rfl, reads.answers, reads.unanswered, rfl, fun n => ?underruns, rfl, rfl, rfl, rfl,
        fun r => ?inbound, fun r unmarked => (slot r).trans (OutSlot.releaseForSetup_unmarked unmarked),
        fun r marked => (slot r).trans (OutSlot.releaseForSetup_marked marked), Job.fetchesFrame_iff, drops.jobs,
        drops.abandons, drops.keeps, fun set change => ?raised, fun other => ?unraised, fun set => ?set,
        fun unset => ?unset, rfl⟩
      case underruns => simp only [t, Table.get_map]
      case inbound => simp only [t, State.inSlot, Table.get_map]
      case raised => exact congrArg (· ||| 2) (sets.raises set change)
      case unraised => exact congrArg (· ||| 2) (sets.unraised other)
      case set => exact ⟨if_pos set, sets.evaluates set⟩
      case unset => exact ⟨if_neg (ne_true_of_eq_false unset), sets.unset unset⟩

end Sys2Proof.Machine
end

section
/-! PROOF of LaneRestartFreesTheLane: the release of the lane's slots, one context of a restart, and the pass over the
contexts. -/

namespace Sys2Proof.Machine

/-! ## What a restart makes of a context -/

/-- R56: the context without a binding in lane `n`, whose slots have been released. -/
def Context.leaveLane (n : Fin 8) (x : Context) : Context := { x with bound := x.bound.filter fun r => r.lane != n }

theorem Context.leaveLane_eq (n : Fin 8) (x : Context) :
    x.leaveLane n = if x.boundIn n then { x with bound := none } else x := by
  unfold leaveLane boundIn
  cases bound : x.bound with
  | none => cases x; cases bound; rfl
  | some r =>
    by_cases here : r.lane = n
    · simp [here]
    · cases x; cases bound; simp [here]

theorem Context.bound_leaveLane (n : Fin 8) (x : Context) (r : SlotRef) :
    (x.leaveLane n).bound = some r ↔ x.bound = some r ∧ r.lane ≠ n := by
  rw [leaveLane, Option.filter_eq_some_iff, bne_iff_ne]

/-- R86, R87: what a restart of lane `n` makes of an open context. -/
def Context.restarted (n : Fin 8) (time : Word) (x : Context) : Context :=
  if x.state.closable then
    if x.homeLane = n then x.close .abandoned time else if laneIn n x.lanes then x.trim n else x
  else x

theorem Context.boundIn_iff (n : Fin 8) (x : Context) : x.boundIn n = true ↔ ∃ r, x.bound = some r ∧ r.lane = n := by
  simp only [boundIn, Option.any_eq_true, beq_iff_eq]

/-- R87: a context with no slot of the lane bound loses the lane. -/
theorem Context.trim_unbound {n : Fin 8} {x : Context} (elsewhere : ∀ r, x.bound = some r → r.lane ≠ n) :
    x.trim n = { x with lanes := x.lanes &&& ~~~ laneBit n } := by
  have unbound : ¬ x.boundIn n = true := fun here => by
    obtain ⟨r, bound, lane⟩ := (x.boundIn_iff n).mp here
    exact elsewhere r bound lane
  rw [trim, if_neg unbound]

/-- R87, R72: a context with a slot of the lane bound loses the binding too. -/
theorem Context.trim_bound {n : Fin 8} {x : Context} {r : SlotRef} (bound : x.bound = some r) (lane : r.lane = n) :
    x.trim n = { x with
      lanes := x.lanes &&& ~~~ laneBit n
      bound := none
      accepted := x.accepted - 1
      state := if x.state = .challenging then (if ∃ a ∈ x.attempts, a.sentAt ≠ none then .awaiting else .keyed)
        else x.state } := by
  rw [trim, if_pos ((x.boundIn_iff n).mpr ⟨r, bound, lane⟩), State.dropBinding_eq]

theorem OutSlot.release_framed {x : OutSlot} {h : Header} (marked : x.mark = true) (frame : x.state.header = some h) :
    x.release = { x with state := .draining h } := by
  rw [OutSlot.release_marked marked, frame]

theorem OutSlot.release_frameless {x : OutSlot} (marked : x.mark = true) (frame : x.state.header = none) : x.release = x := by
  rw [OutSlot.release_marked marked, frame]

namespace State

/-! ## The release of the lane -/

/-- R55, R56, R133, R146, R28: a restart before it comes to the contexts. -/
def releasedLane (n : Fin 8) (s : State) : State :=
  ((((s.answerHeldInLane n).releaseLane n).dropCodes n).dropJobs (Job.fetchesLane n)).dropLaneReports n

theorem restartLane_eq (n : Fin 8) (s : State) :
    s.restartLane n = Table.ascending 24 (State.restartContext n) (s.releasedLane n) := rfl

/-- R55, R56, R51: the held read and the R-port once a read held in lane `n` has been answered. -/
structure AnswersLane (n : Fin 8) (s : State) (held : Option HeldRead) (port : PortState) : Prop where
  answers : ∀ q o, s.slots.held = some q → s.ports.r.access = some o → q.slot.lane = n →
    held = none ∧ port = ⟨none, some (.done (some (o.access.size.extract fillPattern)))⟩
  unanswered : (∀ q, s.slots.held = some q → q.slot.lane ≠ n) → held = s.slots.held ∧ port = s.ports.r

theorem answerHeldInLane_eq (n : Fin 8) (s : State) :
    ∃ held port, s.answerHeldInLane n = { s with slots := { s.slots with held := held }, ports := { s.ports with r := port } }
      ∧ AnswersLane n s held port := by
  by_cases here : ∃ q, s.slots.held = some q ∧ q.slot.lane = n
  · obtain ⟨q, waits, lane⟩ := here
    have any : s.answerHeldInLane n = s.answerAnyHeld := by
      simp only [answerHeldInLane, answerAnyHeld, waits, if_pos lane]
    obtain ⟨held, port, answered, filled, -⟩ := s.answerAnyHeld_eq
    exact ⟨held, port, any.trans answered, fun q o waits access _ => filled q o waits access,
      fun elsewhere => absurd lane (elsewhere q waits)⟩
  · have kept : s.answerHeldInLane n = s := by
      unfold answerHeldInLane
      split
      · next q waits => exact if_neg fun lane => here ⟨q, waits, lane⟩
      · rfl
    exact ⟨s.slots.held, s.ports.r, kept, fun q o waits _ lane => absurd ⟨q, waits, lane⟩ here, fun _ => ⟨rfl, rfl⟩⟩

theorem releasedLane_eq (n : Fin 8) (s : State) :
    ∃ held port agent arbiter,
      s.releasedLane n = { s with
        slots := ⟨s.slots.lanes.set n (s.slots.lanes.get n).restart, held⟩
        ports := { s.ports with r := port }
        engine := { s.engine with ready := s.engine.ready.filter fun h => !h.codesLane n }
        reports := s.reports.dropLane n
        agent := agent, arbiter := arbiter }
      ∧ AnswersLane n s held port ∧ DropsJobs (Job.fetchesLane n) s.agent s.arbiter agent arbiter := by
  obtain ⟨held, port, answered, answers⟩ := s.answerHeldInLane_eq n
  obtain ⟨agent, arbiter, dropped, drops⟩ :=
    (((s.answerHeldInLane n).releaseLane n).dropCodes n).dropJobs_eq (Job.fetchesLane n)
  refine ⟨held, port, agent, arbiter, ?_, answers, ?_⟩
  · rw [releasedLane, dropped, answered]; rfl
  · rw [answered] at drops; exact drops

theorem context_releasedLane (n : Fin 8) (s : State) (c : Fin 24) : (s.releasedLane n).context c = s.context c := by
  obtain ⟨_, _, _, _, released, -⟩ := s.releasedLane_eq n
  rw [released]; rfl

theorem controller_releasedLane (n : Fin 8) (s : State) : (s.releasedLane n).controller = s.controller := by
  obtain ⟨_, _, _, _, released, -⟩ := s.releasedLane_eq n
  rw [released]

/-- R56: the outbound slots of the lane are released, the others stay. -/
theorem outSlot_releasedLane (n : Fin 8) (s : State) (r : SlotRef) :
    (s.releasedLane n).outSlot r = if r.lane = n then (s.outSlot r).release else s.outSlot r := by
  obtain ⟨_, _, _, _, released, -⟩ := s.releasedLane_eq n
  rw [released]
  simp only [outSlot, Table.get_set]
  split
  · next here => rw [here]; exact Table.get_map ..
  · rfl

/-- R55: the inbound slots of the lane are FREE, the others stay. -/
theorem inSlot_releasedLane (n : Fin 8) (s : State) (r : SlotRef) :
    (s.releasedLane n).inSlot r = if r.lane = n then .free else s.inSlot r := by
  obtain ⟨_, _, _, _, released, -⟩ := s.releasedLane_eq n
  rw [released]
  simp only [inSlot, Table.get_set]
  split
  · exact Table.get_map ..
  · rfl

theorem underruns_releasedLane (n m : Fin 8) (s : State) :
    ((s.releasedLane n).slots.lanes.get m).underruns = (s.slots.lanes.get m).underruns := by
  obtain ⟨_, _, _, _, released, -⟩ := s.releasedLane_eq n
  rw [released, Table.get_set]
  split
  · next here => rw [here]; rfl
  · rfl

/-! ## One context -/

/-- R86: an open context whose home is lane `n`, not closed already. -/
def HomeIn (s : State) (n : Fin 8) (c : Fin 24) (x : Context) : Prop :=
  s.context c = some x ∧ x.homeLane = n ∧ x.state ∉ [ContextState.closing, .reporting]

theorem HomeIn.context {s : State} {n : Fin 8} {c : Fin 24} {x : Context} (home : s.HomeIn n c x) : s.context c = some x :=
  home.1

theorem HomeIn.undecided {s : State} {n : Fin 8} {c : Fin 24} {x : Context} (home : s.HomeIn n c x) :
    x.state ∉ [ContextState.closing, .reporting] := home.2.2

theorem HomeIn.closable {s : State} {n : Fin 8} {c : Fin 24} {x : Context} (home : s.HomeIn n c x) :
    x.state.closable = true := (ContextState.closable_iff _).mpr home.undecided

theorem HomeIn.restarted {s : State} {n : Fin 8} {c : Fin 24} {x : Context} (home : s.HomeIn n c x) (time : Word) :
    x.restarted n time = x.close .abandoned time := by
  have closable := home.closable
  obtain ⟨-, lane, -⟩ := home
  rw [Context.restarted, if_pos closable, if_pos lane]

/-- A context replaced by itself. -/
theorem setContext_context {c : Fin 24} {x : Option Context} {s : State} (same : s.context c = x) : s.setContext c x = s := by
  subst same
  rw [setContext, context, Table.set_get]

/-- R86: a home context closes. -/
theorem restartContext_home {s : State} {n : Fin 8} {c : Fin 24} {x : Context} (home : s.HomeIn n c x) :
    s.restartContext n c = (s.setContext c (some (x.leaveLane n))).close .abandoned c := by
  have closable := home.closable
  obtain ⟨context, lane, -⟩ := home
  simp only [restartContext, context, if_pos closable, if_pos lane]
  rw [Context.leaveLane_eq]
  split
  · rfl
  · rw [setContext_context context]

/-- R87: of another context, only its own record changes. -/
theorem restartContext_other {s : State} {n : Fin 8} {c : Fin 24} (other : ∀ x, ¬ s.HomeIn n c x) :
    s.restartContext n c = s.setContext c ((s.context c).map (Context.restarted n s.controller.time)) := by
  cases context : s.context c with
  | none =>
    rw [Option.map_none, setContext_context context]
    simp only [restartContext, context]
  | some x =>
    rw [Option.map_some]
    by_cases closable : x.state.closable = true
    · have away : ¬ x.homeLane = n := fun home => other x ⟨context, home, (ContextState.closable_iff _).mp closable⟩
      simp only [restartContext, Context.restarted, context, if_pos closable, if_neg away]
      split
      · rfl
      · rw [setContext_context context]
    · simp only [restartContext, Context.restarted, context, if_neg closable]
      rw [setContext_context context]

theorem context_restartContext (n : Fin 8) (c d : Fin 24) (s : State) :
    (s.restartContext n c).context d =
      if d = c then (s.context c).map (Context.restarted n s.controller.time) else s.context d := by
  by_cases home : ∃ x, s.HomeIn n c x
  · obtain ⟨x, home⟩ := home
    rw [restartContext_home home, context_close (x := x.leaveLane n) .abandoned (context_setContext_self ..) home.closable,
      home.context,
      Option.map_some, home.restarted]
    split
    · rfl
    · next away => rw [context_setContext, if_neg away]
  · rw [restartContext_other (not_exists.mp home), context_setContext]

/-! ## The pass over the contexts -/

/-- What holds when a pass over the contexts begins, and is kept by each step at a context that is still as it was, holds at
its end. -/
theorem ascending_fresh {f : Fin 24 → State → State} {P : State → Prop} {s : State}
    (others : ∀ c t d, d ≠ c → (f c t).context d = t.context d) (start : P s)
    (step : ∀ c t, t.context c = s.context c → P t → P (f c t)) : P (Table.ascending 24 f s) := by
  have pass : ∀ (l : List (Fin 24)) (t : State), l.Nodup → (∀ c ∈ l, t.context c = s.context c) → P t →
      P (l.foldl (fun t c => f c t) t) := by
    intro l
    induction l with
    | nil => exact fun _ _ _ kept => kept
    | cons c l ih =>
      intro t nodup fresh kept
      obtain ⟨out, nodup⟩ := List.nodup_cons.mp nodup
      refine ih (f c t) nodup (fun d member => ?_) (step c t (fresh c List.mem_cons_self) kept)
      rw [others c t d fun same => out (same ▸ member)]
      exact fresh d (List.mem_cons_of_mem _ member)
  exact pass _ s (List.nodup_finRange 24) (fun _ _ => rfl) start

theorem context_restartContext_ne (n : Fin 8) (c : Fin 24) (s : State) (d : Fin 24) (away : d ≠ c) :
    (s.restartContext n c).context d = s.context d := by
  rw [context_restartContext, if_neg away]

/-- R86, R87: every context is as the restart makes it. -/
theorem context_ascending_restart (n : Fin 8) (s : State) (c : Fin 24) :
    (Table.ascending 24 (restartContext n) s).context c = (s.context c).map (Context.restarted n s.controller.time) := by
  refine Table.ascending_each (P := fun t => t.controller = s.controller) (f := restartContext n) (read := State.context)
    (g := fun _ y => y.map (Context.restarted n s.controller.time))
    (fun d t same => (work_restartContext n d t).controller.trans same) (fun d t same e => ?_) s rfl c
  rw [context_restartContext, same]

theorem context_restartLane (n : Fin 8) (s : State) (c : Fin 24) :
    (s.restartLane n).context c = (s.context c).map (Context.restarted n s.controller.time) := by
  rw [restartLane_eq, context_ascending_restart, context_releasedLane, controller_releasedLane]

/-- R86, R87: from `s` to `t` some home contexts of lane `n` have been closed, and of others only the record has changed. -/
structure Restarts (n : Fin 8) (s t : State) : Prop where
  spoils : Spoils (fun r => r.lane ≠ n ∧ ∃ c x, s.HomeIn n c x ∧ x.bound = some r) s t
  recent : t.contexts.recent = s.contexts.recent
  abandoned : t.contexts.abandoned = s.contexts.abandoned
  header : ∀ q, (t.outSlot q).state.header = (s.outSlot q).state.header

theorem Restarts.refl (n : Fin 8) (s : State) : Restarts n s s := ⟨Spoils.refl _ s, rfl, rfl, fun _ => rfl⟩

theorem Restarts.step {n : Fin 8} {s t : State} {c : Fin 24} (restarts : Restarts n s t) (fresh : t.context c = s.context c) :
    Restarts n s (t.restartContext n c) := by
  by_cases home : ∃ x, t.HomeIn n c x
  · obtain ⟨x, home⟩ := home
    rw [restartContext_home home]
    have unbound := spoils_setContext (fun r => r.lane ≠ n ∧ ∃ c x, s.HomeIn n c x ∧ x.bound = some r) c
      (some (x.leaveLane n)) t
    have contexts := contexts_close .abandoned c (t.setContext c (some (x.leaveLane n)))
    refine ⟨(restarts.spoils.trans unbound).trans ((spoils_close .abandoned c _).mono ?_), ?_, ?_,
      fun q => (header_close ..).trans (restarts.header q)⟩
    · rintro r ⟨y, context, bound⟩
      rw [context_setContext_self] at context
      cases context
      obtain ⟨bound, away⟩ := (x.bound_leaveLane n r).mp bound
      exact ⟨away, c, x, ⟨fresh ▸ home.context, home.2⟩, bound⟩
    · rw [contexts]; exact restarts.recent
    · rw [contexts]; exact restarts.abandoned
  · rw [restartContext_other (not_exists.mp home)]
    exact ⟨restarts.spoils.trans (spoils_setContext ..), restarts.recent, restarts.abandoned, restarts.header⟩

/-- What the contexts' part of a restart begins with, and each close of a home context and each change of another's record keeps,
it ends with. -/
theorem restart_induction {P : State → Prop} {n : Fin 8} {s : State} (start : P s)
    (closes : ∀ t c x, Restarts n s t → t.context c = s.context c → t.HomeIn n c x → P t → P (t.restartContext n c))
    (records : ∀ t c y, (∀ x, ¬ s.HomeIn n c x) → P t → P (t.setContext c y)) :
    Restarts n s (Table.ascending 24 (restartContext n) s) ∧ P (Table.ascending 24 (restartContext n) s) := by
  refine ascending_fresh (P := fun t => Restarts n s t ∧ P t) (context_restartContext_ne n) ⟨Restarts.refl n s, start⟩ ?_
  rintro c t fresh ⟨restarts, kept⟩
  refine ⟨restarts.step fresh, ?_⟩
  by_cases home : ∃ x, t.HomeIn n c x
  · obtain ⟨x, home⟩ := home
    exact closes t c x restarts fresh home kept
  · rw [restartContext_other (not_exists.mp home)]
    exact records t c _ (fun x there => home ⟨x, fresh.trans there.context, there.2⟩) kept

theorem restarts_ascending (n : Fin 8) (s : State) : Restarts n s (Table.ascending 24 (restartContext n) s) :=
  (restart_induction (P := fun _ => True) trivial (fun _ _ _ _ _ _ _ => trivial) fun _ _ _ _ _ => trivial).1

/-- A closed context is not as it was. -/
theorem HomeIn.restarted_ne {s : State} {n : Fin 8} {c : Fin 24} {x : Context} (home : s.HomeIn n c x) (time : Word) :
    some (x.restarted n time) ≠ some x := fun same => by
  rw [home.restarted] at same
  exact home.undecided (Option.some.inj same ▸ state_close ..)

theorem context_ascending_ne {n : Fin 8} {s : State} {c : Fin 24} {x : Context} (home : s.HomeIn n c x) :
    (Table.ascending 24 (restartContext n) s).context c ≠ some x := by
  rw [context_ascending_restart, home.context]
  exact home.restarted_ne _

/-- A record that changes is not a home context's. -/
theorem context_setContext_of_home {n : Fin 8} {s : State} {c d : Fin 24} {x : Context} (home : s.HomeIn n c x)
    (other : ∀ y, ¬ s.HomeIn n d y) (t : State) (y : Option Context) : (t.setContext d y).context c = t.context c := by
  rw [context_setContext, if_neg]
  rintro rfl
  exact other x home

/-- R86, R53: a slot of another lane, bound to one home context alone, is SPOILED with that context's notice. -/
theorem outSlot_ascending_bound {n : Fin 8} {s : State} {c : Fin 24} {x : Context} {r : SlotRef} {h : Header}
    (home : s.HomeIn n c x) (bound : x.bound = some r) (away : r.lane ≠ n)
    (alone : ∀ d y, s.context d = some y → y.bound = some r → d = c) (frame : (s.outSlot r).state.header = some h) :
    (Table.ascending 24 (restartContext n) s).outSlot r = s.slotOfClosed c x r h := by
  have pass := restart_induction (n := n) (s := s)
    (P := fun t => (t.context c = some x → t.outSlot r = s.outSlot r)
      ∧ (t.context c ≠ some x → t.outSlot r = s.slotOfClosed c x r h))
    ⟨fun _ => rfl, fun closed => absurd home.context closed⟩ ?closes ?records
  · obtain ⟨-, -, spoiled⟩ := pass
    exact spoiled (context_ascending_ne home)
  case closes =>
    intro t d y restarts fresh here ⟨before, after⟩
    have context := context_restartContext n d c t
    by_cases same : c = d
    · subst same
      obtain rfl : y = x := Option.some.inj (here.context.symm.trans (fresh.trans home.context))
      have slot := before here.context
      have notice : t.notice .closedTransaction r (some c) (some y.identity) none
          = s.notice .closedTransaction r (some c) (some y.identity) none := by
        rw [notice, notice, restarts.spoils.controller]
      rw [if_pos rfl, here.context, Option.map_some] at context
      rw [context]
      refine ⟨fun still => absurd still (here.restarted_ne _), fun _ => ?_⟩
      have spoiled := outSlot_close_bound (s := t.setContext c (some (y.leaveLane n))) (x := y.leaveLane n) .abandoned
        (context_setContext_self ..) here.closable ((y.bound_leaveLane n r).mpr ⟨bound, away⟩)
        (show (t.outSlot r).state.header = some h from slot ▸ frame)
      rw [restartContext_home here, spoiled, slotOfClosed, ← notice, ← slot]
      rfl
    · rw [if_neg same] at context
      have kept : (t.restartContext n d).outSlot r = t.outSlot r := by
        rw [restartContext_home here]
        refine (spoils_close .abandoned d (t.setContext d (some (y.leaveLane n)))).outSlot r ?_
        rintro ⟨z, there, bound'⟩
        rw [context_setContext_self] at there
        cases there
        exact same (alone d y (fresh ▸ here.context) ((y.bound_leaveLane n r).mp bound').1).symm
      rw [context, kept]
      exact ⟨before, after⟩
  case records =>
    intro t d y other kept
    rw [context_setContext_of_home home other]
    exact kept

/-- R86, R53, R51: a read held on a slot of another lane, bound to a home context, has its fill pattern. -/
theorem answered_ascending {n : Fin 8} {s : State} {c : Fin 24} {x : Context} {q : HeldRead} {o : Outstanding}
    (home : s.HomeIn n c x) (bound : x.bound = some q.slot) (away : q.slot.lane ≠ n)
    (frame : (s.outSlot q.slot).state.header ≠ none) (held : s.slots.held = some q) (access : s.ports.r.access = some o) :
    (Table.ascending 24 (restartContext n) s).slots.held = none
      ∧ (Table.ascending 24 (restartContext n) s).ports.r
        = ⟨none, some (.done (some (o.access.size.extract fillPattern)))⟩ := by
  have pass := restart_induction (n := n) (s := s)
    (P := fun t => (t.context c = some x ∧ t.slots.held = some q ∧ t.ports.r = s.ports.r)
      ∨ (t.slots.held = none ∧ t.ports.r = ⟨none, some (.done (some (o.access.size.extract fillPattern)))⟩))
    (.inl ⟨home.context, held, rfl⟩) ?closes ?records
  · rcases pass.2 with ⟨still, -⟩ | answered
    · exact absurd still (context_ascending_ne home)
    · exact answered
  case closes =>
    intro t d y restarts fresh here kept
    have closing := context_setContext_self d (some (y.leaveLane n)) t
    rcases kept with ⟨context, waiting, port⟩ | ⟨answered, port⟩
    · by_cases named : (y.leaveLane n).bound = some q.slot
      · have frame' : (t.outSlot q.slot).state.header ≠ none := by rw [restarts.header]; exact frame
        rw [restartContext_home here]
        exact .inr (answered_close .abandoned closing here.closable named frame' waiting (port ▸ access))
      · have elsewhere : c ≠ d := by
          rintro rfl
          obtain rfl : x = y := Option.some.inj (context.symm.trans here.context)
          exact named ((x.bound_leaveLane n q.slot).mpr ⟨bound, away⟩)
        have context' : (t.restartContext n d).context c = some x := by
          rw [context_restartContext_ne n d t c elsewhere, context]
        rw [restartContext_home here] at context' ⊢
        obtain ⟨waiting', port'⟩ := unanswered_close .abandoned closing here.closable fun p there => by
          rw [show t.slots.held = some p from there] at waiting; cases waiting; exact named
        exact .inl ⟨context', waiting'.trans waiting, port'.trans port⟩
    · rw [restartContext_home here]
      obtain ⟨answered', port'⟩ := unanswered_close .abandoned closing here.closable fun p there => by
        rw [show t.slots.held = some p from there] at answered; cases answered
      exact .inr ⟨answered'.trans answered, port'.trans port⟩
  case records =>
    intro t d y other kept
    rw [context_setContext_of_home home other]
    exact kept

/-- R86: a read held elsewhere stays. -/
theorem unanswered_ascending {n : Fin 8} {s : State}
    (elsewhere : ∀ c x q, s.HomeIn n c x → s.slots.held = some q → x.bound ≠ some q.slot) :
    (Table.ascending 24 (restartContext n) s).slots.held = s.slots.held
      ∧ (Table.ascending 24 (restartContext n) s).ports.r = s.ports.r := by
  refine (restart_induction (P := fun t => t.slots.held = s.slots.held ∧ t.ports.r = s.ports.r) ⟨rfl, rfl⟩ ?closes
    fun _ _ _ _ kept => kept).2
  rintro t c x - fresh here ⟨held, port⟩
  rw [restartContext_home here]
  obtain ⟨held', port'⟩ := unanswered_close .abandoned (context_setContext_self c (some (x.leaveLane n)) t) here.closable
    fun q there named => elsewhere c x q ⟨fresh ▸ here.context, here.2⟩ (held.symm.trans there)
      ((x.bound_leaveLane n q.slot).mp named).1
  exact ⟨held'.trans held, port'.trans port⟩

/-- R86, R53: what the home contexts of a lane join to the pending list. -/
def joinsRestarted (s : State) (n : Fin 8) (c : Fin 24) (x : Context) : List ReportHolder :=
  if x.homeLane = n ∧ x.state ∉ [ContextState.closing, .reporting] then
    s.boundHolder (x.leaveLane n) ++ if x.mark then [] else [.context c]
  else []

/-- R86: what the pass puts on the pending list and takes from the ready list. -/
theorem lists_ascending_restart (n : Fin 8) (s : State) :
    (Table.ascending 24 (restartContext n) s).reports
        = { s.reports with waiting := s.reports.waiting ++ s.eachContext (s.joinsRestarted n) }
      ∧ ∃ keep : Holder → Bool,
        (Table.ascending 24 (restartContext n) s).engine = { s.engine with ready := s.engine.ready.filter keep }
        ∧ ∀ h, keep h = true ↔ ∀ c x, s.context c = some x → ¬ (s.HomeIn n c x ∧ s.CancelledBy c (x.leaveLane n) h) := by
  refine lists_ascending (f := restartContext n) (joins := s.joinsRestarted n)
    (drops := fun c x h => s.HomeIn n c x ∧ s.CancelledBy c (x.leaveLane n) h) s fun c t same headers => ?_
  refine ⟨fun d away => context_restartContext_ne n c t d away, ?_⟩
  by_cases home : ∃ x, t.HomeIn n c x
  · obtain ⟨x, home⟩ := home
    have was : s.HomeIn n c x := ⟨same ▸ home.context, home.2⟩
    have closing := context_setContext_self c (some (x.leaveLane n)) t
    rw [restartContext_home home]
    refine ⟨fun q => header_close .., ?_, ?_⟩
    · have joined : s.joinedBy (s.joinsRestarted n) c
          = s.boundHolder (x.leaveLane n) ++ if x.mark then [] else [.context c] := by
        rw [joinedBy, was.context]
        exact if_pos was.2
      rw [reports_close .abandoned closing home.closable, joined,
        boundHolder_congr (s := s) (t := t.setContext c (some (x.leaveLane n))) headers]
      rfl
    · obtain ⟨keep, engine, keeps⟩ := engine_close .abandoned closing home.closable
      refine ⟨keep, engine, fun h => ?_⟩
      rw [keeps, was.context]
      have named : (t.setContext c (some (x.leaveLane n))).cancelled (fun d y => d = c ∧ y = x.leaveLane n) h
          ↔ s.CancelledBy c (x.leaveLane n) h := by
        have headers' : ∀ q, ((t.setContext c (some (x.leaveLane n))).outSlot q).state.header
            = (s.outSlot q).state.header := headers
        unfold cancelled CancelledBy
        simp only [headers']
        constructor
        · rintro ⟨_, _, ⟨rfl, rfl⟩, drop⟩; exact drop
        · exact fun drop => ⟨c, _, ⟨rfl, rfl⟩, drop⟩
      rw [named]
      constructor
      · rintro spared y e ⟨-, drop⟩; cases e; exact spared drop
      · exact fun spared drop => spared x rfl ⟨was, drop⟩
  · have other : ∀ x, ¬ s.HomeIn n c x := fun x there => home ⟨x, same.trans there.context, there.2⟩
    have joined : s.joinedBy (s.joinsRestarted n) c = [] := by
      unfold joinedBy
      split
      · rfl
      · next x context => exact if_neg fun there => other x ⟨context, there⟩
    rw [restartContext_other (not_exists.mp home)]
    refine ⟨fun _ => rfl, by rw [joined, List.append_nil]; rfl, fun _ => true, ?_, fun h => ?_⟩
    · rw [List.filter_true]; rfl
    · exact ⟨fun _ x _ drop => other x drop.1, fun _ => rfl⟩

/-! ## The restart as a whole -/

theorem port_c (s : State) : s.port .c = s.ports.c := rfl

theorem port_r (s : State) : s.port .r = s.ports.r := rfl

theorem homeIn_releasedLane_iff (n : Fin 8) (s : State) (c : Fin 24) (x : Context) :
    (s.releasedLane n).HomeIn n c x ↔ s.HomeIn n c x := by
  rw [HomeIn, HomeIn, context_releasedLane]

theorem restarts_restartLane (n : Fin 8) (s : State) : Restarts n (s.releasedLane n) (s.restartLane n) :=
  restarts_ascending n (s.releasedLane n)

theorem inSlot_restartLane (n : Fin 8) (s : State) (r : SlotRef) :
    (s.restartLane n).inSlot r = if r.lane = n then .free else s.inSlot r := by
  rw [(s.restarts_restartLane n).spoils.inSlot, inSlot_releasedLane]

/-- R56: the lane's own outbound slots are released, and no context's close touches them. -/
theorem outSlot_restartLane_own {n : Fin 8} {r : SlotRef} (own : r.lane = n) (s : State) :
    (s.restartLane n).outSlot r = (s.outSlot r).release := by
  rw [(s.restarts_restartLane n).spoils.outSlot r fun away => away.1 own, outSlot_releasedLane, if_pos own]

theorem outSlot_restartLane_other {n : Fin 8} {s : State} {r : SlotRef} (away : r.lane ≠ n)
    (unbound : ∀ c x, s.HomeIn n c x → x.bound ≠ some r) : (s.restartLane n).outSlot r = s.outSlot r := by
  rw [(s.restarts_restartLane n).spoils.outSlot r ?_, outSlot_releasedLane, if_neg away]
  rintro ⟨-, c, x, home, bound⟩
  exact unbound c x ((homeIn_releasedLane_iff ..).mp home) bound

theorem outSlot_restartLane_bound {n : Fin 8} {s : State} {c : Fin 24} {x : Context} {r : SlotRef} {h : Header}
    (home : s.HomeIn n c x) (bound : x.bound = some r) (away : r.lane ≠ n)
    (alone : ∀ d y, s.context d = some y → y.bound = some r → d = c) (frame : (s.outSlot r).state.header = some h) :
    (s.restartLane n).outSlot r = s.slotOfClosed c x r h := by
  have slot : (s.releasedLane n).outSlot r = s.outSlot r := by rw [outSlot_releasedLane, if_neg away]
  rw [restartLane_eq, outSlot_ascending_bound ((homeIn_releasedLane_iff ..).mpr home) bound away
    (fun d y context => alone d y ((context_releasedLane n s d).symm.trans context)) (slot ▸ frame), slotOfClosed, slot, notice,
    controller_releasedLane]
  rfl

theorem underruns_restartLane (n m : Fin 8) (s : State) :
    ((s.restartLane n).slots.lanes.get m).underruns = (s.slots.lanes.get m).underruns := by
  rw [(s.restarts_restartLane n).spoils.underruns, underruns_releasedLane]

/-- R28: the lane's fetches leave the agent. -/
theorem drops_restartLane (n : Fin 8) (s : State) :
    DropsJobs (Job.fetchesLane n) s.agent s.arbiter (s.restartLane n).agent (s.restartLane n).arbiter := by
  obtain ⟨_, _, _, _, released, -, drops⟩ := s.releasedLane_eq n
  obtain ⟨spoils, -⟩ := s.restarts_restartLane n
  rw [spoils.agent, spoils.arbiter, released]
  exact drops

/-- R55, R56, R86, R51: a read held in the lane, or on a slot bound to a home context, has its fill pattern. -/
theorem answered_restartLane {n : Fin 8} {s : State} {q : HeldRead} {o : Outstanding} (held : s.slots.held = some q)
    (access : s.ports.r.access = some o)
    (named : q.slot.lane = n
      ∨ ((s.outSlot q.slot).state.header ≠ none ∧ ∃ c x, s.HomeIn n c x ∧ x.bound = some q.slot)) :
    (s.restartLane n).slots.held = none
      ∧ (s.restartLane n).port .r = ⟨none, some (.done (some (o.access.size.extract fillPattern)))⟩ := by
  obtain ⟨held', port, agent, arbiter, released, reads, -⟩ := s.releasedLane_eq n
  rw [port_r, restartLane_eq]
  by_cases own : q.slot.lane = n
  · obtain ⟨none, answered⟩ := reads.answers q o held access own
    obtain ⟨waits, same⟩ := unanswered_ascending (n := n) (s := s.releasedLane n) fun c x p _ there => by
      rw [released, none] at there; cases there
    rw [waits, same, released]
    exact ⟨none, answered⟩
  · obtain ⟨frame, c, x, home, bound⟩ := named.resolve_left own
    obtain ⟨waits, same⟩ := reads.unanswered fun p there => by rw [held] at there; cases there; exact own
    refine answered_ascending ((homeIn_releasedLane_iff ..).mpr home) bound own ?_ ?_ ?_
    · rw [outSlot_releasedLane, if_neg own]; exact frame
    · rw [released]; exact waits.trans held
    · rw [released]; exact same ▸ access

theorem unanswered_restartLane {n : Fin 8} {s : State}
    (elsewhere : ∀ q, s.slots.held = some q → q.slot.lane ≠ n ∧ ∀ c x, s.HomeIn n c x → x.bound ≠ some q.slot) :
    (s.restartLane n).slots.held = s.slots.held ∧ (s.restartLane n).port .r = s.port .r := by
  obtain ⟨held', port, agent, arbiter, released, reads, -⟩ := s.releasedLane_eq n
  obtain ⟨waits, same⟩ := reads.unanswered fun q held => (elsewhere q held).1
  have held : (s.releasedLane n).slots.held = s.slots.held := by rw [released]; exact waits
  have read : (s.releasedLane n).ports.r = s.ports.r := by rw [released]; exact same
  obtain ⟨waits', same'⟩ := unanswered_ascending (n := n) (s := s.releasedLane n) fun c x q home there =>
    (elsewhere q (held.symm.trans there)).2 c x ((homeIn_releasedLane_iff ..).mp home)
  rw [port_r, restartLane_eq]
  exact ⟨waits'.trans held, same'.trans read⟩

theorem boundHolder_of_unbound {x : Context} (unbound : x.bound = none) (s : State) : s.boundHolder x = [] := by
  simp only [boundHolder, unbound]

theorem boundHolder_of_bound {x : Context} {r : SlotRef} (bound : x.bound = some r) (s : State) :
    s.boundHolder x = if (s.outSlot r).state.header = none then [] else [.outbound r] := by
  simp only [boundHolder, bound]

theorem restartLane_leaves (n : Fin 8) (s : State) :
    (s.restartLane n).load = s.load ∧ (s.restartLane n).port .c = s.port .c
      ∧ (s.restartLane n).contexts.recent = s.contexts.recent
      ∧ (s.restartLane n).contexts.abandoned = s.contexts.abandoned := by
  obtain ⟨_, _, _, _, released, -⟩ := s.releasedLane_eq n
  obtain ⟨spoils, recent, abandoned, -⟩ := s.restarts_restartLane n
  rw [port_c, spoils.load, spoils.portC, recent, abandoned, released]
  exact ⟨rfl, rfl, rfl, rfl⟩

/-- R53, R56: of a home context's bound slot, one in the lane itself is no holder any more. -/
theorem boundHolder_releasedLane (n : Fin 8) (s : State) (x : Context) :
    (s.releasedLane n).boundHolder (x.leaveLane n) = (s.boundHolder x).filter fun h => !h.inLane n := by
  cases bound : x.bound with
  | none =>
    have unbound : (x.leaveLane n).bound = none := by rw [Context.leaveLane, bound]; rfl
    rw [boundHolder_of_unbound unbound, boundHolder_of_unbound bound]
    rfl
  | some r =>
    rw [boundHolder_of_bound bound]
    by_cases own : r.lane = n
    · have unbound : (x.leaveLane n).bound = none := by
        rw [Context.leaveLane, bound, Option.filter_some, if_neg (by simp [own])]
      rw [boundHolder_of_unbound unbound]
      split <;> simp [ReportHolder.inLane, own]
    · rw [boundHolder_of_bound ((x.bound_leaveLane n r).mpr ⟨bound, own⟩), outSlot_releasedLane, if_neg own]
      split <;> simp [ReportHolder.inLane, own]

theorem reports_restartLane (n : Fin 8) (s : State) :
    (s.restartLane n).reports = { s.reports.dropLane n with
      waiting := s.reports.waiting.filter (fun h => !h.inLane n) ++ s.eachContext fun c x =>
        if x.homeLane = n ∧ x.state ∉ [ContextState.closing, .reporting] then
          (s.boundHolder x).filter (fun h => !h.inLane n) ++ if x.mark then [] else [.context c]
        else [] } := by
  obtain ⟨_, _, _, _, released, -⟩ := s.releasedLane_eq n
  obtain ⟨reports, -⟩ := (s.releasedLane n).lists_ascending_restart n
  have dropped : (s.releasedLane n).reports = s.reports.dropLane n := by rw [released]
  have joined : (s.releasedLane n).eachContext ((s.releasedLane n).joinsRestarted n) = s.eachContext fun c x =>
      if x.homeLane = n ∧ x.state ∉ [ContextState.closing, .reporting] then
        (s.boundHolder x).filter (fun h => !h.inLane n) ++ if x.mark then [] else [.context c]
      else [] := by
    unfold eachContext joinedBy joinsRestarted
    simp only [context_releasedLane, boundHolder_releasedLane]
  rw [restartLane_eq, reports, joined, dropped]
  rfl

/-- R142, R146: the write of a record whose holder is in the lane goes on without its entry. -/
theorem write_dropLane_orphan {n : Fin 8} {p : Reports} {h : ReportHolder} {rest : List ReportHolder}
    (head : p.waiting = h :: rest) (own : h.inLane n = true) (writing : p.write = .writing) :
    (p.dropLane n).write = .orphan := by
  simp [Reports.dropLane, head, own, writing]

theorem write_dropLane_other {n : Fin 8} {p : Reports}
    (other : (∀ h rest, p.waiting = h :: rest → h.inLane n = false) ∨ p.write ≠ .writing) :
    (p.dropLane n).write = p.write := by
  refine if_neg ?_
  rintro ⟨writing, head⟩
  rcases other with away | idle
  · cases waiting : p.waiting with
    | nil => rw [waiting] at head; cases head
    | cons h rest => rw [waiting, List.head?_cons, Option.map_some, away h rest waiting] at head; cases head
  · exact idle writing

/-- R133, R53: in another lane, what a close cancels is what it would cancel had the lane not been released. -/
theorem cancelledBy_releasedLane_iff {n : Fin 8} {h : Holder} (away : h.codesLane n = false) (s : State) (c : Fin 24)
    (x : Context) : (s.releasedLane n).CancelledBy c (x.leaveLane n) h ↔ s.CancelledBy c x h := by
  have mark : (x.leaveLane n).mark = x.mark := rfl
  unfold CancelledBy
  rw [mark]
  refine or_congr_right (exists_congr fun r => ?_)
  rw [x.bound_leaveLane n r]
  constructor
  · rintro ⟨⟨bound, other⟩, frame, named⟩
    rw [outSlot_releasedLane, if_neg other] at frame
    exact ⟨bound, frame, named⟩
  · rintro ⟨bound, frame, rfl⟩
    have other : r.lane ≠ n := beq_eq_false_iff_ne.mp away
    exact ⟨⟨bound, other⟩, by rw [outSlot_releasedLane, if_neg other]; exact frame, rfl⟩

/-- R133: who stays on the ready list. -/
theorem engine_restartLane (n : Fin 8) (s : State) :
    ∃ keep : Holder → Bool, (s.restartLane n).engine = { s.engine with ready := s.engine.ready.filter keep }
      ∧ ∀ h, keep h = true ↔ h.codesLane n = false ∧ ¬ s.cancelled (s.HomeIn n) h := by
  obtain ⟨_, _, _, _, released, -⟩ := s.releasedLane_eq n
  obtain ⟨-, keep, engine, keeps⟩ := (s.releasedLane n).lists_ascending_restart n
  refine ⟨fun h => keep h && !h.codesLane n, ?_, fun h => ?_⟩
  · rw [restartLane_eq, engine, released, List.filter_filter]
  · rw [Bool.and_eq_true, keeps, Bool.not_eq_true', and_comm]
    refine and_congr_right fun away => ?_
    simp only [homeIn_releasedLane_iff, cancelledBy_releasedLane_iff away]
    constructor
    · rintro spared ⟨c, x, home, drop⟩
      exact spared c x ((context_releasedLane n s c).trans home.context) ⟨home, drop⟩
    · rintro spared c x - ⟨home, drop⟩
      exact spared ⟨c, x, home, drop⟩

/-! ## The other contexts -/

theorem context_restartLane_of {n : Fin 8} {s : State} {c : Fin 24} {x : Context} (context : s.context c = some x) :
    (s.restartLane n).context c = some (x.restarted n s.controller.time) := by
  rw [context_restartLane, context, Option.map_some]

end State

/-- R87: an open context of another home loses the lane. -/
theorem Context.restarted_trimmed {n : Fin 8} {x : Context} (undecided : x.state ∉ [ContextState.closing, .reporting])
    (home : x.homeLane ≠ n) (lane : laneIn n x.lanes = true) (time : Word) : x.restarted n time = x.trim n := by
  rw [restarted, if_pos ((ContextState.closable_iff _).mpr undecided), if_neg home, if_pos lane]

theorem Context.restarted_elsewhere {n : Fin 8} {x : Context} (home : x.homeLane ≠ n) (lane : laneIn n x.lanes = false)
    (time : Word) : x.restarted n time = x := by
  rw [restarted, if_neg home, lane]
  exact ite_self _

theorem Context.restarted_decided {n : Fin 8} {x : Context} (decided : x.state ∈ [ContextState.closing, .reporting])
    (time : Word) : x.restarted n time = x :=
  if_neg fun closable => (ContextState.closable_iff _).mp closable decided

namespace State

/-- R151, R169: a command that is done reports, and a DORMANT part is RUNNING. -/
theorem rouse_result (code : BitVec 8) (s : State) : (s.result code .done 0).rouse = { s with
    control := { s.control with result := ⟨code, .done, 0⟩, raised := s.control.raised ||| 2 }
    controller := s.controller.roused } := by
  rw [rouse_eq]; rfl

/-- R150, R158, R169: an accepted LANE_RESTART is answered, carried out and reported. -/
theorem writeCommand_laneRestart {s u : State} {operand : BitVec 24} (hears : s.hears .c)
    (accepted : s.declines 3 operand = none)
    (restarted : s.commandAnswered.restartLane (Fin.ofNat 8 operand.toNat) = u) :
    s.writeCommand 3 operand = ({ u with
      control := { s.control with result := ⟨3, .done, 0⟩, raised := s.control.raised ||| 2 }
      controller := s.controller.roused } : State).settle := by
  have work : s.commandAnswered.Work u := restarted ▸ work_restartLane ..
  have control : u.control = s.control := work.control
  have controller : u.controller = s.controller := work.controller
  rw [writeCommand_accepted (c := .laneRestart) hears rfl (by decide) accepted, carryOut, restarted, rouse_result, control,
    controller]

end State

/-- Settles O45, clause by clause, at the state in which the write has been answered. -/
theorem laneRestartFreesTheLane : Obligations.LaneRestartFreesTheLane := by
  unfold Obligations.LaneRestartFreesTheLane
  refine ⟨?names, ?restart⟩
  case names =>
    intro n ring r c place record
    exact ⟨beq_eq_decide .., rfl, rfl, beq_eq_decide .., rfl, rfl, rfl, beq_eq_decide .., beq_eq_decide .., rfl⟩
  case restart =>
    intro s operand hears accepted
    have lane : operand.toNat < 8 := of_decide_eq_true (State.operandInRange_of_accepted (c := .laneRestart) accepted rfl)
    generalize index : Fin.ofNat 8 operand.toNat = n
    generalize restarted : s.commandAnswered.restartLane n = u
    have ends := State.writeCommand_laneRestart hears accepted (index ▸ restarted)
    refine ⟨n, u, index ▸ Nat.mod_eq_of_lt lane, ?_⟩
    intro abandoned
    subst restarted
    have work := State.work_restartLane n s.commandAnswered
    have reports := s.commandAnswered.reports_restartLane n
    obtain ⟨jobs, abandons, keeps⟩ := s.commandAnswered.drops_restartLane n
    obtain ⟨load, portC, recent, count⟩ := s.commandAnswered.restartLane_leaves n
    have inbound := s.commandAnswered.inSlot_restartLane n
    have own := fun i => State.outSlot_restartLane_own (n := n) (r := ⟨n, i⟩) rfl s.commandAnswered
    have write := congrArg Reports.write reports
    have record := fun {c x} (context : s.context c = some x) =>
      State.context_restartLane_of (n := n) (s := s.commandAnswered) context
    refine ⟨congrArg Host.Outcome.next ends, portC, fun i => (inbound _).trans (if_pos rfl),
      fun i unmarked => (own i).trans (OutSlot.release_unmarked unmarked),
      fun i h marked frame => (own i).trans (OutSlot.release_framed marked frame),
      fun i marked frame => (own i).trans (OutSlot.release_frameless marked frame),
      fun r away => (inbound r).trans (if_neg away), fun r away unbound => ?other,
      fun c x r h home bound away alone frame => ?spoiled, jobs, abandons, keeps, s.commandAnswered.engine_restartLane n, congrArg Reports.waiting reports,
      fun h rest head inLane writing => ?orphan, fun other => ?written, fun q o held access named => ?answered,
      fun elsewhere => ?unanswered, work.keys, load, recent, count, fun c free => ?contextFree, fun c x home => ?contextHome,
      fun c x context undecided away lane unbound => ?contextTrimmed,
      fun c x r context undecided away lane bound here => ?contextUnbound, fun c x context away lane => ?contextElsewhere,
      fun c x context decided => ?contextDecided, fun m => s.commandAnswered.underruns_restartLane n m, work.setup, work.mem,
      work.path, work.producer, work.consumer, work.sequence⟩
    case other => exact State.outSlot_restartLane_other (s := s.commandAnswered) away unbound
    case spoiled => exact State.outSlot_restartLane_bound (s := s.commandAnswered) home bound away alone frame
    case answered => exact State.answered_restartLane (s := s.commandAnswered) held access named
    case unanswered => exact State.unanswered_restartLane (s := s.commandAnswered) elsewhere
    case orphan => exact write.trans (State.write_dropLane_orphan (p := s.reports) head inLane writing)
    case written => exact write.trans (State.write_dropLane_other (p := s.reports) other)
    case contextFree =>
      have absent : s.commandAnswered.context c = none := free
      rw [s.commandAnswered.context_restartLane n c, absent]
      rfl
    case contextHome =>
      obtain ⟨context, home⟩ := home
      rw [record context, State.HomeIn.restarted (s := s) ⟨context, home⟩]
      rfl
    case contextTrimmed =>
      rw [record context, Context.restarted_trimmed undecided away lane, Context.trim_unbound unbound]
    case contextUnbound =>
      rw [record context, Context.restarted_trimmed undecided away lane, Context.trim_bound bound here]
    case contextElsewhere => rw [record context, Context.restarted_elsewhere away lane]
    case contextDecided => rw [record context, Context.restarted_decided decided]

end Sys2Proof.Machine
end

section
/-! PROOF of ResetHoldsStartUpValues and InvariantsHoldAtReset: the state after reset is one that has lost what is volatile, with an
empty retained store. -/

namespace Sys2Proof.Machine

namespace State

/-- R165: the state after reset holds what start-up gives the volatile items. -/
theorem reset_eq_loseVolatile : State.reset = State.reset.loseVolatile (Controller.reset 0 Lines.released) Keys.blank := rfl

theorem holdsResetValues_reset : State.reset.holdsResetValues :=
  reset_eq_loseVolatile ▸ holdsResetValues_loseVolatile ..

/-- R103: no entry of a store that has never been written holds a key. -/
theorem entry_reset (k : Fin 48) : State.reset.keys.entries.get k = KeyEntry.empty := Table.get_fill ..

/-- R32: before any setup every lane is disabled. -/
theorem lane_reset (n : Fin 8) : State.reset.setup.lanes.get n = Lane.reset := Table.get_fill ..

theorem slotsFree_reset : State.reset.slotsFree := fun r => by
  obtain ⟨_, _, _, _, _, _, _, _, _, slots, -⟩ := holdsResetValues_reset
  exact ⟨(slots r).1, congrArg OutSlot.state (slots r).2⟩

theorem noLanes_reset : State.reset.noLanes :=
  ⟨rfl, fun n => by rw [lane_reset]; exact ⟨rfl, rfl, rfl⟩⟩

theorem idleSlots_reset : State.reset.idleSlots :=
  (idleSlots_iff _).mpr ⟨fun _ => noLanes_reset, fun _ => slotsFree_reset⟩

/-- R154: with no lane enabled and no setup present there is nothing to lay out. -/
theorem laidOut_reset : State.reset.laidOut := by
  have disabled : ∀ n, (State.reset.setup.lanes.get n).enable ≠ true := fun n => by rw [lane_reset]; exact nofun
  exact ⟨fun n enabled => absurd enabled (disabled n), fun n _ _ _ enabled => absurd enabled (disabled n), nofun⟩

theorem keyTable_reset : State.reset.keyTable :=
  reset_eq_loseVolatile ▸ keyTable_loseVolatile (c := Controller.reset 0 Lines.released) rfl
    (fun i => (entry_reset i).symm ▸ KeyEntry.consistent_empty ..)
    (uniqueLabels_of_empty fun i => congrArg KeyEntry.state (entry_reset i)) rfl State.reset

theorem identities_reset : State.reset.identities := by
  obtain ⟨free, -⟩ := holdsResetValues_reset
  refine ⟨fun c _ x _ context => ?_, List.nodup_nil, fun c x context => ?_⟩
  all_goals rw [free c] at context; cases context

end State

/-- Settles O5, by the values that start-up gives the volatile items. -/
theorem resetHoldsStartUpValues : Obligations.ResetHoldsStartUpValues := by
  unfold Obligations.ResetHoldsStartUpValues
  obtain ⟨free, recent, abandoned, engine, agent, reports, load, result, -, slots, held, lanes, capacity, enables⟩ :=
    State.holdsResetValues_reset
  intro s
  refine ⟨rfl, rfl, rfl, rfl, rfl, rfl, rfl, rfl, rfl, congrArg Agent.jobs agent, congrArg Engine.operation engine,
    congrArg Engine.ready engine, congrArg Reports.waiting reports, congrArg Reports.producer reports,
    congrArg Reports.consumer reports, congrArg Reports.sequence reports, free, recent, abandoned, fun r => ?slot, held, lanes,
    congrArg Load.state load, congrArg Load.fill load, fun i => Table.get_fill .., congrArg Load.result load, result, rfl, enables,
    capacity, rfl, rfl⟩
  case slot =>
    obtain ⟨inbound, outbound⟩ := slots r
    exact ⟨inbound, congrArg OutSlot.state outbound, congrArg OutSlot.codePosition outbound, congrArg OutSlot.mark outbound⟩

/-- Settles O60, invariant by invariant. -/
theorem invariantsHoldAtReset : Obligations.InvariantsHoldAtReset :=
  ⟨⟨List.Pairwise.nil, nofun⟩, ⟨.inl rfl, rfl⟩, State.idleSlots_reset, State.laidOut_reset, State.keyTable_reset,
    State.identities_reset⟩

end Sys2Proof.Machine
end

section
/-! PROOF of AccessToPartThatDoesNotListen: an access that is held for a wake, and one that arrives under RESET. -/

namespace Sys2Proof.Machine

/-- R169: accesses are held during a wake. -/
theorem Controller.holdsAccesses_of_waking {c : Controller} (waking : c.wake = .waking) : c.holdsAccesses = true := by
  rw [Controller.holdsAccesses, waking]

theorem Controller.holdsAccesses_of_asleep {c : Controller} (dormant : c.state = .dormant) (asleep : c.wake = .asleep) :
    c.holdsAccesses = true := by
  rw [Controller.holdsAccesses, asleep, dormant]; rfl

namespace State

/-- R16: the beginning of a wake changes no port's last response. -/
theorem response_startWake (p : Port) (s : State) : (s.startWake.port p).response = (s.port p).response := by
  unfold startWake; split
  · rfl
  · cases p <;> rfl

/-- R165: while RESET is asserted every access is handed to the arbiter. -/
theorem arrive_inReset {s : State} {p : Port} (free : (s.port p).access = none) (reset : s.controller.power = .inReset)
    (a : Access) : s.arrive p a = s.hold p ⟨a, .waiting none, false⟩ := by
  rw [arrive, free, reset]; rfl

end State

/-- Settles O8, by what the part does with the access: it holds it for the wake, hands it on, or takes none. -/
theorem accessToPartThatDoesNotListen : Obligations.AccessToPartThatDoesNotListen := by
  unfold Obligations.AccessToPartThatDoesNotListen
  intro s p a held before
  have holds : (s.port p).access = none → s.controller.power = .on → s.watched a.word = true →
      s.controller.holdsAccesses = true →
        exec (.memoryAccess p a) s = .next (s.startWake.setPort p ⟨some ⟨a, .wake, true⟩, (s.port p).response⟩) := by
    intro free on watched sleeps
    rw [← State.response_startWake]
    exact congrArg Host.Outcome.next (State.arrive_held free on sleeps watched)
  refine ⟨fun free on watched waking => ?waking, fun free on watched dormant asleep => ?asleep,
    fun free reset => congrArg Host.Outcome.next (State.arrive_inReset free reset a),
    fun busy => congrArg Host.Outcome.next (State.arrive_busy busy a)⟩
  case waking =>
    rw [holds free on watched (Controller.holdsAccesses_of_waking waking), State.startWake_waking waking]
  case asleep =>
    rw [holds free on watched (Controller.holdsAccesses_of_asleep dormant asleep),
      State.startWake_begins (by rw [asleep]; decide)]
    cases p <;> rfl

end Sys2Proof.Machine
end

section
/-! PROOF of EraseCompletionLeavesPurging: how the part leaves PURGING. -/

namespace Sys2Proof.Machine

namespace State

theorem eraseCompletion_purging {s : State} (on : s.controller.power = .on) (purging : s.controller.state = .purging) :
    s.eraseCompletion = s.completeErase := by
  rw [eraseCompletion, if_pos ⟨on, purging⟩]

/-- R173, R170: with PWARN asserted the power warning takes effect. -/
theorem completeErase_warned {s : State} (warned : s.controller.lines.pwarn = true) :
    s.completeErase = s.endErase.powerWarning := by
  rw [completeErase, if_pos warned]

/-- R173, R171: a part that was HALTED returns as from HALTED. -/
theorem completeErase_returns {s : State} (quiet : s.controller.lines.pwarn = false) (halted : s.controller.fromHalted = true) :
    s.completeErase = s.endErase.returnFromHalted := by
  rw [completeErase, quiet, halted]; rfl

theorem completeErase_leaves {s : State} (quiet : s.controller.lines.pwarn = false) (direct : s.controller.fromHalted = false) :
    s.completeErase = s.endErase.enter s.controller.restored := by
  rw [completeErase, quiet, direct]; rfl

end State

/-- Settles O52, by the PWARN line and by how PURGING was entered. -/
theorem eraseCompletionLeavesPurging : Obligations.EraseCompletionLeavesPurging := by
  unfold Obligations.EraseCompletionLeavesPurging
  intro s on purging erased left
  have completes : exec .eraseCompletion s = .next s.completeErase :=
    congrArg Host.Outcome.next (State.eraseCompletion_purging on purging)
  rw [completes]
  refine ⟨fun quiet direct => ?_, fun quiet halted => ?_, fun warned => ?_⟩
  · rw [State.completeErase_leaves quiet direct]; rfl
  · rw [State.completeErase_returns quiet halted]; rfl
  · exact ⟨_, congrArg Host.Outcome.next (State.completeErase_warned warned), rfl, State.haltedFrom_powerWarning _⟩

end Sys2Proof.Machine
end

section
/-! PROOF of EmptyQueueStepIsOneMillisecond: what falls due leaves every deadline that is not due as it was, and the clock rises by
its pace. -/

namespace Sys2Proof.Machine

/-- R76: the deadline of a context, and whether it runs. -/
def Context.timer (x : Context) : Nat × Bool := (x.deadline, x.running)

namespace State

/-! ## Deadlines that are not due -/

/-- R76: the deadline of every context, none for a FREE one. -/
def timer (s : State) (c : Fin 24) : Option (Nat × Bool) := (s.context c).map Context.timer

theorem timer_of_context {s : State} {c : Fin 24} {x : Context} (context : s.context c = some x) :
    s.timer c = some (x.deadline, x.running) := by
  rw [timer, context]; rfl

theorem timer_of_contexts {s t : State} (same : t.contexts = s.contexts) : t.timer = s.timer := by
  funext c; rw [timer, timer, context_eq, context_eq, same]

theorem timer_modifyContext (c : Fin 24) (f : Context → Context) (s : State)
    (same : ∀ x, (f x).timer = x.timer := by exact fun _ => rfl) : (s.modifyContext c f).timer = s.timer := by
  funext d
  rw [timer, context_modifyContext]
  split
  · next here =>
    rw [here, timer, Option.map_map]
    exact congrArg (Option.map · (s.context c)) (funext same)
  · rfl

theorem timer_setMark (h : Holder) (m : Bool) (s : State) : (s.setMark h m).timer = s.timer := by
  cases h with
  | code | unwrap => rfl
  | verify c | derive c => exact timer_modifyContext c (fun x => { x with mark := m }) s

theorem timer_weighEngine (s : State) : s.weighEngine.timer = s.timer := by
  unfold weighEngine
  split
  · split
    · rfl
    · next h _ =>
      split
      · rfl
      · exact timer_setMark h true (s.leaveReady h)
  · rfl

/-- R127, R141: the engine and the report writer set no deadline. -/
theorem timer_settle (s : State) : s.settle.timer = s.timer := by
  obtain ⟨⟨jobs, write, eq⟩, -⟩ := s.weighEngine.weighReports_spec
  rw [settle, eq]
  exact timer_weighEngine s

/-- R52, R72: a binding dropped at an underrun sets no deadline. -/
theorem timer_underrun (r : SlotRef) (s : State) : (s.underrun r).timer = s.timer := by
  have spoiled : ∀ (t : State) report, (t.spoil r report).timer = t.timer := fun t report =>
    timer_of_contexts (contexts_spoil ..)
  have dropped : ∀ p (t : State), (t.dropJobs p).timer = t.timer := fun p t => timer_of_contexts (contexts_dropJobs ..)
  have unbound : ∀ c (t : State), (t.modifyContext c Context.dropBinding).timer = t.timer := fun c t =>
    timer_modifyContext c _ t
  unfold underrun
  split
  · rw [spoiled, dropped]; rfl
  · rw [spoiled, dropped]; rfl
  · rw [spoiled, unbound]; rfl
  · rw [spoiled, unbound]; rfl
  · rfl

theorem timer_expireOverdue (s : State) : s.expireOverdue.timer = s.timer := by
  unfold expireOverdue holdLimitExpiry
  split
  · split
    · rfl
    · rw [timer_settle, timer_underrun]; exact timer_of_contexts (contexts_answerHeld ..)
  · rfl

/-- R78: a close stops the deadline of its own context only. -/
theorem timer_close_ne {c d : Fin 24} (other : c ≠ d) (code : PassageCode) (s : State) :
    (s.close code d).timer c = s.timer c := by
  rw [timer_of_contexts (contexts_close code d s), timer, context_modifyContext, if_neg other, timer]

/-- R77: a DEADLINE_EXPIRY changes no deadline but one that is due. -/
theorem timer_deadlineExpiry {s : State} {c : Fin 24} (early : s.timer c ≠ some (0, true)) (d : Fin 24) :
    (s.deadlineExpiry d).timer c = s.timer c := by
  unfold deadlineExpiry
  split
  · rfl
  · next x context =>
    split
    · next due =>
      obtain ⟨running, zero⟩ := (Context.deadlineDue_iff x).mp due
      have other : c ≠ d := by
        rintro rfl
        exact early (by rw [timer_of_context context, running, zero])
      rw [timer_settle, timer_close_ne other]
    · rfl

theorem timer_secondsClockRise (s : State) : s.secondsClockRise.timer = s.timer := by
  unfold secondsClockRise
  split
  · rfl
  · split
    · exact timer_of_contexts (contexts_setClock ..)
    · rfl

/-- Log 3: what is due is taken, all but the rise of the clock. -/
def expiriesTaken (s : State) : State := (Table.ascending 24 deadlineExpiry s.expireOverdue).dropDueRecent

theorem takeDue_eq (s : State) : s.takeDue = s.expiriesTaken.secondsClockRise := rfl

/-- R77: what is taken when it is due leaves the deadlines that are not. -/
theorem timer_takeDue {s : State} {c : Fin 24} (early : s.timer c ≠ some (0, true)) : s.takeDue.timer c = s.timer c := by
  have start : s.expireOverdue.timer c = s.timer c := congrFun s.timer_expireOverdue c
  have pass : (Table.ascending 24 deadlineExpiry s.expireOverdue).timer c = s.timer c :=
    Table.ascending_keeps (P := fun t : State => t.timer c = s.timer c)
      (fun d (t : State) same => (timer_deadlineExpiry (by rw [same]; exact early) d).trans same) _ start
  have trimmed : ∀ t : State, t.dropDueRecent.timer = t.timer := fun _ => rfl
  rw [takeDue_eq, timer_secondsClockRise, expiriesTaken, trimmed, pass]

/-- R166, R76: the millisecond, written out. -/
theorem advance_eq (s : State) : s.advance = { s with
    controller := { s.controller with
      time := s.controller.time + 1
      millis := if s.controller.seconds.isSome then s.controller.millis + 1 else s.controller.millis }
    contexts := { s.contexts with
      table := s.contexts.table.map fun x =>
        x.map fun y => if y.running then { y with deadline := y.deadline - 1 } else y } } := rfl

theorem controller_advance (s : State) : s.advance.controller = { s.controller with
    time := s.controller.time + 1
    millis := if s.controller.seconds.isSome then s.controller.millis + 1 else s.controller.millis } := rfl

theorem path_advance (s : State) : s.advance.path = s.path := rfl

theorem frame_advance (s : State) : s.Frame s.advance := ⟨rfl, rfl⟩

theorem context_advance (s : State) (c : Fin 24) : s.advance.context c = (s.context c).map Context.elapse :=
  context_mapContexts ..

/-- R76: a context whose deadline is not due, after the millisecond. -/
theorem context_advance_takeDue {s : State} {c : Fin 24} {x : Context} (context : s.context c = some x)
    (early : x.running = true → 0 < x.deadline) :
    ∃ y : Context, y.timer = x.timer ∧ s.takeDue.advance.context c = some y.elapse := by
  have notDue : s.timer c ≠ some (0, true) := by
    rw [timer_of_context context]
    intro due
    obtain ⟨zero, running⟩ := Prod.mk.inj (Option.some.inj due)
    exact Nat.ne_of_gt (early running) zero
  have kept := (timer_takeDue notDue).trans (timer_of_context context)
  obtain ⟨y, after, same⟩ := Option.map_eq_some_iff.mp kept
  exact ⟨y, same, by rw [context_advance, after]; rfl⟩

/-! ## The part controller -/

theorem controller_expiriesTaken (s : State) : s.expiriesTaken.controller = s.controller := by
  have expired : s.expireOverdue.controller = s.controller := by
    unfold expireOverdue; split
    · exact (work_holdLimitExpiry s).controller
    · rfl
  have trimmed : ∀ t : State, t.dropDueRecent.controller = t.controller := fun _ => rfl
  rw [expiriesTaken, trimmed, (work_ascending work_deadlineExpiry _).controller, expired]

theorem secondsClockRise_of_unset {s : State} (unset : s.controller.seconds = none) : s.secondsClockRise = s := by
  rw [secondsClockRise, unset]

theorem controller_setClock (w : Word) (s : State) :
    (s.setClock w).controller = { s.controller with seconds := some w, millis := 0 } := by
  unfold setClock evaluateKeys; split <;> rfl

/-- R167: an unset clock, and one whose second is not over, stay. -/
theorem controller_takeDue_of_early {s : State} (early : s.controller.seconds = none ∨ s.controller.millis < 1000) :
    s.takeDue.controller = s.controller := by
  have same := s.controller_expiriesTaken
  rw [takeDue_eq]
  rcases early with unset | early
  · rw [secondsClockRise_of_unset (by rw [same]; exact unset), same]
  · rw [secondsClockRise_of_not_due (by rw [same]; exact early), same]

/-- R167: the clock rises when its second is over. -/
theorem controller_takeDue_of_due {s : State} {clock : Word} (set : s.controller.seconds = some clock)
    (due : 1000 ≤ s.controller.millis) :
    s.takeDue.controller = { s.controller with seconds := some (clock + 1), millis := 0 } := by
  have same := s.controller_expiriesTaken
  have rise := secondsClockRise_of_due (s := s.expiriesTaken) (by rw [same]; exact set) (by rw [same]; exact due)
  rw [takeDue_eq, rise, ← same]
  generalize s.expiriesTaken = t
  exact controller_setClock ..

/-- R167: whatever the clock does, the rest of the part controller stays. -/
theorem controller_takeDue_form (s : State) :
    ∃ seconds millis, s.takeDue.controller = { s.controller with seconds := seconds, millis := millis } := by
  by_cases early : s.controller.seconds = none ∨ s.controller.millis < 1000
  · exact ⟨_, _, controller_takeDue_of_early early⟩
  · obtain ⟨set, due⟩ := not_or.mp early
    obtain ⟨clock, set⟩ := Option.ne_none_iff_exists'.mp set
    exact ⟨_, _, controller_takeDue_of_due set (Nat.le_of_not_lt due)⟩

theorem path_takeDue (s : State) : s.takeDue.path = s.path := by
  have expired : s.expireOverdue.path = s.path := by
    unfold expireOverdue; split
    · exact (work_holdLimitExpiry s).path
    · rfl
  have risen : ∀ t : State, t.secondsClockRise.path = t.path := fun t => by
    unfold secondsClockRise; split
    · rfl
    · split
      · unfold setClock evaluateKeys; split <;> rfl
      · rfl
  have trimmed : ∀ t : State, t.dropDueRecent.path = t.path := fun _ => rfl
  rw [takeDue_eq, risen, expiriesTaken, trimmed, (work_ascending work_deadlineExpiry _).path, expired]

theorem tick_on {s : State} (on : s.controller.power = .on) : s.tick = s.takeDue.advance := if_pos on

theorem tick_stopped {s : State} (stopped : s.controller.power ≠ .on) : s.tick = s := if_neg stopped

end State

/-- R76: a running deadline above zero falls by one and keeps running. -/
theorem Context.elapse_running {y : Context} (running : y.running = true) : y.elapse = { y with deadline := y.deadline - 1 } :=
  if_pos running

theorem Context.elapse_stopped {y : Context} (stopped : y.running = false) : y.elapse = y :=
  if_neg (Bool.eq_false_iff.mp stopped)

/-- Settles O2: the tick is what is due, taken in the model's order, and then the millisecond; and what that leaves of the
controller and of the deadlines. -/
theorem emptyQueueStepIsOneMillisecond : Obligations.EmptyQueueStepIsOneMillisecond := by
  unfold Obligations.EmptyQueueStepIsOneMillisecond
  intro s empty after expired closed trimmed risen
  have start : expired = s.expireOverdue := s.expireOverdue_eq.symm
  have closes : closed = Table.ascending 24 State.deadlineExpiry s.expireOverdue := by
    rw [← start]
    clear_value expired
    rfl
  have due : risen = s.takeDue := by
    rw [State.takeDue, ← closes]
    clear_value closed
    rfl
  refine ⟨?step, State.tick_stopped, fun on => ?whole, fun on => ?effects⟩
  case step => rw [step, empty]
  case whole => rw [State.tick_on on, due]; exact State.advance_eq _
  case effects =>
    obtain ⟨seconds, millis, form⟩ := s.controller_takeDue_form
    have frame := s.frame_takeDue.trans (State.frame_advance _)
    have path := (State.path_advance _).trans s.path_takeDue
    rw [State.tick_on on]
    refine ⟨?time, frame.mem, frame.setup, path, ?state, fun unset => ?unset,
      fun clock set => ⟨fun early => ?early, fun due => ?due⟩,
      fun c x context => ⟨fun running above => ?running, fun stopped => ?stopped⟩⟩
    case time | state => rw [State.controller_advance, form]
    case unset =>
      rw [State.controller_advance, State.controller_takeDue_of_early (.inl unset), unset]
      exact ⟨rfl, rfl⟩
    case early =>
      rw [State.controller_advance, State.controller_takeDue_of_early (.inr early), set]
      exact ⟨rfl, rfl⟩
    case due =>
      rw [State.controller_advance, State.controller_takeDue_of_due set due]
      exact ⟨rfl, rfl⟩
    case running =>
      obtain ⟨y, timer, after⟩ := State.context_advance_takeDue context fun _ => above
      obtain ⟨deadline, runs⟩ := Prod.mk.inj timer
      rw [Context.elapse_running (runs.trans running)] at after
      refine ⟨_, after, ?_, runs.trans running⟩
      show y.deadline - 1 + 1 = x.deadline
      rw [deadline]; exact Nat.sub_add_cancel above
    case stopped =>
      obtain ⟨y, timer, after⟩ := State.context_advance_takeDue context fun running => absurd (stopped.symm.trans running) nofun
      obtain ⟨deadline, runs⟩ := Prod.mk.inj timer
      rw [Context.elapse_stopped (runs.trans stopped)] at after
      exact ⟨y, after, deadline, runs.trans stopped⟩

end Sys2Proof.Machine
end

section
/-! SUPPORT of PurgeEmptiesTheKeyTable and WakeEndClassifiesHeldAccesses: what a purge makes of one context, the pass over the
contexts, and the entry into PURGING as a whole. -/

namespace Sys2Proof.Machine

/-! ## One context -/

/-- R134: a context loses its engine mark. -/
def Context.unmarked (x : Context) : Context := { x with mark := false }

/-- R82, R99: a context loses its key link and its tag key. -/
def Context.unkeyed (x : Context) : Context := { x with keyLink := none, tagKey := none }

/-- R82: what a purge makes of a context without engine mark. -/
def Context.purged (time : Word) (x : Context) : Context :=
  if x.state = .closing then { x with state := .reporting }
  else if x.state = .reporting then x
  else x.close .purged time

theorem Context.purged_undecided {x : Context} (undecided : x.state ∉ [ContextState.closing, .reporting]) (time : Word) :
    x.purged time = x.close .purged time := by
  obtain ⟨closing, reporting⟩ : x.state ≠ .closing ∧ x.state ≠ .reporting := by simpa using undecided
  rw [Context.purged, if_neg closing, if_neg reporting]

/-- R82, R99: what a purge makes of an open context. -/
theorem Context.unkeyed_purged_undecided {x : Context} (undecided : x.state ∉ [ContextState.closing, .reporting]) (time : Word) :
    (x.unmarked.purged time).unkeyed =
      { x with
        outcome := some (.purged, time), running := false, bound := none, keyLink := none, tagKey := none
        mark := false, state := .reporting } := by
  rw [Context.purged_undecided (x := x.unmarked) undecided, Context.close_unmarked (x := x.unmarked) rfl]
  rfl

theorem Context.purged_decided {x : Context} (decided : x.state ∈ [ContextState.closing, .reporting]) (time : Word) :
    x.purged time = { x with state := .reporting } := by
  unfold Context.purged
  split
  · rfl
  · next other =>
    have reporting : x.state = .reporting := by simpa [other] using decided
    rw [if_pos reporting, ← reporting]

/-- R82, R99: what a purge makes of a context that is closed already. -/
theorem Context.unkeyed_purged_decided {x : Context} (decided : x.state ∈ [ContextState.closing, .reporting]) (time : Word) :
    (x.unmarked.purged time).unkeyed = { x with keyLink := none, tagKey := none, mark := false, state := .reporting } := by
  rw [Context.purged_decided (x := x.unmarked) decided]
  rfl

/-- R134: a DRAINING slot goes to FREE with its mark. -/
theorem OutSlot.dropResult_draining {x : OutSlot} {h : Header} (draining : x.state = .draining h) :
    x.dropResult = { x with state := .free, mark := false } := by
  rw [OutSlot.dropResult, draining]

theorem OutSlot.dropResult_other {x : OutSlot} (other : ∀ h, x.state ≠ .draining h) :
    x.dropResult = { x with mark := false } := by
  unfold OutSlot.dropResult
  split
  · next h draining => exact absurd draining (other h)
  · rfl

theorem OutSlot.mark_dropResult (x : OutSlot) : x.dropResult.mark = false := by
  unfold OutSlot.dropResult; split <;> rfl

namespace State

/-- R82: an open context that is not closed already. -/
def Undecided (s : State) (c : Fin 24) (x : Context) : Prop :=
  s.context c = some x ∧ x.state ∉ [ContextState.closing, .reporting]

theorem Undecided.context {s : State} {c : Fin 24} {x : Context} (live : s.Undecided c x) : s.context c = some x := live.1

theorem Undecided.closable {s : State} {c : Fin 24} {x : Context} (live : s.Undecided c x) : x.state.closable = true :=
  (ContextState.closable_iff _).mpr live.2

/-- A context that is still open is not what a purge has made. -/
theorem Undecided.purged_ne {s : State} {c : Fin 24} {x : Context} (live : s.Undecided c x) (time : Word) :
    some (x.purged time) ≠ some x := fun same => by
  rw [Context.purged_undecided live.2] at same
  exact live.2 (Option.some.inj same ▸ state_close ..)

theorem purgeContext_undecided {s : State} {c : Fin 24} {x : Context} (live : s.Undecided c x) :
    s.purgeContext c = s.close .purged c := by
  obtain ⟨context, undecided⟩ := live
  have closing : ¬ x.state = .closing := fun closing => undecided (closing ▸ List.mem_cons_self)
  simp only [purgeContext, context, if_neg closing]

/-- R82, R53: what a context without engine mark joins to the pending list at a purge. -/
def joinsPurged (s : State) (c : Fin 24) (x : Context) : List ReportHolder :=
  if x.state = .reporting then [] else (if x.state = .closing then [] else s.boundHolder x) ++ [.context c]

theorem joinedBy_of_context {s : State} {c : Fin 24} {x : Context} (context : s.context c = some x)
    (joins : Fin 24 → Context → List ReportHolder) : s.joinedBy joins c = joins c x := by
  rw [joinedBy, context]

theorem joinedBy_of_free {s : State} {c : Fin 24} (free : s.context c = none)
    (joins : Fin 24 → Context → List ReportHolder) : s.joinedBy joins c = [] := by
  rw [joinedBy, free]

/-- R79, R82: at a context that is closed already, or FREE, only its record and the pending list change. -/
theorem purgeContext_decided {s : State} {c : Fin 24} (decided : ∀ x, ¬ s.Undecided c x) :
    s.purgeContext c = { s.modifyContext c (Context.purged s.controller.time) with
      reports := { s.reports with waiting := s.reports.waiting ++ s.joinedBy s.joinsPurged c } } := by
  cases context : s.context c with
  | none =>
    rw [modifyContext, context, Option.map_none, setContext_context context, joinedBy_of_free context, List.append_nil]
    simp only [purgeContext, context]
  | some x =>
    have made : x.state ∈ [ContextState.closing, .reporting] := by
      by_contra undecided
      exact decided x ⟨context, undecided⟩
    rw [modifyContext, context, Option.map_some, Context.purged_decided made, joinedBy_of_context context, joinsPurged]
    by_cases closing : x.state = .closing
    · simp only [purgeContext, context, closing, if_true, endClosing, modifyContext, Option.map_some]
      rfl
    · have reporting : x.state = .reporting := by simpa [closing] using made
      have same : ({ x with state := .reporting } : Context) = x := by rw [← reporting]
      have closed : ¬ x.state.closable = true := by rw [reporting]; decide
      rw [same, setContext_context context, if_pos reporting, List.append_nil]
      simp only [purgeContext, context, if_neg closing, close, if_neg closed]

theorem context_purgeContext (c d : Fin 24) (s : State) :
    (s.purgeContext c).context d =
      if d = c then (s.context c).map (Context.purged s.controller.time) else s.context d := by
  by_cases live : ∃ x, s.Undecided c x
  · obtain ⟨x, live⟩ := live
    rw [purgeContext_undecided live, context_close .purged live.context live.closable, live.context, Option.map_some,
      Context.purged_undecided live.2]
  · rw [purgeContext_decided (not_exists.mp live)]
    exact context_modifyContext ..

theorem context_purgeContext_ne (c : Fin 24) (s : State) (d : Fin 24) (away : d ≠ c) :
    (s.purgeContext c).context d = s.context d := by
  rw [context_purgeContext, if_neg away]

/-! ## The pass over the contexts -/

/-- R82: the pass. -/
def purgePass (s : State) : State := Table.ascending 24 purgeContext s

theorem context_purgePass (s : State) (c : Fin 24) :
    s.purgePass.context c = (s.context c).map (Context.purged s.controller.time) := by
  refine Table.ascending_each (P := fun t => t.controller = s.controller) (f := purgeContext) (read := State.context)
    (g := fun _ y => y.map (Context.purged s.controller.time))
    (fun d t same => (work_purgeContext d t).controller.trans same) (fun d t same e => ?_) s rfl c
  rw [context_purgeContext, same]

/-- R82: from `s` to `t` some open contexts have been closed, and of others only the state has changed. -/
structure Purges (s t : State) : Prop where
  spoils : Spoils (fun r => ∃ c x, s.Undecided c x ∧ x.bound = some r) s t
  recent : t.contexts.recent = s.contexts.recent
  abandoned : t.contexts.abandoned = s.contexts.abandoned
  header : ∀ q, (t.outSlot q).state.header = (s.outSlot q).state.header
  write : t.reports.write = s.reports.write

theorem Purges.refl (s : State) : Purges s s := ⟨Spoils.refl _ s, rfl, rfl, fun _ => rfl, rfl⟩

theorem Purges.close {s t : State} (purges : Purges s t) {c : Fin 24} {x : Context} (fresh : t.context c = s.context c)
    (live : t.Undecided c x) : Purges s (t.close .purged c) := by
  have contexts := contexts_close .purged c t
  refine ⟨purges.spoils.trans ((spoils_close .purged c t).mono ?_), ?_, ?_, fun q => (header_close ..).trans (purges.header q), ?_⟩
  · rintro r ⟨y, context, bound⟩
    obtain rfl : x = y := Option.some.inj (live.context.symm.trans context)
    exact ⟨c, x, ⟨fresh ▸ live.context, live.2⟩, bound⟩
  · rw [contexts]; exact purges.recent
  · rw [contexts]; exact purges.abandoned
  · rw [reports_close .purged live.context live.closable]; exact purges.write

/-- What the pass begins with, and each close and each change of a decided context's record keeps, it ends with. -/
theorem purge_induction {P : State → Prop} {s : State} (start : P s)
    (closes : ∀ t c x, Purges s t → t.context c = s.context c → t.Undecided c x → P t → P (t.close .purged c))
    (records : ∀ t c f waiting, (∀ x, ¬ s.Undecided c x) → P t →
      P { t.modifyContext c f with reports := { t.reports with waiting := waiting } }) :
    Purges s s.purgePass ∧ P s.purgePass := by
  refine ascending_fresh (P := fun t => Purges s t ∧ P t) context_purgeContext_ne ⟨Purges.refl s, start⟩ ?_
  rintro c t fresh ⟨purges, kept⟩
  by_cases live : ∃ x, t.Undecided c x
  · obtain ⟨x, live⟩ := live
    rw [purgeContext_undecided live]
    exact ⟨purges.close fresh live, closes t c x purges fresh live kept⟩
  · rw [purgeContext_decided (not_exists.mp live)]
    refine ⟨⟨?_, purges.recent, purges.abandoned, purges.header, purges.write⟩, records t c _ _ (fun x there => ?_) kept⟩
    · exact (purges.spoils.trans (spoils_setContext _ c _ t)).trans
        ⟨work_setWaiting _ _, rfl, rfl, rfl, rfl, rfl, fun _ h => h, fun _ => rfl, fun _ _ => rfl, fun _ => rfl, fun _ => rfl⟩
    · exact live ⟨x, fresh.trans there.context, there.2⟩

theorem purges_purgePass (s : State) : Purges s s.purgePass :=
  (purge_induction (P := fun _ => True) trivial (fun _ _ _ _ _ _ _ => trivial) fun _ _ _ _ _ _ => trivial).1

theorem context_purgePass_ne {s : State} {c : Fin 24} {x : Context} (live : s.Undecided c x) :
    s.purgePass.context c ≠ some x := by
  rw [context_purgePass, live.context]
  exact live.purged_ne _

/-- A record that changes is not an open context's. -/
theorem context_modifyContext_of_undecided {s : State} {c d : Fin 24} {x : Context} (live : s.Undecided c x)
    (other : ∀ y, ¬ s.Undecided d y) (t : State) (f : Context → Context) : (t.modifyContext d f).context c = t.context c := by
  rw [context_modifyContext, if_neg]
  rintro rfl
  exact other x live

/-- R82, R53: a slot bound to one open context alone is SPOILED with that context's notice. -/
theorem outSlot_purgePass_bound {s : State} {c : Fin 24} {x : Context} {r : SlotRef} {h : Header} (live : s.Undecided c x)
    (bound : x.bound = some r) (alone : ∀ d y, s.context d = some y → y.bound = some r → d = c)
    (frame : (s.outSlot r).state.header = some h) : s.purgePass.outSlot r = s.slotOfClosed c x r h := by
  have pass := purge_induction (s := s)
    (P := fun t => (t.context c = some x → t.outSlot r = s.outSlot r)
      ∧ (t.context c ≠ some x → t.outSlot r = s.slotOfClosed c x r h))
    ⟨fun _ => rfl, fun closed => absurd live.context closed⟩ ?closes ?records
  · obtain ⟨-, -, spoiled⟩ := pass
    exact spoiled (context_purgePass_ne live)
  case closes =>
    intro t d y purges fresh here ⟨before, after⟩
    have context := context_close .purged here.context here.closable c
    by_cases same : c = d
    · subst same
      obtain rfl : y = x := Option.some.inj (here.context.symm.trans (fresh.trans live.context))
      have slot := before here.context
      have notice : t.notice .closedTransaction r (some c) (some y.identity) none
          = s.notice .closedTransaction r (some c) (some y.identity) none := by
        rw [notice, notice, purges.spoils.controller]
      rw [outSlot_close_bound .purged here.context here.closable bound (slot ▸ frame), slot, notice]
      refine ⟨fun still => ?_, fun _ => rfl⟩
      rw [context, if_pos rfl, ← Context.purged_undecided here.2] at still
      exact absurd still (here.purged_ne _)
    · rw [if_neg same] at context
      have kept : (t.close .purged d).outSlot r = t.outSlot r := by
        refine (spoils_close .purged d t).outSlot r ?_
        rintro ⟨z, there, bound'⟩
        exact same (alone d z (fresh ▸ there) bound').symm
      rw [context, kept]
      exact ⟨before, after⟩
  case records =>
    intro t d f waiting other kept
    have context := context_modifyContext_of_undecided live other t f
    exact ⟨fun still => kept.1 (context ▸ still), fun closed => kept.2 (context ▸ closed)⟩

/-- R82, R53, R51: a read held on a slot bound to an open context has its fill pattern. -/
theorem answered_purgePass {s : State} {c : Fin 24} {x : Context} {q : HeldRead} {o : Outstanding} (live : s.Undecided c x)
    (bound : x.bound = some q.slot) (frame : (s.outSlot q.slot).state.header ≠ none) (held : s.slots.held = some q)
    (access : s.ports.r.access = some o) :
    s.purgePass.slots.held = none
      ∧ s.purgePass.ports.r = ⟨none, some (.done (some (o.access.size.extract fillPattern)))⟩ := by
  have pass := purge_induction (s := s)
    (P := fun t => (t.context c = some x ∧ t.slots.held = some q ∧ t.ports.r = s.ports.r)
      ∨ (t.slots.held = none ∧ t.ports.r = ⟨none, some (.done (some (o.access.size.extract fillPattern)))⟩))
    (.inl ⟨live.context, held, rfl⟩) ?closes ?records
  · rcases pass.2 with ⟨still, -⟩ | answered
    · exact absurd still (context_purgePass_ne live)
    · exact answered
  case closes =>
    intro t d y purges fresh here kept
    rcases kept with ⟨context, waiting, port⟩ | ⟨answered, port⟩
    · by_cases named : y.bound = some q.slot
      · have frame' : (t.outSlot q.slot).state.header ≠ none := by rw [purges.header]; exact frame
        exact .inr (answered_close .purged here.context here.closable named frame' waiting (port ▸ access))
      · have elsewhere : c ≠ d := by
          rintro rfl
          obtain rfl : x = y := Option.some.inj (context.symm.trans here.context)
          exact named bound
        have context' := context_close .purged here.context here.closable c
        rw [if_neg elsewhere] at context'
        obtain ⟨waiting', port'⟩ := unanswered_close .purged here.context here.closable fun p there => by
          rw [waiting] at there; cases there; exact named
        exact .inl ⟨context'.trans context, waiting'.trans waiting, port'.trans port⟩
    · obtain ⟨answered', port'⟩ := unanswered_close .purged here.context here.closable fun p there => by
        rw [answered] at there; cases there
      exact .inr ⟨answered'.trans answered, port'.trans port⟩
  case records =>
    intro t d f waiting other kept
    have context := context_modifyContext_of_undecided live other t f
    exact kept.imp_left fun ⟨still, same⟩ => ⟨context.trans still, same⟩

/-- R82: a read held elsewhere stays. -/
theorem unanswered_purgePass {s : State}
    (elsewhere : ∀ c x q, s.Undecided c x → s.slots.held = some q → x.bound ≠ some q.slot) :
    s.purgePass.slots.held = s.slots.held ∧ s.purgePass.ports.r = s.ports.r := by
  refine (purge_induction (P := fun t => t.slots.held = s.slots.held ∧ t.ports.r = s.ports.r) ⟨rfl, rfl⟩ ?closes
    fun _ _ _ _ _ kept => kept).2
  rintro t c x - fresh here ⟨held, port⟩
  obtain ⟨held', port'⟩ := unanswered_close .purged here.context here.closable fun q there =>
    elsewhere c x q ⟨fresh ▸ here.context, here.2⟩ (held.symm.trans there)
  exact ⟨held'.trans held, port'.trans port⟩

/-- R133, R53: whom a close takes off the ready list, named by the state in which the pass began. -/
theorem engine_close_fresh {s t : State} {c : Fin 24} {x : Context} (code : PassageCode) (context : t.context c = some x)
    (closable : x.state.closable = true) (headers : ∀ q, (t.outSlot q).state.header = (s.outSlot q).state.header) :
    ∃ keep : Holder → Bool, (t.close code c).engine = { t.engine with ready := t.engine.ready.filter keep }
      ∧ ∀ h, keep h = true ↔ ¬ s.CancelledBy c x h := by
  obtain ⟨keep, engine, keeps⟩ := engine_close code context closable
  refine ⟨keep, engine, fun h => (keeps h).trans (not_congr ?_)⟩
  unfold cancelled CancelledBy
  simp only [headers]
  constructor
  · rintro ⟨_, _, ⟨rfl, rfl⟩, drop⟩; exact drop
  · exact fun drop => ⟨c, x, ⟨rfl, rfl⟩, drop⟩

/-- R82: what the pass puts on the pending list. -/
theorem reports_purgePass {s : State} (unmarked : ∀ c x, s.context c = some x → x.mark = false) :
    s.purgePass.reports = { s.reports with waiting := s.reports.waiting ++ s.eachContext s.joinsPurged } := by
  refine (lists_ascending (f := purgeContext) (drops := fun c x h => s.Undecided c x ∧ s.CancelledBy c x h) s
    fun c t fresh headers => ⟨context_purgeContext_ne c t, ?_⟩).1
  have joins : ∀ x, t.joinsPurged c x = s.joinsPurged c x := fun x => by
    rw [joinsPurged, joinsPurged, boundHolder_congr headers]
  by_cases live : ∃ x, t.Undecided c x
  · obtain ⟨x, live⟩ := live
    have was : s.context c = some x := fresh ▸ live.context
    obtain ⟨keep, engine, keeps⟩ := engine_close_fresh .purged live.context live.closable headers
    have closing : ¬ x.state = .closing := fun closing => live.2 (closing ▸ List.mem_cons_self)
    have reporting : ¬ x.state = .reporting := fun reporting => live.2 (reporting ▸ List.mem_cons_of_mem _ List.mem_cons_self)
    rw [purgeContext_undecided live]
    refine ⟨fun q => header_close .., ?_, keep, engine, fun h => (keeps h).trans ?_⟩
    · rw [reports_close .purged live.context live.closable, unmarked c x was, joinedBy_of_context was, joinsPurged,
        if_neg reporting, if_neg closing, boundHolder_congr headers]
      rfl
    · constructor
      · rintro spared y same ⟨-, drop⟩
        obtain rfl : x = y := Option.some.inj (was.symm.trans same)
        exact spared drop
      · exact fun spared drop => spared x was ⟨⟨was, live.2⟩, drop⟩
  · have joined : t.joinedBy t.joinsPurged c = s.joinedBy s.joinsPurged c := by
      unfold joinedBy; rw [fresh]
      split
      · rfl
      · exact joins _
    rw [purgeContext_decided (not_exists.mp live), joined]
    refine ⟨fun _ => rfl, rfl, fun _ => true, by rw [List.filter_true]; rfl, fun h => ⟨fun _ x _ drop => ?_, fun _ => rfl⟩⟩
    exact live ⟨x, fresh.trans drop.1.context, drop.1.2⟩

/-! ## The entry into PURGING -/

/-- R172: the keys, the load, the operation in progress and the engine marks are gone. -/
def purgeStarted (s : State) : State := ((((s.markOrigin).purgeKeys).dropLoad).cutEngine).mapContexts Context.unmarked

/-- R82, R99, R134, R172: the key links and the marks of the slots go, and PURGING is entered. -/
def purgeLeft (s : State) : State := ((s.mapContexts Context.unkeyed).mapSlots id OutSlot.dropResult).enter .purging

/-- R172: what the report writer finds when it weighs the pending list. -/
def purgeEntered (s : State) : State := s.purgeStarted.purgePass.purgeLeft

theorem engine_purgeLeft (s : State) : s.purgeLeft.engine = s.engine := rfl

theorem context_purgeLeft (s : State) (c : Fin 24) : s.purgeLeft.context c = (s.context c).map Context.unkeyed :=
  context_mapContexts ..

theorem outSlot_purgeLeft (s : State) (r : SlotRef) : s.purgeLeft.outSlot r = (s.outSlot r).dropResult := outSlot_mapSlots ..

theorem inSlot_purgeLeft (s : State) (r : SlotRef) : s.purgeLeft.inSlot r = s.inSlot r := inSlot_mapSlots ..

theorem held_purgeLeft (s : State) : s.purgeLeft.slots.held = s.slots.held := rfl

theorem port_purgeLeft (p : Port) (s : State) : s.purgeLeft.port p = s.port p := rfl

theorem underruns_purgeLeft (s : State) (n : Fin 8) :
    (s.purgeLeft.slots.lanes.get n).underruns = (s.slots.lanes.get n).underruns := by
  rw [purgeLeft, enter, mapSlots, Table.get_map]
  rfl

theorem undecided_purgeStarted_iff (s : State) (c : Fin 24) (y : Context) :
    s.purgeStarted.Undecided c y ↔ ∃ x, s.Undecided c x ∧ x.unmarked = y := by
  rw [Undecided, purgeStarted, context_mapContexts]
  constructor
  · rintro ⟨context, undecided⟩
    obtain ⟨x, was, rfl⟩ := Option.map_eq_some_iff.mp context
    exact ⟨x, ⟨was, undecided⟩, rfl⟩
  · rintro ⟨x, ⟨was, undecided⟩, rfl⟩
    exact ⟨Option.map_eq_some_iff.mpr ⟨x, was, rfl⟩, undecided⟩

theorem unmarked_purgeStarted {s : State} {c : Fin 24} {y : Context} (context : s.purgeStarted.context c = some y) :
    y.mark = false := by
  rw [purgeStarted, context_mapContexts] at context
  obtain ⟨x, -, rfl⟩ := Option.map_eq_some_iff.mp context
  rfl

/-- R82: what the pass does, seen from the state that the purge finds. -/
theorem spoils_purgeStarted (s : State) :
    Spoils (fun r => ∃ c x, s.Undecided c x ∧ x.bound = some r) s.purgeStarted s.purgeStarted.purgePass := by
  refine (purges_purgePass s.purgeStarted).spoils.mono ?_
  rintro r ⟨c, y, live, bound⟩
  obtain ⟨x, was, rfl⟩ := (undecided_purgeStarted_iff ..).mp live
  exact ⟨c, x, was, bound⟩

/-- R127: at a purge nothing is left on the ready list. -/
theorem engine_purgeEntered (s : State) : s.purgeEntered.engine = ⟨none, []⟩ := by
  have spoils := s.spoils_purgeStarted
  have idle : s.purgeStarted.engine = ⟨none, []⟩ := rfl
  have ready : s.purgeStarted.purgePass.engine.ready = [] := List.eq_nil_iff_forall_not_mem.mpr fun h member => by
    have was := spoils.ready h member
    rw [idle] at was
    cases was
  have operation : s.purgeStarted.purgePass.engine.operation = none := spoils.operation
  rw [purgeEntered, engine_purgeLeft, ← ready, ← operation]

theorem enterPurging_eq (s : State) : s.enterPurging = s.purgeEntered.weighReports := by
  have settled : s.enterPurging = s.purgeEntered.settle := rfl
  rw [settled, settle, weighEngine_of_empty (congrArg Engine.ready s.engine_purgeEntered)]

theorem controller_purgeEntered (s : State) : s.purgeEntered.controller = { s.controller with
    state := .purging, wake := .asleep, purgeAtWake := false, fromHalted := s.controller.state == .halted } := by
  have entered : ∀ t : State, t.purgeLeft.controller = { t.controller with state := .purging, wake := .asleep } :=
    fun _ => rfl
  rw [purgeEntered, entered, s.spoils_purgeStarted.controller]
  rfl

theorem keys_purgeEntered (s : State) : s.purgeEntered.keys = s.keys.purge :=
  (work_weighReports _).keys.symm.trans (s.enterPurging_eq ▸ s.keys_enterPurging)

theorem context_purgeEntered (s : State) (c : Fin 24) :
    s.purgeEntered.context c = (s.context c).map fun x => (x.unmarked.purged s.controller.time).unkeyed := by
  have started : s.purgeStarted.context c = (s.context c).map Context.unmarked := context_mapContexts ..
  have time : s.purgeStarted.controller.time = s.controller.time := rfl
  rw [purgeEntered, context_purgeLeft, context_purgePass, started, time, Option.map_map, Option.map_map]
  rfl

/-- R78: the marks and the keys change nothing of what the contexts join to the pending list. -/
theorem eachContext_purgeStarted (s : State) :
    s.purgeStarted.eachContext s.purgeStarted.joinsPurged = s.eachContext s.joinsPurged := by
  refine congrArg (List.flatMap · (List.finRange 24)) (funext fun c => ?_)
  have started : s.purgeStarted.context c = (s.context c).map Context.unmarked := context_mapContexts ..
  cases context : s.context c with
  | none => rw [joinedBy_of_free context, joinedBy_of_free (by rw [started, context]; rfl)]
  | some x =>
    rw [joinedBy_of_context context, joinedBy_of_context (x := x.unmarked) (by rw [started, context]; rfl)]
    rfl

theorem reports_purgeEntered (s : State) : s.purgeEntered.reports =
    { s.reports with waiting := s.reports.waiting ++ s.eachContext s.joinsPurged } := by
  have entered : ∀ t : State, t.purgeLeft.reports = t.reports := fun _ => rfl
  have started : s.purgeStarted.reports = s.reports := rfl
  rw [purgeEntered, entered, reports_purgePass fun _ _ => unmarked_purgeStarted, eachContext_purgeStarted, started]

/-- R82, R53, R134: a slot bound to one open context alone. -/
theorem outSlot_purgeEntered_bound {s : State} {c : Fin 24} {x : Context} {r : SlotRef} {h : Header} (live : s.Undecided c x)
    (bound : x.bound = some r) (alone : ∀ d y, s.context d = some y → y.bound = some r → d = c)
    (frame : (s.outSlot r).state.header = some h) :
    s.purgeEntered.outSlot r = { s.outSlot r with
      state := .spoiled h (some (s.notice .closedTransaction r (some c) (some x.identity) none)), mark := false } := by
  have spoiled := outSlot_purgePass_bound (s := s.purgeStarted) ((undecided_purgeStarted_iff ..).mpr ⟨x, live, rfl⟩) bound
    (fun d y context named => ?_) frame
  · rw [purgeEntered, outSlot_purgeLeft, spoiled]; rfl
  · rw [purgeStarted, context_mapContexts] at context
    obtain ⟨z, was, rfl⟩ := Option.map_eq_some_iff.mp context
    exact alone d z was named

/-- R134: of another slot only the mark goes, and a DRAINING one is FREE. -/
theorem outSlot_purgeEntered_unbound {s : State} {r : SlotRef} (unbound : ∀ c x, s.Undecided c x → x.bound ≠ some r) :
    s.purgeEntered.outSlot r = (s.outSlot r).dropResult := by
  have kept := s.spoils_purgeStarted.outSlot r fun ⟨c, x, live, bound⟩ => unbound c x live bound
  rw [purgeEntered, outSlot_purgeLeft, kept]
  rfl

theorem answered_purgeEntered {s : State} {c : Fin 24} {x : Context} {q : HeldRead} {o : Outstanding} (live : s.Undecided c x)
    (bound : x.bound = some q.slot) (frame : (s.outSlot q.slot).state.header ≠ none) (held : s.slots.held = some q)
    (access : s.ports.r.access = some o) :
    s.purgeEntered.slots.held = none
      ∧ s.purgeEntered.port .r = ⟨none, some (.done (some (o.access.size.extract fillPattern)))⟩ := by
  rw [purgeEntered, held_purgeLeft, port_purgeLeft]
  exact answered_purgePass (s := s.purgeStarted) ((undecided_purgeStarted_iff ..).mpr ⟨x, live, rfl⟩) bound frame held access

theorem unanswered_purgeEntered {s : State}
    (elsewhere : ∀ c x q, s.Undecided c x → s.slots.held = some q → x.bound ≠ some q.slot) :
    s.purgeEntered.slots.held = s.slots.held ∧ s.purgeEntered.port .r = s.port .r := by
  rw [purgeEntered, held_purgeLeft, port_purgeLeft]
  refine unanswered_purgePass (s := s.purgeStarted) fun c y q live held => ?_
  obtain ⟨x, was, rfl⟩ := (undecided_purgeStarted_iff ..).mp live
  exact elsewhere c x q was held

/-- R172: what the entry into PURGING leaves alone; the load is dropped. -/
structure PurgeLeaves (s t : State) : Prop where
  load : t.load = s.load.drop
  agent : t.agent = s.agent
  arbiter : t.arbiter = s.arbiter
  portC : t.port .c = s.port .c
  inSlot : ∀ r, t.inSlot r = s.inSlot r
  mark : ∀ r, (t.outSlot r).mark = false
  underruns : ∀ n, (t.slots.lanes.get n).underruns = (s.slots.lanes.get n).underruns
  control : t.control = s.control
  recent : t.contexts.recent = s.contexts.recent
  abandoned : t.contexts.abandoned = s.contexts.abandoned
  setup : t.setup = s.setup
  path : t.path = s.path
  mem : t.mem = s.mem

theorem purgeLeaves_purgeEntered (s : State) : PurgeLeaves s s.purgeEntered := by
  have spoils := s.spoils_purgeStarted
  obtain ⟨-, recent, abandoned, -⟩ := purges_purgePass s.purgeStarted
  unfold purgeEntered
  generalize s.purgeStarted.purgePass = t at spoils recent abandoned
  exact {
    load := spoils.load
    agent := spoils.agent
    arbiter := spoils.arbiter
    portC := spoils.portC
    inSlot := fun r => (inSlot_purgeLeft t r).trans (spoils.inSlot r)
    mark := fun r => by rw [outSlot_purgeLeft]; exact OutSlot.mark_dropResult _
    underruns := fun n => (underruns_purgeLeft t n).trans (spoils.underruns n)
    control := spoils.control
    recent := recent
    abandoned := abandoned
    setup := spoils.setup
    path := spoils.path
    mem := spoils.mem }

/-- R172: what the entry into PURGING leaves of a part. -/
theorem purgedFrom_enterPurging (s : State) : s.purgedFrom s.enterPurging := by
  have controller := s.controller_purgeEntered
  have keys := s.keys_purgeEntered
  have engine := s.engine_purgeEntered
  have contexts := s.context_purgeEntered
  have reports := s.reports_purgeEntered
  have writing : s.purgeEntered.reports.write = s.reports.write := by rw [reports]
  have leaves := s.purgeLeaves_purgeEntered
  have bound := fun c x r h => outSlot_purgeEntered_bound (s := s) (c := c) (x := x) (r := r) (h := h)
  have unbound := fun r => outSlot_purgeEntered_unbound (s := s) (r := r)
  have answered := fun c x q o => answered_purgeEntered (s := s) (c := c) (x := x) (q := q) (o := o)
  have unanswered := unanswered_purgeEntered (s := s)
  rw [enterPurging_eq]
  generalize s.purgeEntered = p at *
  obtain ⟨⟨jobs, write, form⟩, queues, keeps⟩ := p.weighReports_spec
  rw [form] at queues keeps ⊢
  unfold purgedFrom
  intro closes
  refine ⟨controller, congrArg Keys.eraseMark keys, by rw [keys]; rfl, fun k => ?entry, leaves.load, engine,
    fun c free => ?free, fun c x live => ?undecided, fun c x context decided => ?decided, congrArg Reports.waiting reports,
    by rw [reports], by rw [reports], by rw [reports],
    fun h rest record idle waiting space held => ?queued, fun why => ?unqueued,
    fun c x r h live named alone frame => bound c x r h live named alone frame,
    fun c x q o live named frame held access => answered c x q o live named frame held access,
    fun elsewhere => unanswered elsewhere, leaves.portC, ⟨by rw [leaves.agent], by rw [leaves.agent],
      leaves.arbiter⟩, leaves.inSlot,
    fun r h draining elsewhere => (unbound r elsewhere).trans (OutSlot.dropResult_draining draining),
    fun r other elsewhere => (unbound r elsewhere).trans (OutSlot.dropResult_other other),
    leaves.mark, leaves.underruns, leaves.control, leaves.recent, leaves.abandoned, leaves.setup, leaves.path, leaves.mem⟩
  case entry =>
    show p.keys.entries.get k = _
    rw [keys]; exact Table.get_fill ..
  case free =>
    show p.context c = none
    rw [contexts, free]; rfl
  case undecided =>
    show p.context c = _
    rw [contexts, live.1, Option.map_some, Context.unkeyed_purged_undecided live.2]
  case decided =>
    show p.context c = _
    rw [contexts, context, Option.map_some, Context.unkeyed_purged_decided decided]
  case queued =>
    have queued := queues h rest record (writing.trans idle) waiting space held
    rw [leaves.agent] at queued
    exact queued
  case unqueued =>
    have same := keeps (writing ▸ why)
    exact ⟨(congrArg (fun t : State => t.reports.write) same).trans writing,
      (congrArg (fun t : State => t.agent.jobs) same).trans (congrArg Agent.jobs leaves.agent)⟩

end State

end Sys2Proof.Machine
end

section
/-! PROOF of WakeEndClassifiesHeldAccesses: no access that is classified waits for a wake, and when an awake part sleeps again. -/

namespace Sys2Proof.Machine

namespace State

/-! ## Operations that leave no access waiting for a wake -/

/-- R169: from `s` to `t` no access begins to wait for a wake. -/
structure NoNewWake (s t : State) : Prop where
  waited : ∀ p x, (t.port p).access = some x → x.phase = .wake → (s.port p).access = some x

theorem NoNewWake.refl (s : State) : s.NoNewWake s := ⟨fun _ _ access _ => access⟩

theorem NoNewWake.trans {s t u : State} (h : s.NoNewWake t) (g : t.NoNewWake u) : s.NoNewWake u :=
  ⟨fun p x access phase => h.waited p x (g.waited p x access phase) phase⟩

theorem port_congr {s t : State} (same : t.ports = s.ports) (p : Port) : t.port p = s.port p := by
  cases p <;> simp only [port, same]

theorem NoNewWake.of_ports {s t : State} (same : t.ports = s.ports) : s.NoNewWake t :=
  ⟨fun p _ access _ => port_congr same p ▸ access⟩

/-- An access that a port is given, and that does not wait for a wake. -/
theorem noNewWake_setPort {p : Port} {y : PortState} (quiet : ∀ x, y.access = some x → x.phase ≠ .wake) (s : State) :
    s.NoNewWake (s.setPort p y) := by
  refine ⟨fun q x access phase => ?_⟩
  by_cases here : q = p
  · subst here
    rw [port_setPort_self] at access
    exact absurd phase (quiet x access)
  · rwa [port_setPort_ne here] at access

/-- A port that is left without an access. -/
theorem noNewWake_freed {p : Port} {y : PortState} (freed : y.access = none) (s : State) : s.NoNewWake (s.setPort p y) :=
  noNewWake_setPort (fun _ access => nomatch freed.symm.trans access) s

theorem noNewWake_respond (p : Port) (r : Response) (s : State) : s.NoNewWake (s.respond p r) := noNewWake_freed rfl s

theorem noNewWake_supply (p : Port) (size : Size) (w : Word) (s : State) : s.NoNewWake (s.supply p size w) :=
  noNewWake_respond ..

theorem noNewWake_refuse (p : Port) (kind : RefusalKind) (address : BitVec 22) (s : State) :
    s.NoNewWake (s.refuse p kind address) :=
  NoNewWake.trans (t := s.recordRefusal p kind address) (.of_ports rfl) (noNewWake_respond ..)

/-- R16: an access that waits for memory or for a code is not one that waits for a wake. -/
theorem noNewWake_hold {o : Outstanding} {phase : Phase} (is : o.phase = phase) (other : phase ≠ .wake) (p : Port) (s : State) :
    s.NoNewWake (s.hold p o) :=
  noNewWake_setPort (fun x access => by cases access; rw [is]; exact other) s

theorem noNewWake_answerHeld (r : SlotRef) (w : Word) (s : State) : s.NoNewWake (s.answerHeld r w) := by
  unfold answerHeld
  split
  · split
    · exact NoNewWake.trans (t := s.setHeld none) (.of_ports rfl) (noNewWake_supply ..)
    · exact .refl s
  · exact .refl s

theorem noNewWake_spoil (r : SlotRef) (report : Report) (s : State) : s.NoNewWake (s.spoil r report) := by
  unfold spoil
  split
  · exact .refl s
  · exact (noNewWake_answerHeld ..).trans (.of_ports rfl)

theorem noNewWake_dropJobs (p : Job → Bool) (s : State) : s.NoNewWake (s.dropJobs p) := by
  obtain ⟨agent, arbiter, eq, -⟩ := dropJobs_form p s
  rw [eq]; exact .of_ports rfl

theorem noNewWake_underrun (r : SlotRef) (s : State) : s.NoNewWake (s.underrun r) := by
  have counted : s.NoNewWake (s.countUnderrun r) := .of_ports rfl
  have unbound : ∀ c (t : State), t.NoNewWake (t.modifyContext c Context.dropBinding) := fun _ _ => .of_ports rfl
  unfold underrun
  split
  · exact (counted.trans (noNewWake_dropJobs ..)).trans (noNewWake_spoil ..)
  · exact (counted.trans (noNewWake_dropJobs ..)).trans (noNewWake_spoil ..)
  · exact (counted.trans (unbound ..)).trans (noNewWake_spoil ..)
  · exact (counted.trans (unbound ..)).trans (noNewWake_spoil ..)
  · exact .refl s

theorem noNewWake_close (code : PassageCode) (c : Fin 24) (s : State) : s.NoNewWake (s.close code c) := by
  unfold close
  split
  · exact .refl s
  · next x _ =>
    split
    · have spoiled : s.NoNewWake (match x.bound with
          | some r => s.spoil r (s.boundNotice .closedTransaction r c)
          | none => s) := by
        split
        · exact noNewWake_spoil ..
        · exact .refl s
      exact spoiled.trans (.of_ports (slots_ports_of_reported x.mark c _).2)
    · exact .refl s

theorem noNewWake_restartContext (n : Fin 8) (c : Fin 24) (s : State) : s.NoNewWake (s.restartContext n c) := by
  by_cases home : ∃ x, s.HomeIn n c x
  · obtain ⟨x, home⟩ := home
    rw [restartContext_home home]
    exact NoNewWake.trans (t := s.setContext c (some (x.leaveLane n))) (.of_ports rfl) (noNewWake_close ..)
  · rw [restartContext_other (not_exists.mp home)]
    exact .of_ports rfl

theorem noNewWake_restartLane (n : Fin 8) (s : State) : s.NoNewWake (s.restartLane n) := by
  have answered : s.NoNewWake (s.answerHeldInLane n) := by
    unfold answerHeldInLane; split
    · split
      · exact noNewWake_answerHeld ..
      · exact .refl s
    · exact .refl s
  have released : ∀ t : State, t.NoNewWake ((t.releaseLane n).dropCodes n) := fun _ => .of_ports rfl
  have dropped : ∀ t : State, t.NoNewWake ((t.dropJobs (Job.fetchesLane n)).dropLaneReports n) := fun t =>
    (noNewWake_dropJobs ..).trans (.of_ports rfl)
  refine Table.ascending_keeps (P := fun t => s.NoNewWake t) (fun c t kept => kept.trans (noNewWake_restartContext n c t)) _ ?_
  exact (answered.trans (released _)).trans (dropped _)

/-! ## Classification -/

theorem noNewWake_rouse (s : State) : s.NoNewWake s.rouse := .of_ports (ports_rouse s)

theorem noNewWake_passThrough (p : Port) (a : Access) (track : Option SlotWord) (s : State) :
    s.NoNewWake (s.passThrough p a track) := by
  unfold passThrough
  split
  · split <;> exact noNewWake_refuse ..
  · exact noNewWake_hold rfl (by nofun) ..

theorem noNewWake_readCode (r : SlotRef) (high : Bool) (a : Access) (s : State) : s.NoNewWake (s.readCode r high a) := by
  have supplied : ∀ w, s.NoNewWake (s.supply .r a.size w) := fun _ => noNewWake_supply ..
  have sent : ∀ t : State, t.NoNewWake (t.send r) := fun t => by
    unfold send; split
    · exact .of_ports rfl
    · exact .refl t
  have held : s.NoNewWake (s.holdRead r high a) := by
    unfold holdRead; dsimp only; split
    · exact (supplied _).trans (noNewWake_underrun ..)
    · refine NoNewWake.trans (.of_ports ?_) (noNewWake_hold rfl (by nofun) ..)
      rfl
  unfold readCode
  split
  · dsimp only; split
    · exact (supplied _).trans (sent _)
    · exact supplied _
  · exact held
  · exact held
  · exact held
  · exact held
  · exact supplied _
  · exact supplied _
  · exact supplied _
  · exact supplied _

theorem noNewWake_command (code : BitVec 8) (operand : BitVec 24) (s : State) : s.NoNewWake (s.command code operand) := by
  have carried : ∀ c, s.NoNewWake (s.carryOut c code operand) := fun c => by
    cases c with
    | laneRestart =>
      have reported : ∀ t : State, t.NoNewWake (t.result code .done 0) := fun _ => .of_ports rfl
      exact (noNewWake_restartLane (Fin.ofNat 8 operand.toNat) s).trans (reported _)
    | setup | rest | releaseReports | clearAttention => exact .of_ports rfl
  have declined : ∀ o, s.NoNewWake (s.result code o 0) := fun _ => .of_ports rfl
  unfold command
  split
  · exact carried _
  · exact (carried _).trans (noNewWake_rouse _)
  · exact (declined _).trans (noNewWake_rouse _)
  · exact .refl s

theorem ports_takeLoadWord (i : Fin 16) (v : Word) (s : State) : (s.takeLoadWord i v).ports = s.ports := by
  unfold takeLoadWord
  split
  · split <;> rfl
  · split
    · rfl
    · split <;> rfl
  · rfl

theorem noNewWake_blockAccess (a : Access) (s : State) : s.NoNewWake (s.blockAccess a) := by
  have commanded : s.NoNewWake (s.commandWrite a) := by
    unfold commandWrite; split
    · exact (noNewWake_respond ..).trans (noNewWake_command ..)
    · exact noNewWake_refuse ..
  have loaded : ∀ i, s.NoNewWake (s.loadWindow i a) := fun i => by
    unfold loadWindow; split
    · exact noNewWake_refuse ..
    · have taken : s.NoNewWake (s.takeLoadWord i a.data) := .of_ports (ports_takeLoadWord ..)
      exact (taken.trans (noNewWake_respond ..)).trans (noNewWake_rouse _)
  unfold blockAccess
  dsimp only
  split
  · split
    · exact noNewWake_passThrough ..
    · exact commanded
    · exact noNewWake_refuse ..
    · exact loaded _
    · exact noNewWake_refuse ..
    · exact noNewWake_refuse ..
  · split
    · exact noNewWake_supply ..
    · exact noNewWake_passThrough ..

theorem noNewWake_ringAccess (p : Port) (a : Access) (t : SlotWord) (s : State) : s.NoNewWake (s.ringAccess p a t) := by
  have judged : s.NoNewWake (if a.size = .word then s.passThrough p a (some t) else s.refuse p .partialWrite a.address) := by
    split
    · exact noNewWake_passThrough ..
    · exact noNewWake_refuse ..
  unfold ringAccess
  split
  · exact noNewWake_refuse ..
  · exact judged
  · exact noNewWake_passThrough ..
  · exact noNewWake_refuse ..
  · exact judged
  · exact noNewWake_passThrough ..
  · split
    · exact noNewWake_readCode ..
    · exact noNewWake_passThrough ..

/-- R15: an access that is classified does not wait for a wake, and the other port's does not begin to. -/
theorem noNewWake_classify (p : Port) (a : Access) (s : State) : s.NoNewWake (s.classify p a) := by
  unfold classify
  split
  · split
    · exact noNewWake_blockAccess ..
    · exact noNewWake_refuse ..
  · split
    · exact noNewWake_ringAccess ..
    · exact noNewWake_passThrough ..

/-! ## The held accesses -/

/-- R169: an access that is held for a wake is classified on its port. -/
theorem classifyHeld_of_held {s : State} {p : Port} {a : Access} {since : Bool}
    (held : (s.port p).access = some ⟨a, .wake, since⟩) :
    s.classifyHeld p = (s.setPort p { s.port p with access := none }).classify p a := by
  rw [classifyHeld, held]

theorem classifyHeld_of_other {s : State} {p : Port} (other : ∀ x, (s.port p).access = some x → x.phase ≠ .wake) :
    s.classifyHeld p = s := by
  unfold classifyHeld
  split
  · next held => exact absurd rfl (other _ held)
  · rfl

/-- R169: after its port's turn no access is held there, and none begins to be held elsewhere. -/
theorem noneHeld_classifyHeld (p : Port) (s : State) :
    s.NoNewWake (s.classifyHeld p) ∧ ∀ x, ((s.classifyHeld p).port p).access = some x → x.phase ≠ .wake := by
  by_cases held : ∃ a since, (s.port p).access = some ⟨a, .wake, since⟩
  · obtain ⟨a, since, held⟩ := held
    have classified := noNewWake_classify p a (s.setPort p { s.port p with access := none })
    rw [classifyHeld_of_held held]
    refine ⟨(noNewWake_freed rfl s).trans classified, fun x access phase => ?_⟩
    have was := classified.waited p x access phase
    rw [port_setPort_self] at was
    cases was
  · have other : ∀ x, (s.port p).access = some x → x.phase ≠ .wake := by
      rintro ⟨a, _, since⟩ access rfl
      exact held ⟨a, since, access⟩
    rw [classifyHeld_of_other other]
    exact ⟨.refl s, other⟩

theorem classifyAllHeld_eq (o : Order) (s : State) :
    s.classifyAllHeld o = (s.classifyHeld (Order.first o)).classifyHeld (Order.second o) := by
  cases o <;> rfl

theorem noneHeld_classifyAllHeld (o : Order) (s : State) : (s.classifyAllHeld o).noneHeld := by
  obtain ⟨-, first⟩ := s.noneHeld_classifyHeld (Order.first o)
  obtain ⟨later, second⟩ := (s.classifyHeld (Order.first o)).noneHeld_classifyHeld (Order.second o)
  rw [classifyAllHeld_eq]
  intro p x access
  rcases Order.eq_first_or_second o p with rfl | rfl
  · exact fun phase => first x (later.waited _ x access phase) phase
  · exact second x access

theorem classifyAllHeld_of_noneHeld {s : State} (none : s.noneHeld) (o : Order) : s.classifyAllHeld o = s := by
  rw [classifyAllHeld_eq, classifyHeld_of_other (none _), classifyHeld_of_other (none _)]

/-! ## Sleeping again -/

theorem busySinceWake_iff (x : PortState) : x.busySinceWake = true ↔ ∃ o, x.access = some o ∧ o.sinceWake = true := by
  unfold PortState.busySinceWake
  cases x.access <;> simp

/-- R169: no watched access since the wake is unanswered. -/
theorem relax_of_idle {s : State} (dormant : s.controller.state = .dormant) (awake : s.controller.wake = .awake)
    (idle : ∀ p x, (s.port p).access = some x → x.sinceWake = false) : s.relax = s.setWake .asleep := by
  have quiet : ∀ p, (s.port p).busySinceWake = false := fun p => Bool.eq_false_iff.mpr fun busy => by
    obtain ⟨x, access, since⟩ := (busySinceWake_iff _).mp busy
    rw [idle p x access] at since
    cases since
  rw [relax, if_pos ⟨dormant, awake, quiet .c, quiet .r⟩]

theorem relax_of_busy {s : State} {p : Port} {x : Outstanding} (access : (s.port p).access = some x)
    (since : x.sinceWake = true) : s.relax = s := by
  have busy : (s.port p).busySinceWake = true := (busySinceWake_iff _).mpr ⟨x, access, since⟩
  refine if_neg ?_
  rintro ⟨-, -, c, r⟩
  cases p with
  | c => exact absurd (busy.symm.trans c) nofun
  | r => exact absurd (busy.symm.trans r) nofun

theorem relax_of_not_awake {s : State} (other : s.controller.wake ≠ .awake) : s.relax = s :=
  if_neg fun ⟨_, awake, _⟩ => other awake

/-! ## The end of the wake -/

theorem wakeEnd_purging {s : State} (purge : s.controller.purgeAtWake = true) (o : Order) :
    s.wakeEnd o = ((s.enterPurging.classifyAllHeld o).relax).settle := if_pos purge

theorem wakeEnd_waking {s : State} (none : s.controller.purgeAtWake = false) (waking : s.controller.wake = .waking)
    (o : Order) : s.wakeEnd o = ((s.awaken.classifyAllHeld o).relax).settle := by
  rw [wakeEnd, none, if_pos waking]; rfl

end State

/-- Settles O48: the purge that waits, the held accesses port by port, and the return to sleep. -/
theorem wakeEndClassifiesHeldAccesses : Obligations.WakeEndClassifiesHeldAccesses := by
  unfold Obligations.WakeEndClassifiesHeldAccesses
  intro s o
  refine ⟨fun none waking => congrArg Host.Outcome.next (State.wakeEnd_waking none waking o),
    fun purge => ⟨s.enterPurging, s.purgedFrom_enterPurging, congrArg Host.Outcome.next (State.wakeEnd_purging purge o)⟩,
    rfl, rfl, fun p a since => State.classifyHeld_of_held, fun p => State.classifyHeld_of_other,
    fun none => State.classifyAllHeld_of_noneHeld none o, s.noneHeld_classifyAllHeld o, State.relax_of_idle, ?_⟩
  rintro (other | other | ⟨p, x, access, since⟩)
  · exact State.relax_of_not_dormant other
  · exact State.relax_of_not_awake other
  · exact State.relax_of_busy access since

end Sys2Proof.Machine
end

section
/-! PROOF of PurgeEmptiesTheKeyTable: the assertion of PURGE by the power, the part state and the wake. -/

namespace Sys2Proof.Machine

namespace State

/-- Log 20, R172: without power, and in PURGING, only the line changes. -/
theorem purgeAssert_line {s : State} (released : s.controller.lines.purge = false)
    (idle : s.controller.power = .off ∨ s.controller.power = .on ∧ s.controller.state = .purging) :
    s.purgeAssert = s.setPurge true := by
  have power : (s.setPurge true).controller.power = s.controller.power := rfl
  have state : (s.setPurge true).controller.state = s.controller.state := rfl
  rw [purgeAssert, released]
  rcases idle with off | ⟨on, purging⟩
  · simp only [power, off, Bool.false_eq_true, if_false]
  · simp only [power, on, state, purging, Bool.false_eq_true, if_false]

/-- R165: while RESET is asserted the erase mark is written. -/
theorem purgeAssert_inReset {s : State} (released : s.controller.lines.purge = false)
    (reset : s.controller.power = .inReset) :
    s.purgeAssert = { s.setPurge true with keys := { s.keys with eraseMark := true } } := by
  have power : (s.setPurge true).controller.power = .inReset := reset
  simp only [purgeAssert, released, power, Bool.false_eq_true, if_false]
  rfl

/-- R172: in every other state the purge takes effect, or waits. -/
theorem purgeAssert_on {s : State} (released : s.controller.lines.purge = false) (on : s.controller.power = .on)
    (other : s.controller.state ≠ .purging) : s.purgeAssert = (s.setPurge true).purgeNow := by
  have power : (s.setPurge true).controller.power = .on := on
  have state : (s.setPurge true).controller.state ≠ .purging := other
  simp only [purgeAssert, released, power, Bool.false_eq_true, if_false]
  split
  · next purging => exact absurd purging state
  all_goals rfl

theorem purgeNow_waits {s : State} (holds : s.controller.holdsAccesses = true) : s.purgeNow = s.purgeAfterWake := if_pos holds

theorem purgeNow_enters {s : State} (hears : s.controller.holdsAccesses = false) : s.purgeNow = s.enterPurging :=
  if_neg (Bool.eq_false_iff.mp hears)

end State

/-- Settles O51, by the power, the part state and the wake. -/
theorem purgeEmptiesTheKeyTable : Obligations.PurgeEmptiesTheKeyTable := by
  unfold Obligations.PurgeEmptiesTheKeyTable
  intro s released lined marked waiting before
  have asserts : ∀ t, s.purgeAssert = t → exec .purgeAssert s = .next t := fun t eq => congrArg Host.Outcome.next eq
  refine ⟨fun idle => asserts _ (State.purgeAssert_line released idle),
    fun reset => asserts _ (State.purgeAssert_inReset released reset), fun on other waking => asserts _ ?waking,
    fun on dormant asleep => asserts _ ?asleep, fun on other notWaking awake => ⟨_, asserts _ ?enters,
      State.purgedFrom_enterPurging _⟩⟩
  case waking =>
    have holds : (s.setPurge true).controller.holdsAccesses = true := Controller.holdsAccesses_of_waking waking
    rw [State.purgeAssert_on released on other, State.purgeNow_waits holds, State.purgeAfterWake,
      State.startWake_waking (s := s.setPurge true) waking]
    have stays : { lined with wake := s.controller.wake, purgeAtWake := true } = waiting := by rw [waking]
    rw [← stays]
    rfl
  case asleep =>
    have other : s.controller.state ≠ .purging := by rw [dormant]; decide
    have holds : (s.setPurge true).controller.holdsAccesses = true := Controller.holdsAccesses_of_asleep dormant asleep
    have notWaking : s.controller.wake ≠ .waking := by rw [asleep]; decide
    rw [State.purgeAssert_on released on other, State.purgeNow_waits holds, State.purgeAfterWake,
      State.startWake_begins (s := s.setPurge true) notWaking]
    rfl
  case enters =>
    have hears : (s.setPurge true).controller.holdsAccesses = false :=
      (Controller.holdsAccesses_false_iff _).mpr ⟨awake, notWaking⟩
    rw [State.purgeAssert_on released on other, State.purgeNow_enters hears]
    rfl

end Sys2Proof.Machine
end

section
/-! PROOF of PowerWarningHaltsThePart: when the assertion of PWARN takes effect. -/

namespace Sys2Proof.Machine

theorem PartState.warned_iff (p : PartState) : p.warned = true ↔ p ≠ .halted ∧ p ≠ .purging := by
  cases p <;> decide

namespace State

/-- R170: the power warning takes effect, then the accesses held for a wake are classified. -/
theorem pwarnAssert_warns {s : State} (released : s.controller.lines.pwarn = false) (on : s.controller.power = .on)
    (warned : s.controller.state.warned = true) (o : Order) :
    s.pwarnAssert o = ((s.setPwarn true).powerWarning).classifyAllHeld o := by
  have takes : (s.setPwarn true).controller.power = .on ∧ (s.setPwarn true).controller.state.warned = true := ⟨on, warned⟩
  rw [pwarnAssert, released]
  exact if_pos takes

theorem pwarnAssert_line {s : State} (released : s.controller.lines.pwarn = false)
    (idle : ¬ (s.controller.power = .on ∧ s.controller.state.warned = true)) (o : Order) :
    s.pwarnAssert o = s.setPwarn true := by
  have stays : ¬ ((s.setPwarn true).controller.power = .on ∧ (s.setPwarn true).controller.state.warned = true) := idle
  rw [pwarnAssert, released]
  exact if_neg stays

end State

/-- Settles O49, by whether the warning takes effect. -/
theorem powerWarningHaltsThePart : Obligations.PowerWarningHaltsThePart := by
  unfold Obligations.PowerWarningHaltsThePart
  intro s o released
  refine ⟨fun idle => congrArg Host.Outcome.next (State.pwarnAssert_line released ?_ o), fun on halted purging => ?_⟩
  · rintro ⟨on, warned⟩
    obtain ⟨notHalted, notPurging⟩ := (PartState.warned_iff _).mp warned
    rcases idle with halted | purging | off
    · exact notHalted halted
    · exact notPurging purging
    · exact off on
  · have warned := (PartState.warned_iff _).mpr ⟨halted, purging⟩
    exact ⟨_, congrArg Host.Outcome.next (State.pwarnAssert_warns released on warned o), State.haltedFrom_powerWarning _⟩

end Sys2Proof.Machine
end

section
/-! PROOF of ResetAndPowerLossKeepRetainedStore: what the retained store keeps, what is volatile, and what becomes of the word and
of the access that occupy the memory port. -/

namespace Sys2Proof.Machine

/-! ## The retained store -/

/-- R103: what the store keeps of an entry. -/
theorem KeyEntry.retained_eq (e : KeyEntry) : e.retained =
    { e with references := 0, state := if e.state = .empty ∨ e.state = .revoked then e.state else .waiting } := by
  by_cases fixed : e.state = .empty ∨ e.state = .revoked
  · rw [retained_of_fixed fixed, if_pos fixed]
  · rw [retained_of_ages fixed, if_neg fixed]

namespace Keys

theorem cutShort_whole {k : Keys} {cut : Bool} (whole : cut = false ∨ k.lastWrite = none) : k.cutShort cut = k := by
  unfold cutShort
  split
  · next w written =>
    rcases whole with uncut | none
    · cases uncut
    · rw [none] at written; cases written
  · rfl

/-- R105: a record whose effect was being written has changed nothing. -/
theorem cutShort_cut {k : Keys} {w : RetainedWrite} (written : k.lastWrite = some w) :
    k.cutShort true =
      { k with entries := k.entries.set w.index w.before, highestSerial := w.serialBefore, lastWrite := none } := by
  simp only [cutShort, written]

theorem eraseMark_losePower (cut : Bool) (k : Keys) : (k.losePower cut).eraseMark = k.eraseMark := by
  show (k.cutShort cut).eraseMark = k.eraseMark
  unfold cutShort; split <;> rfl

theorem highestSerial_losePower (cut : Bool) (k : Keys) : (k.losePower cut).highestSerial = (k.cutShort cut).highestSerial := rfl

theorem entry_losePower (cut : Bool) (k : Keys) (i : Fin 48) :
    (k.losePower cut).entries.get i = ((k.cutShort cut).entries.get i).retained := Table.get_map ..

end Keys

namespace State

/-! ## The ports -/

/-- R165: at RESET an access goes on as one that is not watched. -/
theorem port_unwatchPorts (p : Port) (s : State) : s.unwatchPorts.port p = (s.port p).unwatch := by cases p <;> rfl

/-- R165, R28: a word of the agent in flight belongs to no job any more. -/
theorem dead_of_abandoned {x : Option InFlight} {w : AgentAccess} (busy : x.map InFlight.abandon = some (.agent w)) :
    w.live = false := by
  obtain ⟨y, -, abandoned⟩ := Option.map_eq_some_iff.mp busy
  cases y <;> cases abandoned
  rfl

/-- R165, R28: the end of such a word. -/
theorem agentWordComplete_dead {s : State} {w : AgentAccess} (busy : s.arbiter = some (.agent w)) (dead : w.live = false) :
    s.agentWordComplete = { s with
      arbiter := none
      mem := match w.write with
        | some data => s.mem.store w.word .word data
        | none => s.mem } := by
  cases write : w.write with
  | none => rw [agentWordComplete_discards busy dead write]
  | some data => rw [agentWordComplete_lands busy dead write]

/-! ## The end of an access in flight -/

/-- The part is not DORMANT, and neither the engine nor the report writer has anything to weigh. -/
structure AtRest (s : State) : Prop where
  state : s.controller.state ≠ .dormant
  ready : s.engine.ready = []
  waiting : s.reports.waiting = []

theorem AtRest.relax_settle {s : State} (rest : s.AtRest) : (s.relax).settle = s := by
  rw [relax_of_not_dormant rest.state, settle_of_idle rest.ready rest.waiting]

theorem AtRest.setPort {s : State} (rest : s.AtRest) (p : Port) (x : PortState) : (s.setPort p x).AtRest := by
  cases p <;> exact ⟨rest.state, rest.ready, rest.waiting⟩

/-- R17: an access that is not tracked ends as a plain one. -/
theorem wordAccessComplete_plain {s : State} {p : Port} {a : Access} {since : Bool} (rest : s.AtRest)
    (busy : s.arbiter = some (.port p)) (access : (s.port p).access = some ⟨a, .inFlight none, since⟩) :
    (a.write = true → s.wordAccessComplete =
        ({ s with arbiter := none, mem := s.mem.store a.word a.size a.data } : State).setPort p ⟨none, some (.done none)⟩)
      ∧ (a.write = false → s.wordAccessComplete =
        ({ s with arbiter := none } : State).setPort p
          ⟨none, some (.done (some (a.size.extract (s.mem.readWord a.word))))⟩) := by
  have freed : ∀ mem, AtRest { s with arbiter := none, mem := mem } := fun _ => ⟨rest.state, rest.ready, rest.waiting⟩
  have plain : ∀ t : State, t.applyTracked a none = t := fun _ => rfl
  rw [wordAccessComplete_port busy access]
  refine ⟨fun write => ?_, fun read => ?_⟩
  · rw [completeAccess_write write, plain, ((freed _).setPort p _).relax_settle]
  · rw [completeAccess_read read]
    exact ((freed s.mem).setPort p _).relax_settle

/-! ## RESET and loss of power -/

/-- R165: the state that an assertion of RESET leaves. -/
def resetBy (cut : Bool) (s : State) : State :=
  (s.loseVolatile (s.controller.stopped .inReset) (s.keys.losePower cut)).unwatchPorts

/-- R136: the state that a loss of power leaves. -/
def darkenedBy (cut : Bool) (s : State) : State :=
  (s.loseVolatile (s.controller.stopped .off) (s.keys.losePower cut)).loseMemory

theorem resetAssert_on {s : State} (on : s.controller.power = .on) (cut : Bool) : s.resetAssert cut = s.resetBy cut := if_pos on

theorem resetAssert_stopped {s : State} (stopped : s.controller.power ≠ .on) (cut : Bool) : s.resetAssert cut = s :=
  if_neg stopped

theorem powerLoss_powered {s : State} (powered : s.controller.power ≠ .off) (cut : Bool) :
    s.powerLoss cut = s.darkenedBy cut := if_neg powered

theorem powerLoss_off {s : State} (off : s.controller.power = .off) (cut : Bool) : s.powerLoss cut = s := if_pos off

theorem atRest_resetBy (cut : Bool) (s : State) : (s.resetBy cut).AtRest := ⟨nofun, rfl, rfl⟩

theorem port_resetBy (cut : Bool) (p : Port) (s : State) : (s.resetBy cut).port p = (s.port p).unwatch := by
  rw [resetBy, port_unwatchPorts]
  cases p <;> rfl

/-- R165: an access in flight goes on unwatched, any other waits at the arbiter. -/
theorem unwatch_eq (x : PortState) : x.unwatch =
    ⟨x.access.map fun o => Outstanding.mk o.access
      (match o.phase with
        | .inFlight _ => .inFlight none
        | .wake | .waiting _ | .codeHeld => .waiting none) false, x.response⟩ := by
  refine congrArg (PortState.mk · x.response) (congrArg (Option.map · x.access) (funext fun o => ?_))
  cases o.phase <;> rfl

end State

/-- Settles O53: the retained store, then what RESET and what a loss of power leaves. -/
theorem resetAndPowerLossKeepRetainedStore : Obligations.ResetAndPowerLossKeepRetainedStore := by
  unfold Obligations.ResetAndPowerLossKeepRetainedStore
  refine ⟨KeyEntry.retained_eq, ?_⟩
  intro s cut kept unwatched stopped
  have keeps : ∀ t : State, t.keys = s.keys.losePower cut → kept t := by
    intro t keys
    refine ⟨by rw [keys, Keys.eraseMark_losePower], fun whole => ?_, fun w isCut written => ?_⟩
    · simp only [keys, Keys.highestSerial_losePower, Keys.entry_losePower, Keys.cutShort_whole whole, true_and, implies_true]
    · subst isCut
      simp only [keys, Keys.highestSerial_losePower, Keys.entry_losePower, Keys.cutShort_cut written, Table.get_set, true_and,
        implies_true]
  refine ⟨fun off => congrArg Host.Outcome.next (State.resetAssert_stopped off cut), fun on => ?reset,
    fun off => congrArg Host.Outcome.next (State.powerLoss_off off cut), fun powered => ?loss⟩
  case reset =>
    refine ⟨s.resetBy cut, congrArg Host.Outcome.next (State.resetAssert_on on cut), keeps _ rfl, rfl, rfl, rfl,
      State.holdsResetValues_loseVolatile (s.controller.stopped .inReset) (s.keys.losePower cut) s, rfl, rfl, ⟨rfl, rfl, rfl⟩,
      fun p => ?port, fun w busy => ?agent, fun p a busy access => ?access⟩
    case port => exact (State.port_resetBy cut p s).trans (State.unwatch_eq (s.port p))
    case agent => exact congrArg Host.Outcome.next (State.agentWordComplete_dead busy (State.dead_of_abandoned busy))
    case access =>
      obtain ⟨writes, reads⟩ := State.wordAccessComplete_plain (s.atRest_resetBy cut) busy access
      exact ⟨fun write => congrArg Host.Outcome.next (writes write), fun read => congrArg Host.Outcome.next (reads read)⟩
  case loss =>
    exact ⟨s.darkenedBy cut, congrArg Host.Outcome.next (State.powerLoss_powered powered cut), keeps _ rfl, rfl,
      State.holdsResetValues_loseVolatile (s.controller.stopped .off) (s.keys.losePower cut) s, rfl, rfl,
      fun p => by cases p <;> rfl, rfl, Memory.wf_ofCells _⟩

end Sys2Proof.Machine
end

section
/-! PROOF of StartUpReadsTheRetainedStore: start-up loses what is volatile, takes the keys from the retained store, then serves
the lines as they stand. -/

namespace Sys2Proof.Machine

/-! ## The key table -/

/-- R104: what start-up makes of an entry. -/
theorem KeyEntry.startUp_of_revoked {e : KeyEntry} (revoked : e.state = .revoked) : e.startUp = KeyEntry.empty :=
  if_pos revoked

theorem KeyEntry.startUp_of_not_revoked {e : KeyEntry} (other : e.state ≠ .revoked) : e.startUp = e.retained := if_neg other

/-- R88, R92: a power warning changes no entry of a part that has just started. -/
theorem Keys.settle_startUp (k : Keys) (i : Fin 48) :
    ({ k.startUp.entries.get i with references := 0 } : KeyEntry).settle = k.startUp.entries.get i := by
  obtain ⟨-, -, -, -, resting, unheld⟩ := k.startUp_spec
  have same : ({ k.startUp.entries.get i with references := 0 } : KeyEntry) = k.startUp.entries.get i := by
    rw [← unheld i]
  rw [same]
  refine if_neg ?_
  rintro ⟨expired | revoked, -⟩ <;> rcases resting i with rest | rest
  · cases rest.symm.trans expired
  · cases rest.symm.trans expired
  · cases rest.symm.trans revoked
  · cases rest.symm.trans revoked

namespace State

/-! ## MREST at both ports -/

theorem mem_arbiter_restPorts {s : State} (idle : ∀ p x judged, (s.port p).access = some x → x.phase ≠ .inFlight judged)
    (o : Order) : (s.restPorts o).mem = s.mem ∧ (s.restPorts o).arbiter = s.arbiter := by
  obtain ⟨mem, arbiter⟩ := restPort_unflown (idle (Order.first o))
  obtain ⟨mem', arbiter'⟩ := restPort_unflown (s := s.restPort (Order.first o)) (p := Order.second o)
    (port_restPort_ne (Order.second_ne_first o) s ▸ idle (Order.second o))
  rw [restPorts_eq]
  exact ⟨mem'.trans mem, arbiter'.trans arbiter⟩

theorem arbiter_restPort_flown {s : State} {p : Port} {x : Outstanding} {judged : Option Judged}
    (access : (s.port p).access = some x) (phase : x.phase = .inFlight judged) : (s.restPort p).arbiter = none := by
  obtain ⟨a, _, since⟩ := x
  subst phase
  obtain ⟨mem, fresh, failed⟩ := failInFlight_form a s
  simp only [restPort, access, failed]
  exact arbiter_refuse ..

/-- R30: a word that fails in flight frees the memory port, whichever port is served first. -/
theorem arbiter_restPorts_flown {s : State} {p : Port} {x : Outstanding} {judged : Option Judged}
    (access : (s.port p).access = some x) (phase : x.phase = .inFlight judged) (o : Order) :
    (s.restPorts o).arbiter = none := by
  rw [restPorts_eq]
  rcases Order.eq_first_or_second o p with rfl | rfl
  · rcases arbiter_restPort (Order.second o) (s.restPort (Order.first o)) with none | same
    · exact none
    · exact same.trans (arbiter_restPort_flown access phase)
  · exact arbiter_restPort_flown ((port_restPort_ne (Order.second_ne_first o) s).symm ▸ access) phase

theorem spoilsBytes_restPorts (o : Order) (s : State) :
    SpoilsBytes (fun b => ∃ p, (s.port p).writes b) s (s.restPorts o) := by
  have second := spoilsBytes_restPort (Order.second o) (s.restPort (Order.first o))
  rw [port_restPort_ne (Order.second_ne_first o)] at second
  rw [restPorts_eq]
  exact ((spoilsBytes_restPort (Order.first o) s).mono fun _ writes => ⟨_, writes⟩).trans
    (second.mono fun _ writes => ⟨_, writes⟩)

/-! ## The lines as they stand -/

/-- R165: the part at start-up with its volatile items and its keys, before it looks at its lines. -/
def started (straps : BitVec 6) (s : State) : State :=
  s.loseVolatile (Controller.reset straps s.controller.lines) s.keys.startUp

/-- R165, log 28: MREST as it stands. -/
def restAsStands (o : Order) (s : State) : State := if s.controller.lines.mrest then s.restPorts o else s

/-- R165, log 28: the refusal that MREST, as it stands, gives on a port. -/
def standingRefusal (s : State) (p : Port) : Option Refused :=
  if s.controller.lines.mrest then s.restRefusal p else none

theorem startUp_of_stopped {s : State} (stopped : s.controller.power ≠ .on) (straps : BitVec 6) (purgeFirst : Bool) (o : Order) :
    s.startUp straps purgeFirst o = ((s.started straps).restAsStands o).sampleLines purgeFirst := if_neg stopped

theorem restAsStands_asserted {s : State} (asserted : s.controller.lines.mrest = true) (o : Order) :
    s.restAsStands o = s.restPorts o := if_pos asserted

theorem restAsStands_released {s : State} (released : s.controller.lines.mrest = false) (o : Order) :
    s.restAsStands o = s := if_neg (by rw [released]; decide)

theorem standingRefusal_asserted {s : State} (asserted : s.controller.lines.mrest = true) (p : Port) :
    s.standingRefusal p = s.restRefusal p := if_pos asserted

theorem standingRefusal_released {s : State} (released : s.controller.lines.mrest = false) (p : Port) :
    s.standingRefusal p = none := if_neg (by rw [released]; decide)

theorem restAsStands_form (o : Order) (s : State) :
    ∃ ports path raised arbiter mem fresh, s.restAsStands o = { s with
      ports := ports, path := path, control := { s.control with raised := raised }, arbiter := arbiter, mem := mem, fresh := fresh } := by
  cases line : s.controller.lines.mrest with
  | true => rw [restAsStands_asserted line]; exact restPorts_form o s
  | false => rw [restAsStands_released line]; exact ⟨s.ports, s.path, s.control.raised, s.arbiter, s.mem, s.fresh, rfl⟩

theorem port_restAsStands (o : Order) (p : Port) (s : State) :
    (s.restAsStands o).port p = (s.port p).refused (s.standingRefusal p) := by
  cases line : s.controller.lines.mrest with
  | true => rw [restAsStands_asserted line, standingRefusal_asserted line, port_restPorts]
  | false => rw [restAsStands_released line, standingRefusal_released line]; rfl

/-- R23: the path record and the causes after the two refusals there may be. -/
theorem path_control_restAsStands (o : Order) (s : State) :
    (s.restAsStands o).path = (s.path.refused (Order.first o) (s.standingRefusal (Order.first o))).refused (Order.second o)
        (s.standingRefusal (Order.second o))
      ∧ (s.restAsStands o).control = (s.control.refused (s.standingRefusal (Order.first o))).refused
        (s.standingRefusal (Order.second o)) := by
  cases line : s.controller.lines.mrest with
  | true => simp only [restAsStands_asserted line, standingRefusal_asserted line, path_restPorts, control_restPorts, and_self]
  | false => simp only [restAsStands_released line, standingRefusal_released line]; exact ⟨rfl, rfl⟩

theorem standingRefusal_stays {s : State} {p : Port} (stays : s.controller.lines.mrest = false
      ∨ ∀ x, (s.port p).access = some x → x.phase = .wake ∨ x.phase = .codeHeld) : s.standingRefusal p = none := by
  rcases stays with released | stays
  · exact standingRefusal_released released p
  · unfold standingRefusal; split
    · exact restRefusal_stays stays
    · rfl

/-- R35, R30: in UNSET no slot refuses, so what MREST meets is refused as memory at rest. -/
theorem standingRefusal_unset {s : State} {p : Port} {x : Outstanding} (unset : s.controller.state = .unset)
    (asserted : s.controller.lines.mrest = true) (access : (s.port p).access = some x)
    (phase : (∃ track, x.phase = .waiting track) ∨ ∃ judged, x.phase = .inFlight judged) :
    s.standingRefusal p = some (.memoryResting, x.access.address) := by
  rw [standingRefusal_asserted asserted]
  rcases phase with ⟨track, waiting⟩ | ⟨judged, flying⟩
  · rw [restRefusal_waiting access waiting, judgeTracked_unset unset]; rfl
  · exact restRefusal_inFlight access flying

theorem mem_arbiter_restAsStands {s : State} (untouched : s.controller.lines.mrest = false
      ∨ ∀ p x judged, (s.port p).access = some x → x.phase ≠ .inFlight judged) (o : Order) :
    (s.restAsStands o).mem = s.mem ∧ (s.restAsStands o).arbiter = s.arbiter := by
  rcases untouched with released | idle
  · rw [restAsStands_released released]; exact ⟨rfl, rfl⟩
  · unfold restAsStands; split
    · exact mem_arbiter_restPorts idle o
    · exact ⟨rfl, rfl⟩

/-! ## The records of the refusals -/

theorem record_of_both_stay {s : State} (c : s.standingRefusal .c = none) (r : s.standingRefusal .r = none) (o : Order) :
    (s.restAsStands o).path = s.path ∧ (s.restAsStands o).control = s.control := by
  obtain ⟨path, control⟩ := path_control_restAsStands o s
  rw [path, control]
  cases o <;> simp only [Order.first, Order.second, c, r] <;> exact ⟨rfl, rfl⟩

theorem record_of_one_refused {s : State} {p q : Port} {kind : RefusalKind} {address : BitVec 22} (other : q ≠ p)
    (stays : s.standingRefusal q = none) (refused : s.standingRefusal p = some (kind, address)) (o : Order) :
    (s.restAsStands o).path = ⟨s.path.count + 1, some p, some kind, address⟩
      ∧ (s.restAsStands o).control = { s.control with raised := s.control.raised ||| 8 } := by
  obtain ⟨path, control⟩ := path_control_restAsStands o s
  rw [path, control]
  rcases Order.eq_first_or_second o p with rfl | rfl
  · rw [← (Order.eq_first_or_second o q).resolve_left other, stays, refused]; exact ⟨rfl, rfl⟩
  · rw [← (Order.eq_first_or_second o q).resolve_right other, stays, refused]; exact ⟨rfl, rfl⟩

/-- R23, log 11: of two refusals the record holds the one that the order serves second. -/
theorem record_of_both_refused {s : State} {kind : RefusalKind} {address address' : BitVec 22}
    (c : s.standingRefusal .c = some (kind, address)) (r : s.standingRefusal .r = some (kind, address')) (o : Order) :
    (s.restAsStands o).path = ⟨s.path.count + 2, some (if o = .cFirst then .r else .c), some kind,
        if o = .cFirst then address' else address⟩
      ∧ (s.restAsStands o).control = { s.control with raised := s.control.raised ||| 8 } := by
  obtain ⟨path, control⟩ := path_control_restAsStands o s
  rw [path, control]
  cases o <;> exact ⟨by rw [Order.first, Order.second, c, r, Path.refused_refused]; rfl,
      by rw [Order.first, Order.second, c, r, Control.refused_refused]⟩

theorem port_started (straps : BitVec 6) (p : Port) (s : State) : (s.started straps).port p = s.port p := by cases p <;> rfl

/-- R165: what start-up leaves, in terms of the part before it looks at PWARN and PURGE. -/
theorem startUp_form {s : State} (stopped : s.controller.power ≠ .on) (straps : BitVec 6) (purgeFirst : Bool) (o : Order) :
    ∃ keys arbiter,
    let lines := s.controller.lines
    let v := (s.started straps).restAsStands o
    let warned := lines.pwarn = true ∧ (lines.purge = false ∨ purgeFirst = false)
    s.startUp straps purgeFirst o = { v with
      controller := { Controller.reset straps lines with
        state := if lines.purge then .purging else if lines.pwarn then .halted else .unset
        fromHalted := lines.purge && lines.pwarn && !purgeFirst }
      keys := keys, arbiter := arbiter }
    ∧ v.holdsResetValues
    ∧ (¬ warned → arbiter = v.arbiter) ∧ (warned → arbiter = v.arbiter.map InFlight.abandon)
    ∧ keys.highestSerial = s.keys.highestSerial ∧ keys.eraseMark = lines.purge
    ∧ (lines.purge = true → ∀ k, keys.entries.get k = KeyEntry.empty)
    ∧ (lines.purge = false → ∀ k, keys.entries.get k = s.keys.startUp.entries.get k) := by
  have resets : ((s.started straps).restAsStands o).holdsResetValues ∧
      ((s.started straps).restAsStands o).controller = Controller.reset straps s.controller.lines ∧
      ((s.started straps).restAsStands o).keys = s.keys.startUp := by
    obtain ⟨ports, path, raised, arbiter, mem, fresh, form⟩ := restAsStands_form o (s.started straps)
    rw [form]
    exact ⟨holdsResetValues_loseVolatile (Controller.reset straps s.controller.lines) s.keys.startUp s, rfl, rfl⟩
  rw [startUp_of_stopped stopped]
  generalize (s.started straps).restAsStands o = v at resets ⊢
  obtain ⟨holds, controller, keysBefore⟩ := resets
  obtain ⟨serial, mark, -⟩ := s.keys.startUp_spec
  obtain ⟨keys, arbiter, form, calm, warned, serial', purge, noPurge⟩ := sampleLines_started holds
    (by rw [controller]; rfl) (by rw [controller]; rfl) (by rw [controller]; rfl) (by rw [controller]; rfl) purgeFirst
  have lines : v.controller.lines = s.controller.lines := by rw [controller]; rfl
  rw [lines] at calm warned purge noPurge
  rw [lines, controller] at form
  rw [keysBefore] at serial' noPurge
  refine ⟨keys, arbiter, form, holds, calm, warned, serial'.trans serial, ?mark, fun line => (purge line).2, fun line k => ?entry⟩
  case mark =>
    cases line : s.controller.lines.purge with
    | true => exact (purge line).1
    | false => exact (noPurge line).1.trans mark
  case entry =>
    rcases (noPurge line).2 with same | settled
    · rw [same]
    · rw [settled, Table.get_map, Keys.settle_startUp]

end State

/-- Settles O54: the lines as they stand at start-up, over `State.startUp_form`. -/
theorem startUpReadsTheRetainedStore : Obligations.StartUpReadsTheRetainedStore := by
  unfold Obligations.StartUpReadsTheRetainedStore
  intro s straps purgeFirst o lines flying written refused stays warned
  refine ⟨fun on => congrArg Host.Outcome.next (if_pos on), fun stopped => ?_⟩
  have stays_none : ∀ p, stays p → (s.started straps).standingRefusal p = none := fun p stay =>
    State.standingRefusal_stays (stay.imp id fun phase x access => phase x (State.port_started straps p s ▸ access))
  have refused_some : ∀ p address, refused p address →
      (s.started straps).standingRefusal p = some (.memoryResting, address) := by
    rintro p address ⟨asserted, x, access, rfl, phase⟩
    exact State.standingRefusal_unset rfl asserted (State.port_started straps p s ▸ access) phase
  obtain ⟨serial, mark, marked, unmarked, -⟩ := s.keys.startUp_spec
  obtain ⟨keys, arbiter, form, holds, calm, dropped, serial', mark', purged, kept⟩ :=
    State.startUp_form stopped straps purgeFirst o
  refine ⟨s.startUp straps purgeFirst o, rfl, ?_⟩
  rw [form]
  refine ⟨rfl, holds, serial', mark', fun erased k => ?erased, fun line unerased k => ?entry, fun p stay => ?port,
    fun p address refusal => ?error, fun c r => ?none, fun p q address other stay refusal => ?one,
    fun address address' c r => ?both, fun idle => ?idle, fun asserted flown => ?flown⟩
  case erased =>
    cases line : s.controller.lines.purge with
    | true => exact purged line k
    | false =>
      refine (kept line k).trans (marked (erased.resolve_left fun asserted => ?_) k)
      cases line.symm.trans asserted
  case entry =>
    have entry : keys.entries.get k = (s.keys.entries.get k).startUp := (kept line k).trans (unmarked unerased k)
    refine ⟨fun empty => ?_, fun revoked => entry.trans (KeyEntry.startUp_of_revoked revoked), fun filled live => ?_⟩
    · refine (congrArg KeyEntry.state entry).trans ?_
      rw [KeyEntry.startUp_of_not_revoked (by rw [empty]; decide), KeyEntry.retained_of_fixed (.inl empty), empty]
    · refine entry.trans ?_
      rw [KeyEntry.startUp_of_not_revoked live, KeyEntry.retained_of_ages (by rintro (empty | revoked) <;> contradiction)]
  case port =>
    exact (State.port_restAsStands o p (s.started straps)).trans (by rw [stays_none p stay, State.port_started]; rfl)
  case error =>
    exact (State.port_restAsStands o p (s.started straps)).trans (by rw [refused_some p address refusal]; rfl)
  case none =>
    obtain ⟨path, control⟩ := State.record_of_both_stay (stays_none .c c) (stays_none .r r) o
    exact ⟨path, congrArg Control.raised control⟩
  case one =>
    obtain ⟨path, control⟩ := State.record_of_one_refused other (stays_none q stay) (refused_some p address refusal) o
    exact ⟨path, (congrArg Control.raised control).trans BitVec.zero_or⟩
  case both =>
    obtain ⟨path, control⟩ := State.record_of_both_refused (refused_some .c address c) (refused_some .r address' r) o
    exact ⟨path, (congrArg Control.raised control).trans BitVec.zero_or⟩
  case idle =>
    have untouched : ((s.started straps).restAsStands o).mem = s.mem ∧ ((s.started straps).restAsStands o).arbiter = s.arbiter :=
      State.mem_arbiter_restAsStands (s := s.started straps) (idle.imp id fun unflown p x judged access phase =>
        unflown p x ⟨State.port_started straps p s ▸ access, judged, phase⟩) o
    refine ⟨untouched.1, fun unwarned => (calm unwarned).trans untouched.2, fun warning => (dropped warning).trans ?_⟩
    rw [untouched.2]
    rfl
  case flown =>
    obtain ⟨p, x, access, judged, phase⟩ := flown
    have rests : (s.started straps).restAsStands o = (s.started straps).restPorts o :=
      State.restAsStands_asserted (s := s.started straps) asserted o
    have free : ((s.started straps).restAsStands o).arbiter = none := by
      rw [rests]
      exact State.arbiter_restPorts_flown (State.port_started straps p s ▸ access) phase o
    refine ⟨?_, fun canonical b unwritten => ?_⟩
    · by_cases warning : warned
      · exact (dropped warning).trans (by rw [free]; rfl)
      · exact (calm warning).trans free
    · refine (congrArg (Memory.read · b) (congrArg State.mem rests)).trans
        ((State.spoilsBytes_restPorts o (s.started straps) canonical).2 b ?_)
      rintro ⟨q, y, judged, access, phase, write, low, high⟩
      exact unwritten ⟨q, y, ⟨State.port_started straps q s ▸ access, judged, phase⟩, write, low, high⟩

end Sys2Proof.Machine
end

section
/-! PROOF of StepRunsFrontCommand and EveryCommandAnswersNext: no operation reads or writes the model's queue, one equation per
operation that is more than work of the slot tracker, the context table, the engine and the report writer. -/

namespace Sys2Proof.Machine

namespace State

/-! ## Operations that every event shares -/

@[simp] theorem pending_settle (s : State) : s.settle.pending = s.pending := (work_settle s).pending

@[simp] theorem pending_relax (s : State) : s.relax.pending = s.pending := by
  unfold relax; split <;> rfl

/-! ## Accesses -/

@[simp] theorem pending_passThrough (p : Port) (a : Access) (track : Option SlotWord) (s : State) :
    (s.passThrough p a track).pending = s.pending := by
  unfold passThrough
  split
  · split <;> exact pending_refuse ..
  · exact pending_hold ..

@[simp] theorem pending_carryOut (c : Command) (code : BitVec 8) (operand : BitVec 24) (s : State) :
    (s.carryOut c code operand).pending = s.pending := by
  cases c with
  | laneRestart => exact (pending_result ..).trans (work_restartLane ..).pending
  | setup | rest | releaseReports | clearAttention => rfl

@[simp] theorem pending_command (code : BitVec 8) (operand : BitVec 24) (s : State) :
    (s.command code operand).pending = s.pending := by
  unfold command
  split
  · exact pending_carryOut ..
  · exact (pending_rouse _).trans (pending_carryOut ..)
  · exact (pending_rouse _).trans (pending_result ..)
  · rfl

@[simp] theorem pending_commandWrite (a : Access) (s : State) : (s.commandWrite a).pending = s.pending := by
  unfold commandWrite
  split
  · exact (pending_command ..).trans (pending_respond ..)
  · exact pending_refuse ..

@[simp] theorem pending_loadWindow (i : Fin 16) (a : Access) (s : State) : (s.loadWindow i a).pending = s.pending := by
  unfold loadWindow
  split
  · exact pending_refuse ..
  · exact (pending_rouse _).trans ((work_takeLoadWord ..).trans (work_respond ..)).pending

@[simp] theorem pending_blockAccess (a : Access) (s : State) : (s.blockAccess a).pending = s.pending := by
  unfold blockAccess
  dsimp only
  split
  · split <;> simp
  · split <;> simp

@[simp] theorem pending_ringAccess (p : Port) (a : Access) (t : SlotWord) (s : State) :
    (s.ringAccess p a t).pending = s.pending := by
  have judged : (if a.size = .word then s.passThrough p a (some t) else s.refuse p .partialWrite a.address).pending
      = s.pending := by
    split <;> simp
  unfold ringAccess
  split
  case h_2 | h_5 => exact judged
  case h_7 =>
    split
    · exact (work_readCode ..).pending
    · exact pending_passThrough ..
  all_goals simp

@[simp] theorem pending_classify (p : Port) (a : Access) (s : State) : (s.classify p a).pending = s.pending := by
  unfold classify
  split
  · cases p <;> simp
  · split <;> simp

theorem pending_arrive (p : Port) (a : Access) (s : State) : (s.arrive p a).pending = s.pending := by
  unfold arrive
  split
  · rfl
  · cases s.controller.power with
    | off => rfl
    | inReset => exact pending_hold ..
    | on => dsimp only; split <;> simp

@[simp] theorem pending_classifyHeld (p : Port) (s : State) : (s.classifyHeld p).pending = s.pending := by
  unfold classifyHeld; split <;> simp

@[simp] theorem pending_classifyAllHeld (order : Order) (s : State) : (s.classifyAllHeld order).pending = s.pending := by
  cases order <;> exact (pending_classifyHeld ..).trans (pending_classifyHeld ..)

/-! ## The memory port -/

@[simp] theorem pending_grantPort (p : Port) (a : Access) (track : Option SlotWord) (s : State) :
    (s.grantPort p a track).pending = s.pending := by
  unfold grantPort; split <;> simp

@[simp] theorem pending_grant (s : State) : s.grant.pending = s.pending := by
  unfold grant
  split
  · rfl
  · split <;> simp

@[simp] theorem pending_applyTracked (a : Access) (judged : Option Judged) (s : State) :
    (s.applyTracked a judged).pending = s.pending := by
  unfold applyTracked
  split
  · rfl
  · split
    · split
      · next effect => exact (pending_rouse _).trans (work_writeSlot effect).pending
      · rfl
    · rfl

@[simp] theorem pending_completeAccess (p : Port) (a : Access) (judged : Option Judged) (s : State) :
    (s.completeAccess p a judged).pending = s.pending := by
  unfold completeAccess; split <;> simp

theorem pending_wordAccessComplete (s : State) : s.wordAccessComplete.pending = s.pending := by
  unfold wordAccessComplete
  split
  · split <;> simp
  · rfl

@[simp] theorem pending_restPorts (order : Order) (s : State) : (s.restPorts order).pending = s.pending := by
  obtain ⟨ports, path, raised, arbiter, mem, fresh, form⟩ := restPorts_form order s
  rw [form]

@[simp] theorem pending_retryPort (p : Port) (s : State) : (s.retryPort p).pending = s.pending := by
  obtain ⟨ports, arbiter, mem, fresh, form⟩ := retryPort_form p s
  rw [form]

@[simp] theorem pending_failAgentWord (s : State) : s.failAgentWord.pending = s.pending := by
  obtain ⟨mem, fresh, form⟩ := failAgentWord_form s
  rw [form]

@[simp] theorem pending_rewindJob (s : State) : s.rewindJob.pending = s.pending := by
  obtain ⟨agent, form⟩ := rewindJob_form s
  rw [form]

theorem pending_mrestAssert (order : Order) (s : State) : (s.mrestAssert order).pending = s.pending := by
  unfold mrestAssert
  split
  · rfl
  · dsimp only; split <;> simp

/-! ## The memory agent -/

theorem pending_agentJobStart (s : State) : s.agentJobStart.pending = s.pending := by
  unfold agentJobStart
  split
  · split
    · exact ((work_setAgent ..).trans (work_beginFetch ..)).pending
    · rfl
  · rfl

@[simp] theorem pending_setClock (t : Word) (s : State) : (s.setClock t).pending = s.pending := by
  unfold setClock evaluateKeys; split <;> rfl

@[simp] theorem pending_setClockFrom (image : List Word) (s : State) : (s.setClockFrom image).pending = s.pending := by
  unfold setClockFrom; split <;> simp

@[simp] theorem pending_applySetup (image : List Word) (s : State) : (s.applySetup image).pending = s.pending := by
  have enforced : ∀ x (t : State), ((t.enforce x).trimRecent).pending = t.pending := fun _ _ => rfl
  calc (s.applySetup image).pending
      = (((s.releaseSlotsForSetup).enforce (Setup.ofImage image)).trimRecent).pending :=
        (pending_endSetup ..).trans (pending_setClockFrom ..)
    _ = s.releaseSlotsForSetup.pending := enforced ..
    _ = s.pending := (work_releaseSlotsForSetup s).pending

@[simp] theorem pending_takeSetup (image : List Word) (s : State) : (s.takeSetup image).pending = s.pending := by
  unfold takeSetup
  split
  · split <;> simp
  · exact pending_endSetup ..

@[simp] theorem pending_written (s : State) : s.written.pending = s.pending := by
  unfold written
  split
  · exact (track_releaseHolder ..).pending
  · rfl

@[simp] theorem pending_endJob (j : Job) (buffer : List Word) (s : State) : (s.endJob j buffer).pending = s.pending := by
  cases j with
  | fetchFrame ring r => exact (track_takeFrame ..).pending
  | fetchSetup => exact pending_takeSetup ..
  | writeReport => exact pending_written s

@[simp] theorem pending_advanceJob (data : Option Word) (s : State) : (s.advanceJob data).pending = s.pending := by
  unfold advanceJob
  split
  · dsimp only; split <;> simp
  · rfl

theorem pending_agentWordComplete (s : State) : s.agentWordComplete.pending = s.pending := by
  unfold agentWordComplete
  split
  · split
    · split <;> simp
    · split <;> simp
  · rfl

/-! ## The engine and the load unit -/

theorem pending_codeComplete (s : State) : s.codeComplete.pending = s.pending := by
  unfold codeComplete; split
  · exact (pending_settle _).trans ((work_setOperation ..).trans (work_finishCode ..)).pending
  · rfl

theorem pending_deriveComplete (s : State) : s.deriveComplete.pending = s.pending := by
  unfold deriveComplete; split
  · exact (pending_settle _).trans ((work_endOperation ..).trans (work_finishDerive ..)).pending
  · rfl

theorem pending_verifyComplete (s : State) : s.verifyComplete.pending = s.pending := by
  unfold verifyComplete; split
  · exact (pending_settle _).trans ((work_endOperation ..).trans (work_finishVerify ..)).pending
  · rfl

@[simp] theorem pending_applyRecord (d : LoadRecord) (key : Key) (o : LoadOutcome × Option (Fin 48)) (s : State) :
    (s.applyRecord d key o).pending = s.pending := by
  unfold applyRecord
  split
  · split
    · rfl
    · exact (work_closeHolders ..).pending
  · rfl

theorem pending_unwrapComplete (s : State) : s.unwrapComplete.pending = s.pending := by
  have ended : ∀ d o (t : State), (t.endLoad d o).pending = t.pending := fun _ _ _ => rfl
  unfold unwrapComplete openRecord; split
  · exact (pending_settle _).trans (((ended ..).trans (pending_applyRecord ..)).trans (work_endOperation ..).pending)
  · rfl

/-! ## Time -/

theorem pending_recentEntryExpiry (s : State) : s.recentEntryExpiry.pending = s.pending := by
  unfold recentEntryExpiry
  split
  · rfl
  · split <;> rfl

theorem pending_secondsClockRise (s : State) : s.secondsClockRise.pending = s.pending := by
  unfold secondsClockRise
  split
  · rfl
  · split <;> simp

/-! ## Lines and power -/

@[simp] theorem pending_powerWarning (s : State) : s.powerWarning.pending = s.pending := by
  obtain ⟨held, port, form, -⟩ := s.powerWarning_eq
  rw [form]

@[simp] theorem pending_enterPurging (s : State) : s.enterPurging.pending = s.pending := by
  unfold enterPurging
  rw [pending_settle, pending_enter, pending_mapSlots, (work_purgeContexts _).pending]
  simp

theorem pending_wakeEnd (order : Order) (s : State) : (s.wakeEnd order).pending = s.pending := by
  have awake : s.awaken.pending = s.pending := rfl
  unfold wakeEnd
  split
  · simp
  · split <;> simp [awake]

theorem pending_pwarnAssert (order : Order) (s : State) : (s.pwarnAssert order).pending = s.pending := by
  unfold pwarnAssert
  split
  · rfl
  · dsimp only; split <;> simp

theorem pending_pwarnRelease (s : State) : s.pwarnRelease.pending = s.pending := by
  unfold pwarnRelease
  split
  · dsimp only; split <;> rfl
  · rfl

@[simp] theorem pending_purgeNow (s : State) : s.purgeNow.pending = s.pending := by
  unfold purgeNow; split <;> simp

theorem pending_purgeAssert (s : State) : s.purgeAssert.pending = s.pending := by
  unfold purgeAssert
  split
  · rfl
  · dsimp only
    split
    · rfl
    · rfl
    · split <;> simp

theorem pending_eraseCompletion (s : State) : s.eraseCompletion.pending = s.pending := by
  unfold eraseCompletion completeErase
  split
  · split
    · exact pending_powerWarning _
    · split <;> rfl
  · rfl

theorem pending_resetAssert (cut : Bool) (s : State) : (s.resetAssert cut).pending = s.pending := by
  unfold resetAssert; split <;> rfl

theorem pending_powerLoss (cut : Bool) (s : State) : (s.powerLoss cut).pending = s.pending := by
  unfold powerLoss; split <;> rfl

@[simp] theorem pending_sampleLines (purgeFirst : Bool) (s : State) : (s.sampleLines purgeFirst).pending = s.pending := by
  unfold sampleLines
  dsimp only
  split
  · split <;> simp
  · split
    · exact pending_powerWarning s
    · split <;> simp

theorem pending_startUp (straps : BitVec 6) (purgeFirst : Bool) (order : Order) (s : State) :
    (s.startUp straps purgeFirst order).pending = s.pending := by
  have lost : ∀ c k, (s.loseVolatile c k).pending = s.pending := fun _ _ => rfl
  unfold startUp
  split
  · rfl
  · dsimp only; split <;> simp [lost]

end State

/-! ## Every command -/

/-- Each arm of `exec` is the next state of a function on the state. -/
theorem exec_answers_next (i : Instr) (s : State) : ∃ t, exec i s = .next t := by
  cases i <;> exact ⟨_, rfl⟩

theorem exec_pending {i : Instr} {s t : State} (next : exec i s = .next t) : t.pending = s.pending := by
  cases i with
  | memoryAccess | controlBlockWrite | codeWordRead | loadWindowWrite | setup | rest | laneRestart | releaseReports
  | clearAttention | unknownCommand => cases next; exact State.pending_arrive ..
  | arbiterGrant => cases next; exact (State.pending_relax _).trans (State.pending_grant s)
  | wordAccessComplete => cases next; exact State.pending_wordAccessComplete s
  | holdLimitExpiry => cases next; exact (State.work_holdLimitExpiry s).pending
  | agentJobStart => cases next; exact State.pending_agentJobStart s
  | agentWordComplete => cases next; exact State.pending_agentWordComplete s
  | engineStart => cases next; exact (State.work_weighEngine s).pending
  | codeComplete => cases next; exact State.pending_codeComplete s
  | deriveComplete => cases next; exact State.pending_deriveComplete s
  | verifyComplete => cases next; exact State.pending_verifyComplete s
  | unwrapComplete => cases next; exact State.pending_unwrapComplete s
  | deadlineExpiry => cases next; exact (State.work_deadlineExpiry ..).pending
  | recentEntryExpiry => cases next; exact State.pending_recentEntryExpiry s
  | secondsClockRise => cases next; exact State.pending_secondsClockRise s
  | wakeEnd => cases next; exact State.pending_wakeEnd ..
  | mrestAssert => cases next; exact State.pending_mrestAssert ..
  | mrestRelease => cases next; exact State.pending_setMrest ..
  | pwarnAssert => cases next; exact State.pending_pwarnAssert ..
  | pwarnRelease => cases next; exact State.pending_pwarnRelease s
  | purgeAssert => cases next; exact State.pending_purgeAssert s
  | purgeRelease => cases next; exact State.pending_setPurge ..
  | eraseCompletion => cases next; exact State.pending_eraseCompletion s
  | resetAssert => cases next; exact State.pending_resetAssert ..
  | startUp => cases next; exact State.pending_startUp ..
  | powerLoss => cases next; exact State.pending_powerLoss ..

/-- Settles O3: every arm answers a next state, and a next state has the queue it was given. -/
theorem everyCommandAnswersNext : Obligations.EveryCommandAnswersNext := by
  unfold Obligations.EveryCommandAnswersNext
  intro i s
  obtain ⟨t, next⟩ := exec_answers_next i s
  exact ⟨t, next, exec_pending next⟩

/-- Settles O1, by the queue's front. -/
theorem stepRunsFrontCommand : Obligations.StepRunsFrontCommand := by
  unfold Obligations.StepRunsFrontCommand
  intro s c rest front
  unfold step
  rw [front]

end Sys2Proof.Machine
end
